-- ==== Sys2Proof/Word.lean ====
section
/-! DEFINITION. The word types of the I2C master controller block (spec/00_scope.md R6, R7). -/

namespace Sys2Proof

/-- A data byte: 8 bits (R6). -/
abbrev Byte := BitVec 8

/-- A byte address of buffer space: 16 bits (R7, R72). -/
abbrev Addr16 := BitVec 16

/-- A command word: 64 bits (R7, R100). -/
abbrev CmdWord := BitVec 64

end Sys2Proof
end

