-- ==== Sys2Proof/Config.lean ====
section
/-! DEFINITION. What an implementation fixes (spec/00_scope.md R8, R9, R10) and the free values: what
the environment supplies under no law (R11, spec/40_line_engine.md R160) and what a register holds
before anything has written it (spec/10_state.md R63). -/

namespace Sys2Proof

/-- The three named parameters of the block, as plain data (log entry 4), and the one order the spec gives twice
(log entry 24). -/
structure Config where
  /-- `READ_NACK` (R8): `readRegister` runs a not-acknowledge sequence before its `stop`. -/
  readNack : Bool
  /-- `TIMEOUT` (R9): only `none` is specified; any other value is refused. -/
  timeout : Option Nat
  /-- `BufValid` (R10) as data: the admitted addresses, a list of (first address, number of bytes).
  Every set of buffer addresses is the union of such a list. -/
  bufValid : List (Nat × Nat)
  /-- DESIGN CHOICE (log entry 24), the model's own: when `readBytes` stores a received byte. spec/20_memory.md R84
  puts the store between the reception and what follows it (`some false`), the loop of
  spec/44_burst_transfer.md R253 after the whole read transaction (`some true`). The two rules disagree and
  spec/90_conflicts.md does not name them, so the order is open (`none`): `Config.freeStoreAfterStop` decides, and
  every claim holds for both places. -/
  storeAfterStop : Option Bool
  deriving DecidableEq, Repr

/-- The spec's defaults: `READ_NACK = false` (R8), `TIMEOUT = none` (R9), every buffer address
admitted (DESIGN CHOICE, log entry 4: R10 fixes nothing of `BufValid`), and the place where `readBytes`
stores left open between R84 and R253 (log entry 24). -/
def Config.default : Config :=
  { readNack := false, timeout := none, bufValid := [(0, 65536)], storeAfterStop := none }

/-- FREE VALUE (log entry 2): does the environment hold SDA low at a tick that `inputs` says nothing
about? Nothing constrains it (R11, R160). -/
opaque Config.envSdaLow : Nat → Bool

/-- FREE VALUE (log entry 2): does the environment hold SCL low at a tick that `inputs` says nothing
about? Nothing constrains it (R11, R160). -/
opaque Config.envSclLow : Nat → Bool

/-- FREE VALUE (log entry 24): does an implementation whose order is open store a byte of `readBytes` after the STOP
(spec/44_burst_transfer.md R253) or before what follows the reception (spec/20_memory.md R84)? Nothing
constrains it. -/
opaque Config.freeStoreAfterStop : Bool

/-- FREE VALUE (log entry 7): a bit that is read before anything has written it (R63, R266). -/
opaque Config.freeBit : Nat → Bool

/-- FREE VALUE (log entries 7 and 11): a byte that is read before anything has written it (R63), or that is
transferred in a race of the host with a running burst (R85, R327, 93 U9). -/
opaque Config.freeByte : Nat → BitVec 8

end Sys2Proof
end

