-- ==== Sys2Proof/Machine/Operands.lean ====
section
/-! DEFINITION. Operand assembly: every operand form of spec/30_encoding.md R110 to R116 and the field
arithmetic of spec/43_register_accessor.md R228. -/

namespace Sys2Proof.Machine

/-- The address byte `AddrByte(dev, rw)`: the 7-bit device address in bits 7:1 and the direction in
bit 0, 0 = write, 1 = read (R77, R113). -/
def addrByte (dev : BitVec 7) (rw : Bool) : BitVec 8 := dev ++ BitVec.ofBool rw

/-- The low byte of a register address, the only part that reaches the wire (R111, R222). -/
def reg8 (reg : BitVec 16) : BitVec 8 := reg.extractLsb' 0 8

/-- `(reg +_16 1)[7:0]`: the register byte of the second half of a wide write (R227). -/
def regNext8 (reg : BitVec 16) : BitVec 8 := reg8 (reg + 1#16)

/-- `DATA16[15:8]` (R112). -/
def highByte (d : BitVec 16) : BitVec 8 := d.extractLsb' 8 8

/-- `DATA16[7:0]` (R112). -/
def lowByte (d : BitVec 16) : BitVec 8 := d.extractLsb' 0 8

/-- The read-direction control byte, `CTRL | 0x01` (R114, R256). -/
def ctrlRead (ctrl : BitVec 8) : BitVec 8 := ctrl ||| 0x01#8

/-- `shift = bitStart - length + 1`, the field's least significant bit (R115). -/
def fieldShift (bitStart length : Nat) : Nat := bitStart + 1 - length

/-- `mask = ((1 << length) - 1) <<_8 shift` (R115). -/
def fieldMask (bitStart length : Nat) : BitVec 8 :=
  BitVec.ofNat 8 (2 ^ length - 1) <<< fieldShift bitStart length

/-- `Insert(old, value)` (R228): bits of `value` at or above `length` are dropped by the mask. -/
def insertField (bitStart length : Nat) (old value : BitVec 8) : BitVec 8 :=
  (old &&& ~~~ fieldMask bitStart length) |||
    ((value <<< fieldShift bitStart length) &&& fieldMask bitStart length)

/-- `Extract(byte)` (R228). -/
def extractField (bitStart length : Nat) (byte : BitVec 8) : BitVec 8 :=
  (byte &&& fieldMask bitStart length) >>> fieldShift bitStart length

/-- R114, R256: bit 0 of a control byte belongs to the block and must be clear. -/
def ctrlOk (ctrl : BitVec 8) : Bool := ctrl.getLsbD 0 == false

/-- R115: `1 <= length <= bitStart + 1`. -/
def fieldOk (bitStart : BitVec 3) (length : BitVec 4) : Bool :=
  decide (1 ≤ length.toNat) && decide (length.toNat ≤ bitStart.toNat + 1)

/-- R116, R289: `PTR + LEN <= 65536`, no wrap-around. -/
def rangeOk (ptr len : BitVec 16) : Bool := decide (ptr.toNat + len.toNat ≤ 65536)

/-- `BufValid(a)` (R10): is buffer address `a` in one of the admitted ranges? -/
def admitted (ranges : List (Nat × Nat)) (a : Nat) : Bool :=
  ranges.any (fun r => decide (r.1 ≤ a) && decide (a < r.1 + r.2))

/-- R289: every `PTR + i` with `i < LEN` is admitted; `LEN = 0` passes for every `PTR`. -/
def rangeAdmitted (ranges : List (Nat × Nat)) (ptr len : BitVec 16) : Bool :=
  (List.range len.toNat).all (fun i => admitted ranges (ptr.toNat + i))

/-- The buffer address of byte `i` of a burst, `PTR + i` (R78, R116). For `i < LEN` of an accepted
command the sum does not wrap, since `PTR + LEN <= 65536`. -/
def bufAddr (ptr i : BitVec 16) : BitVec 16 := ptr + i

end Sys2Proof.Machine
end

