-- ==== Sys2Proof/Syntax.lean ====
section
/-! DEFINITION. The 22 commands of the block, one constructor per row of spec/opcode_table.json
(spec/30_encoding.md R109), with the operands of R122 in the order of R122. `reg` keeps all 16 bits
(R111: the high byte is accepted and ignored) and the value of `writeSingleBit` all 8 (R234). -/

namespace Sys2Proof

inductive Instr where
  -- BusController, spec/41_bus_controller.md
  | waitIdle
  | start
  | restart
  | stop
  -- ByteTransceiver, spec/42_byte_transceiver.md
  | writeByte (b : BitVec 8)
  | readByte
  | sendAck
  | sendNotAck
  -- spec/44_burst_transfer.md R266
  | ackStatus
  -- RegisterAccessor, spec/43_register_accessor.md
  | writeRegister (dev : BitVec 7) (reg : BitVec 16) (data : BitVec 8)
  | readRegister (dev : BitVec 7) (reg : BitVec 16)
  | writeRegisterWide (dev : BitVec 7) (reg : BitVec 16) (data16 : BitVec 16)
  | writeBitField (dev : BitVec 7) (reg : BitVec 16) (bitStart : BitVec 3) (length : BitVec 4)
      (value : BitVec 8)
  | readBitField (dev : BitVec 7) (reg : BitVec 16) (bitStart : BitVec 3) (length : BitVec 4)
  | writeSingleBit (dev : BitVec 7) (reg : BitVec 16) (bitNum : BitVec 3) (value : BitVec 8)
  | readSingleBit (dev : BitVec 7) (reg : BitVec 16) (bitNum : BitVec 3)
  -- BurstTransfer, spec/44_burst_transfer.md
  | writeBytes (dev : BitVec 7) (reg : BitVec 16) (ptr : BitVec 16) (len : BitVec 16)
  | readBytes (dev : BitVec 7) (reg : BitVec 16) (ptr : BitVec 16) (len : BitVec 16)
  | ldWrite (ctrl : BitVec 8) (addr : BitVec 8) (data : BitVec 8)
  | ldRead (ctrl : BitVec 8) (addr : BitVec 8)
  | ldPageWrite (ctrl : BitVec 8) (addr : BitVec 8) (ptr : BitVec 16) (len : BitVec 16)
  | ldSequentialRead (ctrl : BitVec 8) (addr : BitVec 8) (ptr : BitVec 16) (len : BitVec 16)
  deriving DecidableEq, Repr

end Sys2Proof
end

