-- ==== Sys2Proof/WellFormed.lean ====
section
/-! DEFINITION. The operand constraints of a command: what spec/60_exceptions.md R290 refuses with
`IllegalOperand` among operands that fit their fields. The single constraints are in
Sys2Proof/Machine/Operands.lean. -/

namespace Sys2Proof

open Sys2Proof.Machine

/-- Every operand constraint of the command holds (R290). -/
def Instr.wellFormed : Instr → Bool
  | .waitIdle => true
  | .start => true
  | .restart => true
  | .stop => true
  | .writeByte _ => true
  | .readByte => true
  | .sendAck => true
  | .sendNotAck => true
  | .ackStatus => true
  | .writeRegister _ _ _ => true
  | .readRegister _ _ => true
  | .writeRegisterWide _ _ _ => true
  | .writeBitField _ _ bitStart length _ => fieldOk bitStart length
  | .readBitField _ _ bitStart length => fieldOk bitStart length
  | .writeSingleBit _ _ _ _ => true
  | .readSingleBit _ _ _ => true
  | .writeBytes _ _ ptr len => rangeOk ptr len
  | .readBytes _ _ ptr len => rangeOk ptr len
  | .ldWrite ctrl _ _ => ctrlOk ctrl
  | .ldRead ctrl _ => ctrlOk ctrl
  | .ldPageWrite ctrl _ ptr len => ctrlOk ctrl && rangeOk ptr len
  | .ldSequentialRead ctrl _ ptr len => ctrlOk ctrl && rangeOk ptr len && decide (1 ≤ len.toNat)

end Sys2Proof
end

