-- ==== Sys2Proof/Decode.lean ====
section
/-! DEFINITION. The decoder, total on all 2^64 command words and rejecting by name
(spec/30_encoding.md R101 to R109, R117, R118, R124), and the encoder. Steps 4 and 5 of R120 are here;
the value constraints of step 6 are `Instr.wellFormed`, which acceptance checks (log entry 21). -/

namespace Sys2Proof

/-- Why a word is no command. -/
inductive DecodeError where
  /-- `OP` is not in the opcode map (R118). -/
  | illegalOpcode
  /-- A bit that carries no operand differs from the row's `match` (R117). -/
  | illegalOperand
  deriving DecidableEq, Repr

/-- One row of the opcode map (R109): `OP`, `match`, `mask`, and the operands the format names. -/
structure OpcodeRow where
  op : BitVec 6
  pattern : CmdWord
  mask : CmdWord
  build : CmdWord → Instr

/-- `OP = CW[63:58]` (R101). -/
def opField (w : CmdWord) : BitVec 6 := w.extractLsb' 58 6
/-- `DEV = CW[54:48]` (R110). -/
def devField (w : CmdWord) : BitVec 7 := w.extractLsb' 48 7
/-- `CTRL = CW[55:48]` (R114). -/
def ctrlField (w : CmdWord) : BitVec 8 := w.extractLsb' 48 8
/-- `REG = CW[47:32]` (R101). -/
def regField (w : CmdWord) : BitVec 16 := w.extractLsb' 32 16
/-- `ADDR = CW[39:32]` (R101, R257). -/
def addrField (w : CmdWord) : BitVec 8 := w.extractLsb' 32 8
/-- `DATA8 = CW[23:16]` (R112). -/
def data8Field (w : CmdWord) : BitVec 8 := w.extractLsb' 16 8
/-- `DATA16 = CW[31:16]` (R112). -/
def data16Field (w : CmdWord) : BitVec 16 := w.extractLsb' 16 16
/-- `LEN = CW[31:16]` (R116). -/
def lenField (w : CmdWord) : BitVec 16 := w.extractLsb' 16 16
/-- `PTR = CW[15:0]` (R116). -/
def ptrField (w : CmdWord) : BitVec 16 := w.extractLsb' 0 16
/-- `BITSTART = CW[2:0]` (R115). -/
def bitStartField (w : CmdWord) : BitVec 3 := w.extractLsb' 0 3
/-- `LENGTH = CW[7:4]` (R115). -/
def lengthField (w : CmdWord) : BitVec 4 := w.extractLsb' 4 4

/-- The rows of the primitive commands (R109, formats N and B: R102, R103). -/
def primitiveRows : List OpcodeRow := [
  ⟨0x01#6, 0x0400000000000000#64, 0xFFFFFFFFFFFFFFFF#64, fun _ => .waitIdle⟩,
  ⟨0x02#6, 0x0800000000000000#64, 0xFFFFFFFFFFFFFFFF#64, fun _ => .start⟩,
  ⟨0x03#6, 0x0C00000000000000#64, 0xFFFFFFFFFFFFFFFF#64, fun _ => .restart⟩,
  ⟨0x04#6, 0x1000000000000000#64, 0xFFFFFFFFFFFFFFFF#64, fun _ => .stop⟩,
  ⟨0x05#6, 0x1400000000000000#64, 0xFFFFFFFFFF00FFFF#64, fun w => .writeByte (data8Field w)⟩,
  ⟨0x06#6, 0x1800000000000000#64, 0xFFFFFFFFFFFFFFFF#64, fun _ => .readByte⟩,
  ⟨0x07#6, 0x1C00000000000000#64, 0xFFFFFFFFFFFFFFFF#64, fun _ => .sendAck⟩,
  ⟨0x08#6, 0x2000000000000000#64, 0xFFFFFFFFFFFFFFFF#64, fun _ => .sendNotAck⟩,
  ⟨0x09#6, 0x2400000000000000#64, 0xFFFFFFFFFFFFFFFF#64, fun _ => .ackStatus⟩]

/-- The rows of the register-addressed commands (R109, formats R and F: R104, R105). -/
def registerRows : List OpcodeRow := [
  ⟨0x10#6, 0x4000000000000000#64, 0xFF800000FF00FFFF#64,
    fun w => .writeRegister (devField w) (regField w) (data8Field w)⟩,
  ⟨0x11#6, 0x4400000000000000#64, 0xFF800000FFFFFFFF#64,
    fun w => .readRegister (devField w) (regField w)⟩,
  ⟨0x12#6, 0x4800000000000000#64, 0xFF8000000000FFFF#64,
    fun w => .writeRegisterWide (devField w) (regField w) (data16Field w)⟩,
  ⟨0x13#6, 0x4C00000000000000#64, 0xFF800000FF00FF08#64,
    fun w => .writeBitField (devField w) (regField w) (bitStartField w) (lengthField w) (data8Field w)⟩,
  ⟨0x14#6, 0x5000000000000000#64, 0xFF800000FFFFFF08#64,
    fun w => .readBitField (devField w) (regField w) (bitStartField w) (lengthField w)⟩,
  ⟨0x15#6, 0x5400000000000000#64, 0xFF800000FF00FFF8#64,
    fun w => .writeSingleBit (devField w) (regField w) (bitStartField w) (data8Field w)⟩,
  ⟨0x16#6, 0x5800000000000000#64, 0xFF800000FFFFFFF8#64,
    fun w => .readSingleBit (devField w) (regField w) (bitStartField w)⟩]

/-- The rows of the burst and low-density commands (R109, formats X, L and P: R106 to R108). -/
def burstRows : List OpcodeRow := [
  ⟨0x18#6, 0x6000000000000000#64, 0xFF80000000000000#64,
    fun w => .writeBytes (devField w) (regField w) (ptrField w) (lenField w)⟩,
  ⟨0x19#6, 0x6400000000000000#64, 0xFF80000000000000#64,
    fun w => .readBytes (devField w) (regField w) (ptrField w) (lenField w)⟩,
  ⟨0x1A#6, 0x6800000000000000#64, 0xFF01FF00FF00FFFF#64,
    fun w => .ldWrite (ctrlField w) (addrField w) (data8Field w)⟩,
  ⟨0x1B#6, 0x6C00000000000000#64, 0xFF01FF00FFFFFFFF#64,
    fun w => .ldRead (ctrlField w) (addrField w)⟩,
  ⟨0x1C#6, 0x7000000000000000#64, 0xFF01FF0000000000#64,
    fun w => .ldPageWrite (ctrlField w) (addrField w) (ptrField w) (lenField w)⟩,
  ⟨0x1D#6, 0x7400000000000000#64, 0xFF01FF0000000000#64,
    fun w => .ldSequentialRead (ctrlField w) (addrField w) (ptrField w) (lenField w)⟩]

/-- The opcode map (R109): 22 rows, no two with the same `OP`. -/
def opcodeMap : List OpcodeRow := primitiveRows ++ (registerRows ++ burstRows)

/-- The row of an opcode, if the map has one. -/
def rowOf (op : BitVec 6) : Option OpcodeRow := opcodeMap.find? (fun r => r.op == op)

/-- R124: look `OP` up; a word of an absent `OP` is `IllegalOpcode`; a word with
`(w & mask) != match` is `IllegalOperand`; else the fields the format names are extracted. -/
def decode (w : CmdWord) : Except DecodeError Instr :=
  match rowOf (opField w) with
  | none => .error .illegalOpcode
  | some r => if w &&& r.mask = r.pattern then .ok (r.build w) else .error .illegalOperand

/-- A command word from its fields: `OP`, `Z = 00`, `DEVC`, `REG`, `DATA`, `AUX` (R101). -/
def pack (op : BitVec 6) (devc : BitVec 8) (reg data aux : BitVec 16) : CmdWord :=
  op ++ 0#2 ++ devc ++ reg ++ data ++ aux

/-- `DEVC` of a register-addressed command: bit 55 zero, then the device address (R101, R110). -/
def devc (dev : BitVec 7) : BitVec 8 := 0#1 ++ dev

/-- A 16-bit field that carries one byte in its low half (R101). -/
def low8 (b : BitVec 8) : BitVec 16 := 0#8 ++ b

/-- `AUX` of a bit-field command: `LENGTH` in 7:4, bit 3 zero, `BITSTART` in 2:0 (R105). -/
def fieldAux (bitStart : BitVec 3) (length : BitVec 4) : BitVec 16 := 0#8 ++ length ++ 0#1 ++ bitStart

/-- The command word of a command (R101 to R108). -/
def encode : Instr → CmdWord
  | .waitIdle => pack 0x01#6 0#8 0#16 0#16 0#16
  | .start => pack 0x02#6 0#8 0#16 0#16 0#16
  | .restart => pack 0x03#6 0#8 0#16 0#16 0#16
  | .stop => pack 0x04#6 0#8 0#16 0#16 0#16
  | .writeByte b => pack 0x05#6 0#8 0#16 (low8 b) 0#16
  | .readByte => pack 0x06#6 0#8 0#16 0#16 0#16
  | .sendAck => pack 0x07#6 0#8 0#16 0#16 0#16
  | .sendNotAck => pack 0x08#6 0#8 0#16 0#16 0#16
  | .ackStatus => pack 0x09#6 0#8 0#16 0#16 0#16
  | .writeRegister dev reg data => pack 0x10#6 (devc dev) reg (low8 data) 0#16
  | .readRegister dev reg => pack 0x11#6 (devc dev) reg 0#16 0#16
  | .writeRegisterWide dev reg data16 => pack 0x12#6 (devc dev) reg data16 0#16
  | .writeBitField dev reg bitStart length value =>
      pack 0x13#6 (devc dev) reg (low8 value) (fieldAux bitStart length)
  | .readBitField dev reg bitStart length =>
      pack 0x14#6 (devc dev) reg 0#16 (fieldAux bitStart length)
  | .writeSingleBit dev reg bitNum value =>
      pack 0x15#6 (devc dev) reg (low8 value) (fieldAux bitNum 0#4)
  | .readSingleBit dev reg bitNum => pack 0x16#6 (devc dev) reg 0#16 (fieldAux bitNum 0#4)
  | .writeBytes dev reg ptr len => pack 0x18#6 (devc dev) reg len ptr
  | .readBytes dev reg ptr len => pack 0x19#6 (devc dev) reg len ptr
  | .ldWrite ctrl addr data => pack 0x1A#6 ctrl (low8 addr) (low8 data) 0#16
  | .ldRead ctrl addr => pack 0x1B#6 ctrl (low8 addr) 0#16 0#16
  | .ldPageWrite ctrl addr ptr len => pack 0x1C#6 ctrl (low8 addr) len ptr
  | .ldSequentialRead ctrl addr ptr len => pack 0x1D#6 ctrl (low8 addr) len ptr

/-- The command read from `nbits` bits `w`, numbered as spec/opcode_table.json numbers them: one 64-bit
word, bit 0 least significant, every bit above `nbits` zero. -/
def decodeTableWord (nbits w : Nat) : Option Instr :=
  if nbits ≤ 64 then
    match decode (BitVec.ofNat 64 (w % 2 ^ nbits)) with
    | .ok i => some i
    | .error _ => none
  else none

end Sys2Proof
end

