-- ==== Sys2Proof/Machine/State.lean ====
section
/-! DEFINITION. The state of the block (spec/10_state.md R20 to R63), the reasons a step can stop, and
the state after reset. Every item of R20 is a field; beside them stand the parameters (R59), the
host's buffer memory (spec/20_memory.md R72, R73), the level of the port `rst` (R57) and the model's own
fields `sub`, `inputs`, `draws`, `known`, `hpRdata` and `raced`, each with a log entry. -/

namespace Sys2Proof.Machine

/-- Transfer outcomes (R17, R282). `timeout` has code 4 and is never produced (R283); codes 5 to 7 do
not exist. -/
inductive Xfer where
  | success | writeCollision | notAcknowledged | busCollision | timeout
  deriving DecidableEq, Repr

/-- The six values of `BSTATE` (R44); 6 and 7 never occur. -/
inductive Bstate where
  | idle | start | addressPhase | dataPhase | restart | stop
  deriving DecidableEq, Repr

/-- Fatal fault codes `FCODE` (spec/60_exceptions.md R286). -/
inductive FatalCode where
  | none | illegalOpcode | illegalOperand | sequenceFault | reentry | bufferFault | moduleDisabled
  | badPort
  deriving DecidableEq, Repr

/-- The engine operation in progress, `EOP` (R54, spec/40_line_engine.md R149). -/
inductive Eop where
  | none | genStart | genRestart | genStop | transmit | receive | ackSeq
  deriving DecidableEq, Repr

/-- `PHASE` (R54): the phases of R150 to R155 under the spec's own labels, and no phase. -/
inductive Phase where
  | none
  | s1 | s2 | s3 | s4
  | r1 | r2 | r3 | r4 | r5 | r6
  | p1 | p2 | p3 | p4 | p5
  | t0 | ta | tb | tc | td | t8 | t9 | t10 | t11
  | v0 | va | vb | vc | v8
  | a0 | a1 | a2 | a3 | a4
  deriving DecidableEq, Repr

/-- Bus events of the ghost `TRACE` (R58). `a` and `d` are line levels: false = ACK, true = NACK. -/
inductive Event where
  | S
  | Sr
  | P
  | Tx (b : BitVec 8) (a : Bool)
  | Rx (b : BitVec 8)
  | Ak (d : Bool)
  deriving DecidableEq, Repr

/-- What the environment does to the two lines at one tick: true = it pulls the line low (R11, R56). -/
structure Drive where
  sdaLow : Bool
  sclLow : Bool
  deriving DecidableEq, Repr

/-- What the outside does to the block (R13, R57), in the order it happens (log entry 1). -/
inductive Input where
  /-- The environment's drives of SDA and SCL for one tick of the block (R11). -/
  | drive (d : Drive)
  /-- `HostWrite(idx, v)` (R21). -/
  | hostWrite (idx : BitVec 3) (v : BitVec 64)
  /-- `HostRead(idx)` (R21). -/
  | hostRead (idx : BitVec 3)
  /-- The host stores a byte into the buffer memory it owns (R73). -/
  | bufWrite (a : BitVec 16) (v : BitVec 8)
  /-- The host loads a byte from the buffer memory it owns (R73). -/
  | bufRead (a : BitVec 16)
  /-- `rst` is asserted, and stays so until it is released (spec/70_reset_and_hazards.md R310). -/
  | rst
  /-- `rst` is released. -/
  | rstRelease
  deriving DecidableEq, Repr

/-- `CTRL` (R22). Bit 7 is reserved and reads 0; the 16-bit view is `ctrlWord` in Flags. -/
structure Ctrl where
  sen : Bool
  rsen : Bool
  pen : Bool
  rcen : Bool
  acken : Bool
  ackdt : Bool
  moden : Bool
  baud : BitVec 8
  deriving DecidableEq, Repr

/-- `STAT` (R32). Bit 7 is reserved and reads 0; the 8-bit view is `statWord` in Flags. -/
structure Stat where
  rbf : Bool
  tbf : Bool
  trun : Bool
  ackstat : Bool
  wcol : Bool
  rxov : Bool
  bcol : Bool
  deriving DecidableEq, Repr

/-- `RES` (R48). Bits 7:5 are reserved and read 0; the 32-bit view is `resWord` in Flags. -/
structure Res where
  outcome : Xfer
  stopi : Bool
  valid : Bool
  data : BitVec 8
  count : BitVec 16
  deriving DecidableEq, Repr

/-- The sequencer: the fields `SEQSTAT` shows (R43, R44, R51) and the internal registers (R50, R52,
R53). `sub` is the model's own: the position inside the numbered step at `UPC` (log entry 8). -/
structure Sequencer where
  busy : Bool
  fatal : Bool
  fcode : FatalCode
  bstate : Bstate
  cw : BitVec 64
  upc : BitVec 8
  sub : Nat
  out : Xfer
  idx : BitVec 16
  tmp : BitVec 8
  val : BitVec 8
  deriving DecidableEq, Repr

/-- The line engine: internal registers (R47, R54) and the two drivers (R55). -/
structure Engine where
  sr : BitVec 8
  bitcnt : BitVec 4
  eop : Eop
  phase : Phase
  ackpend : Bool
  sdaLow : Bool
  sclLow : Bool
  deriving DecidableEq, Repr

/-- The model's own: which of the registers without a reset value have been written since reset
(R63, log entry 7). -/
structure Known where
  ackstat : Bool
  txb : Bool
  rxb : Bool
  deriving DecidableEq, Repr

/-- The whole state: the block, the buffer memory it reaches, the parameters, and the outside. `rst` is the level
of the port `rst` (R57; log entry 20); `raced` says that the host has stored into the buffer range of the
burst in progress (R85, R327; log entry 11). -/
structure State where
  ctrl : Ctrl
  stat : Stat
  txb : BitVec 8
  rxb : BitVec 8
  res : Res
  seq : Sequencer
  eng : Engine
  trace : List Event
  mem : List Host.Cell
  cfg : Config
  inputs : List Input
  draws : Nat
  known : Known
  hpRdata : BitVec 64
  rst : Bool
  raced : Bool
  deriving DecidableEq, Repr

/-- Why the machine stops with a fault: never. The block's fatal faults are latched states, and the machine goes on
(R285); a host that breaks its duty makes values free (93 U9); a wait that never ends leaves `BUSY = 1`
(spec/60_exceptions.md R299). So there is no constructor, and no step answers a fault. -/
inductive Fault where
  deriving DecidableEq, Repr

/-- Why the model gives no next state. -/
inductive Refusal where
  /-- An instruction whose arm has no meaning. Raised by no arm: every instruction has its meaning. SAFE. -/
  | notModelled (mnemonic : String)
  /-- A command word reaches a state with `BUSY = 0` that is no launch state (R61, 93 U13): no rule says
  what the block does. Raised by acceptance; unreachable from reset. SAFE (log entry 9). -/
  | notLaunchState
  /-- A state with `BUSY = 1` whose `CW`, `UPC`, `EOP` or `PHASE` is outside its values (R294): no rule
  says what the block does. Raised by the step; unreachable from reset. SAFE (log entry 10). -/
  | noRule
  /-- `TIMEOUT` is not `none` (R9): a model must refuse any other value. Raised by the step and by every
  command. SAFE (log entry 12). -/
  | timeoutVariant
  deriving DecidableEq, Repr

/-- The state after reset (R63). Where R63 says "unspecified" (`ACKSTAT`, `TXB`, `RXB`, `CW`, `TMP`,
`VAL`, `SR`) and for `PHASE` the value here is a DESIGN CHOICE (log entry 6), and a read of the first
three before a write is a draw all the same (log entry 7). -/
def State.reset : State where
  ctrl := { sen := false, rsen := false, pen := false, rcen := false, acken := false,
            ackdt := false, moden := false, baud := 0x00#8 }
  stat := { rbf := false, tbf := false, trun := false, ackstat := false, wcol := false,
            rxov := false, bcol := false }
  txb := 0x00#8
  rxb := 0x00#8
  res := { outcome := .success, stopi := false, valid := false, data := 0x00#8, count := 0#16 }
  seq := { busy := false, fatal := false, fcode := .none, bstate := .idle, cw := 0#64,
           upc := 0#8, sub := 0, out := .success, idx := 0#16, tmp := 0x00#8, val := 0x00#8 }
  eng := { sr := 0x00#8, bitcnt := 0#4, eop := .none, phase := .none, ackpend := false,
           sdaLow := false, sclLow := false }
  trace := []
  mem := []
  cfg := Config.default
  inputs := []
  draws := 0
  known := { ackstat := false, txb := false, rxb := false }
  hpRdata := 0#64
  rst := false
  raced := false

end Sys2Proof.Machine
end

