-- ==== Sys2Proof/Machine/Flags.lean ====
section
/-! DEFINITION. The register views the host reads (spec/10_state.md R22, R32, R43, R48), their codes,
and the flag computations: monitors and line levels (R56), the collision monitor
(spec/40_line_engine.md R147), the busy indicators of the idle wait (spec/41_bus_controller.md R181)
and the condition of the write-collision detector (R156). -/

namespace Sys2Proof.Machine

/-- Outcome codes (R282). -/
def xferCode : Xfer → BitVec 3
  | .success => 0#3
  | .writeCollision => 1#3
  | .notAcknowledged => 2#3
  | .busCollision => 3#3
  | .timeout => 4#3

/-- `BSTATE` codes (R44). -/
def bstateCode : Bstate → BitVec 3
  | .idle => 0#3
  | .start => 1#3
  | .addressPhase => 2#3
  | .dataPhase => 3#3
  | .restart => 4#3
  | .stop => 5#3

/-- `FCODE` codes (R286). -/
def fatalCodeBits : FatalCode → BitVec 3
  | .none => 0#3
  | .illegalOpcode => 1#3
  | .illegalOperand => 2#3
  | .sequenceFault => 3#3
  | .reentry => 4#3
  | .bufferFault => 5#3
  | .moduleDisabled => 6#3
  | .badPort => 7#3

/-- `CTRL` as the host reads it (R22): `BAUD` in 15:8, bit 7 zero, `MODEN` to `SEN` in 6:0. -/
def ctrlWord (c : Ctrl) : BitVec 16 :=
  c.baud ++ 0#1 ++ BitVec.ofBool c.moden ++ BitVec.ofBool c.ackdt ++ BitVec.ofBool c.acken
    ++ BitVec.ofBool c.rcen ++ BitVec.ofBool c.pen ++ BitVec.ofBool c.rsen ++ BitVec.ofBool c.sen

/-- `STAT` as the host reads it (R32): bit 7 zero, then `BCOL`, `RXOV`, `WCOL`, `ACKSTAT`, `TRUN`,
`TBF`, `RBF`. `ackstat` is the value read for `ACKSTAT`. -/
def statWord (st : Stat) (ackstat : Bool) : BitVec 8 :=
  0#1 ++ BitVec.ofBool st.bcol ++ BitVec.ofBool st.rxov ++ BitVec.ofBool st.wcol
    ++ BitVec.ofBool ackstat ++ BitVec.ofBool st.trun ++ BitVec.ofBool st.tbf ++ BitVec.ofBool st.rbf

/-- `SEQSTAT` as the host reads it (R43): `BSTATE` in 7:5, `FCODE` in 4:2, `FATAL`, `BUSY`. -/
def seqstatWord (q : Sequencer) : BitVec 8 :=
  bstateCode q.bstate ++ fatalCodeBits q.fcode ++ BitVec.ofBool q.fatal ++ BitVec.ofBool q.busy

/-- `RES` as the host reads it (R48): `COUNT`, `DATA`, three zero bits, `VALID`, `STOPI`, `OUTCOME`. -/
def resWord (r : Res) : BitVec 32 :=
  r.count ++ r.data ++ 0#3 ++ BitVec.ofBool r.valid ++ BitVec.ofBool r.stopi ++ xferCode r.outcome

/-- The four values of the document's Bus Condition (R46). -/
inductive BusCondition where
  | idle | start | restart | stop
  deriving DecidableEq, Repr

/-- The Bus Condition, derived from the pending bits and not stored (R46). -/
def busCondition (c : Ctrl) : BusCondition :=
  if c.sen then .start else if c.rsen then .restart else if c.pen then .stop else .idle

/-- Some pending bit is 1 (R22: the five bits `[4:0]`). -/
def anyPending (c : Ctrl) : Bool := c.sen || c.rsen || c.pen || c.rcen || c.acken

/-- Some busy indicator of `waitIdle` is set: a pending bit or `TRUN` (R181). -/
def engineBusy (s : State) : Bool := anyPending s.ctrl || s.stat.trun

/-- The condition under which a load of `TXB` is rejected (R156). -/
def loadRejected (s : State) : Bool :=
  anyPending s.ctrl || s.stat.trun || s.stat.tbf || s.stat.wcol

/-- The SDA monitor: wired-AND of every party (R56). -/
def sdaIn (e : Engine) (d : Drive) : Bool := !(e.sdaLow || d.sdaLow)

/-- The SCL monitor: wired-AND of every party (R56). -/
def sclIn (e : Engine) (d : Drive) : Bool := !(e.sclLow || d.sclLow)

/-- The bus-collision monitor at a sample point where the block intends SDA to be 1 (R147):
`BCOL` becomes 1 if SDA reads 0 and nothing else happens. -/
def monitorBcol (st : Stat) (intends1 : Bool) (sda : Bool) : Stat :=
  { st with bcol := st.bcol || (intends1 && !sda) }

/-- `BSTATE` after an accepted load (R45, R156). -/
def bstateAfterLoad : Bstate → Bstate
  | .start => .addressPhase
  | .restart => .addressPhase
  | .idle => .dataPhase
  | .addressPhase => .dataPhase
  | .dataPhase => .dataPhase
  | .stop => .dataPhase

/-- A transaction is open exactly when `BSTATE` is not `Idle` (R44). -/
def transactionOpen (s : State) : Bool := s.seq.bstate != .idle

/-- The engine operation a phase belongs to (R150 to R155). -/
def phaseOp : Phase → Eop
  | .none => .none
  | .s1 | .s2 | .s3 | .s4 => .genStart
  | .r1 | .r2 | .r3 | .r4 | .r5 | .r6 => .genRestart
  | .p1 | .p2 | .p3 | .p4 | .p5 => .genStop
  | .t0 | .ta | .tb | .tc | .td | .t8 | .t9 | .t10 | .t11 => .transmit
  | .v0 | .va | .vb | .vc | .v8 => .receive
  | .a0 | .a1 | .a2 | .a3 | .a4 => .ackSeq

end Sys2Proof.Machine
end

