-- ==== Sys2Proof/Machine/Ops.lean ====
section
/-! DEFINITION. The named operations over memory and registers; the fatal fault, which is all the
exception entry this block has (spec/60_exceptions.md R285, R296), and reset, its only way out
(R297, spec/70_reset_and_hazards.md R310). -/

namespace Sys2Proof.Machine

/-! Buffer memory (spec/20_memory.md R72 to R74): one byte per address, ascending, no entry equal to
what an unlisted address reads as. -/

/-- What an unlisted buffer address reads as (DESIGN CHOICE, log entry 5). -/
def unlistedByte : BitVec 8 := 0x00#8

/-- The byte at an address of the buffer memory (R74 `MemRead`). -/
def readCell : List Host.Cell → Nat → BitVec 8
  | [], _ => unlistedByte
  | (k, v) :: rest, a => if k = a then v else readCell rest a

/-- Prepend a cell unless it holds what an unlisted address reads as. -/
def consCell (a : Nat) (v : BitVec 8) (m : List Host.Cell) : List Host.Cell :=
  if v = unlistedByte then m else (a, v) :: m

/-- Store one byte, keeping the canonical form (R74 `MemWrite`). -/
def writeCell : List Host.Cell → Nat → BitVec 8 → List Host.Cell
  | [], a, v => consCell a v []
  | (k, w) :: rest, a, v =>
    if a < k then consCell a v ((k, w) :: rest)
    else if a = k then consCell a v rest
    else (k, w) :: writeCell rest a v

/-- The canonical form: addresses below 65536 (R72), strictly rising, no entry equal to what an
unlisted address reads as. -/
def memWf : List Host.Cell → Bool
  | [] => true
  | [(k, v)] => decide (k < 65536) && decide (v ≠ unlistedByte)
  | (k, v) :: (k', v') :: rest =>
    decide (k < 65536) && decide (v ≠ unlistedByte) && decide (k < k') && memWf ((k', v') :: rest)

/-- `MemRead(a, 1)` (R74). -/
def memRead (a : BitVec 16) (s : State) : BitVec 8 := readCell s.mem a.toNat

/-- `MemWrite(a, 1, v)` (R74). -/
def memWrite (a : BitVec 16) (v : BitVec 8) (s : State) : State :=
  { s with mem := writeCell s.mem a.toNat v }

/-! Registers. -/

/-- Append an event to `TRACE` (R58). -/
def emit (e : Event) (s : State) : State := { s with trace := s.trace ++ [e] }

/-- `raise Fatal(code)`: latch `FATAL` and `FCODE` and nothing else (R285). -/
def raiseFatal (c : FatalCode) (s : State) : State :=
  { s with seq := { s.seq with fatal := true, fcode := c } }

/-- Count one free value drawn. -/
def drawn (s : State) : State := { s with draws := s.draws + 1 }

/-- A read of `STAT.ACKSTAT`: the register, or a free bit while nothing has written it (R63, R266). -/
def ackstatRead (s : State) : Bool :=
  if s.known.ackstat then s.stat.ackstat else Config.freeBit s.draws

/-- A read of `TXB`: the register, or a free byte while nothing has written it (R63). -/
def txbRead (s : State) : BitVec 8 := if s.known.txb then s.txb else Config.freeByte s.draws

/-- A read of `RXB`: the register, or a free byte while nothing has written it (R63). -/
def rxbRead (s : State) : BitVec 8 := if s.known.rxb then s.rxb else Config.freeByte s.draws

/-- The drives of a tick that `inputs` says nothing about: free values (R11, R160). -/
def freeDrive (s : State) : Drive :=
  { sdaLow := Config.envSdaLow s.draws, sclLow := Config.envSclLow s.draws }

/-- Reset (R310): in one step every piece of state of the block takes its value of R63. The buffer
memory is the host's and the parameters are fixed, so both stay; the inputs still to come and the
count of free values stay too, and `rst` is asserted until it is released (log entry 20). -/
def resetBlock (s : State) : State :=
  { State.reset with mem := s.mem, cfg := s.cfg, inputs := s.inputs, draws := s.draws, rst := true }

/-- Acceptance, step 9 of R120: latch the word and start the micro-program. No store of the host has met its
buffer yet (log entry 11). -/
def acceptCommand (w : CmdWord) (s : State) : State :=
  { s with
    res := { outcome := .success, stopi := false, valid := false, data := 0x00#8, count := 0#16 }
    seq := { s.seq with cw := w, out := .success, idx := 0#16, upc := 0#8, sub := 0, busy := true }
    raced := false }

/-- Completion (R121): `RES.OUTCOME <- OUT; RES.VALID <- 1; SEQSTAT.BUSY <- 0`, in one step. -/
def completeCommand (s : State) : State :=
  { s with
    res := { s.res with outcome := s.seq.out, valid := true }
    seq := { s.seq with busy := false } }

/-- A launch state (R61): no pending bit, no engine operation or transmission in progress, `TBF = RBF = 0`,
`BSTATE` not `Stop`, drivers parked, and no unacknowledged byte in `Idle`. -/
def launchOk (s : State) : Bool :=
  !anyPending s.ctrl && !s.stat.trun && !s.stat.tbf && !s.stat.rbf && decide (s.eng.eop = .none) &&
  decide (s.seq.bstate ≠ .stop) &&
  (if s.seq.bstate = .idle then !s.eng.sdaLow && !s.eng.sclLow && !s.eng.ackpend else s.eng.sclLow)

end Sys2Proof.Machine
end

