-- ==== Sys2Proof/Machine/LineEngine.lean ====
section
/-! DEFINITION. The line engine at the wire level (spec/40_line_engine.md): the phases of the six
engine operations, R150 to R155, under their own labels, and the load of `TXB` with the
write-collision detector, R156. One tick runs one phase under the environment's present drive; a
phase that waits leaves `PHASE` where it is while the wait goes on (R144, R146). -/

namespace Sys2Proof.Machine

/-- Go to a phase. -/
def toPhase (p : Phase) (s : State) : State := { s with eng := { s.eng with phase := p } }

/-- Set the SDA driver: true pulls the line low, false releases it (R55). -/
def setSda (low : Bool) (s : State) : State := { s with eng := { s.eng with sdaLow := low } }

/-- Set the SCL driver: true pulls the line low, false releases it (R55). -/
def setScl (low : Bool) (s : State) : State := { s with eng := { s.eng with sclLow := low } }

/-- `EOP <- None`: the operation is over. `PHASE`, which R54 defines only inside an operation, holds no phase then
(DESIGN CHOICE, log entry 6). -/
def endOp (s : State) : State := { s with eng := { s.eng with eop := .none, phase := .none } }

/-- Start an engine operation at its first phase (R145, R149). -/
def beginOp (o : Eop) (p : Phase) (s : State) : State :=
  { s with eng := { s.eng with eop := o, phase := p } }

/-- `ACKPEND <- b` (R47). -/
def setAckpend (b : Bool) (s : State) : State := { s with eng := { s.eng with ackpend := b } }

/-- `SCL_LOW <- 0; wait scl_in = 1`: release SCL and go on only when the monitor reads 1, however long
the environment holds the line (R146). -/
def releaseScl (d : Drive) (go : Phase) (s : State) : State :=
  let s := setScl false s
  if sclIn s.eng d then toPhase go s else s

/-- A sample point of the bus-collision monitor (R147). -/
def sampleBcol (intends1 : Bool) (d : Drive) (s : State) : State :=
  { s with stat := monitorBcol s.stat intends1 (sdaIn s.eng d) }

/-- `GenStart` (R150). -/
def phaseGenStart (d : Drive) (s : State) : State :=
  match s.eng.phase with
  | .s1 => if sclIn s.eng d && sdaIn s.eng d then toPhase .s2 s else s
  | .s2 => toPhase .s3 (emit .S (setSda true s))
  | .s3 => toPhase .s4 (setScl true s)
  | .s4 => endOp { setAckpend false s with ctrl := { s.ctrl with sen := false } }
  | _ => s

/-- `GenRestart` (R151). -/
def phaseGenRestart (d : Drive) (s : State) : State :=
  match s.eng.phase with
  | .r1 => toPhase .r2 (setSda false s)
  | .r2 => releaseScl d .r3 s
  | .r3 => toPhase .r4 (sampleBcol true d s)
  | .r4 => toPhase .r5 (emit .Sr (setSda true s))
  | .r5 => toPhase .r6 (setScl true s)
  | .r6 => endOp { setAckpend false s with ctrl := { s.ctrl with rsen := false } }
  | _ => s

/-- `GenStop` (R152). -/
def phaseGenStop (d : Drive) (s : State) : State :=
  match s.eng.phase with
  | .p1 => toPhase .p2 (setSda true s)
  | .p2 => releaseScl d .p3 s
  | .p3 => toPhase .p4 (setSda false s)
  | .p4 => toPhase .p5 (emit .P (sampleBcol true d s))
  | .p5 => endOp { setAckpend false s with
      ctrl := { s.ctrl with pen := false }, seq := { s.seq with bstate := .idle } }
  | _ => s

/-- `Transmit` (R153): eight data bits, bit 7 first (spec/20_memory.md R76), then the acknowledge slot. -/
def phaseTransmit (d : Drive) (s : State) : State :=
  match s.eng.phase with
  | .t0 => { s with eng := { s.eng with sr := s.txb, bitcnt := 0#4, phase := .ta } }
  | .ta => toPhase .tb (setSda (!s.eng.sr.getLsbD 7) s)
  | .tb => releaseScl d .tc s
  | .tc => toPhase .td (sampleBcol (s.eng.sr.getLsbD 7) d s)
  | .td => { s with eng := { s.eng with
      sclLow := true, sr := s.eng.sr <<< 1, bitcnt := s.eng.bitcnt + 1#4,
      phase := if s.eng.bitcnt + 1#4 = 8#4 then .t8 else .ta } }
  | .t8 => toPhase .t9 (setSda false { s with stat := { s.stat with tbf := false } })
  | .t9 => releaseScl d .t10 s
  | .t10 => toPhase .t11 { s with
      stat := { s.stat with ackstat := sdaIn s.eng d }, known := { s.known with ackstat := true } }
  | .t11 => endOp { emit (.Tx s.txb s.stat.ackstat) (setScl true s) with
      stat := { s.stat with trun := false } }
  | _ => s

/-- `Receive` (R154): eight data bits, bit 7 first; the acknowledge slot is not run. -/
def phaseReceive (d : Drive) (s : State) : State :=
  match s.eng.phase with
  | .v0 => { s with eng := { s.eng with sdaLow := false, bitcnt := 0#4, phase := .va } }
  | .va => releaseScl d .vb s
  | .vb => { s with eng := { s.eng with
      sr := (s.eng.sr <<< 1) ||| (0#7 ++ BitVec.ofBool (sdaIn s.eng d)), phase := .vc } }
  | .vc => { s with eng := { s.eng with
      sclLow := true, bitcnt := s.eng.bitcnt + 1#4,
      phase := if s.eng.bitcnt + 1#4 = 8#4 then .v8 else .va } }
  | .v8 =>
    let t := if s.stat.rbf then { s with stat := { s.stat with rxov := true } }
      else { s with rxb := s.eng.sr, stat := { s.stat with rbf := true },
                    known := { s.known with rxb := true } }
    endOp { setAckpend true (emit (.Rx s.eng.sr) t) with ctrl := { s.ctrl with rcen := false } }
  | _ => s

/-- `AckSeq` (R155): the ninth clock of a received byte. -/
def phaseAckSeq (d : Drive) (s : State) : State :=
  match s.eng.phase with
  | .a0 => toPhase .a1 (setSda (!s.ctrl.ackdt) s)
  | .a1 => releaseScl d .a2 s
  | .a2 => toPhase .a3 (sampleBcol s.ctrl.ackdt d s)
  | .a3 => toPhase .a4 (setScl true s)
  | .a4 => endOp { setAckpend false (emit (.Ak s.ctrl.ackdt) (setSda false s)) with
      ctrl := { s.ctrl with acken := false } }
  | _ => s

/-- One phase of the operation in progress under the environment's drive. While `MODEN = 0` the engine
is inert (R29, R141). -/
def enginePhase (d : Drive) (s : State) : State :=
  if s.ctrl.moden then
    match s.eng.eop with
    | .none => s
    | .genStart => phaseGenStart d s
    | .genRestart => phaseGenRestart d s
    | .genStop => phaseGenStop d s
    | .transmit => phaseTransmit d s
    | .receive => phaseReceive d s
    | .ackSeq => phaseAckSeq d s
  else s

/-- `LoadTXB(b)` (R156): rejected, `WCOL` becomes 1 and nothing else changes; accepted, `TXB` takes the
byte, `TBF` and `TRUN` are set, `BSTATE` moves by R45 and `Transmit` starts. -/
def loadTxb (b : BitVec 8) (s : State) : State :=
  if loadRejected s then { s with stat := { s.stat with wcol := true } }
  else beginOp .transmit .t0 { s with
    txb := b
    known := { s.known with txb := true }
    stat := { s.stat with tbf := true, trun := true }
    seq := { s.seq with bstate := bstateAfterLoad s.seq.bstate } }

end Sys2Proof.Machine
end

