-- ==== Sys2Proof/Machine/Micro.lean ====
section
/-! DEFINITION. The sequencer: the actions a micro-program is made of, what each does, the
micro-operations of spec/41_bus_controller.md R181 to R184 and spec/42_byte_transceiver.md R201 to
R203 as action lists, the transaction procedures of spec/43_register_accessor.md R221 and R224, and
one tick of the block.

A micro-program is a list of numbered steps, step `n` of it being the step the spec numbers `n`; a
step is a list of actions, and `SUB` is the position in it (log entry 8). -/

namespace Sys2Proof.Machine

/-- A position in a micro-program: the numbered step and the action inside it. -/
structure Pos where
  upc : BitVec 8
  sub : Nat
  deriving DecidableEq, Repr

/-- Where the byte a `TX` sends comes from: a byte fixed by the command word, or `TMP`. -/
inductive ByteSrc where
  | lit (b : BitVec 8)
  | tmp
  deriving DecidableEq, Repr

/-- The actions. An action that holds leaves the sequencer where it is while its condition is false. -/
inductive Act where
  /-- `W_IDLE` (R181). -/
  | wIdle
  /-- `CTRL.SEN <- 1; BSTATE <- Start` (R182). -/
  | setSen
  /-- `hold until CTRL.SEN = 0` (R182). -/
  | holdSen
  /-- `CTRL.RSEN <- 1; BSTATE <- Restart` (R183). -/
  | setRsen
  /-- `hold until CTRL.RSEN = 0` (R183). -/
  | holdRsen
  /-- `CTRL.PEN <- 1; BSTATE <- Stop` (R184). -/
  | setPen
  /-- `hold until CTRL.PEN = 0; RES.STOPI <- 1` (R184). -/
  | holdPen
  /-- The first half of `TX` (R201): the load; on `WCOL = 1` the outcome is `WriteCollision` and control
  goes to `fail`. -/
  | load (b : ByteSrc) (fail : Pos)
  /-- The second half of `TX` (R201): `hold until STAT.TRUN = 0`; on `ACKSTAT = 1` the outcome is
  `NotAcknowledged` and control goes to `fail`, else it is `Success`. -/
  | holdTx (fail : Pos)
  /-- `CTRL.RCEN <- 1; BSTATE <- DataPhase` (R202). -/
  | setRcen
  /-- `hold until CTRL.RCEN = 0; STAT.RXOV <- 0; VAL <- RXB; STAT.RBF <- 0` (R202). -/
  | holdRcen
  /-- `CTRL.ACKDT <- d; CTRL.ACKEN <- 1` (R203). -/
  | setAck (d : Bool)
  /-- `hold until CTRL.ACKEN = 0` (R203). -/
  | holdAck
  /-- `if READ_NACK then ...` (R224 r8): without it, go to `dest`. -/
  | unlessReadNack (dest : Pos)
  /-- R224 r11 into `VAL`: the byte received if the outcome is `Success`, else `0x00`. -/
  | returnVal
  /-- R224 r11 into `TMP`: the byte received if the outcome is `Success`, else `0x00`. -/
  | returnTmp
  /-- `RES.DATA <- VAL`. -/
  | dataFromVal
  /-- `RES.DATA <- (0x01 if STAT.ACKSTAT = 0 else 0x00)` (spec/44_burst_transfer.md R266). -/
  | dataFromAckstat
  /-- `TMP <- Insert(TMP, value)` (R228). -/
  | insert (bitStart length : Nat) (value : BitVec 8)
  /-- `RES.DATA <- Extract(TMP)` (R228). -/
  | extract (bitStart length : Nat)
  /-- `if OUT != Success goto dest`. -/
  | ifFailed (dest : Pos)
  /-- `if IDX = CW.LEN goto dest` (R251). -/
  | ifIdxIsLen (len : BitVec 16) (dest : Pos)
  /-- `if IDX < CW.LEN then ...` (R264 step 10): with no byte remaining, go to `dest`. -/
  | unlessIdxBelowLen (len : BitVec 16) (dest : Pos)
  /-- `goto dest`. -/
  | goto (dest : Pos)
  /-- `TMP <- MemRead(CW.PTR + IDX, 1)`. -/
  | readBuf (ptr : BitVec 16)
  /-- `MemWrite(CW.PTR + IDX, 1, VAL)`. -/
  | writeBuf (ptr : BitVec 16)
  /-- `MemWrite(CW.PTR + IDX, 1, VAL)` at the place `readBytes` stores at when `storesAfterStop` is `late`, else
  nothing (log entry 24). -/
  | storeIf (late : Bool) (ptr : BitVec 16)
  /-- `IDX <- IDX + 1; RES.COUNT <- IDX` (R250). -/
  | countByte
  /-- `if STAT.BCOL = 1 then OUT <- BusCollision; goto dest` (R264 step 9). -/
  | ifBcol (dest : Pos)
  /-- `done`: the command completes (R121). -/
  | done
  deriving DecidableEq, Repr

/-- A numbered step of a micro-program. -/
abbrev Step := List Act

/-! The micro-operations as action lists. -/

/-- `C_START` (R182). -/
def cStart : List Act := [.setSen, .holdSen]
/-- `C_RESTART` (R183). -/
def cRestart : List Act := [.setRsen, .holdRsen]
/-- `C_STOP` (R184). -/
def cStop : List Act := [.setPen, .holdPen]
/-- `OUT <- TX(b); if OUT != Success goto fail` (R201). -/
def tx (b : ByteSrc) (fail : Pos) : List Act := [.load b fail, .holdTx fail]
/-- `VAL <- RX()` (R202). -/
def rx : List Act := [.setRcen, .holdRcen]
/-- `ACK(d)` (R203). -/
def ack (d : Bool) : List Act := [.setAck d, .holdAck]

/-- `XWriteReg(dev, r8, d8)` (R221), w0 to w6, inlined in step `n`; w5 is action 9. -/
def xWriteReg (n : BitVec 8) (dev : BitVec 7) (r8 : BitVec 8) (d8 : ByteSrc) : Step :=
  [.wIdle] ++ cStart
    ++ tx (.lit (addrByte dev false)) ⟨n, 9⟩
    ++ tx (.lit r8) ⟨n, 9⟩
    ++ tx d8 ⟨n, 9⟩
    ++ [.wIdle] ++ cStop

/-- `XReadReg(dev, r8)` (R224), r0 to r10, inlined in step `n`, with the actions `mid` between the byte received
(r7) and what follows it; r9 is action `17 + mid.length`. Its caller appends r11 (`returnVal` or
`returnTmp`). Only `readBytes` has such actions (spec/20_memory.md R84, log entry 24). -/
def xReadRegWith (n : BitVec 8) (dev : BitVec 7) (r8 : BitVec 8) (mid : List Act) : Step :=
  [.wIdle] ++ cStart
    ++ tx (.lit (addrByte dev false)) ⟨n, 17 + mid.length⟩
    ++ tx (.lit r8) ⟨n, 17 + mid.length⟩
    ++ [.wIdle] ++ cRestart
    ++ tx (.lit (addrByte dev true)) ⟨n, 17 + mid.length⟩
    ++ rx ++ mid
    ++ [.unlessReadNack ⟨n, 17 + mid.length⟩] ++ ack true
    ++ [.wIdle] ++ cStop

/-- `XReadReg(dev, r8)` (R224), r0 to r10, inlined in step `n`; r9 is action 17. -/
def xReadReg (n : BitVec 8) (dev : BitVec 7) (r8 : BitVec 8) : Step := xReadRegWith n dev r8 []

/-! What the actions do. -/

/-- Put the sequencer at a position. -/
def goTo (p : Pos) (s : State) : State := { s with seq := { s.seq with upc := p.upc, sub := p.sub } }

/-- Go to the next action of a step of `n` actions, or to the next numbered step (R52). -/
def goNext (n : Nat) (s : State) : State :=
  if s.seq.sub + 1 < n then { s with seq := { s.seq with sub := s.seq.sub + 1 } }
  else { s with seq := { s.seq with upc := s.seq.upc + 1#8, sub := 0 } }

/-- `OUT <- o`. -/
def setOut (o : Xfer) (s : State) : State := { s with seq := { s.seq with out := o } }

/-- `RES.DATA <- b`. -/
def setData (b : BitVec 8) (s : State) : State := { s with res := { s.res with data := b } }

/-- The byte a `TX` sends. -/
def srcByte (b : ByteSrc) (s : State) : BitVec 8 :=
  match b with
  | .lit x => x
  | .tmp => s.seq.tmp

/-- `W_IDLE` (R181): the flag is cleared when the wait ends. -/
def actWIdle (n : Nat) (s : State) : State :=
  if engineBusy s then s else goNext n { s with stat := { s.stat with wcol := false } }

/-- `CTRL.SEN <- 1; BSTATE <- Start` (R182, R45): starts `GenStart`. -/
def actSetSen (n : Nat) (s : State) : State :=
  goNext n (beginOp .genStart .s1 { s with
    ctrl := { s.ctrl with sen := true }, seq := { s.seq with bstate := .start } })

/-- `CTRL.RSEN <- 1; BSTATE <- Restart` (R183, R45): starts `GenRestart`. -/
def actSetRsen (n : Nat) (s : State) : State :=
  goNext n (beginOp .genRestart .r1 { s with
    ctrl := { s.ctrl with rsen := true }, seq := { s.seq with bstate := .restart } })

/-- `CTRL.PEN <- 1; BSTATE <- Stop` (R184, R45): starts `GenStop`. -/
def actSetPen (n : Nat) (s : State) : State :=
  goNext n (beginOp .genStop .p1 { s with
    ctrl := { s.ctrl with pen := true }, seq := { s.seq with bstate := .stop } })

/-- `hold until CTRL.PEN = 0; RES.STOPI <- 1` (R184). -/
def actHoldPen (n : Nat) (s : State) : State :=
  if s.ctrl.pen then s else goNext n { s with res := { s.res with stopi := true } }

/-- The load of `TX` and its write-collision test (R201): no wait on a collision. -/
def actLoad (n : Nat) (b : ByteSrc) (fail : Pos) (s : State) : State :=
  let t := loadTxb (srcByte b s) s
  if t.stat.wcol then goTo fail (setOut .writeCollision t) else goNext n t

/-- The wait of `TX` and its acknowledge test (R201). -/
def actHoldTx (n : Nat) (fail : Pos) (s : State) : State :=
  if s.stat.trun then s
  else if s.stat.ackstat then goTo fail (setOut .notAcknowledged s)
  else goNext n (setOut .success s)

/-- `CTRL.RCEN <- 1; BSTATE <- DataPhase` (R202, R45): starts `Receive`. -/
def actSetRcen (n : Nat) (s : State) : State :=
  goNext n (beginOp .receive .v0 { s with
    ctrl := { s.ctrl with rcen := true }, seq := { s.seq with bstate := .dataPhase } })

/-- The end of `RX` (R202): `RXOV` and `RBF` cleared, `VAL <- RXB`. -/
def actHoldRcen (n : Nat) (s : State) : State :=
  if s.ctrl.rcen then s
  else
    let t := { s with
      stat := { s.stat with rxov := false, rbf := false }
      seq := { s.seq with val := rxbRead s } }
    goNext n (if s.known.rxb then t else drawn t)

/-- `CTRL.ACKDT <- d; CTRL.ACKEN <- 1` (R203): starts `AckSeq`. `BSTATE` stays `DataPhase` (R45). -/
def actSetAck (n : Nat) (d : Bool) (s : State) : State :=
  goNext n (beginOp .ackSeq .a0 { s with ctrl := { s.ctrl with ackdt := d, acken := true } })

/-- The value `XReadReg` returns (R224 r11). -/
def returned (s : State) : BitVec 8 := if s.seq.out = .success then s.seq.val else 0x00#8

/-- `RES.DATA <- (0x01 if STAT.ACKSTAT = 0 else 0x00)` (R266): a free bit decides while no byte has been
transmitted since reset. -/
def actDataFromAckstat (n : Nat) (s : State) : State :=
  let t := setData (if ackstatRead s then 0x00#8 else 0x01#8) s
  goNext n (if s.known.ackstat then t else drawn t)

/-- `IDX <- IDX + 1; RES.COUNT <- IDX` (R250). -/
def actCountByte (n : Nat) (s : State) : State :=
  goNext n { s with
    seq := { s.seq with idx := s.seq.idx + 1#16 }
    res := { s.res with count := s.seq.idx + 1#16 } }

/-- `TMP <- MemRead(CW.PTR + IDX, 1)`; any value once the host has stored into the range (93 U9, log entry 11). -/
def loadByte (ptr : BitVec 16) (s : State) : State :=
  if s.raced then drawn { s with seq := { s.seq with tmp := Config.freeByte s.draws } }
  else { s with seq := { s.seq with tmp := memRead (bufAddr ptr s.seq.idx) s } }

/-- `MemWrite(CW.PTR + IDX, 1, VAL)`; any value once the host has stored into the range (93 U9, log entry 11). -/
def storeByte (ptr : BitVec 16) (s : State) : State :=
  if s.raced then drawn (memWrite (bufAddr ptr s.seq.idx) (Config.freeByte s.draws) s)
  else memWrite (bufAddr ptr s.seq.idx) s.seq.val s

/-- Does `readBytes` store a byte after the STOP (R253) or before what follows its reception (spec/20_memory.md R84)?
What the parameter says, and a free value where it leaves the order open (log entry 24). -/
def storesAfterStop (s : State) : Bool := s.cfg.storeAfterStop.getD Config.freeStoreAfterStop

/-- `storeByte` at the place `late`, if that is where `readBytes` stores. Written field by field: only the memory and
the count of free values depend on an order that is open. -/
def storeIf (late : Bool) (ptr : BitVec 16) (s : State) : State :=
  { s with
    mem := if storesAfterStop s = late then (storeByte ptr s).mem else s.mem
    draws := if storesAfterStop s = late then (storeByte ptr s).draws else s.draws }

/-- One action of a step of `n` actions. -/
def runAct (a : Act) (n : Nat) (s : State) : State :=
  match a with
  | .wIdle => actWIdle n s
  | .setSen => actSetSen n s
  | .holdSen => if s.ctrl.sen then s else goNext n s
  | .setRsen => actSetRsen n s
  | .holdRsen => if s.ctrl.rsen then s else goNext n s
  | .setPen => actSetPen n s
  | .holdPen => actHoldPen n s
  | .load b fail => actLoad n b fail s
  | .holdTx fail => actHoldTx n fail s
  | .setRcen => actSetRcen n s
  | .holdRcen => actHoldRcen n s
  | .setAck d => actSetAck n d s
  | .holdAck => if s.ctrl.acken then s else goNext n s
  | .unlessReadNack dest => if s.cfg.readNack then goNext n s else goTo dest s
  | .returnVal => goNext n { s with seq := { s.seq with val := returned s } }
  | .returnTmp => goNext n { s with seq := { s.seq with tmp := returned s } }
  | .dataFromVal => goNext n (setData s.seq.val s)
  | .dataFromAckstat => actDataFromAckstat n s
  | .insert bs len v =>
      goNext n { s with seq := { s.seq with tmp := insertField bs len s.seq.tmp v } }
  | .extract bs len => goNext n (setData (extractField bs len s.seq.tmp) s)
  | .ifFailed dest => if s.seq.out = .success then goNext n s else goTo dest s
  | .ifIdxIsLen len dest => if s.seq.idx = len then goTo dest s else goNext n s
  | .unlessIdxBelowLen len dest => if s.seq.idx.toNat < len.toNat then goNext n s else goTo dest s
  | .goto dest => goTo dest s
  | .readBuf ptr => goNext n (loadByte ptr s)
  | .writeBuf ptr => goNext n (storeByte ptr s)
  | .storeIf late ptr => goNext n (storeIf late ptr s)
  | .countByte => actCountByte n s
  | .ifBcol dest => if s.stat.bcol then goTo dest (setOut .busCollision s) else goNext n s
  | .done => completeCommand s

/-- The step at `UPC`, if the micro-program has one. -/
def stepAt (prog : List Step) (s : State) : Option Step := prog[s.seq.upc.toNat]?

/-- The action the sequencer is at, with the number of actions of its step. -/
def actAt (prog : List Step) (s : State) : Option (Act × Nat) :=
  match stepAt prog s with
  | none => none
  | some st =>
    match st[s.seq.sub]? with
    | none => none
    | some a => some (a, st.length)

/-- The sequencer performs the action it is at (R83). -/
def seqTick (prog : List Step) (s : State) : State :=
  match actAt prog s with
  | none => s
  | some (a, n) => runAct a n s

/-- One tick of the block while a command runs: the engine's next phase while an engine operation is in
progress, else the sequencer's next action; never both (R13, R60). -/
def tick (prog : List Step) (d : Drive) (s : State) : State :=
  if s.eng.eop = .none then seqTick prog s else enginePhase d s

/-- Run the block under the drives that stand at the head of the inputs, one tick a drive, until the
command completes or the next input is no drive; what is left stays in `inputs` (log entry 3). -/
def runTicks (prog : List Step) : List Input → State → State
  | .drive d :: rest, s =>
    if s.seq.busy then runTicks prog rest (tick prog d s)
    else { s with inputs := .drive d :: rest }
  | ins, s => { s with inputs := ins }

/-! Acceptance (spec/30_encoding.md R120, spec/60_exceptions.md R291, R293). -/

/-- Steps 1 to 3 of R120, which no word passes unless the state does: ignored after a fatal fault,
`Reentry` while a command runs, `ModuleDisabled` while `MODEN = 0`. While `rst` is asserted the host's
accesses are ignored (spec/70_reset_and_hazards.md R310). A state with `BUSY = 0` that is no
launch state is refused (93 U13), as is `TIMEOUT` other than `none` (R9). -/
def gate (s : State) (go : State → Host.Outcome State Fault Refusal) :
    Host.Outcome State Fault Refusal :=
  if s.cfg.timeout ≠ none then .refused .timeoutVariant
  else if s.rst then .next s
  else if s.seq.fatal then .next s
  else if s.seq.busy then .next (raiseFatal .reentry s)
  else if !launchOk s then .refused .notLaunchState
  else if !s.ctrl.moden then .next (raiseFatal .moduleDisabled s)
  else go s

/-- The buffer range of a burst command, `PTR` and `LEN` (R116). -/
def burstRange : Instr → Option (BitVec 16 × BitVec 16)
  | .writeBytes _ _ ptr len => some (ptr, len)
  | .readBytes _ _ ptr len => some (ptr, len)
  | .ldPageWrite _ _ ptr len => some (ptr, len)
  | .ldSequentialRead _ _ ptr len => some (ptr, len)
  | _ => none

/-- Step 7 of R120: the whole buffer range of a burst is admitted (R289). -/
def bufferOk (i : Instr) (s : State) : Bool :=
  match burstRange i with
  | none => true
  | some (ptr, len) => rangeAdmitted s.cfg.bufValid ptr len

/-- The legality table of R291. -/
def preOk (i : Instr) (s : State) : Bool :=
  let b := s.seq.bstate
  match i with
  | .waitIdle => true
  | .ackStatus => true
  | .start => b == .idle
  | .restart => b == .dataPhase && !s.eng.ackpend
  | .stop => b == .start || b == .restart || b == .addressPhase || b == .dataPhase
  | .writeByte _ =>
      (b == .start || b == .restart || b == .addressPhase || b == .dataPhase) && !s.eng.ackpend
  | .readByte => (b == .addressPhase || b == .dataPhase) && !s.eng.ackpend
  | .sendAck => b == .dataPhase && s.eng.ackpend
  | .sendNotAck => b == .dataPhase && s.eng.ackpend
  | .writeRegister _ _ _ => b == .idle
  | .readRegister _ _ => b == .idle
  | .writeRegisterWide _ _ _ => b == .idle
  | .writeBitField _ _ _ _ _ => b == .idle
  | .readBitField _ _ _ _ => b == .idle
  | .writeSingleBit _ _ _ _ => b == .idle
  | .readSingleBit _ _ _ => b == .idle
  | .writeBytes _ _ _ _ => b == .idle
  | .readBytes _ _ _ _ => b == .idle
  | .ldWrite _ _ _ => b == .idle
  | .ldRead _ _ => b == .idle
  | .ldPageWrite _ _ _ _ => b == .idle
  | .ldSequentialRead _ _ _ _ => b == .idle

/-- The host's write of command `i` to `CMD`: acceptance (R120), then the micro-program runs as far as
the inputs carry it. -/
def issue (i : Instr) (prog : List Step) (s : State) : Host.Outcome State Fault Refusal :=
  gate s fun s =>
    if !i.wellFormed then .next (raiseFatal .illegalOperand s)
    else if !bufferOk i s then .next (raiseFatal .bufferFault s)
    else if !preOk i s then .next (raiseFatal .sequenceFault s)
    else .next (runTicks prog s.inputs (acceptCommand (encode i) s))

end Sys2Proof.Machine
end

