-- ==== Sys2Proof/Machine/BurstTransfer.lean ====
section
/-! DEFINITION. The commands of spec/44_burst_transfer.md: micro-programs and meanings of the register
bursts, the low-density family and `ackStatus`. -/

namespace Sys2Proof.Machine

/-- R251: one full register write per byte, at the same `reg` every time (R252). -/
def progWriteBytes (dev : BitVec 7) (reg ptr len : BitVec 16) : List Step :=
  [[.ifIdxIsLen len ⟨4#8, 0⟩],
   [.readBuf ptr],
   xWriteReg 2#8 dev (reg8 reg) .tmp ++ [.ifFailed ⟨4#8, 0⟩],
   [.countByte, .goto ⟨0#8, 0⟩],
   [.done]]

/-- R253: one full register read per byte, at the same `reg` every time (R252). The byte is stored right after it
is received, before the not-acknowledge or the STOP, as spec/20_memory.md R84 says, or at step 2 as R253 prints
it: `storesAfterStop` says which, a free value while the parameter leaves it open (log entry 24). -/
def progReadBytes (dev : BitVec 7) (reg ptr len : BitVec 16) : List Step :=
  [[.ifIdxIsLen len ⟨4#8, 0⟩],
   xReadRegWith 1#8 dev (reg8 reg) [.storeIf false ptr] ++ [.returnVal, .ifFailed ⟨4#8, 0⟩],
   [.storeIf true ptr],
   [.countByte, .goto ⟨0#8, 0⟩],
   [.done]]

/-- R258. -/
def progLdWrite (ctrl addr data : BitVec 8) : List Step :=
  [[.wIdle],
   cStart,
   tx (.lit ctrl) ⟨5#8, 0⟩,
   tx (.lit addr) ⟨5#8, 0⟩,
   tx (.lit data) ⟨5#8, 0⟩,
   [.wIdle],
   cStop,
   [.done]]

/-- R260: always ends in a not-acknowledge, whatever `READ_NACK` is. -/
def progLdRead (ctrl addr : BitVec 8) : List Step :=
  [[.wIdle],
   cStart,
   tx (.lit ctrl) ⟨9#8, 0⟩,
   tx (.lit addr) ⟨9#8, 0⟩,
   [.wIdle],
   cRestart,
   tx (.lit (ctrlRead ctrl)) ⟨9#8, 0⟩,
   rx ++ [.dataFromVal],
   ack true,
   [.wIdle],
   cStop,
   [.done]]

/-- R262. -/
def progLdPageWrite (ctrl addr : BitVec 8) (ptr len : BitVec 16) : List Step :=
  [[.wIdle],
   cStart,
   tx (.lit ctrl) ⟨8#8, 0⟩,
   tx (.lit addr) ⟨8#8, 0⟩,
   [.ifIdxIsLen len ⟨8#8, 0⟩],
   [.readBuf ptr],
   tx .tmp ⟨8#8, 0⟩,
   [.wIdle, .countByte, .goto ⟨4#8, 0⟩],
   [.wIdle],
   cStop,
   [.done]]

/-- R264. -/
def progLdSequentialRead (ctrl addr : BitVec 8) (ptr len : BitVec 16) : List Step :=
  [[.wIdle],
   cStart,
   tx (.lit ctrl) ⟨12#8, 0⟩,
   tx (.lit addr) ⟨12#8, 0⟩,
   [.wIdle],
   cRestart,
   tx (.lit (ctrlRead ctrl)) ⟨12#8, 0⟩,
   rx,
   [.writeBuf ptr, .countByte],
   [.ifBcol ⟨12#8, 0⟩],
   [.unlessIdxBelowLen len ⟨11#8, 0⟩] ++ ack false ++ [.goto ⟨7#8, 0⟩],
   ack true,
   [.wIdle],
   cStop,
   [.done]]

/-- R266. -/
def progAckStatus : List Step := [[.dataFromAckstat], [.done]]

/-- `writeBytes(dev, reg, ptr, len)` (R251). -/
def execWriteBytes (dev : BitVec 7) (reg ptr len : BitVec 16) (s : State) :
    Host.Outcome State Fault Refusal :=
  issue (.writeBytes dev reg ptr len) (progWriteBytes dev reg ptr len) s

/-- `readBytes(dev, reg, ptr, len)` (R253). -/
def execReadBytes (dev : BitVec 7) (reg ptr len : BitVec 16) (s : State) :
    Host.Outcome State Fault Refusal :=
  issue (.readBytes dev reg ptr len) (progReadBytes dev reg ptr len) s

/-- `ldWrite(ctrl, addr, data)` (R258). -/
def execLdWrite (ctrl addr data : BitVec 8) (s : State) : Host.Outcome State Fault Refusal :=
  issue (.ldWrite ctrl addr data) (progLdWrite ctrl addr data) s

/-- `ldRead(ctrl, addr)` (R260). -/
def execLdRead (ctrl addr : BitVec 8) (s : State) : Host.Outcome State Fault Refusal :=
  issue (.ldRead ctrl addr) (progLdRead ctrl addr) s

/-- `ldPageWrite(ctrl, addr, ptr, len)` (R262). -/
def execLdPageWrite (ctrl addr : BitVec 8) (ptr len : BitVec 16) (s : State) :
    Host.Outcome State Fault Refusal :=
  issue (.ldPageWrite ctrl addr ptr len) (progLdPageWrite ctrl addr ptr len) s

/-- `ldSequentialRead(ctrl, addr, ptr, len)` (R264). -/
def execLdSequentialRead (ctrl addr : BitVec 8) (ptr len : BitVec 16) (s : State) :
    Host.Outcome State Fault Refusal :=
  issue (.ldSequentialRead ctrl addr ptr len) (progLdSequentialRead ctrl addr ptr len) s

/-- `ackStatus()` (R266). -/
def execAckStatus (s : State) : Host.Outcome State Fault Refusal := issue .ackStatus progAckStatus s

end Sys2Proof.Machine
end

