-- ==== Sys2Proof/Machine/BusController.lean ====
section
/-! DEFINITION. The commands of spec/41_bus_controller.md: micro-programs and meanings of `waitIdle`,
`start`, `restart`, `stop`. -/

namespace Sys2Proof.Machine

/-- R185. -/
def progWaitIdle : List Step := [[.wIdle], [.done]]
/-- R186. -/
def progStart : List Step := [cStart, [.done]]
/-- R187. -/
def progRestart : List Step := [cRestart, [.done]]
/-- R188. -/
def progStop : List Step := [cStop, [.done]]

/-- `waitIdle()` (R185). -/
def execWaitIdle (s : State) : Host.Outcome State Fault Refusal := issue .waitIdle progWaitIdle s
/-- `start()` (R186). -/
def execStart (s : State) : Host.Outcome State Fault Refusal := issue .start progStart s
/-- `restart()` (R187). -/
def execRestart (s : State) : Host.Outcome State Fault Refusal := issue .restart progRestart s
/-- `stop()` (R188). -/
def execStop (s : State) : Host.Outcome State Fault Refusal := issue .stop progStop s

end Sys2Proof.Machine
end

