-- ==== Sys2Proof/Machine/ByteTransceiver.lean ====
section
/-! DEFINITION. The commands of spec/42_byte_transceiver.md: micro-programs and meanings of `writeByte`,
`readByte`, `sendAck`, `sendNotAck`. -/

namespace Sys2Proof.Machine

/-- R204. -/
def progWriteByte (b : BitVec 8) : List Step := [tx (.lit b) ⟨1#8, 0⟩, [.done]]
/-- R205. -/
def progReadByte : List Step := [rx ++ [.dataFromVal], [.done]]
/-- R206. -/
def progSendAck : List Step := [ack false, [.done]]
/-- R207. -/
def progSendNotAck : List Step := [ack true, [.done]]

/-- `writeByte(b)` (R204). -/
def execWriteByte (b : BitVec 8) (s : State) : Host.Outcome State Fault Refusal :=
  issue (.writeByte b) (progWriteByte b) s
/-- `readByte()` (R205). -/
def execReadByte (s : State) : Host.Outcome State Fault Refusal := issue .readByte progReadByte s
/-- `sendAck()` (R206). -/
def execSendAck (s : State) : Host.Outcome State Fault Refusal := issue .sendAck progSendAck s
/-- `sendNotAck()` (R207). -/
def execSendNotAck (s : State) : Host.Outcome State Fault Refusal :=
  issue .sendNotAck progSendNotAck s

end Sys2Proof.Machine
end

