-- ==== Sys2Proof/Machine/RegisterAccessor.lean ====
section
/-! DEFINITION. The commands of spec/43_register_accessor.md: micro-programs and meanings of
`writeRegister`, `readRegister`, `writeRegisterWide`, the bit-field and the single-bit commands. -/

namespace Sys2Proof.Machine

/-- R223. -/
def progWriteRegister (dev : BitVec 7) (reg : BitVec 16) (data : BitVec 8) : List Step :=
  [xWriteReg 0#8 dev (reg8 reg) (.lit data), [.done]]

/-- R225. -/
def progReadRegister (dev : BitVec 7) (reg : BitVec 16) : List Step :=
  [xReadReg 0#8 dev (reg8 reg) ++ [.returnVal, .dataFromVal], [.done]]

/-- R227: two transactions, high byte first; the second is not begun if the first failed. -/
def progWriteRegisterWide (dev : BitVec 7) (reg data16 : BitVec 16) : List Step :=
  [xWriteReg 0#8 dev (reg8 reg) (.lit (highByte data16)) ++ [.ifFailed ⟨2#8, 0⟩],
   xWriteReg 1#8 dev (regNext8 reg) (.lit (lowByte data16)),
   [.done]]

/-- R230: read, insert, write back; two transactions, never merged (R231). -/
def progWriteField (dev : BitVec 7) (reg : BitVec 16) (bitStart length : Nat) (value : BitVec 8) :
    List Step :=
  [xReadReg 0#8 dev (reg8 reg) ++ [.returnTmp, .ifFailed ⟨3#8, 0⟩],
   [.insert bitStart length value],
   xWriteReg 2#8 dev (reg8 reg) .tmp,
   [.done]]

/-- R232: read, extract. -/
def progReadField (dev : BitVec 7) (reg : BitVec 16) (bitStart length : Nat) : List Step :=
  [xReadReg 0#8 dev (reg8 reg) ++ [.returnTmp, .ifFailed ⟨2#8, 0⟩],
   [.extract bitStart length],
   [.done]]

/-- R230. -/
def progWriteBitField (dev : BitVec 7) (reg : BitVec 16) (bitStart : BitVec 3) (length : BitVec 4)
    (value : BitVec 8) : List Step :=
  progWriteField dev reg bitStart.toNat length.toNat value

/-- R232. -/
def progReadBitField (dev : BitVec 7) (reg : BitVec 16) (bitStart : BitVec 3) (length : BitVec 4) :
    List Step :=
  progReadField dev reg bitStart.toNat length.toNat

/-- R234: the program of R230 with `length = 1`; bits 7:1 of the value are dropped by the mask. -/
def progWriteSingleBit (dev : BitVec 7) (reg : BitVec 16) (bitNum : BitVec 3) (value : BitVec 8) :
    List Step :=
  progWriteField dev reg bitNum.toNat 1 value

/-- R235: the program of R232 with `length = 1`. -/
def progReadSingleBit (dev : BitVec 7) (reg : BitVec 16) (bitNum : BitVec 3) : List Step :=
  progReadField dev reg bitNum.toNat 1

/-- `writeRegister(dev, reg, data)` (R223). -/
def execWriteRegister (dev : BitVec 7) (reg : BitVec 16) (data : BitVec 8) (s : State) :
    Host.Outcome State Fault Refusal :=
  issue (.writeRegister dev reg data) (progWriteRegister dev reg data) s

/-- `readRegister(dev, reg)` (R225). -/
def execReadRegister (dev : BitVec 7) (reg : BitVec 16) (s : State) :
    Host.Outcome State Fault Refusal :=
  issue (.readRegister dev reg) (progReadRegister dev reg) s

/-- `writeRegisterWide(dev, reg, data16)` (R227). -/
def execWriteRegisterWide (dev : BitVec 7) (reg data16 : BitVec 16) (s : State) :
    Host.Outcome State Fault Refusal :=
  issue (.writeRegisterWide dev reg data16) (progWriteRegisterWide dev reg data16) s

/-- `writeBitField(dev, reg, bitStart, length, value)` (R230). -/
def execWriteBitField (dev : BitVec 7) (reg : BitVec 16) (bitStart : BitVec 3) (length : BitVec 4)
    (value : BitVec 8) (s : State) : Host.Outcome State Fault Refusal :=
  issue (.writeBitField dev reg bitStart length value)
    (progWriteBitField dev reg bitStart length value) s

/-- `readBitField(dev, reg, bitStart, length)` (R232). -/
def execReadBitField (dev : BitVec 7) (reg : BitVec 16) (bitStart : BitVec 3) (length : BitVec 4)
    (s : State) : Host.Outcome State Fault Refusal :=
  issue (.readBitField dev reg bitStart length) (progReadBitField dev reg bitStart length) s

/-- `writeSingleBit(dev, reg, bitNum, value)` (R234). -/
def execWriteSingleBit (dev : BitVec 7) (reg : BitVec 16) (bitNum : BitVec 3) (value : BitVec 8)
    (s : State) : Host.Outcome State Fault Refusal :=
  issue (.writeSingleBit dev reg bitNum value) (progWriteSingleBit dev reg bitNum value) s

/-- `readSingleBit(dev, reg, bitNum)` (R235). -/
def execReadSingleBit (dev : BitVec 7) (reg : BitVec 16) (bitNum : BitVec 3) (s : State) :
    Host.Outcome State Fault Refusal :=
  issue (.readSingleBit dev reg bitNum) (progReadSingleBit dev reg bitNum) s

end Sys2Proof.Machine
end

