-- ==== Sys2Proof/Machine/Dispatch.lean ====
section
/-! DEFINITION. One arm per command: each calls its meaning. -/

namespace Sys2Proof.Machine

def exec (i : Instr) (s : State) : Host.Outcome State Fault Refusal :=
  match i with
  | .waitIdle => Sys2Proof.Machine.execWaitIdle s
  | .start => Sys2Proof.Machine.execStart s
  | .restart => Sys2Proof.Machine.execRestart s
  | .stop => Sys2Proof.Machine.execStop s
  | .writeByte b => Sys2Proof.Machine.execWriteByte b s
  | .readByte => Sys2Proof.Machine.execReadByte s
  | .sendAck => Sys2Proof.Machine.execSendAck s
  | .sendNotAck => Sys2Proof.Machine.execSendNotAck s
  | .ackStatus => Sys2Proof.Machine.execAckStatus s
  | .writeRegister dev reg data => Sys2Proof.Machine.execWriteRegister dev reg data s
  | .readRegister dev reg => Sys2Proof.Machine.execReadRegister dev reg s
  | .writeRegisterWide dev reg data16 => Sys2Proof.Machine.execWriteRegisterWide dev reg data16 s
  | .writeBitField dev reg bitStart length value => Sys2Proof.Machine.execWriteBitField dev reg bitStart length value s
  | .readBitField dev reg bitStart length => Sys2Proof.Machine.execReadBitField dev reg bitStart length s
  | .writeSingleBit dev reg bitNum value => Sys2Proof.Machine.execWriteSingleBit dev reg bitNum value s
  | .readSingleBit dev reg bitNum => Sys2Proof.Machine.execReadSingleBit dev reg bitNum s
  | .writeBytes dev reg ptr len => Sys2Proof.Machine.execWriteBytes dev reg ptr len s
  | .readBytes dev reg ptr len => Sys2Proof.Machine.execReadBytes dev reg ptr len s
  | .ldWrite ctrl addr data => Sys2Proof.Machine.execLdWrite ctrl addr data s
  | .ldRead ctrl addr => Sys2Proof.Machine.execLdRead ctrl addr s
  | .ldPageWrite ctrl addr ptr len => Sys2Proof.Machine.execLdPageWrite ctrl addr ptr len s
  | .ldSequentialRead ctrl addr ptr len => Sys2Proof.Machine.execLdSequentialRead ctrl addr ptr len s

end Sys2Proof.Machine
end

