-- ==== Sys2Proof/Machine/HostPort.lean ====
section
/-! DEFINITION. The host port (spec/10_state.md R21, R31, R40, R49; spec/60_exceptions.md R287, R292,
R293), the host's own buffer memory (spec/20_memory.md R73, R85), and one step of the machine over its
next input. Sys2Proof/Machine/Step.lean only calls this file. -/

namespace Sys2Proof.Machine

/-- The micro-program of a command, for going on with a command in progress. -/
def program : Instr → List Step
  | .waitIdle => progWaitIdle
  | .start => progStart
  | .restart => progRestart
  | .stop => progStop
  | .writeByte b => progWriteByte b
  | .readByte => progReadByte
  | .sendAck => progSendAck
  | .sendNotAck => progSendNotAck
  | .ackStatus => progAckStatus
  | .writeRegister dev reg data => progWriteRegister dev reg data
  | .readRegister dev reg => progReadRegister dev reg
  | .writeRegisterWide dev reg data16 => progWriteRegisterWide dev reg data16
  | .writeBitField dev reg bitStart length value => progWriteBitField dev reg bitStart length value
  | .readBitField dev reg bitStart length => progReadBitField dev reg bitStart length
  | .writeSingleBit dev reg bitNum value => progWriteSingleBit dev reg bitNum value
  | .readSingleBit dev reg bitNum => progReadSingleBit dev reg bitNum
  | .writeBytes dev reg ptr len => progWriteBytes dev reg ptr len
  | .readBytes dev reg ptr len => progReadBytes dev reg ptr len
  | .ldWrite ctrl addr data => progLdWrite ctrl addr data
  | .ldRead ctrl addr => progLdRead ctrl addr
  | .ldPageWrite ctrl addr ptr len => progLdPageWrite ctrl addr ptr len
  | .ldSequentialRead ctrl addr ptr len => progLdSequentialRead ctrl addr ptr len

/-- `HostWrite(0, v)` with `FATAL = BUSY = 0` (R31): only `MODEN` and `BAUD` are taken. -/
def writeCtrl (v : BitVec 64) (s : State) : State :=
  if !v.getLsbD 6 && s.ctrl.moden && transactionOpen s then raiseFatal .sequenceFault s
  else { s with ctrl := { s.ctrl with moden := v.getLsbD 6, baud := v.extractLsb' 8 8 } }

/-- `HostWrite(1, v)` with `FATAL = BUSY = 0` (R40): write 0 to clear `WCOL`, `RXOV`, `BCOL`. -/
def writeStat (v : BitVec 64) (s : State) : State :=
  { s with stat := { s.stat with
      wcol := s.stat.wcol && v.getLsbD 4
      rxov := s.stat.rxov && v.getLsbD 5
      bcol := s.stat.bcol && v.getLsbD 6 } }

/-- The fatal fault of a word that is no command (R117, R118). -/
def decodeFatal : DecodeError → FatalCode
  | .illegalOpcode => .illegalOpcode
  | .illegalOperand => .illegalOperand

/-- `HostWrite(4, w)` (R49, R120): a command is executed; any other word is a fatal fault, unless steps
1 to 3 decide before the word is looked at. -/
def writeCmd (w : CmdWord) (s : State) : Host.Outcome State Fault Refusal :=
  match decode w with
  | .ok i => exec i s
  | .error e => gate s fun s => .next (raiseFatal (decodeFatal e) s)

/-- `HostWrite(idx, v)`, judged in the order of R293: ignored after a fatal fault, `Reentry` while a
command runs, `BadPort` for an index that takes no write, else the register's own rule. Ignored while `rst`
is asserted (R310). -/
def hostWrite (idx : BitVec 3) (v : BitVec 64) (s : State) : Host.Outcome State Fault Refusal :=
  if idx = 4#3 then writeCmd v s
  else if s.rst then .next s
  else if s.seq.fatal then .next s
  else if s.seq.busy then .next (raiseFatal .reentry s)
  else if idx = 0#3 then .next (writeCtrl v s)
  else if idx = 1#3 then .next (writeStat v s)
  else .next (raiseFatal .badPort s)

/-- Put a value on `hp_rdata`, zero-extended (R57). -/
def setRdata (v : BitVec 64) (s : State) : State := { s with hpRdata := v }

/-- `HostRead(idx)` (R21): free of side effects on the block; index 4 and 7 return 0. A read of
`ACKSTAT`, `TXB` or `RXB` before anything has written it is a draw (R63). Ignored while `rst` is asserted
(R310): the read data stays. -/
def hostRead (idx : BitVec 3) (s : State) : State :=
  if s.rst then s
  else if idx = 0#3 then setRdata ((ctrlWord s.ctrl).setWidth 64) s
  else if idx = 1#3 then
    let t := setRdata ((statWord s.stat (ackstatRead s)).setWidth 64) s
    if s.known.ackstat then t else drawn t
  else if idx = 2#3 then
    let t := setRdata ((txbRead s).setWidth 64) s
    if s.known.txb then t else drawn t
  else if idx = 3#3 then
    let t := setRdata ((rxbRead s).setWidth 64) s
    if s.known.rxb then t else drawn t
  else if idx = 5#3 then setRdata ((resWord s.res).setWidth 64) s
  else if idx = 6#3 then setRdata ((seqstatWord s.seq).setWidth 64) s
  else setRdata 0#64 s

/-- The commands that store to the buffer memory (R73). -/
def storesBuffer : Instr → Bool
  | .readBytes _ _ _ _ | .ldSequentialRead _ _ _ _ => true
  | .waitIdle | .start | .restart | .stop | .writeByte _ | .readByte | .sendAck | .sendNotAck
  | .ackStatus | .writeRegister _ _ _ | .readRegister _ _ | .writeRegisterWide _ _ _
  | .writeBitField _ _ _ _ _ | .readBitField _ _ _ _ | .writeSingleBit _ _ _ _ | .readSingleBit _ _ _
  | .writeBytes _ _ _ _ | .ldWrite _ _ _ | .ldRead _ _ | .ldPageWrite _ _ _ _ => false

/-- Is `a` in the buffer range `PTR .. PTR + LEN - 1` of a burst in progress (R73, R85)? -/
def inRunningBurst (a : BitVec 16) (s : State) : Bool :=
  s.seq.busy &&
    match decode s.seq.cw with
    | .error _ => false
    | .ok i =>
      match burstRange i with
      | none => false
      | some (ptr, len) => decide (ptr.toNat ≤ a.toNat) && decide (a.toNat < ptr.toNat + len.toNat)

/-- The burst in progress stores to the buffer memory. -/
def fillsBuffer (s : State) : Bool :=
  match decode s.seq.cw with
  | .error _ => false
  | .ok i => storesBuffer i

/-- The host stores into its buffer memory. Into the range of a burst in progress it must not (R85, R327), and if
it does what is transferred is any value (93 U9): every byte the burst transfers from then on is free
(`raced`), and so is the byte stored where the burst stores too (log entry 11). -/
def hostBufWrite (a : BitVec 16) (v : BitVec 8) (s : State) : State :=
  if inRunningBurst a s then
    { (if fillsBuffer s then drawn (memWrite a (Config.freeByte s.draws) s) else memWrite a v s) with
      raced := true }
  else memWrite a v s

/-- The host loads from its buffer memory; what it finds in the range of a burst in progress is any
value (R85, R327, 93 U9). -/
def hostBufRead (a : BitVec 16) (s : State) : State :=
  if inRunningBurst a s then drawn (setRdata ((Config.freeByte s.draws).setWidth 64) s)
  else setRdata ((memRead a s).setWidth 64) s

/-- A state with `BUSY = 1` that the rules say how to go on from (R294): `CW` holds a command whose
operands are in order, the sequencer is at an action of its micro-program, and `PHASE` is a phase of
the engine operation in progress, if there is one (R54). -/
def runningOk (i : Instr) (s : State) : Bool :=
  i.wellFormed && (actAt (program i) s).isSome &&
    (decide (s.eng.eop = .none) || decide (phaseOp s.eng.phase = s.eng.eop))

/-- Go on with the command in progress under the drives listed in `ins`. -/
def resume (ins : List Input) (s : State) : Host.Outcome State Fault Refusal :=
  match decode s.seq.cw with
  | .error _ => .refused .noRule
  | .ok i => if runningOk i s then .next (runTicks (program i) ins s) else .refused .noRule

/-- One step of the machine over its next input. With no input listed, a command in progress gets one
tick under free drives (R11, R160), and a quiescent block does nothing (R311). While `rst` is asserted the block
takes no step and ignores the host (R310). In a state with `BUSY = 0` outside R61, an engine operation in
progress say, of which no rule speaks, a drive passes and the engine takes no phase (DESIGN CHOICE, log entry 25). -/
def stepInput (s : State) : Host.Outcome State Fault Refusal :=
  if s.cfg.timeout ≠ none then .refused .timeoutVariant
  else
    match s.inputs with
    | [] => if s.seq.busy && !s.rst then resume [.drive (freeDrive s)] (drawn s) else .next s
    | .drive d :: rest =>
      if s.seq.busy && !s.rst then resume (.drive d :: rest) s else .next { s with inputs := rest }
    | .hostWrite idx v :: rest => hostWrite idx v { s with inputs := rest }
    | .hostRead idx :: rest => .next (hostRead idx { s with inputs := rest })
    | .bufWrite a v :: rest => .next (hostBufWrite a v { s with inputs := rest })
    | .bufRead a :: rest => .next (hostBufRead a { s with inputs := rest })
    | .rst :: rest => .next (resetBlock { s with inputs := rest })
    | .rstRelease :: rest => .next { s with inputs := rest, rst := false }

/-- The command word `w` (its bits above `nbits` zero) stands next at the host port: the host writes it
to `CMD`, with `rst` released and the module enabled, as R312 requires of any command (log entry 13). -/
def presentWord (nbits w : Nat) (s : State) : State :=
  { s with
    ctrl := { s.ctrl with moden := true }
    rst := false
    inputs := .hostWrite 4#3 (BitVec.ofNat 64 (w % 2 ^ nbits)) :: s.inputs }

end Sys2Proof.Machine
end

