-- ==== Sys2Proof/Machine/Step.lean ====
section
/-! DEFINITION. One step of the machine, and the placing of a command word where the next step takes it. -/

namespace Sys2Proof.Machine

/-- One step over the next input (Sys2Proof/Machine/HostPort.lean). -/
def step (s : State) : Host.Outcome State Fault Refusal := stepInput s

/-- `s` with the command word `w` standing next at the host port. -/
def State.withFetchWord (s : State) (nbits w : Nat) : State := presentWord nbits w s

end Sys2Proof.Machine
end

