-- ==== Sys2Proof/Machine/EventLevel.lean ====
section
/-! DEFINITION. The event level (spec/40_line_engine.md R158): each engine operation as one atomic
transition with its draws, beside the wire level of Sys2Proof/Machine/LineEngine.lean, and the
reference device of spec/20_memory.md R90 to R93, which is no part of the block. The machine steps at
the wire level; the statements say that the two levels agree (R12). -/

namespace Sys2Proof.Machine

/-- `GenStart` as one event (R158). -/
def eventGenStart (s : State) : State :=
  emit .S { s with
    ctrl := { s.ctrl with sen := false }
    eng := { s.eng with eop := .none, phase := .none, ackpend := false, sdaLow := true, sclLow := true } }

/-- `GenRestart` as one event; `c` is the collision draw (R158). -/
def eventGenRestart (c : Bool) (s : State) : State :=
  emit .Sr { s with
    ctrl := { s.ctrl with rsen := false }
    stat := { s.stat with bcol := s.stat.bcol || c }
    eng := { s.eng with eop := .none, phase := .none, ackpend := false, sdaLow := true, sclLow := true } }

/-- `GenStop` as one event; `c` is the collision draw (R158). -/
def eventGenStop (c : Bool) (s : State) : State :=
  emit .P { s with
    ctrl := { s.ctrl with pen := false }
    stat := { s.stat with bcol := s.stat.bcol || c }
    seq := { s.seq with bstate := .idle }
    eng := { s.eng with eop := .none, phase := .none, ackpend := false, sdaLow := false, sclLow := false } }

/-- `Transmit` of `TXB` as one event; `a` is the acknowledge draw, `c` the collision draw (R158). -/
def eventTransmit (a c : Bool) (s : State) : State :=
  emit (.Tx s.txb a) { s with
    stat := { s.stat with ackstat := a, bcol := s.stat.bcol || c, tbf := false, trun := false }
    known := { s.known with ackstat := true }
    eng := { s.eng with eop := .none, phase := .none, sdaLow := false, sclLow := true } }

/-- `Receive` as one event; `v` is the byte drawn (R158). -/
def eventReceive (v : BitVec 8) (s : State) : State :=
  emit (.Rx v) { s with
    ctrl := { s.ctrl with rcen := false }
    rxb := if s.stat.rbf then s.rxb else v
    known := { s.known with rxb := s.known.rxb || !s.stat.rbf }
    stat := { s.stat with rbf := true, rxov := s.stat.rxov || s.stat.rbf }
    eng := { s.eng with eop := .none, phase := .none, ackpend := true, sdaLow := false, sclLow := true } }

/-- `AckSeq` as one event; `c` is the collision draw (R158). -/
def eventAckSeq (c : Bool) (s : State) : State :=
  emit (.Ak s.ctrl.ackdt) { s with
    ctrl := { s.ctrl with acken := false }
    stat := { s.stat with bcol := s.stat.bcol || c }
    eng := { s.eng with eop := .none, phase := .none, ackpend := false, sdaLow := false, sclLow := true } }

/-- What the event level sees of a state: `SR` and `BITCNT` do not exist there (R54, R159). -/
def eventView (s : State) : State := { s with eng := { s.eng with sr := 0x00#8, bitcnt := 0#4 } }

/-- The engine alone, one phase a drive, until its operation is over. -/
def engineRun : List Drive → State → State
  | [], s => s
  | d :: ds, s => if s.eng.eop = .none then s else engineRun ds (enginePhase d s)

/-! The reference target `RefTarget(A, mem)` (R90 to R93): an environment for statements about data. -/

/-- `sel` of the reference target (R91). -/
inductive TargetSel where
  | none | awaitReg | writing | reading
  deriving DecidableEq, Repr

/-- The reference target's state (R91): its address, its 256 bytes, its pointer, `sel`, and whether the
next `Tx` is an address byte. -/
structure RefTarget where
  addr : BitVec 7
  mem : BitVec 8 → BitVec 8
  p : BitVec 8
  sel : TargetSel
  addressNext : Bool

/-- The acknowledge level the reference target answers a transmitted byte with (R92). -/
def RefTarget.ackLevel (r : RefTarget) (b : BitVec 8) : Bool :=
  if r.addressNext then decide (b.extractLsb' 1 7 ≠ r.addr)
  else match r.sel with
    | .awaitReg => false
    | .writing => false
    | .none => true
    | .reading => true

/-- The byte the reference target sends (R92). -/
def RefTarget.sends (r : RefTarget) : BitVec 8 :=
  match r.sel with
  | .reading => r.mem r.p
  | .none => 0xFF#8
  | .awaitReg => 0xFF#8
  | .writing => 0xFF#8

/-- `RefTarget(A, mem)` at its start (R91): not selected, the pointer at `0x00`. -/
def refTarget (addr : BitVec 7) (mem : BitVec 8 → BitVec 8) : RefTarget :=
  { addr := addr, mem := mem, p := 0x00#8, sel := .none, addressNext := false }

/-- What the reference target does to the two lines at the block's present phase (R91, R92): it never holds SCL low,
it pulls SDA low only to acknowledge, in the acknowledge slot of a byte it acknowledges, and for the 0 bits of
a byte it sends; everywhere else it leaves SDA alone, so it causes no collision. That R91's device does it this
way on the lines is this model's reading (DEDUCED, log entry 18). -/
def RefTarget.drive (r : RefTarget) (s : State) : Drive where
  sclLow := false
  sdaLow :=
    match s.eng.phase with
    | .t9 | .t10 => !r.ackLevel s.txb
    | .va | .vb => !r.sends.getLsbD (7 - s.eng.bitcnt.toNat)
    | _ => false

/-- The engine alone with the reference target on the lines, `n` phases of one operation. -/
def RefTarget.engineRun (r : RefTarget) : Nat → State → State
  | 0, s => s
  | n + 1, s => r.engineRun n (enginePhase (r.drive s) s)

/-- The event is answered as the reference target answers it (R92). -/
def RefTarget.honours (r : RefTarget) : Event → Bool
  | .Tx b a => a == r.ackLevel b
  | .Rx b => b == r.sends
  | .S => true
  | .Sr => true
  | .P => true
  | .Ak _ => true

/-- The reference target after an event (R92). -/
def RefTarget.react (r : RefTarget) : Event → RefTarget
  | .S => { r with sel := .none, addressNext := true }
  | .Sr => { r with sel := .none, addressNext := true }
  | .P => { r with sel := .none }
  | .Ak d => if d then { r with sel := .none } else r
  | .Rx _ => match r.sel with
    | .reading => { r with p := r.p + 1#8 }
    | .none => r
    | .awaitReg => r
    | .writing => r
  | .Tx b _ =>
    if r.addressNext then
      { r with
        addressNext := false
        sel := if b.extractLsb' 1 7 = r.addr then (if b.getLsbD 0 then .reading else .awaitReg)
               else .none }
    else match r.sel with
      | .awaitReg => { r with p := b, sel := .writing }
      | .writing => { r with mem := fun k => if k = r.p then b else r.mem k, p := r.p + 1#8 }
      | .none => r
      | .reading => r

/-- Every event of the list is answered as the reference target, starting from `r`, answers it. -/
def RefTarget.honoursAll (r : RefTarget) : List Event → Bool
  | [] => true
  | e :: es => r.honours e && (r.react e).honoursAll es

/-- The reference target after a list of events. -/
def RefTarget.reactAll (r : RefTarget) : List Event → RefTarget
  | [] => r
  | e :: es => (r.react e).reactAll es

end Sys2Proof.Machine
end

