-- ==== Sys2Proof/Safety.lean ====
section
/-! DEFINITION. What claims are stated in: when a state accepts a command, when the environment lets
every wait of a command end, the bus traces of the transactions, what no run may break (`Inv`), and
the transitions of `BSTATE` the spec allows. -/

namespace Sys2Proof.Machine

/-! Acceptance and progress. -/

/-- Every check of acceptance lets command `i` through in state `s` (R120, R291). -/
def accepts (i : Instr) (s : State) : Prop :=
  s.cfg.timeout = none ∧ s.rst = false ∧ s.seq.fatal = false ∧ s.seq.busy = false ∧
  launchOk s = true ∧ s.ctrl.moden = true ∧ i.wellFormed = true ∧ bufferOk i s = true ∧ preOk i s = true

/-- A state in which the host may write: a launch state (R61), with `rst` released, no fatal fault latched and no
command running, in the baseline of R9. -/
def launch (s : State) : Prop :=
  s.cfg.timeout = none ∧ s.rst = false ∧ s.seq.fatal = false ∧ s.seq.busy = false ∧ launchOk s = true

/-- Does the wait of the engine's present phase, if it is one, end under this drive? The waits are
phase S1 of `GenStart`, which needs both lines free (R150), and every `wait scl_in = 1` (R146). -/
def waitEnds (d : Drive) (s : State) : Bool :=
  if s.eng.eop = .none then true
  else match s.eng.phase with
    | .s1 => !d.sdaLow && !d.sclLow
    | .r2 | .p2 | .tb | .t9 | .va | .a1 => !d.sclLow
    | _ => true

/-- The phases that release SCL and wait for it, each with the phase that follows (R146, R151 to R155). -/
def sclWaits : List (Phase × Phase) :=
  [(.r2, .r3), (.p2, .p3), (.tb, .tc), (.t9, .t10), (.va, .vb), (.a1, .a2)]

/-- Is the present phase a sample point of the bus-collision monitor at which the block intends SDA to be 1
(R147: R3 of R151, P4 of R152, Tc of R153 for a 1 bit, A2 of R155 for a NACK)? -/
def samplePoint (s : State) : Bool :=
  match s.eng.phase with
  | .r3 | .p4 => true
  | .tc => s.eng.sr.getLsbD 7
  | .a2 => s.ctrl.ackdt
  | _ => false

/-- The drives under which `Receive` clocks in the byte `v`, bit 7 first, with no wait (R154, R76). -/
def receiveDrives (v : BitVec 8) : List Drive :=
  [⟨false, false⟩] ++
  (List.range 8).flatMap (fun k => [⟨false, false⟩, ⟨!v.getLsbD (7 - k), false⟩, ⟨false, false⟩]) ++
  [⟨false, false⟩]

/-- The drives `ds` let the block, running `prog` from `s`, make `n` ticks whose wait ends, or complete
before: the environment may hold SCL, or keep the bus busy at a START, as long as it likes in between
(R336: "provided the environment eventually lets SCL rise each time it is released and, for `GenStart`,
eventually leaves the bus free"). -/
def serves (prog : List Step) : List Drive → Nat → State → Bool
  | [], n, s => n == 0 || !s.seq.busy
  | d :: ds, n, s =>
    if n == 0 || !s.seq.busy then true
    else serves prog ds (if waitEnds d s then n - 1 else n) (tick prog d s)

/-- Ticks `XWriteReg` takes when every wait ends at once (R221). -/
def ticksWrite : Nat := 132
/-- Ticks `XReadReg` takes at most when every wait ends at once, the optional acknowledge included
(R224). -/
def ticksRead : Nat := 177

/-- A bound on the ticks with an ending wait that a command needs to complete. -/
def tickBound : Instr → Nat
  | .waitIdle => 2
  | .start => 7
  | .restart => 9
  | .stop => 8
  | .writeByte _ => 40
  | .readByte => 30
  | .sendAck => 8
  | .sendNotAck => 8
  | .ackStatus => 2
  | .writeRegister _ _ _ => ticksWrite + 1
  | .readRegister _ _ => ticksRead + 3
  | .writeRegisterWide _ _ _ => 2 * ticksWrite + 2
  | .writeBitField _ _ _ _ _ => ticksRead + ticksWrite + 4
  | .readBitField _ _ _ _ => ticksRead + 4
  | .writeSingleBit _ _ _ _ => ticksRead + ticksWrite + 4
  | .readSingleBit _ _ _ => ticksRead + 4
  | .writeBytes _ _ _ len => len.toNat * (ticksWrite + 5) + 2
  | .readBytes _ _ _ len => len.toNat * (ticksRead + 7) + 2
  | .ldWrite _ _ _ => 133
  | .ldRead _ _ => 178
  | .ldPageWrite _ _ _ len => len.toNat * 44 + 95
  | .ldSequentialRead _ _ _ len => len.toNat * 40 + 142

/-- The inputs of `s` begin with drives that let command `i`, once accepted, run to its end. -/
def served (i : Instr) (s : State) : Prop :=
  ∃ (ds : List Drive) (rest : List Input), s.inputs = ds.map Input.drive ++ rest ∧
    serves (program i) ds (tickBound i) (acceptCommand (encode i) s) = true

/-! Bus traces (spec/43_register_accessor.md R223, R225; spec/44_burst_transfer.md). -/

/-- The address phase of a transaction: the bytes sent in order with the acknowledge level each met,
cut after the first one not acknowledged. -/
def txTrace : List (BitVec 8 × Bool) → List Event
  | [] => []
  | (b, a) :: rest => .Tx b a :: (if a then [] else txTrace rest)

/-- Some byte sent was not acknowledged. -/
def anyNack (l : List (BitVec 8 × Bool)) : Bool := l.any (fun x => x.2)

/-- The trace of a write transaction (R223): START, the bytes up to the first not acknowledged, STOP. -/
def writeTrace (l : List (BitVec 8 × Bool)) : List Event := [.S] ++ txTrace l ++ [.P]

/-- The outcome of a transaction from the acknowledge levels it met (R220). -/
def ackOutcome (nack : Bool) : Xfer := if nack then .notAcknowledged else .success

/-- The trace of a register-read transaction (R225): `l` are the bytes before the RESTART, `r` the
read-direction byte, `v` the byte received, `nackSent` whether a not-acknowledge follows it. -/
def readTrace (l : List (BitVec 8 × Bool)) (r : BitVec 8 × Bool) (v : BitVec 8) (nackSent : Bool) :
    List Event :=
  if anyNack l then writeTrace l
  else [.S] ++ txTrace l ++ [.Sr] ++
    (if r.2 then [.Tx r.1 true, .P]
     else [.Tx r.1 false, .Rx v] ++ (if nackSent then [.Ak true] else []) ++ [.P])

/-- The read transaction got its byte. -/
def readOk (l : List (BitVec 8 × Bool)) (r : BitVec 8 × Bool) : Bool := !anyNack l && !r.2

/-- The transactions of a write burst of `n` bytes from byte `i` on (spec/44_burst_transfer.md R251): one
write transaction per byte, cut short after the failing one. `l i` are the bytes of transaction `i`. -/
def writesTrace (l : Nat → List (BitVec 8 × Bool)) : Nat → Nat → List Event
  | 0, _ => []
  | n + 1, i => writeTrace (l i) ++ (if anyNack (l i) then [] else writesTrace l n (i + 1))

/-- How many transactions of a write burst were acknowledged throughout (R250, R251). -/
def writesCount (l : Nat → List (BitVec 8 × Bool)) : Nat → Nat → Nat
  | 0, _ => 0
  | n + 1, i => if anyNack (l i) then 0 else 1 + writesCount l n (i + 1)

/-- The transactions of a read burst of `n` bytes from byte `i` on (R253): one read transaction per byte,
cut short after the failing one. -/
def readsTrace (l : Nat → List (BitVec 8 × Bool)) (r : Nat → BitVec 8 × Bool) (v : Nat → BitVec 8)
    (nackSent : Bool) : Nat → Nat → List Event
  | 0, _ => []
  | n + 1, i => readTrace (l i) (r i) (v i) nackSent ++
      (if readOk (l i) (r i) then readsTrace l r v nackSent n (i + 1) else [])

/-- How many transactions of a read burst got their byte (R250, R253). -/
def readsCount (l : Nat → List (BitVec 8 × Bool)) (r : Nat → BitVec 8 × Bool) : Nat → Nat → Nat
  | 0, _ => 0
  | n + 1, i => if readOk (l i) (r i) then 1 + readsCount l r n (i + 1) else 0

/-- `n` bytes received in one transaction from byte `i` on, an acknowledge after each but the last
(R264, R265). -/
def sequentialTrace (v : Nat → BitVec 8) : Nat → Nat → List Event
  | 0, _ => []
  | 1, i => [.Rx (v i)]
  | n + 2, i => [.Rx (v i), .Ak false] ++ sequentialTrace v (n + 1) (i + 1)

/-! What a completed command leaves. -/

/-- The registers that the bus events of a run determine: `TXB` (R41), `RXB` (R42), `ACKSTAT` (R36), `ACKDT`
(R28), `RBF` (R33), `RXOV` (R38), `ACKPEND` (R47), `BSTATE` (R45), the drivers (R148), and which of the
registers without a reset value have been written (R63). -/
structure BusView where
  txb : BitVec 8
  rxb : BitVec 8
  ackstat : Bool
  ackdt : Bool
  rbf : Bool
  rxov : Bool
  ackpend : Bool
  bstate : Bstate
  sdaLow : Bool
  sclLow : Bool
  known : Known
  deriving DecidableEq, Repr

def busView (s : State) : BusView where
  txb := s.txb
  rxb := s.rxb
  ackstat := s.stat.ackstat
  ackdt := s.ctrl.ackdt
  rbf := s.stat.rbf
  rxov := s.stat.rxov
  ackpend := s.eng.ackpend
  bstate := s.seq.bstate
  sdaLow := s.eng.sdaLow
  sclLow := s.eng.sclLow
  known := s.known

/-- Those registers after one more bus event, between engine operations. A received byte is read at once
(R202): `RBF`, which is 0 before it in every run from a launch state (R61), and `RXOV` end at 0 (R42, R154). -/
def BusView.after (v : BusView) : Event → BusView
  | .S => { v with ackpend := false, bstate := .start, sdaLow := true, sclLow := true }
  | .Sr => { v with ackpend := false, bstate := .restart, sdaLow := true, sclLow := true }
  | .P => { v with ackpend := false, bstate := .idle, sdaLow := false, sclLow := false }
  | .Tx b a => { v with
      txb := b, ackstat := a, bstate := bstateAfterLoad v.bstate, sdaLow := false, sclLow := true,
      known := { v.known with ackstat := true, txb := true } }
  | .Rx b => { v with
      rxb := b, rbf := false, rxov := false, ackpend := true,
      bstate := .dataPhase, sdaLow := false, sclLow := true,
      known := { v.known with rxb := true } }
  | .Ak d => { v with ackdt := d, ackpend := false, sdaLow := false, sclLow := true }

/-- Those registers after a list of bus events. -/
def BusView.afterAll (v : BusView) (es : List Event) : BusView := es.foldl BusView.after v

/-- The result word of a command that completed (R48, R121). -/
def resOf (o : Xfer) (stopi : Bool) (data : BitVec 8) (count : BitVec 16) : Res :=
  { outcome := o, stopi := stopi, valid := true, data := data, count := count }

/-- Every byte of the buffer memory reads as before. -/
def bufferKept (s t : State) : Prop := ∀ a, memRead a t = memRead a s

/-- `t` is what command `i` leaves when it completes from `s` with the bus events `es` and the result word
`r` (R121). `idled` says whether a `W_IDLE` of the command has cleared `WCOL` (R181). The buffer memory is
the caller's to state. -/
def completed (i : Instr) (s : State) (es : List Event) (r : Res) (idled : Bool) (t : State) : Prop :=
  t.trace = s.trace ++ es ∧
  t.res = r ∧
  busView t = (busView s).afterAll es ∧
  t.ctrl = { s.ctrl with ackdt := t.ctrl.ackdt } ∧
  t.stat.tbf = s.stat.tbf ∧ t.stat.trun = s.stat.trun ∧
  t.stat.wcol = (!idled && s.stat.wcol) ∧
  (s.stat.bcol = true → t.stat.bcol = true) ∧
  (es = [] → t.stat.bcol = s.stat.bcol) ∧
  t.eng.eop = .none ∧ (es ≠ [] → t.eng.phase = .none) ∧
  t.seq.busy = false ∧ t.seq.cw = encode i ∧ t.seq.out = r.outcome ∧
  t.seq.fatal = s.seq.fatal ∧ t.seq.fcode = s.seq.fcode ∧
  t.cfg = s.cfg ∧ t.hpRdata = s.hpRdata ∧ t.rst = s.rst ∧ t.raced = false ∧
  ∃ n, t.inputs = s.inputs.drop n

/-- The composite commands, opcodes `0x10` to `0x1D` (R109). -/
def composite : Instr → Bool
  | .waitIdle | .start | .restart | .stop | .writeByte _ | .readByte | .sendAck | .sendNotAck
  | .ackStatus => false
  | .writeRegister _ _ _ | .readRegister _ _ | .writeRegisterWide _ _ _ | .writeBitField _ _ _ _ _
  | .readBitField _ _ _ _ | .writeSingleBit _ _ _ _ | .readSingleBit _ _ _ | .writeBytes _ _ _ _
  | .readBytes _ _ _ _ | .ldWrite _ _ _ | .ldRead _ _ | .ldPageWrite _ _ _ _
  | .ldSequentialRead _ _ _ _ => true

/-- The commands that send bytes. -/
def transmits : Instr → Bool
  | .waitIdle | .start | .restart | .stop | .readByte | .sendAck | .sendNotAck | .ackStatus => false
  | .writeByte _ => true
  | .writeRegister _ _ _ | .readRegister _ _ | .writeRegisterWide _ _ _ | .writeBitField _ _ _ _ _
  | .readBitField _ _ _ _ | .writeSingleBit _ _ _ _ | .readSingleBit _ _ _ | .writeBytes _ _ _ _
  | .readBytes _ _ _ _ | .ldWrite _ _ _ | .ldRead _ _ | .ldPageWrite _ _ _ _
  | .ldSequentialRead _ _ _ _ => true

/-- The commands that receive bytes. -/
def receives : Instr → Bool
  | .waitIdle | .start | .restart | .stop | .writeByte _ | .sendAck | .sendNotAck | .ackStatus
  | .writeRegister _ _ _ | .writeRegisterWide _ _ _ | .writeBytes _ _ _ _ | .ldWrite _ _ _
  | .ldPageWrite _ _ _ _ => false
  | .readByte | .readRegister _ _ | .writeBitField _ _ _ _ _ | .readBitField _ _ _ _
  | .writeSingleBit _ _ _ _ | .readSingleBit _ _ _ | .readBytes _ _ _ _ | .ldRead _ _
  | .ldSequentialRead _ _ _ _ => true

/-- The commands that may run an acknowledge sequence (R203, R224 r8, R260, R264). -/
def acknowledges : Instr → Bool
  | .waitIdle | .start | .restart | .stop | .writeByte _ | .readByte | .ackStatus
  | .writeRegister _ _ _ | .writeRegisterWide _ _ _ | .writeBytes _ _ _ _ | .ldWrite _ _ _
  | .ldPageWrite _ _ _ _ => false
  | .sendAck | .sendNotAck | .readRegister _ _ | .writeBitField _ _ _ _ _ | .readBitField _ _ _ _
  | .writeSingleBit _ _ _ _ | .readSingleBit _ _ _ | .readBytes _ _ _ _ | .ldRead _ _
  | .ldSequentialRead _ _ _ _ => true

/-! The invariant of the block. -/

/-- Which `BSTATE` and `ACKPEND` an action may find: a list of pairs. -/
abbrev BusPairs := List (Bstate × Bool)

def pIdle : BusPairs := [(.idle, false)]
def pStart : BusPairs := [(.start, false)]
def pAddr : BusPairs := [(.addressPhase, false)]
def pData : BusPairs := [(.dataPhase, false)]
def pRestart : BusPairs := [(.restart, false)]
/-- A received byte waits for its acknowledge (R47). -/
def pReceived : BusPairs := [(.dataPhase, true)]
def pSent : BusPairs := pAddr ++ pData
/-- A transaction is open and no STOP is pending. -/
def pOpen : BusPairs := pStart ++ pRestart ++ pAddr ++ pData ++ pReceived
/-- `BSTATE` and `ACKPEND` of a quiescent state (R61). -/
def pQuiescent : BusPairs := pIdle ++ pOpen
/-- While the STOP generator runs and after it (R184). -/
def pStopping : BusPairs := [(.stop, false), (.stop, true), (.idle, false)]

/-- The pairs along `XWriteReg` (R221, R45), action by action. -/
def pairsWrite : List BusPairs :=
  [pIdle, pIdle, pStart, pStart, pAddr, pAddr, pData, pData, pData, pSent, pSent, pStopping]

/-- The pairs along `XReadReg` (R224, R45), action by action; `mid` are those of its caller's actions. -/
def pairsReadWith (mid : List BusPairs) : List BusPairs :=
  [pIdle, pIdle, pStart, pStart, pAddr, pAddr, pData, pData, pData, pRestart, pRestart, pAddr, pAddr,
   pData ++ pReceived] ++ mid ++
  [pReceived, pReceived, pReceived ++ pData, pSent ++ pReceived, pSent ++ pReceived, pStopping]
def pairsRead : List BusPairs := pairsReadWith []

/-- For every action of a command's micro-program, the pairs it may find (R45, R291). -/
def pairs : Instr → List (List BusPairs)
  | .waitIdle => [[pQuiescent], [pQuiescent]]
  | .start => [[pIdle, pStart], [pStart]]
  | .restart => [[pData, pRestart], [pRestart]]
  | .stop => [[pOpen, pStopping], [pIdle]]
  | .writeByte _ => [[pStart ++ pRestart ++ pSent, pSent], [pSent]]
  | .readByte => [[pSent, pData ++ pReceived, pReceived], [pReceived]]
  | .sendAck => [[pReceived, pReceived ++ pData], [pData]]
  | .sendNotAck => [[pReceived, pReceived ++ pData], [pData]]
  | .ackStatus => [[pQuiescent], [pQuiescent]]
  | .writeRegister _ _ _ => [pairsWrite, [pIdle]]
  | .readRegister _ _ => [pairsRead ++ [pIdle, pIdle], [pIdle]]
  | .writeRegisterWide _ _ _ => [pairsWrite ++ [pIdle], pairsWrite, [pIdle]]
  | .writeBitField _ _ _ _ _ => [pairsRead ++ [pIdle, pIdle], [pIdle], pairsWrite, [pIdle]]
  | .readBitField _ _ _ _ => [pairsRead ++ [pIdle, pIdle], [pIdle], [pIdle]]
  | .writeSingleBit _ _ _ _ => [pairsRead ++ [pIdle, pIdle], [pIdle], pairsWrite, [pIdle]]
  | .readSingleBit _ _ _ => [pairsRead ++ [pIdle, pIdle], [pIdle], [pIdle]]
  | .writeBytes _ _ _ _ => [[pIdle], [pIdle], pairsWrite ++ [pIdle], [pIdle, pIdle], [pIdle]]
  | .readBytes _ _ _ _ => [[pIdle], pairsReadWith [pReceived] ++ [pIdle, pIdle], [pIdle], [pIdle, pIdle], [pIdle]]
  | .ldWrite _ _ _ =>
      [[pIdle], [pIdle, pStart], [pStart, pAddr], [pAddr, pData], [pData, pData], [pSent],
       [pSent, pStopping], [pIdle]]
  | .ldRead _ _ =>
      [[pIdle], [pIdle, pStart], [pStart, pAddr], [pAddr, pData], [pData], [pData, pRestart],
       [pRestart, pAddr], [pAddr, pData ++ pReceived, pReceived], [pReceived, pReceived ++ pData],
       [pSent], [pSent, pStopping], [pIdle]]
  | .ldPageWrite _ _ _ _ =>
      [[pIdle], [pIdle, pStart], [pStart, pAddr], [pAddr, pData], [pData], [pData], [pData, pData],
       [pData, pData, pData], [pSent], [pSent, pStopping], [pIdle]]
  | .ldSequentialRead _ _ _ _ =>
      [[pIdle], [pIdle, pStart], [pStart, pAddr], [pAddr, pData], [pData], [pData, pRestart],
       [pRestart, pAddr], [pSent, pData ++ pReceived], [pReceived, pReceived], [pReceived],
       [pReceived, pReceived, pReceived ++ pData, pData], [pReceived, pReceived ++ pData],
       [pSent ++ pReceived], [pSent ++ pReceived, pStopping], [pIdle]]

/-- The pairs the action at a position may find. -/
def pairsAt (i : Instr) (q : Sequencer) : BusPairs :=
  match (pairs i)[q.upc.toNat]? with
  | none => []
  | some l =>
    match l[q.sub]? with
    | none => []
    | some p => p

/-- The engine operation an action holds for (R60): none for an action that is no hold. -/
def holdsFor : Act → Eop
  | .holdSen => .genStart
  | .holdRsen => .genRestart
  | .holdPen => .genStop
  | .holdTx _ => .transmit
  | .holdRcen => .receive
  | .holdAck => .ackSeq
  | _ => .none

/-- `ACKPEND` at an action that holds once the operation it holds for is over (R47): a reception has set it, an
acknowledge sequence has cleared it; at any other action the pairs say it. -/
def ackpendHeld : Act → Option Bool
  | .holdRcen => some true
  | .holdAck => some false
  | _ => none

/-- The park levels of the drivers when no operation is in progress, from `BSTATE` (R148). -/
def parked (b : Bstate) (e : Engine) : Bool :=
  match b with
  | .idle => !e.sdaLow && !e.sclLow
  | .start | .restart => e.sdaLow && e.sclLow
  | .addressPhase | .dataPhase => !e.sdaLow && e.sclLow
  | .stop => false

/-- What the drivers hold when a phase is about to run (R150 to R155), with `BITCNT` in range. -/
def phaseOk (e : Engine) : Bool :=
  match e.phase with
  | .none => true
  | .s1 | .s2 => !e.sdaLow && !e.sclLow
  | .s3 => e.sdaLow && !e.sclLow
  | .s4 => e.sdaLow && e.sclLow
  | .r1 => e.sclLow
  | .r2 => !e.sdaLow
  | .r3 | .r4 => !e.sdaLow && !e.sclLow
  | .r5 => e.sdaLow && !e.sclLow
  | .r6 => e.sdaLow && e.sclLow
  | .p1 => e.sclLow
  | .p2 => e.sdaLow
  | .p3 => e.sdaLow && !e.sclLow
  | .p4 | .p5 => !e.sdaLow && !e.sclLow
  | .t0 => e.sclLow
  | .ta => e.sclLow && decide (e.bitcnt.toNat < 8)
  | .tb => decide (e.bitcnt.toNat < 8)
  | .tc | .td => !e.sclLow && decide (e.bitcnt.toNat < 8)
  | .t8 => e.sclLow
  | .t9 => !e.sdaLow
  | .t10 | .t11 => !e.sdaLow && !e.sclLow
  | .v0 => e.sclLow
  | .va => !e.sdaLow && decide (e.bitcnt.toNat < 8)
  | .vb | .vc => !e.sdaLow && !e.sclLow && decide (e.bitcnt.toNat < 8)
  | .v8 => !e.sdaLow && e.sclLow
  | .a0 => e.sclLow
  | .a1 => true
  | .a2 | .a3 => !e.sclLow
  | .a4 => e.sclLow

/-- `TBF` is 1 exactly from the accepted load to the end of the eighth bit (R34, R153). -/
def tbfPhase : Phase → Bool
  | .t0 | .ta | .tb | .tc | .td | .t8 => true
  | _ => false

/-- The `BSTATE` an engine operation runs in (R45, R149). -/
def opBstate (o : Eop) (b : Bstate) : Bool :=
  match o with
  | .none => b != .stop
  | .genStart => b == .start
  | .genRestart => b == .restart
  | .genStop => b == .stop
  | .transmit => b == .addressPhase || b == .dataPhase
  | .receive | .ackSeq => b == .dataPhase

/-- START conditions on the wire that no STOP has closed yet: 0 or 1 (R44, R58). -/
def openStarts (s : State) : Nat :=
  match s.seq.bstate with
  | .idle => 0
  | .start => if s.eng.phase = .s1 ∨ s.eng.phase = .s2 then 0 else 1
  | .stop => if s.eng.phase = .p5 then 0 else 1
  | .addressPhase | .dataPhase | .restart => 1

/-- The engine's part of the invariant: the pending bits and `TRUN` say exactly which operation is in
progress (R60, R46), `PHASE`, `BSTATE` and the drivers fit it (R148, R149, R155), `TBF` likewise. -/
def engineInv (s : State) : Prop :=
  phaseOp s.eng.phase = s.eng.eop ∧
  s.ctrl.sen = decide (s.eng.eop = .genStart) ∧
  s.ctrl.rsen = decide (s.eng.eop = .genRestart) ∧
  s.ctrl.pen = decide (s.eng.eop = .genStop) ∧
  s.ctrl.rcen = decide (s.eng.eop = .receive) ∧
  s.ctrl.acken = decide (s.eng.eop = .ackSeq) ∧
  s.stat.trun = decide (s.eng.eop = .transmit) ∧
  s.stat.tbf = tbfPhase s.eng.phase ∧
  opBstate s.eng.eop s.seq.bstate = true ∧
  phaseOk s.eng = true ∧
  (s.eng.phase = .a1 ∨ s.eng.phase = .a2 ∨ s.eng.phase = .a3 → s.eng.sdaLow = !s.ctrl.ackdt) ∧
  (s.eng.eop = .none → parked s.seq.bstate s.eng = true)

/-- A running command's part: `CW` holds a command in order, the sequencer is at an action of its
micro-program, the action is the hold for the operation in progress (R60), and `BSTATE` and `ACKPEND`
are a pair that action may find (R45, R47). `RBF` is 1 only between the end of a reception and the read of
`RXB` (R33). -/
def runningInv (s : State) : Prop :=
  ∃ i a n, decode s.seq.cw = .ok i ∧ i.wellFormed = true ∧ actAt (program i) s = some (a, n) ∧
    (s.eng.eop ≠ .none → holdsFor a = s.eng.eop) ∧
    (s.seq.bstate, s.eng.ackpend) ∈ pairsAt i s.seq ∧
    (s.eng.eop = .none → ∀ b, ackpendHeld a = some b → s.eng.ackpend = b) ∧
    (s.stat.rbf = true → a = .holdRcen ∧ s.eng.eop = .none)

/-- A quiescent state's part (R61). -/
def quiescentInv (s : State) : Prop :=
  s.eng.eop = .none ∧ s.stat.rbf = false ∧ (s.seq.bstate, s.eng.ackpend) ∈ pQuiescent

/-- The invariant of the block. Beside the parts above: `WCOL` and `RXOV` are never set (R157, R38),
a disabled module has no transaction and no command (R29, R31), the `S` events of `TRACE` outnumber its
`P` events by the transactions open (R62), no outcome is `Timeout` (R283), and while `rst` is asserted the block
is disabled with no fault latched (R310). -/
def Inv (s : State) : Prop :=
  engineInv s ∧
  (s.seq.busy = true → runningInv s) ∧
  (s.seq.busy = false → quiescentInv s) ∧
  s.stat.wcol = false ∧ s.stat.rxov = false ∧
  (s.ctrl.moden = false → s.seq.busy = false ∧ s.seq.bstate = .idle) ∧
  s.trace.count .S = s.trace.count .P + openStarts s ∧
  s.seq.out ≠ .timeout ∧ s.res.outcome ≠ .timeout ∧
  (s.rst = true → s.ctrl.moden = false ∧ s.seq.fatal = false)

/-- The transitions of `BSTATE` that R45 allows, and staying. -/
def bstateEdge : Bstate → Bstate → Bool
  | .idle, .start => true
  | .start, .addressPhase => true
  | .restart, .addressPhase => true
  | .addressPhase, .dataPhase => true
  | .dataPhase, .restart => true
  | .start, .stop => true
  | .restart, .stop => true
  | .addressPhase, .stop => true
  | .dataPhase, .stop => true
  | .stop, .idle => true
  | a, b => a == b

end Sys2Proof.Machine
end

