-- ==== Sys2Proof/Certificates/Slice0/Obligations.lean ====
section
/-! DEFINITION. What is claimed of the block, one `Prop` per claim, for the provers. -/

open Sys2Proof Sys2Proof.Machine

/-! Encoding. -/

/-- R101, R109, R124: the decoder reads from the encoding of a command whose operands are in order exactly
that command; no operand bit is dropped. -/
def Obligations.EncodeThenDecode : Prop :=
  ∀ i : Instr, i.wellFormed = true → decode (encode i) = .ok i

/-- R101, R109, R117: a word that decodes to a command is that command's encoding, so no two words are the
same command. -/
def Obligations.DecodeThenEncode : Prop :=
  ∀ (w : CmdWord) (i : Instr), decode w = .ok i → encode i = w

/-- R118: exactly the opcodes `0x00`, `0x0A` to `0x0F`, `0x17` and `0x1E` to `0x3F` are illegal, and a write
of a word with one of them raises `Fatal(IllegalOpcode)`. -/
def Obligations.IllegalOpcodes : Prop :=
  ∀ (w : CmdWord) (s : State),
    let op := (w.extractLsb' 58 6).toNat
    (decode w = .error .illegalOpcode ↔
      op = 0x00 ∨ (0x0A ≤ op ∧ op ≤ 0x0F) ∨ op = 0x17 ∨ (0x1E ≤ op ∧ op ≤ 0x3F)) ∧
    (decode w = .error .illegalOpcode → launch s → s.ctrl.moden = true →
      hostWrite 4#3 w s = .next (raiseFatal .illegalOpcode s))

/-- R117: a 1 in any bit that is set in the command's `mask` and clear in its `match` makes the word illegal,
and writing it raises `Fatal(IllegalOperand)`. -/
def Obligations.NonOperandBitsIllegal : Prop :=
  ∀ (w : CmdWord) (r : OpcodeRow) (k : Nat) (s : State),
    rowOf (opField w) = some r → r.mask.getLsbD k = true → r.pattern.getLsbD k = false →
    w.getLsbD k = true →
    decode w = .error .illegalOperand ∧
    (launch s → s.ctrl.moden = true → hostWrite 4#3 w s = .next (raiseFatal .illegalOperand s))

/-- R125: the worked encodings of the spec. A sanity statement. -/
def Obligations.WorkedEncodings : Prop :=
  ∀ p ∈ ([(0x0800000000000000#64, .start),
      (0x1400000000A00000#64, .writeByte 0xA0#8),
      (0x1000000000000000#64, .stop),
      (0x4050001000AB0000#64, .writeRegister 0x50#7 0x10#16 0xAB#8),
      (0x4450001000000000#64, .readRegister 0x50#7 0x10#16),
      (0x4850002012340000#64, .writeRegisterWide 0x50#7 0x20#16 0x1234#16),
      (0x4C50001000020034#64, .writeBitField 0x50#7 0x10#16 4#3 3#4 0b010#8),
      (0x5050001000000034#64, .readBitField 0x50#7 0x10#16 4#3 3#4),
      (0x5450001000010007#64, .writeSingleBit 0x50#7 0x10#16 7#3 1#8),
      (0x5850001000000007#64, .readSingleBit 0x50#7 0x10#16 7#3),
      (0x6050001000020200#64, .writeBytes 0x50#7 0x10#16 0x0200#16 2#16),
      (0x6450001000020300#64, .readBytes 0x50#7 0x10#16 0x0300#16 2#16),
      (0x68A0000500770000#64, .ldWrite 0xA0#8 0x05#8 0x77#8),
      (0x6CA0000500000000#64, .ldRead 0xA0#8 0x05#8),
      (0x70A0000800040400#64, .ldPageWrite 0xA0#8 0x08#8 0x0400#16 4#16),
      (0x74A0000000030100#64, .ldSequentialRead 0xA0#8 0x00#8 0x0100#16 3#16)] :
      List (CmdWord × Instr)),
    encode p.2 = p.1 ∧ decode p.1 = .ok p.2

/-- R113: the address byte is the 7-bit device address shifted left by one, with the direction bit in bit 0;
`0x50` gives `0xA0` for write and `0xA1` for read. -/
def Obligations.AddressByte : Prop :=
  (∀ (dev : BitVec 7) (rw : Bool),
    addrByte dev rw = (dev.setWidth 8 <<< 1) ||| (BitVec.ofBool rw).setWidth 8) ∧
  addrByte 0x50#7 false = 0xA0#8 ∧ addrByte 0x50#7 true = 0xA1#8

/-- R229: the laws of the field arithmetic, for every legal field. -/
def Obligations.FieldLaws : Prop :=
  ∀ (bitStart : BitVec 3) (length : BitVec 4) (old value byte : BitVec 8),
    fieldOk bitStart length = true →
    let b := bitStart.toNat
    let n := length.toNat
    (∀ i, i < b + 1 - n ∨ b < i → (insertField b n old value).getLsbD i = old.getLsbD i) ∧
    extractField b n (insertField b n old value) = value &&& BitVec.ofNat 8 (2 ^ n - 1) ∧
    (n = 8 → b = 7 → fieldMask b n = 0xFF#8 ∧ insertField b n old value = value ∧
      extractField b n byte = byte) ∧
    (extractField b n byte).toNat < 2 ^ n

/-! Steps, reset and the host port. -/

/-- R49, R120, R21, R73: what a step does with an access of the host at the head of the inputs (the list of inputs is
the model's choice, log entry 1). A `CMD` write of a word that decodes to a command is the execution of that
command, any other write is `hostWrite`, a read is `hostRead`, and the host's accesses to its own buffer are
`hostBufWrite` and `hostBufRead`. Last, what `withFetchWord` places: the model's choice (log entry 13), it
enables the module and releases `rst` at once with the `CMD` write, where R312 has the host do it first. -/
def Obligations.StepRunsDecodedCommand : Prop :=
  ∀ s : State, s.cfg.timeout = none →
    (∀ (w : CmdWord) (i : Instr) (rest : List Input), decode w = .ok i →
      s.inputs = .hostWrite 4#3 w :: rest → step s = exec i { s with inputs := rest }) ∧
    (∀ idx v rest, s.inputs = .hostWrite idx v :: rest →
      step s = hostWrite idx v { s with inputs := rest }) ∧
    (∀ idx rest, s.inputs = .hostRead idx :: rest →
      step s = .next (hostRead idx { s with inputs := rest })) ∧
    (∀ a v rest, s.inputs = .bufWrite a v :: rest →
      step s = .next (hostBufWrite a v { s with inputs := rest })) ∧
    (∀ a rest, s.inputs = .bufRead a :: rest →
      step s = .next (hostBufRead a { s with inputs := rest })) ∧
    (∀ (w : CmdWord) (i : Instr), decode w = .ok i →
      step (s.withFetchWord 64 w.toNat) =
        exec i { s with ctrl := { s.ctrl with moden := true }, rst := false })

/-- R83, R329: a command in progress goes on step by step in its program order. How much one step of the model runs,
all the drives that come next, is the model's choice (log entry 3), and so is the one tick under free drives
when none is listed (log entry 2, after R11); how a run is cut into steps makes no difference. -/
def Obligations.RunningCommandGoesOn : Prop :=
  (∀ (i : Instr) (s : State), s.cfg.timeout = none → s.rst = false → s.seq.busy = true →
    decode s.seq.cw = .ok i → runningOk i s = true →
    (∀ d rest, s.inputs = .drive d :: rest → step s = .next (runTicks (program i) s.inputs s)) ∧
    (s.inputs = [] → step s = .next { tick (program i) (freeDrive s) (drawn s) with inputs := [] })) ∧
  (∀ (prog : List Step) (ds : List Drive) (rest : List Input) (s : State),
    (runTicks prog (ds.map .drive) s).seq.busy = true →
    runTicks prog (ds.map .drive ++ rest) s = runTicks prog rest (runTicks prog (ds.map .drive) s))

/-- R310, R63: reset, in any state, gives in one step every piece of state the value of the reset table, with the
registers the table leaves unspecified unwritten. While `rst` stays asserted no step but the release changes
anything of the block, whatever the host and the environment do. That the buffer memory, the parameters and
the inputs to come survive is the model's reading (log entry 20, DEDUCED), not R63's or R310's. -/
def Obligations.ResetStep : Prop :=
  (∀ (s : State) (rest : List Input), s.cfg.timeout = none → s.inputs = .rst :: rest →
    ∃ t, step s = .next t ∧
      t.ctrl = { sen := false, rsen := false, pen := false, rcen := false, acken := false,
                 ackdt := false, moden := false, baud := 0x00#8 } ∧
      t.stat.rbf = false ∧ t.stat.tbf = false ∧ t.stat.trun = false ∧ t.stat.wcol = false ∧
      t.stat.rxov = false ∧ t.stat.bcol = false ∧
      t.seq.busy = false ∧ t.seq.fatal = false ∧ fatalCodeBits t.seq.fcode = 0#3 ∧
      t.seq.bstate = .idle ∧ t.eng.ackpend = false ∧ resWord t.res = 0#32 ∧
      t.seq.upc = 0#8 ∧ t.seq.idx = 0#16 ∧ t.seq.out = .success ∧ t.eng.bitcnt = 0#4 ∧
      t.eng.eop = .none ∧ t.eng.sdaLow = false ∧ t.eng.sclLow = false ∧ t.trace = [] ∧
      t.known = { ackstat := false, txb := false, rxb := false } ∧
      t.rst = true ∧ bufferKept s t ∧ t.cfg = s.cfg ∧ t.inputs = rest) ∧
  (∀ s : State, s.cfg.timeout = none → s.rst = true → (∀ rest, s.inputs ≠ .rst :: rest) →
    ∃ t, step s = .next t ∧
      t.ctrl = s.ctrl ∧ t.stat = s.stat ∧ t.txb = s.txb ∧ t.rxb = s.rxb ∧ t.res = s.res ∧
      t.seq = s.seq ∧ t.eng = s.eng ∧ t.trace = s.trace ∧ t.known = s.known ∧ t.cfg = s.cfg ∧
      (t.rst = false ↔ ∃ rest, s.inputs = .rstRelease :: rest))

/-- R21, R22, R32, R43, R48: a host read changes nothing but the read data (and, for a register nothing has written
yet, the count of free values); every bit of the five register views is where the layouts put it, every
reserved bit and every bit above the register reads 0, and indices 4 and 7 read 0. While `rst` is asserted a
host read is ignored (R310). -/
def Obligations.HostReads : Prop :=
  (∀ (idx : BitVec 3) (s : State), s.rst = true → hostRead idx s = s) ∧
  ∀ s : State, s.rst = false →
    (∀ idx, hostRead idx s =
      { s with hpRdata := (hostRead idx s).hpRdata, draws := (hostRead idx s).draws }) ∧
    (let v := (hostRead 0#3 s).hpRdata
     v.getLsbD 0 = s.ctrl.sen ∧ v.getLsbD 1 = s.ctrl.rsen ∧ v.getLsbD 2 = s.ctrl.pen ∧
     v.getLsbD 3 = s.ctrl.rcen ∧ v.getLsbD 4 = s.ctrl.acken ∧ v.getLsbD 5 = s.ctrl.ackdt ∧
     v.getLsbD 6 = s.ctrl.moden ∧ v.getLsbD 7 = false ∧ v.extractLsb' 8 8 = s.ctrl.baud ∧
     v.extractLsb' 16 48 = 0#48) ∧
    (let v := (hostRead 1#3 s).hpRdata
     v.getLsbD 0 = s.stat.rbf ∧ v.getLsbD 1 = s.stat.tbf ∧ v.getLsbD 2 = s.stat.trun ∧
     v.getLsbD 3 = (if s.known.ackstat then s.stat.ackstat else Config.freeBit s.draws) ∧
     v.getLsbD 4 = s.stat.wcol ∧ v.getLsbD 5 = s.stat.rxov ∧ v.getLsbD 6 = s.stat.bcol ∧
     v.getLsbD 7 = false ∧ v.extractLsb' 8 56 = 0#56) ∧
    (let v := (hostRead 2#3 s).hpRdata
     v.extractLsb' 0 8 = (if s.known.txb then s.txb else Config.freeByte s.draws) ∧
     v.extractLsb' 8 56 = 0#56) ∧
    (let v := (hostRead 3#3 s).hpRdata
     v.extractLsb' 0 8 = (if s.known.rxb then s.rxb else Config.freeByte s.draws) ∧
     v.extractLsb' 8 56 = 0#56) ∧
    (let v := (hostRead 5#3 s).hpRdata
     v.extractLsb' 0 3 = xferCode s.res.outcome ∧ v.getLsbD 3 = s.res.stopi ∧
     v.getLsbD 4 = s.res.valid ∧ v.extractLsb' 5 3 = 0#3 ∧ v.extractLsb' 8 8 = s.res.data ∧
     v.extractLsb' 16 16 = s.res.count ∧ v.extractLsb' 32 32 = 0#32) ∧
    (let v := (hostRead 6#3 s).hpRdata
     v.getLsbD 0 = s.seq.busy ∧ v.getLsbD 1 = s.seq.fatal ∧
     v.extractLsb' 2 3 = fatalCodeBits s.seq.fcode ∧ v.extractLsb' 5 3 = bstateCode s.seq.bstate ∧
     v.extractLsb' 8 56 = 0#56) ∧
    (hostRead 4#3 s).hpRdata = 0#64 ∧ (hostRead 7#3 s).hpRdata = 0#64

/-- R31: the host's write to `CTRL`, with `rst` released (R310). -/
def Obligations.CtrlWrite : Prop :=
  ∀ (v : BitVec 64) (s : State), s.rst = false →
    hostWrite 0#3 v s =
      if s.seq.fatal = true then .next s
      else if s.seq.busy = true then
        .next { s with seq := { s.seq with fatal := true, fcode := .reentry } }
      else if v.getLsbD 6 = false ∧ s.ctrl.moden = true ∧ s.seq.bstate ≠ .idle then
        .next { s with seq := { s.seq with fatal := true, fcode := .sequenceFault } }
      else .next { s with ctrl := { s.ctrl with moden := v.getLsbD 6, baud := v.extractLsb' 8 8 } }

/-- R40: the host's write to `STAT`, with `rst` released (R310); it can clear `WCOL`, `RXOV` and `BCOL` and set
nothing. -/
def Obligations.StatWrite : Prop :=
  ∀ (v : BitVec 64) (s : State), s.rst = false →
    hostWrite 1#3 v s =
      if s.seq.fatal = true then .next s
      else if s.seq.busy = true then
        .next { s with seq := { s.seq with fatal := true, fcode := .reentry } }
      else .next { s with stat := { s.stat with
        wcol := s.stat.wcol && v.getLsbD 4
        rxov := s.stat.rxov && v.getLsbD 5
        bcol := s.stat.bcol && v.getLsbD 6 } }

/-- R292: a host write to index 2, 3, 5, 6 or 7 with `FATAL = 0` and `BUSY = 0`, `rst` released (R310), raises
`Fatal(BadPort)` and leaves `TXB` as it was. -/
def Obligations.BadPort : Prop :=
  ∀ (idx : BitVec 3) (v : BitVec 64) (s : State),
    idx = 2#3 ∨ idx = 3#3 ∨ idx = 5#3 ∨ idx = 6#3 ∨ idx = 7#3 →
    s.rst = false → s.seq.fatal = false → s.seq.busy = false →
    ∃ t, hostWrite idx v s = .next t ∧ t = raiseFatal .badPort s ∧ t.txb = s.txb

/-- R285: `raise Fatal` latches `FATAL` and `FCODE` and changes nothing else; from then on every host write to every
index is ignored, host reads still work, and every step but reset leaves `FATAL` and `FCODE` as they are; and a
fault is raised by a host write only, never in the middle of a command. -/
def Obligations.FatalIsLatched : Prop :=
  (∀ (c : FatalCode) (s : State),
    raiseFatal c s = { s with seq := { s.seq with fatal := true, fcode := c } }) ∧
  (∀ (idx : BitVec 3) (v : BitVec 64) (s : State), s.cfg.timeout = none → s.seq.fatal = true →
    hostWrite idx v s = .next s) ∧
  (∀ (idx : BitVec 3) (c : FatalCode) (s : State), s.rst = false →
    (hostRead idx (raiseFatal c s)).hpRdata =
      if idx = 6#3 then (seqstatWord { s.seq with fatal := true, fcode := c }).setWidth 64
      else (hostRead idx s).hpRdata) ∧
  (∀ s t : State, s.seq.fatal = true → (∀ rest, s.inputs ≠ .rst :: rest) → step s = .next t →
    t.seq.fatal = true ∧ t.seq.fcode = s.seq.fcode) ∧
  (∀ s t : State, s.seq.fatal = false → (∀ idx v rest, s.inputs ≠ .hostWrite idx v :: rest) →
    step s = .next t → t.seq.fatal = false)

/-- R287: any host write, to any index, while a command runs raises `Fatal(Reentry)`, and the command in flight
runs exactly as if the write had not happened. -/
def Obligations.ReentryDisturbsNothing : Prop :=
  (∀ (idx : BitVec 3) (v : BitVec 64) (s : State), s.cfg.timeout = none → s.rst = false →
    s.seq.busy = true → s.seq.fatal = false → hostWrite idx v s = .next (raiseFatal .reentry s)) ∧
  (∀ (prog : List Step) (ins : List Input) (s : State),
    runTicks prog ins (raiseFatal .reentry s) = raiseFatal .reentry (runTicks prog ins s))

/-- R332: once a fatal fault is latched and no command runs, nothing but reset changes the drivers, `BSTATE` or the
bus: a transaction open at the fault stays open and SCL stays held. In states outside R61, which no run reaches, it
says what the model chose (log entry 25): the engine takes no phase. -/
def Obligations.FatalHoldsTheBus : Prop :=
  ∀ s t : State, s.seq.fatal = true → s.seq.busy = false → (∀ rest, s.inputs ≠ .rst :: rest) →
    step s = .next t →
    t.eng = s.eng ∧ t.seq = s.seq ∧ t.trace = s.trace ∧ t.ctrl = s.ctrl ∧ t.stat = s.stat ∧
    t.res = s.res

/-- R120: the checks of acceptance, in order, the first that fails deciding and nothing else changing; and what
acceptance latches (seen when the environment has not moved yet; `raced` is the model's own field, log entry
11). While `rst` is asserted the write is ignored (R310). -/
def Obligations.AcceptanceInOrder : Prop :=
  ∀ (w : CmdWord) (s : State), s.cfg.timeout = none →
    (s.rst = true ∨ s.seq.fatal = true → hostWrite 4#3 w s = .next s) ∧
    (s.rst = false → s.seq.fatal = false → s.seq.busy = true →
      hostWrite 4#3 w s = .next (raiseFatal .reentry s)) ∧
    (launch s →
      (s.ctrl.moden = false → hostWrite 4#3 w s = .next (raiseFatal .moduleDisabled s)) ∧
      (s.ctrl.moden = true → rowOf (opField w) = none →
        hostWrite 4#3 w s = .next (raiseFatal .illegalOpcode s)) ∧
      (∀ r, s.ctrl.moden = true → rowOf (opField w) = some r → w &&& r.mask ≠ r.pattern →
        hostWrite 4#3 w s = .next (raiseFatal .illegalOperand s)) ∧
      (∀ i, s.ctrl.moden = true → decode w = .ok i →
        (i.wellFormed = false → hostWrite 4#3 w s = .next (raiseFatal .illegalOperand s)) ∧
        (i.wellFormed = true → bufferOk i s = false →
          hostWrite 4#3 w s = .next (raiseFatal .bufferFault s)) ∧
        (i.wellFormed = true → bufferOk i s = true → preOk i s = false →
          hostWrite 4#3 w s = .next (raiseFatal .sequenceFault s)) ∧
        (i.wellFormed = true → bufferOk i s = true → preOk i s = true →
          (∀ d rest, s.inputs ≠ .drive d :: rest) →
          hostWrite 4#3 w s = .next { s with
            res := { outcome := .success, stopi := false, valid := false, data := 0x00#8, count := 0#16 }
            seq := { s.seq with
              cw := w, out := .success, idx := 0#16, upc := 0#8, sub := 0, busy := true }
            raced := false })))

/-- R289: the range check of the four burst commands. `PTR + LEN > 65536` is an illegal operand; otherwise an address
of the range that `BufValid` does not gate is a buffer fault; `LEN = 0` passes for every `PTR`. -/
def Obligations.BufferRangeChecked : Prop :=
  ∀ (i : Instr) (ptr len : BitVec 16) (s : State),
    launch s → s.ctrl.moden = true → burstRange i = some (ptr, len) →
    (ptr.toNat + len.toNat > 65536 → exec i s = .next (raiseFatal .illegalOperand s)) ∧
    (i.wellFormed = true → (∃ k, k < len.toNat ∧ admitted s.cfg.bufValid (ptr.toNat + k) = false) →
      exec i s = .next (raiseFatal .bufferFault s)) ∧
    (len = 0#16 → bufferOk i s = true)

/-- R290: the operand values refused: a field length of 0 or above `bitStart + 1`, a control byte with bit 0 set,
and `LEN = 0` of `ldSequentialRead`. -/
def Obligations.OperandValuesRefused : Prop :=
  ∀ s : State, launch s → s.ctrl.moden = true →
    (∀ dev reg bitStart length value, length.toNat = 0 ∨ bitStart.toNat + 1 < length.toNat →
      exec (.writeBitField dev reg bitStart length value) s = .next (raiseFatal .illegalOperand s) ∧
      exec (.readBitField dev reg bitStart length) s = .next (raiseFatal .illegalOperand s)) ∧
    (∀ (ctrl addr data : BitVec 8) (ptr len : BitVec 16), ctrl.getLsbD 0 = true →
      exec (.ldWrite ctrl addr data) s = .next (raiseFatal .illegalOperand s) ∧
      exec (.ldRead ctrl addr) s = .next (raiseFatal .illegalOperand s) ∧
      exec (.ldPageWrite ctrl addr ptr len) s = .next (raiseFatal .illegalOperand s) ∧
      exec (.ldSequentialRead ctrl addr ptr len) s = .next (raiseFatal .illegalOperand s)) ∧
    (∀ ctrl addr ptr, exec (.ldSequentialRead ctrl addr ptr 0#16) s =
      .next (raiseFatal .illegalOperand s))

/-- R291: a command issued with `BSTATE` or `ACKPEND` outside its row of the legality table raises
`Fatal(SequenceFault)`. -/
def Obligations.SequenceFaults : Prop :=
  ∀ s : State, launch s → s.ctrl.moden = true →
    (s.seq.bstate ≠ .idle → exec .start s = .next (raiseFatal .sequenceFault s)) ∧
    (s.seq.bstate ≠ .dataPhase ∨ s.eng.ackpend = true →
      exec .restart s = .next (raiseFatal .sequenceFault s)) ∧
    (s.seq.bstate = .idle → exec .stop s = .next (raiseFatal .sequenceFault s)) ∧
    (∀ b, s.seq.bstate = .idle ∨ s.eng.ackpend = true →
      exec (.writeByte b) s = .next (raiseFatal .sequenceFault s)) ∧
    (s.seq.bstate = .idle ∨ s.seq.bstate = .start ∨ s.seq.bstate = .restart ∨ s.eng.ackpend = true →
      exec .readByte s = .next (raiseFatal .sequenceFault s)) ∧
    (s.seq.bstate ≠ .dataPhase ∨ s.eng.ackpend = false →
      exec .sendAck s = .next (raiseFatal .sequenceFault s) ∧
      exec .sendNotAck s = .next (raiseFatal .sequenceFault s)) ∧
    (∀ i, composite i = true → i.wellFormed = true → bufferOk i s = true → s.seq.bstate ≠ .idle →
      exec i s = .next (raiseFatal .sequenceFault s))

/-- R9: a model refuses any `TIMEOUT` other than `none`: no step and no command runs. -/
def Obligations.TimeoutRefused : Prop :=
  ∀ (s : State) (n : Nat), s.cfg.timeout = some n →
    step s = .refused .timeoutVariant ∧ ∀ i, exec i s = .refused .timeoutVariant

/-- R73, R85, R327: the host's own buffer memory. Outside the range of a burst in progress a store writes the one byte
and changes nothing else, and a load finds what is stored. Inside it the order of the accesses is not defined;
the machine goes on, with any value for the bytes transferred (93 U9). How the model says so is its choice
(log entry 11): a load is a free value; a store marks the burst as raced, is itself free where the burst
stores too, and every byte a raced burst transfers from then on is free. -/
def Obligations.HostBufferAccess : Prop :=
  ∀ (a : BitVec 16) (v : BitVec 8) (s : State),
    (inRunningBurst a s = true ↔ s.seq.busy = true ∧ ∃ i ptr len, decode s.seq.cw = .ok i ∧
      burstRange i = some (ptr, len) ∧ ptr.toNat ≤ a.toNat ∧ a.toNat < ptr.toNat + len.toNat) ∧
    (inRunningBurst a s = false →
      hostBufWrite a v s = { s with mem := writeCell s.mem a.toNat v } ∧
      (memWf s.mem = true →
        ∀ b, memRead b (hostBufWrite a v s) = if b = a then v else memRead b s) ∧
      hostBufRead a s = { s with hpRdata := (memRead a s).setWidth 64 }) ∧
    (inRunningBurst a s = true →
      hostBufWrite a v s = { s with
        mem := (hostBufWrite a v s).mem, draws := (hostBufWrite a v s).draws, raced := true } ∧
      (memWf s.mem = true → ∀ b, memRead b (hostBufWrite a v s) =
        if b = a then (if fillsBuffer s = true then Config.freeByte s.draws else v)
        else memRead b s) ∧
      hostBufRead a s =
        { s with hpRdata := (Config.freeByte s.draws).setWidth 64, draws := s.draws + 1 }) ∧
    (∀ ptr, s.raced = true →
      (loadByte ptr s).seq.tmp = Config.freeByte s.draws ∧
      storeByte ptr s = { s with
        mem := writeCell s.mem (bufAddr ptr s.seq.idx).toNat (Config.freeByte s.draws),
        draws := s.draws + 1 }) ∧
    (∀ ptr, s.raced = false →
      (loadByte ptr s).seq.tmp = memRead (bufAddr ptr s.seq.idx) s ∧
      storeByte ptr s =
        { s with mem := writeCell s.mem (bufAddr ptr s.seq.idx).toNat s.seq.val })

/-! The line engine. -/

/-- R156: the procedure `LoadTXB`. A rejected load sets `WCOL` and changes nothing else; an accepted one
sets `TXB`, `TBF`, `TRUN`, moves `BSTATE` and starts `Transmit`. -/
def Obligations.LoadOfTxb : Prop :=
  ∀ (b : BitVec 8) (s : State),
    let busy := s.ctrl.sen = true ∨ s.ctrl.rsen = true ∨ s.ctrl.pen = true ∨ s.ctrl.rcen = true ∨
      s.ctrl.acken = true ∨ s.stat.trun = true ∨ s.stat.tbf = true ∨ s.stat.wcol = true
    (busy → loadTxb b s = { s with stat := { s.stat with wcol := true } }) ∧
    (¬ busy → loadTxb b s = { s with
      txb := b
      known := { s.known with txb := true }
      stat := { s.stat with tbf := true, trun := true }
      seq := { s.seq with bstate :=
        if s.seq.bstate = .start ∨ s.seq.bstate = .restart then .addressPhase else .dataPhase }
      eng := { s.eng with eop := .transmit, phase := .t0 } })

/-- R146: wherever the engine releases SCL it takes no further phase while SCL reads 0, however often it is asked
to, and goes to the next phase once SCL reads 1. -/
def Obligations.ClockStretchWait : Prop :=
  ∀ (p q : Phase) (d : Drive) (s : State),
    (p, q) ∈ sclWaits → s.ctrl.moden = true → s.eng.phase = p → s.eng.eop = phaseOp p →
    (d.sclLow = true → enginePhase d s = { s with eng := { s.eng with sclLow := false } }) ∧
    (d.sclLow = false →
      enginePhase d s = { s with eng := { s.eng with sclLow := false, phase := q } })

/-- R147, R36: the samples of SDA. `BCOL` is set exactly at the four sample points, when the block intends SDA to be 1
and it reads 0, and what the environment does to SDA there changes nothing else. `ACKSTAT` takes the level
sampled at T10 (R153), nothing else writes it, and T11 records it in the `Tx` event; Vb shifts the level
sampled into `SR` (R154). -/
def Obligations.SdaSamples : Prop :=
  ∀ (d : Drive) (s : State), s.ctrl.moden = true → phaseOp s.eng.phase = s.eng.eop →
    (enginePhase d s).stat.bcol = (s.stat.bcol || (samplePoint s && !sdaIn s.eng d)) ∧
    (samplePoint s = true → enginePhase d s =
      { enginePhase ⟨false, false⟩ s with
        stat := { (enginePhase ⟨false, false⟩ s).stat with bcol := (enginePhase d s).stat.bcol } }) ∧
    (s.eng.phase = .t10 → (enginePhase d s).stat.ackstat = sdaIn s.eng d ∧
      (enginePhase d s).known.ackstat = true) ∧
    (s.eng.phase ≠ .t10 → (enginePhase d s).stat.ackstat = s.stat.ackstat) ∧
    (s.eng.phase = .t11 → (enginePhase d s).trace = s.trace ++ [.Tx s.txb s.stat.ackstat]) ∧
    (s.eng.phase = .vb → ∀ k, (enginePhase d s).eng.sr.getLsbD k =
      if k = 0 then sdaIn s.eng d else decide (k < 8) && s.eng.sr.getLsbD (k - 1))

/-- R76, R28: what SDA carries. Bytes go most significant bit first: while bit `k` of a byte sent is on the wire SDA is
pulled low exactly if bit `7 - k` of `TXB` is 0; and when the environment shows the bits of `v`, bit 7 first,
`Receive` gets `v`. In the acknowledge slot of a byte sent SDA is released. While an acknowledge sequence is
on the wire SDA is pulled low exactly if `ACKDT` is 0 (R155). -/
def Obligations.SdaOfTransfers : Prop :=
  ∀ s : State, s.seq.busy = true → s.ctrl.moden = true →
    (s.eng.eop = .transmit → s.eng.phase = .t0 → ∀ ds : List Drive,
      let t := engineRun ds s
      (t.eng.phase = .tb ∨ t.eng.phase = .tc ∨ t.eng.phase = .td →
        t.eng.bitcnt.toNat < 8 ∧ t.eng.sdaLow = !s.txb.getLsbD (7 - t.eng.bitcnt.toNat)) ∧
      (t.eng.phase = .t9 ∨ t.eng.phase = .t10 ∨ t.eng.phase = .t11 → t.eng.sdaLow = false)) ∧
    (s.eng.eop = .receive → s.eng.phase = .v0 → ∀ v : BitVec 8,
      (engineRun (receiveDrives v) s).trace = s.trace ++ [.Rx v] ∧
      (engineRun (receiveDrives v) s).eng.eop = .none) ∧
    (s.eng.eop = .ackSeq → s.eng.phase = .a0 → ∀ ds : List Drive,
      let t := engineRun ds s
      t.eng.phase = .a1 ∨ t.eng.phase = .a2 ∨ t.eng.phase = .a3 →
        t.eng.sdaLow = !s.ctrl.ackdt)

/-- R12, R158: the two levels agree (log entry 15: the machine steps at the wire level, R150 to R155). Each engine operation, run at the wire level through any drives to its end, leaves
exactly what its one-step event leaves under some draws; the collision draw is 0 where the rule forces it. -/
def Obligations.WireRefinesEvents : Prop :=
  ∀ (s : State) (ds : List Drive), s.seq.busy = true → s.ctrl.moden = true →
    (engineRun ds s).eng.eop = .none →
    (s.eng.eop = .genStart → s.eng.phase = .s1 → s.eng.sdaLow = false → s.eng.sclLow = false →
      eventView (engineRun ds s) = eventView (eventGenStart s)) ∧
    (s.eng.eop = .genRestart → s.eng.phase = .r1 →
      ∃ c, eventView (engineRun ds s) = eventView (eventGenRestart c s)) ∧
    (s.eng.eop = .genStop → s.eng.phase = .p1 →
      ∃ c, eventView (engineRun ds s) = eventView (eventGenStop c s)) ∧
    (s.eng.eop = .transmit → s.eng.phase = .t0 →
      ∃ a c, (s.txb = 0x00#8 → c = false) ∧
        eventView (engineRun ds s) = eventView (eventTransmit a c s)) ∧
    (s.eng.eop = .receive → s.eng.phase = .v0 →
      ∃ v, eventView (engineRun ds s) = eventView (eventReceive v s)) ∧
    (s.eng.eop = .ackSeq → s.eng.phase = .a0 →
      ∃ c, (s.ctrl.ackdt = false → c = false) ∧
        eventView (engineRun ds s) = eventView (eventAckSeq c s))

/-- R299: a wait that never ends is no fault and no value. While the environment holds SCL low in a wait for SCL, or
either line low in the wait for a free bus, the command hangs: `BUSY` stays 1, `RES` and every other
register stay, and the engine stays in its phase with the drivers as that phase left them. -/
def Obligations.EndlessWait : Prop :=
  ∀ (prog : List Step) (ds : List Drive) (s : State), s.seq.busy = true → s.ctrl.moden = true →
    s.eng.eop = phaseOp s.eng.phase →
    (∀ q, (s.eng.phase, q) ∈ sclWaits → (∀ d ∈ ds, d.sclLow = true) → ds ≠ [] →
      runTicks prog (ds.map .drive) s =
        { s with inputs := [], eng := { s.eng with sclLow := false } }) ∧
    (s.eng.phase = .s1 → (∀ d ∈ ds, d.sdaLow = true ∨ d.sclLow = true) →
      runTicks prog (ds.map .drive) s = { s with inputs := [] })

/-! Completion and result of every command. Each says, for every state that accepts the command and every
environment that lets its waits end, that the command ANSWERS A NEXT STATE and what it holds; the
acknowledge levels and the bytes received are whatever the environment gave. -/

/-- R185: `waitIdle` clears `WCOL` and does nothing on the bus. -/
def Obligations.WaitIdleCompletes : Prop :=
  ∀ s : State, accepts .waitIdle s → served .waitIdle s →
    ∃ t, exec .waitIdle s = .next t ∧
      completed .waitIdle s [] (resOf .success false 0x00#8 0#16) true t ∧ bufferKept s t

/-- R186, R187, R188: `start`, `restart` and `stop` make their condition and always succeed; only `stop` sets
`STOPI`. -/
def Obligations.ConditionsComplete : Prop :=
  ∀ s : State,
    (accepts .start s → served .start s → ∃ t, exec .start s = .next t ∧
      completed .start s [.S] (resOf .success false 0x00#8 0#16) false t ∧ bufferKept s t) ∧
    (accepts .restart s → served .restart s → ∃ t, exec .restart s = .next t ∧
      completed .restart s [.Sr] (resOf .success false 0x00#8 0#16) false t ∧ bufferKept s t) ∧
    (accepts .stop s → served .stop s → ∃ t, exec .stop s = .next t ∧
      completed .stop s [.P] (resOf .success true 0x00#8 0#16) false t ∧ bufferKept s t)

/-- R204, R208: `writeByte` by case: with `WCOL = 0` the byte is sent and the outcome is the acknowledgement it met;
with `WCOL = 1` the load is rejected and nothing is sent. -/
def Obligations.WriteByteCompletes : Prop :=
  ∀ (b : BitVec 8) (s : State), accepts (.writeByte b) s → served (.writeByte b) s →
    (s.stat.wcol = false → ∃ a t, exec (.writeByte b) s = .next t ∧
      completed (.writeByte b) s [.Tx b a] (resOf (ackOutcome a) false 0x00#8 0#16) false t ∧
      bufferKept s t) ∧
    (s.stat.wcol = true → ∃ t, exec (.writeByte b) s = .next t ∧
      completed (.writeByte b) s [] (resOf .writeCollision false 0x00#8 0#16) false t ∧
      bufferKept s t)

/-- R205: `readByte` returns the byte received; the byte waits for its acknowledge sequence. -/
def Obligations.ReadByteCompletes : Prop :=
  ∀ s : State, accepts .readByte s → served .readByte s →
    ∃ v t, exec .readByte s = .next t ∧
      completed .readByte s [.Rx v] (resOf .success false v 0#16) false t ∧ bufferKept s t

/-- R206, R207: `sendAck` and `sendNotAck` run the acknowledge sequence with their level; `sendAck` never sets
`BCOL`. -/
def Obligations.AcknowledgesComplete : Prop :=
  ∀ s : State,
    (accepts .sendAck s → served .sendAck s → ∃ t, exec .sendAck s = .next t ∧
      completed .sendAck s [.Ak false] (resOf .success false 0x00#8 0#16) false t ∧
      t.stat.bcol = s.stat.bcol ∧ bufferKept s t) ∧
    (accepts .sendNotAck s → served .sendNotAck s → ∃ t, exec .sendNotAck s = .next t ∧
      completed .sendNotAck s [.Ak true] (resOf .success false 0x00#8 0#16) false t ∧
      bufferKept s t)

/-- R266: `ackStatus` reports the acknowledge bit of the last byte sent, inverted; before any byte has been sent
the bit is a free value. -/
def Obligations.AckStatusCompletes : Prop :=
  ∀ s : State, accepts .ackStatus s → served .ackStatus s →
    ∃ t, exec .ackStatus s = .next t ∧
      completed .ackStatus s []
        (resOf .success false
          (if (if s.known.ackstat then s.stat.ackstat else Config.freeBit s.draws) then 0x00#8
           else 0x01#8) 0#16) false t ∧
      bufferKept s t

/-- R223: `writeRegister` is one write transaction, cut after the first byte not acknowledged, always closed by a
STOP. -/
def Obligations.WriteRegisterCompletes : Prop :=
  ∀ (dev : BitVec 7) (reg : BitVec 16) (data : BitVec 8) (s : State),
    let i : Instr := .writeRegister dev reg data
    accepts i s → served i s →
    ∃ a₀ a₁ a₂ t, exec i s = .next t ∧
      let l := [(addrByte dev false, a₀), (reg8 reg, a₁), (data, a₂)]
      completed i s (writeTrace l) (resOf (ackOutcome (anyNack l)) true 0x00#8 0#16) true t ∧
      bufferKept s t

/-- R225: `readRegister` is one read transaction; `DATA` is the byte received, or `0x00` on a failure. -/
def Obligations.ReadRegisterCompletes : Prop :=
  ∀ (dev : BitVec 7) (reg : BitVec 16) (s : State),
    let i : Instr := .readRegister dev reg
    accepts i s → served i s →
    ∃ a₀ a₁ a₂ v t, exec i s = .next t ∧
      let l := [(addrByte dev false, a₀), (reg8 reg, a₁)]
      let r := (addrByte dev true, a₂)
      completed i s (readTrace l r v s.cfg.readNack)
        (resOf (ackOutcome (!readOk l r)) true (if readOk l r then v else 0x00#8) 0#16) true t ∧
      bufferKept s t

/-- R227: `writeRegisterWide` is two write transactions, the high byte to `reg` first, the low byte to `reg + 1`
second; the second is not begun if the first failed. -/
def Obligations.WriteRegisterWideCompletes : Prop :=
  ∀ (dev : BitVec 7) (reg data16 : BitVec 16) (s : State),
    let i : Instr := .writeRegisterWide dev reg data16
    accepts i s → served i s →
    ∃ a₀ a₁ a₂ b₀ b₁ b₂ t, exec i s = .next t ∧
      let l := [(addrByte dev false, a₀), (reg.extractLsb' 0 8, a₁), (data16.extractLsb' 8 8, a₂)]
      let m := [(addrByte dev false, b₀), ((reg + 1#16).extractLsb' 0 8, b₁),
        (data16.extractLsb' 0 8, b₂)]
      completed i s (writeTrace l ++ if anyNack l then [] else writeTrace m)
        (resOf (ackOutcome (anyNack l || anyNack m)) true 0x00#8 0#16) true t ∧
      bufferKept s t

/-- R230, R234: `writeBitField` and `writeSingleBit` read the register, then write it back with the field replaced:
two transactions, the second only if the first succeeded. -/
def Obligations.WriteFieldCompletes : Prop :=
  ∀ (dev : BitVec 7) (reg : BitVec 16) (bitStart : BitVec 3) (length : BitVec 4) (value : BitVec 8)
    (s : State) (i : Instr) (n : Nat),
    (i = .writeBitField dev reg bitStart length value ∧ n = length.toNat) ∨
      (i = .writeSingleBit dev reg bitStart value ∧ n = 1) →
    accepts i s → served i s →
    ∃ a₀ a₁ a₂ v b₀ b₁ b₂ t, exec i s = .next t ∧
      let l := [(addrByte dev false, a₀), (reg8 reg, a₁)]
      let r := (addrByte dev true, a₂)
      let m := [(addrByte dev false, b₀), (reg8 reg, b₁),
        (insertField bitStart.toNat n v value, b₂)]
      completed i s
        (readTrace l r v s.cfg.readNack ++ if readOk l r then writeTrace m else [])
        (resOf (ackOutcome (!readOk l r || anyNack m)) true 0x00#8 0#16) true t ∧
      bufferKept s t

/-- R232, R235: `readBitField` and `readSingleBit` read the register and return the field, or `0x00` on a
failure. -/
def Obligations.ReadFieldCompletes : Prop :=
  ∀ (dev : BitVec 7) (reg : BitVec 16) (bitStart : BitVec 3) (length : BitVec 4) (s : State)
    (i : Instr) (n : Nat),
    (i = .readBitField dev reg bitStart length ∧ n = length.toNat) ∨
      (i = .readSingleBit dev reg bitStart ∧ n = 1) →
    accepts i s → served i s →
    ∃ a₀ a₁ a₂ v t, exec i s = .next t ∧
      let l := [(addrByte dev false, a₀), (reg8 reg, a₁)]
      let r := (addrByte dev true, a₂)
      completed i s (readTrace l r v s.cfg.readNack)
        (resOf (ackOutcome (!readOk l r)) true
          (if readOk l r then extractField bitStart.toNat n v else 0x00#8) 0#16) true t ∧
      bufferKept s t

/-- R251: `writeBytes` is one write transaction per buffer byte, all at the same `reg`, up to the first failure;
`COUNT` is the number of transactions acknowledged throughout. -/
def Obligations.WriteBytesCompletes : Prop :=
  ∀ (dev : BitVec 7) (reg ptr len : BitVec 16) (s : State),
    let i : Instr := .writeBytes dev reg ptr len
    accepts i s → served i s →
    ∃ (ack : Nat → Bool × Bool × Bool) (t : State), exec i s = .next t ∧
      let l := fun k => [(addrByte dev false, (ack k).1), (reg8 reg, (ack k).2.1),
        (memRead (bufAddr ptr (BitVec.ofNat 16 k)) s, (ack k).2.2)]
      let n := writesCount l len.toNat 0
      completed i s (writesTrace l len.toNat 0)
        (resOf (ackOutcome (decide (n < len.toNat))) (decide (len ≠ 0#16)) 0x00#8 (BitVec.ofNat 16 n))
        (decide (len ≠ 0#16)) t ∧
      bufferKept s t

/-- R253: `readBytes` is one read transaction per buffer byte, all at the same `reg`, up to the first failure; the
first `COUNT` bytes of the buffer hold the bytes received and no other address is touched; for both places of
the store, R84's and R253's own, and where the parameter leaves the place open (log entry 24, the model's
choice). -/
def Obligations.ReadBytesCompletes : Prop :=
  ∀ (dev : BitVec 7) (reg ptr len : BitVec 16) (s : State),
    let i : Instr := .readBytes dev reg ptr len
    accepts i s → served i s → memWf s.mem = true →
    ∃ (ack : Nat → Bool × Bool × Bool) (v : Nat → BitVec 8) (t : State), exec i s = .next t ∧
      let l := fun k => [(addrByte dev false, (ack k).1), (reg8 reg, (ack k).2.1)]
      let r := fun k => (addrByte dev true, (ack k).2.2)
      let n := readsCount l r len.toNat 0
      completed i s (readsTrace l r v s.cfg.readNack len.toNat 0)
        (resOf (ackOutcome (decide (n < len.toNat))) (decide (len ≠ 0#16)) 0x00#8 (BitVec.ofNat 16 n))
        (decide (len ≠ 0#16)) t ∧
      ∀ a : BitVec 16, memRead a t =
        if ptr.toNat ≤ a.toNat ∧ a.toNat < ptr.toNat + n then
          v (a.toNat - ptr.toNat)
        else memRead a s

/-- R258: `ldWrite` is one write transaction of control, address and data byte. -/
def Obligations.LdWriteCompletes : Prop :=
  ∀ (ctrl addr data : BitVec 8) (s : State),
    let i : Instr := .ldWrite ctrl addr data
    accepts i s → served i s →
    ∃ a₀ a₁ a₂ t, exec i s = .next t ∧
      let l := [(ctrl, a₀), (addr, a₁), (data, a₂)]
      completed i s (writeTrace l) (resOf (ackOutcome (anyNack l)) true 0x00#8 0#16) true t ∧
      bufferKept s t

/-- R260: `ldRead` is one read transaction that always ends in a not-acknowledge, whatever `READ_NACK` is. -/
def Obligations.LdReadCompletes : Prop :=
  ∀ (ctrl addr : BitVec 8) (s : State),
    let i : Instr := .ldRead ctrl addr
    accepts i s → served i s →
    ∃ a₀ a₁ a₂ v t, exec i s = .next t ∧
      let l := [(ctrl, a₀), (addr, a₁)]
      let r := (ctrl ||| 0x01#8, a₂)
      completed i s (readTrace l r v true)
        (resOf (ackOutcome (!readOk l r)) true (if readOk l r then v else 0x00#8) 0#16) true t ∧
      bufferKept s t

/-- R262: `ldPageWrite` is one transaction: control and address byte, then the buffer's bytes back to back, cut after
the first byte not acknowledged; `COUNT` is the number of data bytes acknowledged. -/
def Obligations.LdPageWriteCompletes : Prop :=
  ∀ (ctrl addr : BitVec 8) (ptr len : BitVec 16) (s : State),
    let i : Instr := .ldPageWrite ctrl addr ptr len
    accepts i s → served i s →
    ∃ (a₀ a₁ : Bool) (ack : Nat → Bool) (t : State), exec i s = .next t ∧
      let data := (List.range len.toNat).map fun k =>
        (memRead (bufAddr ptr (BitVec.ofNat 16 k)) s, ack k)
      let l := [(ctrl, a₀), (addr, a₁)] ++ data
      let n := if a₀ || a₁ then 0 else (data.takeWhile fun x => !x.2).length
      completed i s (writeTrace l)
        (resOf (ackOutcome (anyNack l)) true 0x00#8 (BitVec.ofNat 16 n)) true t ∧
      bufferKept s t

/-- R264: `ldSequentialRead` with the address phase acknowledged receives `n` bytes in one transaction, each but the
last acknowledged, and stores them in order. `c` says whether `BCOL` was 1 after byte `n`: if so the outcome
is `BusCollision` and no acknowledge sequence follows; if not, `n` is the length asked for and a
not-acknowledge follows. A `BCOL` left over aborts after the first byte. The test after each byte is step 9:
with `BCOL = 1` the tick there sets `OUT` to `BusCollision` and goes to the closing step 12, with `BCOL = 0`
it goes on to step 10. -/
def Obligations.LdSequentialReadCompletes : Prop :=
  ∀ (ctrl addr : BitVec 8) (ptr len : BitVec 16) (s : State),
    let i : Instr := .ldSequentialRead ctrl addr ptr len
    (∀ (d : Drive) (u : State), u.seq.upc = 9#8 → u.seq.sub = 0 → u.eng.eop = .none →
      tick (program i) d u = { u with seq := if u.stat.bcol = true
        then { u.seq with out := .busCollision, upc := 12#8, sub := 0 }
        else { u.seq with upc := 10#8, sub := 0 } }) ∧
    (accepts i s → served i s → memWf s.mem = true →
    ∃ (a₀ a₁ a₂ c : Bool) (v : Nat → BitVec 8) (n : Nat) (t : State), exec i s = .next t ∧
      let l := [(ctrl, a₀), (addr, a₁)]
      let r := (ctrl ||| 0x01#8, a₂)
      (readOk l r = false →
        n = 0 ∧ bufferKept s t ∧
        completed i s (readTrace l r 0x00#8 false) (resOf .notAcknowledged true 0x00#8 0#16) true t) ∧
      (readOk l r = true →
        1 ≤ n ∧ n ≤ len.toNat ∧ (c = false → n = len.toNat) ∧
        (c = true → t.stat.bcol = true) ∧ (s.stat.bcol = true → c = true ∧ n = 1) ∧
        completed i s
          ([.S] ++ txTrace l ++ [.Sr, .Tx r.1 false] ++ sequentialTrace v n 0 ++
            (if c then [] else [.Ak true]) ++ [.P])
          (resOf (if c then .busCollision else .success) true 0x00#8 (BitVec.ofNat 16 n)) true t ∧
        ∀ a : BitVec 16, memRead a t =
          if ptr.toNat ≤ a.toNat ∧ a.toNat < ptr.toNat + n then
            v (a.toNat - ptr.toNat)
          else memRead a s))

/-! What follows for all commands. -/

/-- R62: after any composite command completes the bus is idle and released, `STOPI` is 1 unless the command issued no
transaction, and as many STOPs as STARTs were appended. -/
def Obligations.CompositesCloseTheBus : Prop :=
  ∀ (i : Instr) (s : State), composite i = true → accepts i s → served i s →
    ∃ t es, exec i s = .next t ∧ t.seq.busy = false ∧ t.seq.bstate = .idle ∧
      t.eng.sdaLow = false ∧ t.eng.sclLow = false ∧
      t.trace = s.trace ++ es ∧ es.count .S = es.count .P ∧
      (t.res.stopi = true ∨ (es = [] ∧
        ∃ dev reg ptr, i = .writeBytes dev reg ptr 0#16 ∨ i = .readBytes dev reg ptr 0#16))

/-- R237, R267: `WriteCollision` is never the outcome of a composite command started from any state, only of
`writeByte` issued with `WCOL = 1`; `BusCollision` is the outcome of `ldSequentialRead` only. -/
def Obligations.CollisionOutcomes : Prop :=
  ∀ (i : Instr) (s t : State), accepts i s → served i s → exec i s = .next t →
    (t.res.outcome = .writeCollision → s.stat.wcol = true ∧ ∃ b, i = .writeByte b) ∧
    (t.res.outcome = .busCollision → ∃ ctrl addr ptr len, i = .ldSequentialRead ctrl addr ptr len)

/-- R265: a successful `ldSequentialRead` of length `n` appends exactly `n - 1` acknowledge sequences and then, after
the last byte, exactly one not-acknowledge sequence, then the STOP. -/
def Obligations.SequentialReadAcknowledges : Prop :=
  ∀ (ctrl addr : BitVec 8) (ptr len : BitVec 16) (s : State),
    accepts (.ldSequentialRead ctrl addr ptr len) s → served (.ldSequentialRead ctrl addr ptr len) s →
    ∃ t es, exec (.ldSequentialRead ctrl addr ptr len) s = .next t ∧ t.trace = s.trace ++ es ∧
      (t.res.outcome = .success →
        es.count (.Ak false) = len.toNat - 1 ∧ es.count (.Ak true) = 1 ∧
        ∃ pre v, es = pre ++ [.Rx v, .Ak true, .P])

/-- R226: the round trip. Against a device that answers as the reference target does (R92), `writeRegister(d, r, b)` succeeds
and `readRegister(d, r)` after it returns `(b, Success)`, whatever `READ_NACK` is. -/
def Obligations.RegisterRoundTrip : Prop :=
  ∀ (target : RefTarget) (reg : BitVec 16) (b : BitVec 8) (s t u : State) (ins : List Input)
    (es fs : List Event),
    let wr : Instr := .writeRegister target.addr reg b
    let rd : Instr := .readRegister target.addr reg
    accepts wr s → served wr s → exec wr s = .next t →
    served rd { t with inputs := ins } → exec rd { t with inputs := ins } = .next u →
    t.trace = s.trace ++ es → u.trace = t.trace ++ fs → target.honoursAll (es ++ fs) = true →
    t.res = resOf .success true 0x00#8 0#16 ∧ u.res = resOf .success true b 0#16

/-- R233: `writeBitField` followed immediately by `readBitField` with the same range returns the value written, cut to
the field's length, against a device that answers as the reference target does; and the single-bit pair
likewise returns bit 0 of the value. -/
def Obligations.BitFieldRoundTrip : Prop :=
  ∀ (target : RefTarget) (reg : BitVec 16) (bitStart : BitVec 3) (length : BitVec 4)
    (value : BitVec 8) (s t u : State) (ins : List Input) (es fs : List Event) (wr rd : Instr) (n : Nat),
    (wr = .writeBitField target.addr reg bitStart length value ∧
      rd = .readBitField target.addr reg bitStart length ∧ n = length.toNat) ∨
    (wr = .writeSingleBit target.addr reg bitStart value ∧
      rd = .readSingleBit target.addr reg bitStart ∧ n = 1) →
    accepts wr s → served wr s → exec wr s = .next t →
    served rd { t with inputs := ins } → exec rd { t with inputs := ins } = .next u →
    t.trace = s.trace ++ es → u.trace = t.trace ++ fs → target.honoursAll (es ++ fs) = true →
    t.res.outcome = .success ∧
    u.res = resOf .success true (value &&& BitVec.ofNat 8 (2 ^ n - 1)) 0#16

/-- R91, R92: the reference target on the wire. Its start state; with its drives every wait on SCL ends at once, every
operation of the engine runs to its end in its own number of phases with no collision, and the events it
leaves are answered as R92 says. How the target drives the lines between those events is the model's reading
(log entry 18, DEDUCED). -/
def Obligations.ReferenceTargetOnTheWire : Prop :=
  (∀ (addr : BitVec 7) (mem : BitVec 8 → BitVec 8),
    (refTarget addr mem).sel = .none ∧ (refTarget addr mem).p = 0x00#8 ∧
    (refTarget addr mem).addr = addr ∧ (refTarget addr mem).mem = mem) ∧
  ∀ (r : RefTarget) (s : State), s.ctrl.moden = true →
    (∀ p q, (p, q) ∈ sclWaits → s.eng.phase = p → s.eng.eop = phaseOp p →
      (enginePhase (r.drive s) s).eng.phase = q) ∧
    (s.eng.eop = .genStart → s.eng.phase = .s1 → s.eng.sdaLow = false → s.eng.sclLow = false →
      let t := r.engineRun 4 s
      t.eng.eop = .none ∧ t.trace = s.trace ++ [.S] ∧ t.stat.bcol = s.stat.bcol) ∧
    (s.eng.eop = .genRestart → s.eng.phase = .r1 →
      let t := r.engineRun 6 s
      t.eng.eop = .none ∧ t.trace = s.trace ++ [.Sr] ∧ t.stat.bcol = s.stat.bcol) ∧
    (s.eng.eop = .genStop → s.eng.phase = .p1 →
      let t := r.engineRun 5 s
      t.eng.eop = .none ∧ t.trace = s.trace ++ [.P] ∧ t.stat.bcol = s.stat.bcol) ∧
    (s.eng.eop = .transmit → s.eng.phase = .t0 →
      let t := r.engineRun 37 s
      t.eng.eop = .none ∧ t.trace = s.trace ++ [.Tx s.txb (r.ackLevel s.txb)] ∧
        t.stat.bcol = s.stat.bcol) ∧
    (s.eng.eop = .receive → s.eng.phase = .v0 →
      let t := r.engineRun 26 s
      t.eng.eop = .none ∧ t.trace = s.trace ++ [.Rx r.sends] ∧ t.stat.bcol = s.stat.bcol) ∧
    (s.eng.eop = .ackSeq → s.eng.phase = .a0 →
      let t := r.engineRun 5 s
      t.eng.eop = .none ∧ t.trace = s.trace ++ [.Ak s.ctrl.ackdt] ∧ t.stat.bcol = s.stat.bcol)

/-! Frames. -/

/-- R73: no command changes a byte of the buffer memory outside `PTR .. PTR + LEN - 1`, and only `readBytes` and
`ldSequentialRead` change any; this holds of every next state, completed or not. -/
def Obligations.BufferFrame : Prop :=
  ∀ (i : Instr) (s t : State), exec i s = .next t →
    (storesBuffer i = false → bufferKept s t) ∧
    (∀ ptr len, burstRange i = some (ptr, len) → ∀ a : BitVec 16,
      ¬ (ptr.toNat ≤ a.toNat ∧ a.toNat < ptr.toNat + len.toNat) → memRead a t = memRead a s)

/-- R22, R36, R39, R41, R42, R59: what a command leaves unchanged, in every next state, completed or not: `MODEN`,
`BAUD`, the parameters, the read data and `rst` always; `ACKDT` unless it may run an acknowledge sequence; `TXB` and
`ACKSTAT` unless it sends; `RXB`, `RBF` and `RXOV` unless it receives; the engine, `BSTATE`, `TRACE`, `CTRL` and
`STAT` but `WCOL` for the two that touch no bus; and no command clears `BCOL`. -/
def Obligations.RegisterFrame : Prop :=
  ∀ (i : Instr) (s t : State), exec i s = .next t →
    t.ctrl.moden = s.ctrl.moden ∧ t.ctrl.baud = s.ctrl.baud ∧ t.cfg = s.cfg ∧
    t.hpRdata = s.hpRdata ∧ t.rst = s.rst ∧
    (acknowledges i = false → t.ctrl.ackdt = s.ctrl.ackdt) ∧
    (transmits i = false → t.txb = s.txb ∧ t.stat.ackstat = s.stat.ackstat) ∧
    (receives i = false → t.rxb = s.rxb ∧ t.stat.rbf = s.stat.rbf ∧ t.stat.rxov = s.stat.rxov) ∧
    (i = .waitIdle ∨ i = .ackStatus → t.eng = s.eng ∧ t.seq.bstate = s.seq.bstate ∧
      t.trace = s.trace ∧ t.ctrl = s.ctrl ∧ t.stat = { s.stat with wcol := t.stat.wcol }) ∧
    (i = .ackStatus → t.stat = s.stat) ∧
    (s.stat.bcol = true → t.stat.bcol = true) ∧
    ∃ es, t.trace = s.trace ++ es

/-! Invariants. -/

/-- R61, R63: the state after reset meets the invariant. -/
def Obligations.InvAtReset : Prop := Inv State.reset ∧ memWf State.reset.mem = true

/-- R45, R60, R61, R148, R155, R157, R294, R310: every step keeps the invariant of the block: the engine and the
sequencer exclude each other, `PHASE`, `BSTATE`, the pending bits and the drivers fit together, the sequencer
stays inside the micro-program of the latched command, every START is closed by a STOP, and while `rst` is
asserted the block is disabled with no fault. What `PHASE` and `sub` are is the model's choice (log entries
6 and 8). -/
def Obligations.InvKept : Prop :=
  ∀ s t : State, Inv s → step s = .next t → Inv t

/-- Every step keeps the canonical form of the buffer memory: addresses rising, no entry equal to what an unlisted
address reads as. The form is the model's own representation of the memory of R72 and R74 (log entry 5,
DESIGN CHOICE), and no rule of the spec gives it. -/
def Obligations.MemoryFormKept : Prop :=
  ∀ s t : State, memWf s.mem = true → step s = .next t → memWf t.mem = true

/-- R61: what a quiescent state looks like. -/
def Obligations.QuiescentStates : Prop :=
  ∀ s : State, Inv s → s.seq.busy = false →
    s.eng.eop = .none ∧ s.ctrl.sen = false ∧ s.ctrl.rsen = false ∧ s.ctrl.pen = false ∧
    s.ctrl.rcen = false ∧ s.ctrl.acken = false ∧ s.stat.trun = false ∧ s.stat.tbf = false ∧
    s.stat.rbf = false ∧ s.seq.bstate ≠ .stop ∧
    (s.seq.bstate = .idle → s.eng.sdaLow = false ∧ s.eng.sclLow = false ∧ s.eng.ackpend = false) ∧
    (s.seq.bstate ≠ .idle → s.eng.sclLow = true) ∧ launchOk s = true

/-- R60, R46: the sequencer and the engine exclude each other, and exactly one bus condition is active. Whenever an
engine operation is in progress the sequencer is at the hold for it; at any other action no operation, no
pending bit and no transmission is in progress. -/
def Obligations.EngineAndSequencerExclude : Prop :=
  ∀ s : State, Inv s → s.seq.busy = true →
    ∃ i a n, decode s.seq.cw = .ok i ∧ actAt (program i) s = some (a, n) ∧
      (s.eng.eop ≠ .none → holdsFor a = s.eng.eop) ∧
      (holdsFor a = .none → s.eng.eop = .none ∧ anyPending s.ctrl = false ∧ s.stat.trun = false) ∧
      ¬ (s.ctrl.sen = true ∧ s.ctrl.rsen = true) ∧ ¬ (s.ctrl.sen = true ∧ s.ctrl.pen = true) ∧
      ¬ (s.ctrl.rsen = true ∧ s.ctrl.pen = true)

/-- R45: `BSTATE` moves only along the edges of the table: one tick of a running command keeps it or takes one
edge. -/
def Obligations.BstateEdges : Prop :=
  ∀ (i : Instr) (d : Drive) (s : State), Inv s → s.seq.busy = true → decode s.seq.cw = .ok i →
    bstateEdge s.seq.bstate (tick (program i) d s).seq.bstate = true
end

