-- ==== Sys2Proof/Laws/Decode.lean ====
section
/-! SUPPORT. The fields of a packed command word (spec/30_encoding.md R101): each field reads back what was
packed, and masking a packed word masks field by field. -/

namespace Sys2Proof

open Sys2Proof.Machine

section Fields

variable (op : BitVec 6) (dv : BitVec 8) (reg data aux : BitVec 16)

@[simp] theorem opField_pack : opField (pack op dv reg data aux) = op := by
  apply BitVec.eq_of_getLsbD_eq; intro i hi
  simp only [opField, pack, BitVec.getLsbD_extractLsb', BitVec.getLsbD_append]; grind

@[simp] theorem devField_pack (dev : BitVec 7) : devField (pack op (devc dev) reg data aux) = dev := by
  apply BitVec.eq_of_getLsbD_eq; intro i hi
  simp only [devField, devc, pack, BitVec.getLsbD_extractLsb', BitVec.getLsbD_append]; grind

@[simp] theorem ctrlField_pack : ctrlField (pack op dv reg data aux) = dv := by
  apply BitVec.eq_of_getLsbD_eq; intro i hi
  simp only [ctrlField, pack, BitVec.getLsbD_extractLsb', BitVec.getLsbD_append]; grind

@[simp] theorem regField_pack : regField (pack op dv reg data aux) = reg := by
  apply BitVec.eq_of_getLsbD_eq; intro i hi
  simp only [regField, pack, BitVec.getLsbD_extractLsb', BitVec.getLsbD_append]; grind

@[simp] theorem addrField_pack (b : BitVec 8) : addrField (pack op dv (low8 b) data aux) = b := by
  apply BitVec.eq_of_getLsbD_eq; intro i hi
  simp only [addrField, low8, pack, BitVec.getLsbD_extractLsb', BitVec.getLsbD_append]; grind

@[simp] theorem data8Field_pack (b : BitVec 8) : data8Field (pack op dv reg (low8 b) aux) = b := by
  apply BitVec.eq_of_getLsbD_eq; intro i hi
  simp only [data8Field, low8, pack, BitVec.getLsbD_extractLsb', BitVec.getLsbD_append]; grind

@[simp] theorem data16Field_pack : data16Field (pack op dv reg data aux) = data := by
  apply BitVec.eq_of_getLsbD_eq; intro i hi
  simp only [data16Field, pack, BitVec.getLsbD_extractLsb', BitVec.getLsbD_append]; grind

@[simp] theorem lenField_pack : lenField (pack op dv reg data aux) = data :=
  data16Field_pack op dv reg data aux

@[simp] theorem ptrField_pack : ptrField (pack op dv reg data aux) = aux := by
  apply BitVec.eq_of_getLsbD_eq; intro i hi
  simp only [ptrField, pack, BitVec.getLsbD_extractLsb', BitVec.getLsbD_append]; grind

@[simp] theorem bitStartField_pack (b : BitVec 3) (l : BitVec 4) :
    bitStartField (pack op dv reg data (fieldAux b l)) = b := by
  apply BitVec.eq_of_getLsbD_eq; intro i hi
  simp only [bitStartField, fieldAux, pack, BitVec.getLsbD_extractLsb', BitVec.getLsbD_append]; grind

@[simp] theorem lengthField_pack (b : BitVec 3) (l : BitVec 4) :
    lengthField (pack op dv reg data (fieldAux b l)) = l := by
  apply BitVec.eq_of_getLsbD_eq; intro i hi
  simp only [lengthField, fieldAux, pack, BitVec.getLsbD_extractLsb', BitVec.getLsbD_append]; grind

/-- Masking a packed word masks each field; the two zero bits stay zero. -/
theorem pack_and (m : CmdWord) : pack op dv reg data aux &&& m =
    pack (op &&& opField m) (dv &&& ctrlField m) (reg &&& regField m) (data &&& data16Field m)
      (aux &&& ptrField m) := by
  apply BitVec.eq_of_getLsbD_eq; intro i hi
  simp only [opField, ctrlField, regField, data16Field, ptrField, pack, BitVec.getLsbD_and,
    BitVec.getLsbD_extractLsb', BitVec.getLsbD_append]; grind

end Fields

theorem devc_and (dev : BitVec 7) : devc dev &&& 0x80#8 = 0#8 := by
  revert dev; decide

theorem low8_and (b : BitVec 8) : low8 b &&& 0xFF00#16 = 0#16 := by
  apply BitVec.eq_of_getLsbD_eq; intro i hi
  simp only [low8, BitVec.getLsbD_and, BitVec.getLsbD_append, BitVec.getLsbD_zero]
  interval_cases i <;> simp

theorem ctrl_and (ctrl : BitVec 8) (h : ctrlOk ctrl = true) : ctrl &&& 0x01#8 = 0#8 := by
  revert ctrl; decide

theorem fieldAux_and (b : BitVec 3) (l : BitVec 4) : fieldAux b l &&& 0xFF08#16 = 0#16 := by
  revert b l; decide

theorem fieldAux_zero_and (b : BitVec 3) : fieldAux b 0#4 &&& 0xFFF8#16 = 0#16 := by
  revert b; decide

/-- A word whose row is known and that meets the row's pattern decodes to what the row builds (R124). -/
theorem decode_of_row {w : CmdWord} {r : OpcodeRow} (hr : rowOf (opField w) = some r)
    (hm : w &&& r.mask = r.pattern) : decode w = .ok (r.build w) := by
  simp [decode, hr, hm]

/-- What a decoded word is: its row is in the map, it meets the row's pattern, and the command is what the
row builds. -/
theorem decode_inv {w : CmdWord} {i : Instr} (h : decode w = .ok i) :
    ∃ r ∈ opcodeMap, r.op = opField w ∧ w &&& r.mask = r.pattern ∧ i = r.build w := by
  unfold decode rowOf at h
  split at h
  · cases h
  · rename_i r hr
    split at h
    · rename_i hm
      exact ⟨r, List.mem_of_find?_eq_some hr, by simpa using List.find?_some hr, hm,
        (Except.ok.inj h).symm⟩
    · cases h

end Sys2Proof
end

