-- ==== Sys2Proof/Laws/State.lean ====
section
/-! SUPPORT. What every named update of the state does to every field: one lemma per field per update,
true by `rfl`, so that no later proof unfolds a record update. -/

namespace Sys2Proof.Machine

variable (s : State)

@[simp] theorem raiseFatal_ctrl (c : FatalCode) : (raiseFatal c s).ctrl = s.ctrl := rfl
@[simp] theorem raiseFatal_stat (c : FatalCode) : (raiseFatal c s).stat = s.stat := rfl
@[simp] theorem raiseFatal_txb (c : FatalCode) : (raiseFatal c s).txb = s.txb := rfl
@[simp] theorem raiseFatal_rxb (c : FatalCode) : (raiseFatal c s).rxb = s.rxb := rfl
@[simp] theorem raiseFatal_res (c : FatalCode) : (raiseFatal c s).res = s.res := rfl
@[simp] theorem raiseFatal_seq (c : FatalCode) :
    (raiseFatal c s).seq = { s.seq with fatal := true, fcode := c } := rfl
@[simp] theorem raiseFatal_eng (c : FatalCode) : (raiseFatal c s).eng = s.eng := rfl
@[simp] theorem raiseFatal_trace (c : FatalCode) : (raiseFatal c s).trace = s.trace := rfl
@[simp] theorem raiseFatal_mem (c : FatalCode) : (raiseFatal c s).mem = s.mem := rfl
@[simp] theorem raiseFatal_cfg (c : FatalCode) : (raiseFatal c s).cfg = s.cfg := rfl
@[simp] theorem raiseFatal_inputs (c : FatalCode) : (raiseFatal c s).inputs = s.inputs := rfl
@[simp] theorem raiseFatal_draws (c : FatalCode) : (raiseFatal c s).draws = s.draws := rfl
@[simp] theorem raiseFatal_known (c : FatalCode) : (raiseFatal c s).known = s.known := rfl
@[simp] theorem raiseFatal_hpRdata (c : FatalCode) : (raiseFatal c s).hpRdata = s.hpRdata := rfl
@[simp] theorem raiseFatal_rst (c : FatalCode) : (raiseFatal c s).rst = s.rst := rfl
@[simp] theorem raiseFatal_raced (c : FatalCode) : (raiseFatal c s).raced = s.raced := rfl

@[simp] theorem emit_ctrl (e : Event) : (emit e s).ctrl = s.ctrl := rfl
@[simp] theorem emit_stat (e : Event) : (emit e s).stat = s.stat := rfl
@[simp] theorem emit_txb (e : Event) : (emit e s).txb = s.txb := rfl
@[simp] theorem emit_rxb (e : Event) : (emit e s).rxb = s.rxb := rfl
@[simp] theorem emit_res (e : Event) : (emit e s).res = s.res := rfl
@[simp] theorem emit_seq (e : Event) : (emit e s).seq = s.seq := rfl
@[simp] theorem emit_eng (e : Event) : (emit e s).eng = s.eng := rfl
@[simp] theorem emit_trace (e : Event) : (emit e s).trace = s.trace ++ [e] := rfl
@[simp] theorem emit_mem (e : Event) : (emit e s).mem = s.mem := rfl
@[simp] theorem emit_cfg (e : Event) : (emit e s).cfg = s.cfg := rfl
@[simp] theorem emit_inputs (e : Event) : (emit e s).inputs = s.inputs := rfl
@[simp] theorem emit_draws (e : Event) : (emit e s).draws = s.draws := rfl
@[simp] theorem emit_known (e : Event) : (emit e s).known = s.known := rfl
@[simp] theorem emit_hpRdata (e : Event) : (emit e s).hpRdata = s.hpRdata := rfl
@[simp] theorem emit_rst (e : Event) : (emit e s).rst = s.rst := rfl
@[simp] theorem emit_raced (e : Event) : (emit e s).raced = s.raced := rfl

@[simp] theorem memWrite_ctrl (a : BitVec 16) (v : BitVec 8) : (memWrite a v s).ctrl = s.ctrl := rfl
@[simp] theorem memWrite_stat (a : BitVec 16) (v : BitVec 8) : (memWrite a v s).stat = s.stat := rfl
@[simp] theorem memWrite_txb (a : BitVec 16) (v : BitVec 8) : (memWrite a v s).txb = s.txb := rfl
@[simp] theorem memWrite_rxb (a : BitVec 16) (v : BitVec 8) : (memWrite a v s).rxb = s.rxb := rfl
@[simp] theorem memWrite_res (a : BitVec 16) (v : BitVec 8) : (memWrite a v s).res = s.res := rfl
@[simp] theorem memWrite_seq (a : BitVec 16) (v : BitVec 8) : (memWrite a v s).seq = s.seq := rfl
@[simp] theorem memWrite_eng (a : BitVec 16) (v : BitVec 8) : (memWrite a v s).eng = s.eng := rfl
@[simp] theorem memWrite_trace (a : BitVec 16) (v : BitVec 8) :
    (memWrite a v s).trace = s.trace := rfl
@[simp] theorem memWrite_mem (a : BitVec 16) (v : BitVec 8) :
    (memWrite a v s).mem = writeCell s.mem a.toNat v := rfl
@[simp] theorem memWrite_cfg (a : BitVec 16) (v : BitVec 8) : (memWrite a v s).cfg = s.cfg := rfl
@[simp] theorem memWrite_inputs (a : BitVec 16) (v : BitVec 8) :
    (memWrite a v s).inputs = s.inputs := rfl
@[simp] theorem memWrite_draws (a : BitVec 16) (v : BitVec 8) :
    (memWrite a v s).draws = s.draws := rfl
@[simp] theorem memWrite_known (a : BitVec 16) (v : BitVec 8) :
    (memWrite a v s).known = s.known := rfl
@[simp] theorem memWrite_hpRdata (a : BitVec 16) (v : BitVec 8) :
    (memWrite a v s).hpRdata = s.hpRdata := rfl
@[simp] theorem memWrite_rst (a : BitVec 16) (v : BitVec 8) : (memWrite a v s).rst = s.rst := rfl
@[simp] theorem memWrite_raced (a : BitVec 16) (v : BitVec 8) :
    (memWrite a v s).raced = s.raced := rfl

@[simp] theorem drawn_ctrl : (drawn s).ctrl = s.ctrl := rfl
@[simp] theorem drawn_stat : (drawn s).stat = s.stat := rfl
@[simp] theorem drawn_txb : (drawn s).txb = s.txb := rfl
@[simp] theorem drawn_rxb : (drawn s).rxb = s.rxb := rfl
@[simp] theorem drawn_res : (drawn s).res = s.res := rfl
@[simp] theorem drawn_seq : (drawn s).seq = s.seq := rfl
@[simp] theorem drawn_eng : (drawn s).eng = s.eng := rfl
@[simp] theorem drawn_trace : (drawn s).trace = s.trace := rfl
@[simp] theorem drawn_mem : (drawn s).mem = s.mem := rfl
@[simp] theorem drawn_cfg : (drawn s).cfg = s.cfg := rfl
@[simp] theorem drawn_inputs : (drawn s).inputs = s.inputs := rfl
@[simp] theorem drawn_draws : (drawn s).draws = s.draws + 1 := rfl
@[simp] theorem drawn_known : (drawn s).known = s.known := rfl
@[simp] theorem drawn_hpRdata : (drawn s).hpRdata = s.hpRdata := rfl
@[simp] theorem drawn_rst : (drawn s).rst = s.rst := rfl
@[simp] theorem drawn_raced : (drawn s).raced = s.raced := rfl

@[simp] theorem acceptCommand_ctrl (w : CmdWord) : (acceptCommand w s).ctrl = s.ctrl := rfl
@[simp] theorem acceptCommand_stat (w : CmdWord) : (acceptCommand w s).stat = s.stat := rfl
@[simp] theorem acceptCommand_txb (w : CmdWord) : (acceptCommand w s).txb = s.txb := rfl
@[simp] theorem acceptCommand_rxb (w : CmdWord) : (acceptCommand w s).rxb = s.rxb := rfl
@[simp] theorem acceptCommand_res (w : CmdWord) :
    (acceptCommand w s).res = { outcome := .success, stopi := false, valid := false, data := 0x00#8, count := 0#16 } := rfl
@[simp] theorem acceptCommand_seq (w : CmdWord) :
    (acceptCommand w s).seq = { s.seq with cw := w, out := .success, idx := 0#16, upc := 0#8, sub := 0, busy := true } := rfl
@[simp] theorem acceptCommand_eng (w : CmdWord) : (acceptCommand w s).eng = s.eng := rfl
@[simp] theorem acceptCommand_trace (w : CmdWord) : (acceptCommand w s).trace = s.trace := rfl
@[simp] theorem acceptCommand_mem (w : CmdWord) : (acceptCommand w s).mem = s.mem := rfl
@[simp] theorem acceptCommand_cfg (w : CmdWord) : (acceptCommand w s).cfg = s.cfg := rfl
@[simp] theorem acceptCommand_inputs (w : CmdWord) : (acceptCommand w s).inputs = s.inputs := rfl
@[simp] theorem acceptCommand_draws (w : CmdWord) : (acceptCommand w s).draws = s.draws := rfl
@[simp] theorem acceptCommand_known (w : CmdWord) : (acceptCommand w s).known = s.known := rfl
@[simp] theorem acceptCommand_hpRdata (w : CmdWord) : (acceptCommand w s).hpRdata = s.hpRdata := rfl
@[simp] theorem acceptCommand_rst (w : CmdWord) : (acceptCommand w s).rst = s.rst := rfl
@[simp] theorem acceptCommand_raced (w : CmdWord) : (acceptCommand w s).raced = false := rfl

@[simp] theorem completeCommand_ctrl : (completeCommand s).ctrl = s.ctrl := rfl
@[simp] theorem completeCommand_stat : (completeCommand s).stat = s.stat := rfl
@[simp] theorem completeCommand_txb : (completeCommand s).txb = s.txb := rfl
@[simp] theorem completeCommand_rxb : (completeCommand s).rxb = s.rxb := rfl
@[simp] theorem completeCommand_res :
    (completeCommand s).res = { s.res with outcome := s.seq.out, valid := true } := rfl
@[simp] theorem completeCommand_seq : (completeCommand s).seq = { s.seq with busy := false } := rfl
@[simp] theorem completeCommand_eng : (completeCommand s).eng = s.eng := rfl
@[simp] theorem completeCommand_trace : (completeCommand s).trace = s.trace := rfl
@[simp] theorem completeCommand_mem : (completeCommand s).mem = s.mem := rfl
@[simp] theorem completeCommand_cfg : (completeCommand s).cfg = s.cfg := rfl
@[simp] theorem completeCommand_inputs : (completeCommand s).inputs = s.inputs := rfl
@[simp] theorem completeCommand_draws : (completeCommand s).draws = s.draws := rfl
@[simp] theorem completeCommand_known : (completeCommand s).known = s.known := rfl
@[simp] theorem completeCommand_hpRdata : (completeCommand s).hpRdata = s.hpRdata := rfl
@[simp] theorem completeCommand_rst : (completeCommand s).rst = s.rst := rfl
@[simp] theorem completeCommand_raced : (completeCommand s).raced = s.raced := rfl

@[simp] theorem toPhase_ctrl (p : Phase) : (toPhase p s).ctrl = s.ctrl := rfl
@[simp] theorem toPhase_stat (p : Phase) : (toPhase p s).stat = s.stat := rfl
@[simp] theorem toPhase_txb (p : Phase) : (toPhase p s).txb = s.txb := rfl
@[simp] theorem toPhase_rxb (p : Phase) : (toPhase p s).rxb = s.rxb := rfl
@[simp] theorem toPhase_res (p : Phase) : (toPhase p s).res = s.res := rfl
@[simp] theorem toPhase_seq (p : Phase) : (toPhase p s).seq = s.seq := rfl
@[simp] theorem toPhase_eng (p : Phase) : (toPhase p s).eng = { s.eng with phase := p } := rfl
@[simp] theorem toPhase_trace (p : Phase) : (toPhase p s).trace = s.trace := rfl
@[simp] theorem toPhase_mem (p : Phase) : (toPhase p s).mem = s.mem := rfl
@[simp] theorem toPhase_cfg (p : Phase) : (toPhase p s).cfg = s.cfg := rfl
@[simp] theorem toPhase_inputs (p : Phase) : (toPhase p s).inputs = s.inputs := rfl
@[simp] theorem toPhase_draws (p : Phase) : (toPhase p s).draws = s.draws := rfl
@[simp] theorem toPhase_known (p : Phase) : (toPhase p s).known = s.known := rfl
@[simp] theorem toPhase_hpRdata (p : Phase) : (toPhase p s).hpRdata = s.hpRdata := rfl
@[simp] theorem toPhase_rst (p : Phase) : (toPhase p s).rst = s.rst := rfl
@[simp] theorem toPhase_raced (p : Phase) : (toPhase p s).raced = s.raced := rfl

@[simp] theorem setSda_ctrl (b : Bool) : (setSda b s).ctrl = s.ctrl := rfl
@[simp] theorem setSda_stat (b : Bool) : (setSda b s).stat = s.stat := rfl
@[simp] theorem setSda_txb (b : Bool) : (setSda b s).txb = s.txb := rfl
@[simp] theorem setSda_rxb (b : Bool) : (setSda b s).rxb = s.rxb := rfl
@[simp] theorem setSda_res (b : Bool) : (setSda b s).res = s.res := rfl
@[simp] theorem setSda_seq (b : Bool) : (setSda b s).seq = s.seq := rfl
@[simp] theorem setSda_eng (b : Bool) : (setSda b s).eng = { s.eng with sdaLow := b } := rfl
@[simp] theorem setSda_trace (b : Bool) : (setSda b s).trace = s.trace := rfl
@[simp] theorem setSda_mem (b : Bool) : (setSda b s).mem = s.mem := rfl
@[simp] theorem setSda_cfg (b : Bool) : (setSda b s).cfg = s.cfg := rfl
@[simp] theorem setSda_inputs (b : Bool) : (setSda b s).inputs = s.inputs := rfl
@[simp] theorem setSda_draws (b : Bool) : (setSda b s).draws = s.draws := rfl
@[simp] theorem setSda_known (b : Bool) : (setSda b s).known = s.known := rfl
@[simp] theorem setSda_hpRdata (b : Bool) : (setSda b s).hpRdata = s.hpRdata := rfl
@[simp] theorem setSda_rst (b : Bool) : (setSda b s).rst = s.rst := rfl
@[simp] theorem setSda_raced (b : Bool) : (setSda b s).raced = s.raced := rfl

@[simp] theorem setScl_ctrl (b : Bool) : (setScl b s).ctrl = s.ctrl := rfl
@[simp] theorem setScl_stat (b : Bool) : (setScl b s).stat = s.stat := rfl
@[simp] theorem setScl_txb (b : Bool) : (setScl b s).txb = s.txb := rfl
@[simp] theorem setScl_rxb (b : Bool) : (setScl b s).rxb = s.rxb := rfl
@[simp] theorem setScl_res (b : Bool) : (setScl b s).res = s.res := rfl
@[simp] theorem setScl_seq (b : Bool) : (setScl b s).seq = s.seq := rfl
@[simp] theorem setScl_eng (b : Bool) : (setScl b s).eng = { s.eng with sclLow := b } := rfl
@[simp] theorem setScl_trace (b : Bool) : (setScl b s).trace = s.trace := rfl
@[simp] theorem setScl_mem (b : Bool) : (setScl b s).mem = s.mem := rfl
@[simp] theorem setScl_cfg (b : Bool) : (setScl b s).cfg = s.cfg := rfl
@[simp] theorem setScl_inputs (b : Bool) : (setScl b s).inputs = s.inputs := rfl
@[simp] theorem setScl_draws (b : Bool) : (setScl b s).draws = s.draws := rfl
@[simp] theorem setScl_known (b : Bool) : (setScl b s).known = s.known := rfl
@[simp] theorem setScl_hpRdata (b : Bool) : (setScl b s).hpRdata = s.hpRdata := rfl
@[simp] theorem setScl_rst (b : Bool) : (setScl b s).rst = s.rst := rfl
@[simp] theorem setScl_raced (b : Bool) : (setScl b s).raced = s.raced := rfl

@[simp] theorem endOp_ctrl : (endOp s).ctrl = s.ctrl := rfl
@[simp] theorem endOp_stat : (endOp s).stat = s.stat := rfl
@[simp] theorem endOp_txb : (endOp s).txb = s.txb := rfl
@[simp] theorem endOp_rxb : (endOp s).rxb = s.rxb := rfl
@[simp] theorem endOp_res : (endOp s).res = s.res := rfl
@[simp] theorem endOp_seq : (endOp s).seq = s.seq := rfl
@[simp] theorem endOp_eng : (endOp s).eng = { s.eng with eop := .none, phase := .none } := rfl
@[simp] theorem endOp_trace : (endOp s).trace = s.trace := rfl
@[simp] theorem endOp_mem : (endOp s).mem = s.mem := rfl
@[simp] theorem endOp_cfg : (endOp s).cfg = s.cfg := rfl
@[simp] theorem endOp_inputs : (endOp s).inputs = s.inputs := rfl
@[simp] theorem endOp_draws : (endOp s).draws = s.draws := rfl
@[simp] theorem endOp_known : (endOp s).known = s.known := rfl
@[simp] theorem endOp_hpRdata : (endOp s).hpRdata = s.hpRdata := rfl
@[simp] theorem endOp_rst : (endOp s).rst = s.rst := rfl
@[simp] theorem endOp_raced : (endOp s).raced = s.raced := rfl

@[simp] theorem beginOp_ctrl (o : Eop) (p : Phase) : (beginOp o p s).ctrl = s.ctrl := rfl
@[simp] theorem beginOp_stat (o : Eop) (p : Phase) : (beginOp o p s).stat = s.stat := rfl
@[simp] theorem beginOp_txb (o : Eop) (p : Phase) : (beginOp o p s).txb = s.txb := rfl
@[simp] theorem beginOp_rxb (o : Eop) (p : Phase) : (beginOp o p s).rxb = s.rxb := rfl
@[simp] theorem beginOp_res (o : Eop) (p : Phase) : (beginOp o p s).res = s.res := rfl
@[simp] theorem beginOp_seq (o : Eop) (p : Phase) : (beginOp o p s).seq = s.seq := rfl
@[simp] theorem beginOp_eng (o : Eop) (p : Phase) :
    (beginOp o p s).eng = { s.eng with eop := o, phase := p } := rfl
@[simp] theorem beginOp_trace (o : Eop) (p : Phase) : (beginOp o p s).trace = s.trace := rfl
@[simp] theorem beginOp_mem (o : Eop) (p : Phase) : (beginOp o p s).mem = s.mem := rfl
@[simp] theorem beginOp_cfg (o : Eop) (p : Phase) : (beginOp o p s).cfg = s.cfg := rfl
@[simp] theorem beginOp_inputs (o : Eop) (p : Phase) : (beginOp o p s).inputs = s.inputs := rfl
@[simp] theorem beginOp_draws (o : Eop) (p : Phase) : (beginOp o p s).draws = s.draws := rfl
@[simp] theorem beginOp_known (o : Eop) (p : Phase) : (beginOp o p s).known = s.known := rfl
@[simp] theorem beginOp_hpRdata (o : Eop) (p : Phase) : (beginOp o p s).hpRdata = s.hpRdata := rfl
@[simp] theorem beginOp_rst (o : Eop) (p : Phase) : (beginOp o p s).rst = s.rst := rfl
@[simp] theorem beginOp_raced (o : Eop) (p : Phase) : (beginOp o p s).raced = s.raced := rfl

@[simp] theorem setAckpend_ctrl (b : Bool) : (setAckpend b s).ctrl = s.ctrl := rfl
@[simp] theorem setAckpend_stat (b : Bool) : (setAckpend b s).stat = s.stat := rfl
@[simp] theorem setAckpend_txb (b : Bool) : (setAckpend b s).txb = s.txb := rfl
@[simp] theorem setAckpend_rxb (b : Bool) : (setAckpend b s).rxb = s.rxb := rfl
@[simp] theorem setAckpend_res (b : Bool) : (setAckpend b s).res = s.res := rfl
@[simp] theorem setAckpend_seq (b : Bool) : (setAckpend b s).seq = s.seq := rfl
@[simp] theorem setAckpend_eng (b : Bool) :
    (setAckpend b s).eng = { s.eng with ackpend := b } := rfl
@[simp] theorem setAckpend_trace (b : Bool) : (setAckpend b s).trace = s.trace := rfl
@[simp] theorem setAckpend_mem (b : Bool) : (setAckpend b s).mem = s.mem := rfl
@[simp] theorem setAckpend_cfg (b : Bool) : (setAckpend b s).cfg = s.cfg := rfl
@[simp] theorem setAckpend_inputs (b : Bool) : (setAckpend b s).inputs = s.inputs := rfl
@[simp] theorem setAckpend_draws (b : Bool) : (setAckpend b s).draws = s.draws := rfl
@[simp] theorem setAckpend_known (b : Bool) : (setAckpend b s).known = s.known := rfl
@[simp] theorem setAckpend_hpRdata (b : Bool) : (setAckpend b s).hpRdata = s.hpRdata := rfl
@[simp] theorem setAckpend_rst (b : Bool) : (setAckpend b s).rst = s.rst := rfl
@[simp] theorem setAckpend_raced (b : Bool) : (setAckpend b s).raced = s.raced := rfl

@[simp] theorem sampleBcol_ctrl (i : Bool) (d : Drive) : (sampleBcol i d s).ctrl = s.ctrl := rfl
@[simp] theorem sampleBcol_stat (i : Bool) (d : Drive) :
    (sampleBcol i d s).stat = monitorBcol s.stat i (sdaIn s.eng d) := rfl
@[simp] theorem sampleBcol_txb (i : Bool) (d : Drive) : (sampleBcol i d s).txb = s.txb := rfl
@[simp] theorem sampleBcol_rxb (i : Bool) (d : Drive) : (sampleBcol i d s).rxb = s.rxb := rfl
@[simp] theorem sampleBcol_res (i : Bool) (d : Drive) : (sampleBcol i d s).res = s.res := rfl
@[simp] theorem sampleBcol_seq (i : Bool) (d : Drive) : (sampleBcol i d s).seq = s.seq := rfl
@[simp] theorem sampleBcol_eng (i : Bool) (d : Drive) : (sampleBcol i d s).eng = s.eng := rfl
@[simp] theorem sampleBcol_trace (i : Bool) (d : Drive) : (sampleBcol i d s).trace = s.trace := rfl
@[simp] theorem sampleBcol_mem (i : Bool) (d : Drive) : (sampleBcol i d s).mem = s.mem := rfl
@[simp] theorem sampleBcol_cfg (i : Bool) (d : Drive) : (sampleBcol i d s).cfg = s.cfg := rfl
@[simp] theorem sampleBcol_inputs (i : Bool) (d : Drive) :
    (sampleBcol i d s).inputs = s.inputs := rfl
@[simp] theorem sampleBcol_draws (i : Bool) (d : Drive) : (sampleBcol i d s).draws = s.draws := rfl
@[simp] theorem sampleBcol_known (i : Bool) (d : Drive) : (sampleBcol i d s).known = s.known := rfl
@[simp] theorem sampleBcol_hpRdata (i : Bool) (d : Drive) :
    (sampleBcol i d s).hpRdata = s.hpRdata := rfl
@[simp] theorem sampleBcol_rst (i : Bool) (d : Drive) : (sampleBcol i d s).rst = s.rst := rfl
@[simp] theorem sampleBcol_raced (i : Bool) (d : Drive) : (sampleBcol i d s).raced = s.raced := rfl

@[simp] theorem goTo_ctrl (p : Pos) : (goTo p s).ctrl = s.ctrl := rfl
@[simp] theorem goTo_stat (p : Pos) : (goTo p s).stat = s.stat := rfl
@[simp] theorem goTo_txb (p : Pos) : (goTo p s).txb = s.txb := rfl
@[simp] theorem goTo_rxb (p : Pos) : (goTo p s).rxb = s.rxb := rfl
@[simp] theorem goTo_res (p : Pos) : (goTo p s).res = s.res := rfl
@[simp] theorem goTo_seq (p : Pos) :
    (goTo p s).seq = { s.seq with upc := p.upc, sub := p.sub } := rfl
@[simp] theorem goTo_eng (p : Pos) : (goTo p s).eng = s.eng := rfl
@[simp] theorem goTo_trace (p : Pos) : (goTo p s).trace = s.trace := rfl
@[simp] theorem goTo_mem (p : Pos) : (goTo p s).mem = s.mem := rfl
@[simp] theorem goTo_cfg (p : Pos) : (goTo p s).cfg = s.cfg := rfl
@[simp] theorem goTo_inputs (p : Pos) : (goTo p s).inputs = s.inputs := rfl
@[simp] theorem goTo_draws (p : Pos) : (goTo p s).draws = s.draws := rfl
@[simp] theorem goTo_known (p : Pos) : (goTo p s).known = s.known := rfl
@[simp] theorem goTo_hpRdata (p : Pos) : (goTo p s).hpRdata = s.hpRdata := rfl
@[simp] theorem goTo_rst (p : Pos) : (goTo p s).rst = s.rst := rfl
@[simp] theorem goTo_raced (p : Pos) : (goTo p s).raced = s.raced := rfl

@[simp] theorem setOut_ctrl (o : Xfer) : (setOut o s).ctrl = s.ctrl := rfl
@[simp] theorem setOut_stat (o : Xfer) : (setOut o s).stat = s.stat := rfl
@[simp] theorem setOut_txb (o : Xfer) : (setOut o s).txb = s.txb := rfl
@[simp] theorem setOut_rxb (o : Xfer) : (setOut o s).rxb = s.rxb := rfl
@[simp] theorem setOut_res (o : Xfer) : (setOut o s).res = s.res := rfl
@[simp] theorem setOut_seq (o : Xfer) : (setOut o s).seq = { s.seq with out := o } := rfl
@[simp] theorem setOut_eng (o : Xfer) : (setOut o s).eng = s.eng := rfl
@[simp] theorem setOut_trace (o : Xfer) : (setOut o s).trace = s.trace := rfl
@[simp] theorem setOut_mem (o : Xfer) : (setOut o s).mem = s.mem := rfl
@[simp] theorem setOut_cfg (o : Xfer) : (setOut o s).cfg = s.cfg := rfl
@[simp] theorem setOut_inputs (o : Xfer) : (setOut o s).inputs = s.inputs := rfl
@[simp] theorem setOut_draws (o : Xfer) : (setOut o s).draws = s.draws := rfl
@[simp] theorem setOut_known (o : Xfer) : (setOut o s).known = s.known := rfl
@[simp] theorem setOut_hpRdata (o : Xfer) : (setOut o s).hpRdata = s.hpRdata := rfl
@[simp] theorem setOut_rst (o : Xfer) : (setOut o s).rst = s.rst := rfl
@[simp] theorem setOut_raced (o : Xfer) : (setOut o s).raced = s.raced := rfl

@[simp] theorem setData_ctrl (b : BitVec 8) : (setData b s).ctrl = s.ctrl := rfl
@[simp] theorem setData_stat (b : BitVec 8) : (setData b s).stat = s.stat := rfl
@[simp] theorem setData_txb (b : BitVec 8) : (setData b s).txb = s.txb := rfl
@[simp] theorem setData_rxb (b : BitVec 8) : (setData b s).rxb = s.rxb := rfl
@[simp] theorem setData_res (b : BitVec 8) : (setData b s).res = { s.res with data := b } := rfl
@[simp] theorem setData_seq (b : BitVec 8) : (setData b s).seq = s.seq := rfl
@[simp] theorem setData_eng (b : BitVec 8) : (setData b s).eng = s.eng := rfl
@[simp] theorem setData_trace (b : BitVec 8) : (setData b s).trace = s.trace := rfl
@[simp] theorem setData_mem (b : BitVec 8) : (setData b s).mem = s.mem := rfl
@[simp] theorem setData_cfg (b : BitVec 8) : (setData b s).cfg = s.cfg := rfl
@[simp] theorem setData_inputs (b : BitVec 8) : (setData b s).inputs = s.inputs := rfl
@[simp] theorem setData_draws (b : BitVec 8) : (setData b s).draws = s.draws := rfl
@[simp] theorem setData_known (b : BitVec 8) : (setData b s).known = s.known := rfl
@[simp] theorem setData_hpRdata (b : BitVec 8) : (setData b s).hpRdata = s.hpRdata := rfl
@[simp] theorem setData_rst (b : BitVec 8) : (setData b s).rst = s.rst := rfl
@[simp] theorem setData_raced (b : BitVec 8) : (setData b s).raced = s.raced := rfl

@[simp] theorem setRdata_ctrl (v : BitVec 64) : (setRdata v s).ctrl = s.ctrl := rfl
@[simp] theorem setRdata_stat (v : BitVec 64) : (setRdata v s).stat = s.stat := rfl
@[simp] theorem setRdata_txb (v : BitVec 64) : (setRdata v s).txb = s.txb := rfl
@[simp] theorem setRdata_rxb (v : BitVec 64) : (setRdata v s).rxb = s.rxb := rfl
@[simp] theorem setRdata_res (v : BitVec 64) : (setRdata v s).res = s.res := rfl
@[simp] theorem setRdata_seq (v : BitVec 64) : (setRdata v s).seq = s.seq := rfl
@[simp] theorem setRdata_eng (v : BitVec 64) : (setRdata v s).eng = s.eng := rfl
@[simp] theorem setRdata_trace (v : BitVec 64) : (setRdata v s).trace = s.trace := rfl
@[simp] theorem setRdata_mem (v : BitVec 64) : (setRdata v s).mem = s.mem := rfl
@[simp] theorem setRdata_cfg (v : BitVec 64) : (setRdata v s).cfg = s.cfg := rfl
@[simp] theorem setRdata_inputs (v : BitVec 64) : (setRdata v s).inputs = s.inputs := rfl
@[simp] theorem setRdata_draws (v : BitVec 64) : (setRdata v s).draws = s.draws := rfl
@[simp] theorem setRdata_known (v : BitVec 64) : (setRdata v s).known = s.known := rfl
@[simp] theorem setRdata_hpRdata (v : BitVec 64) : (setRdata v s).hpRdata = v := rfl
@[simp] theorem setRdata_rst (v : BitVec 64) : (setRdata v s).rst = s.rst := rfl
@[simp] theorem setRdata_raced (v : BitVec 64) : (setRdata v s).raced = s.raced := rfl

@[simp] theorem resetBlock_ctrl : (resetBlock s).ctrl = State.reset.ctrl := rfl
@[simp] theorem resetBlock_stat : (resetBlock s).stat = State.reset.stat := rfl
@[simp] theorem resetBlock_txb : (resetBlock s).txb = State.reset.txb := rfl
@[simp] theorem resetBlock_rxb : (resetBlock s).rxb = State.reset.rxb := rfl
@[simp] theorem resetBlock_res : (resetBlock s).res = State.reset.res := rfl
@[simp] theorem resetBlock_seq : (resetBlock s).seq = State.reset.seq := rfl
@[simp] theorem resetBlock_eng : (resetBlock s).eng = State.reset.eng := rfl
@[simp] theorem resetBlock_trace : (resetBlock s).trace = State.reset.trace := rfl
@[simp] theorem resetBlock_mem : (resetBlock s).mem = s.mem := rfl
@[simp] theorem resetBlock_cfg : (resetBlock s).cfg = s.cfg := rfl
@[simp] theorem resetBlock_inputs : (resetBlock s).inputs = s.inputs := rfl
@[simp] theorem resetBlock_draws : (resetBlock s).draws = s.draws := rfl
@[simp] theorem resetBlock_known : (resetBlock s).known = State.reset.known := rfl
@[simp] theorem resetBlock_hpRdata : (resetBlock s).hpRdata = State.reset.hpRdata := rfl
@[simp] theorem resetBlock_rst : (resetBlock s).rst = true := rfl
@[simp] theorem resetBlock_raced : (resetBlock s).raced = State.reset.raced := rfl

/-! `goNext` moves only the position. -/

@[simp] theorem goNext_ctrl (n : Nat) : (goNext n s).ctrl = s.ctrl := by
  unfold goNext; split <;> rfl
@[simp] theorem goNext_stat (n : Nat) : (goNext n s).stat = s.stat := by
  unfold goNext; split <;> rfl
@[simp] theorem goNext_txb (n : Nat) : (goNext n s).txb = s.txb := by
  unfold goNext; split <;> rfl
@[simp] theorem goNext_rxb (n : Nat) : (goNext n s).rxb = s.rxb := by
  unfold goNext; split <;> rfl
@[simp] theorem goNext_res (n : Nat) : (goNext n s).res = s.res := by
  unfold goNext; split <;> rfl
@[simp] theorem goNext_eng (n : Nat) : (goNext n s).eng = s.eng := by
  unfold goNext; split <;> rfl
@[simp] theorem goNext_trace (n : Nat) : (goNext n s).trace = s.trace := by
  unfold goNext; split <;> rfl
@[simp] theorem goNext_mem (n : Nat) : (goNext n s).mem = s.mem := by
  unfold goNext; split <;> rfl
@[simp] theorem goNext_cfg (n : Nat) : (goNext n s).cfg = s.cfg := by
  unfold goNext; split <;> rfl
@[simp] theorem goNext_inputs (n : Nat) : (goNext n s).inputs = s.inputs := by
  unfold goNext; split <;> rfl
@[simp] theorem goNext_draws (n : Nat) : (goNext n s).draws = s.draws := by
  unfold goNext; split <;> rfl
@[simp] theorem goNext_known (n : Nat) : (goNext n s).known = s.known := by
  unfold goNext; split <;> rfl
@[simp] theorem goNext_hpRdata (n : Nat) : (goNext n s).hpRdata = s.hpRdata := by
  unfold goNext; split <;> rfl
@[simp] theorem goNext_rst (n : Nat) : (goNext n s).rst = s.rst := by
  unfold goNext; split <;> rfl
@[simp] theorem goNext_raced (n : Nat) : (goNext n s).raced = s.raced := by
  unfold goNext; split <;> rfl
@[simp] theorem goNext_seq_busy (n : Nat) : (goNext n s).seq.busy = s.seq.busy := by
  unfold goNext; split <;> rfl
@[simp] theorem goNext_seq_fatal (n : Nat) : (goNext n s).seq.fatal = s.seq.fatal := by
  unfold goNext; split <;> rfl
@[simp] theorem goNext_seq_fcode (n : Nat) : (goNext n s).seq.fcode = s.seq.fcode := by
  unfold goNext; split <;> rfl
@[simp] theorem goNext_seq_bstate (n : Nat) : (goNext n s).seq.bstate = s.seq.bstate := by
  unfold goNext; split <;> rfl
@[simp] theorem goNext_seq_cw (n : Nat) : (goNext n s).seq.cw = s.seq.cw := by
  unfold goNext; split <;> rfl
@[simp] theorem goNext_seq_out (n : Nat) : (goNext n s).seq.out = s.seq.out := by
  unfold goNext; split <;> rfl
@[simp] theorem goNext_seq_idx (n : Nat) : (goNext n s).seq.idx = s.seq.idx := by
  unfold goNext; split <;> rfl
@[simp] theorem goNext_seq_tmp (n : Nat) : (goNext n s).seq.tmp = s.seq.tmp := by
  unfold goNext; split <;> rfl
@[simp] theorem goNext_seq_val (n : Nat) : (goNext n s).seq.val = s.seq.val := by
  unfold goNext; split <;> rfl

/-- `goNext` inside a step: the next action. -/
theorem goNext_inside (n : Nat) (h : s.seq.sub + 1 < n) :
    goNext n s = { s with seq := { s.seq with sub := s.seq.sub + 1 } } := by
  simp [goNext, h]

/-- `goNext` at the end of a step: the next numbered step. -/
theorem goNext_end (n : Nat) (h : ¬ s.seq.sub + 1 < n) :
    goNext n s = { s with seq := { s.seq with upc := s.seq.upc + 1#8, sub := 0 } } := by
  simp [goNext, h]

end Sys2Proof.Machine
end

