-- ==== Sys2Proof/Laws/Memory.lean ====
section
/-! SUPPORT. The laws of the buffer memory (spec/20_memory.md R72 to R74): a read after a write, and
every write keeps the canonical form. -/

namespace Sys2Proof.Machine

/-- Reading a list of cells after prepending one. -/
theorem readCell_consCell (m : List Host.Cell) (a b : Nat) (v : BitVec 8)
    (h : a = b → readCell m b = unlistedByte ∨ v ≠ unlistedByte) :
    readCell (consCell a v m) b = if a = b then v else readCell m b := by
  unfold consCell
  split
  · rename_i hv
    by_cases hab : a = b
    · rcases h hab with h | h
      · simp [hab, hv, h]
      · exact absurd hv h
    · simp [hab]
  · simp [readCell]

/-- The tail of a canonical list is canonical. -/
theorem memWf_tail {c : Host.Cell} {m : List Host.Cell} (h : memWf (c :: m) = true) :
    memWf m = true := by
  cases m with
  | nil => rfl
  | cons c' m => obtain ⟨k, v⟩ := c; obtain ⟨k', v'⟩ := c'; simp [memWf] at h ⊢; exact h.2

/-- In a canonical list every address is above the first. -/
theorem memWf_lt {k : Nat} {v : BitVec 8} {m : List Host.Cell} (h : memWf ((k, v) :: m) = true) :
    ∀ c ∈ m, k < c.1 := by
  induction m generalizing k v with
  | nil => simp
  | cons c' m ih =>
    obtain ⟨k', v'⟩ := c'
    have h' := h
    simp [memWf] at h'
    intro c hc
    rcases List.mem_cons.1 hc with rfl | hc
    · exact h'.1.2
    · exact Nat.lt_trans h'.1.2 (ih (memWf_tail h) c hc)

/-- An address that no cell has reads as an unlisted one. -/
theorem readCell_absent {m : List Host.Cell} {a : Nat} (h : ∀ c ∈ m, a ≠ c.1) :
    readCell m a = unlistedByte := by
  induction m with
  | nil => rfl
  | cons c m ih =>
    obtain ⟨k, v⟩ := c
    have := h (k, v) (by simp)
    simp only [readCell]
    rw [if_neg (fun e => this e.symm)]
    exact ih (fun c hc => h c (by simp [hc]))

/-- R74: after a store, the address stored to reads the byte stored and every other address reads as
before. -/
theorem readCell_writeCell {m : List Host.Cell} (hm : memWf m = true) (a b : Nat) (v : BitVec 8) :
    readCell (writeCell m a v) b = if a = b then v else readCell m b := by
  induction m with
  | nil => exact readCell_consCell [] a b v (fun _ => .inl rfl)
  | cons c m ih =>
    obtain ⟨k, w⟩ := c
    have hlt := memWf_lt hm
    simp only [writeCell]
    split
    · rename_i hak
      refine readCell_consCell _ a b v (fun hab => .inl (readCell_absent ?_))
      intro c hc
      rcases List.mem_cons.1 hc with rfl | hc
      · show b ≠ k; omega
      · have := hlt c hc; omega
    · split
      · rename_i hak
        subst hak
        rw [readCell_consCell m a b v (fun hab => .inl (readCell_absent fun c hc => by
          have := hlt c hc; omega))]
        by_cases hab : a = b <;> simp [readCell, hab]
      · rename_i hnlt hne
        simp only [readCell]
        rw [ih (memWf_tail hm)]
        by_cases hkb : k = b
        · have : a ≠ b := by omega
          simp [hkb, this]
        · simp [hkb]

/-- The cells of a list after a store are the old ones and possibly the new one. -/
theorem mem_writeCell {m : List Host.Cell} {a : Nat} {v : BitVec 8} {c : Host.Cell}
    (h : c ∈ writeCell m a v) : c = (a, v) ∨ c ∈ m := by
  induction m with
  | nil => simp only [writeCell, consCell] at h; split at h <;> simp_all
  | cons c' m ih =>
    obtain ⟨k, w⟩ := c'
    simp only [writeCell, consCell] at h
    split at h
    · split at h <;> simp_all
    · split at h
      · split at h <;> simp_all
        rcases h with h | h <;> simp [h]
      · rcases List.mem_cons.1 h with h | h
        · simp [h]
        · rcases ih h with h | h <;> simp [h]

/-- Prepending a cell below every address keeps the canonical form. -/
theorem memWf_consCell {m : List Host.Cell} {a : Nat} {v : BitVec 8} (hm : memWf m = true)
    (ha : a < 65536) (hlt : ∀ c ∈ m, a < c.1) : memWf (consCell a v m) = true := by
  unfold consCell
  split
  · exact hm
  · rename_i hv
    cases m with
    | nil => simp [memWf, ha, hv]
    | cons c m =>
      obtain ⟨k, w⟩ := c
      have := hlt (k, w) (by simp)
      simp [memWf, ha, hv, hm, this]

/-- Every store keeps the canonical form (R72, R74). -/
theorem memWf_writeCell {m : List Host.Cell} (hm : memWf m = true) {a : Nat} (ha : a < 65536)
    (v : BitVec 8) : memWf (writeCell m a v) = true := by
  induction m with
  | nil => exact memWf_consCell rfl ha (by simp)
  | cons c m ih =>
    obtain ⟨k, w⟩ := c
    have hlt := memWf_lt hm
    have hk : k < 65536 ∧ w ≠ unlistedByte := by
      cases m with
      | nil => simpa [memWf] using hm
      | cons c' m => obtain ⟨k', v'⟩ := c'; simp [memWf] at hm; exact ⟨hm.1.1.1, hm.1.1.2⟩
    simp only [writeCell]
    split
    · rename_i hak
      refine memWf_consCell hm ha ?_
      intro c hc
      rcases List.mem_cons.1 hc with rfl | hc
      · exact hak
      · have := hlt c hc; omega
    · split
      · rename_i hak
        exact memWf_consCell (memWf_tail hm) ha (fun c hc => by have := hlt c hc; omega)
      · have h1 := ih (memWf_tail hm)
        have h2 : ∀ c ∈ writeCell m a v, k < c.1 := by
          intro c hc
          rcases mem_writeCell hc with rfl | hc
          · show k < a; omega
          · exact hlt c hc
        have := memWf_consCell (v := w) h1 hk.1 h2
        simpa [consCell, hk.2] using this

/-- `MemWrite` keeps the canonical form. -/
theorem memWf_memWrite (s : State) (h : memWf s.mem = true) (a : BitVec 16) (v : BitVec 8) :
    memWf (memWrite a v s).mem = true :=
  memWf_writeCell h a.isLt v

/-- `MemRead` after `MemWrite` (R74). -/
theorem memRead_memWrite (s : State) (h : memWf s.mem = true) (a b : BitVec 16) (v : BitVec 8) :
    memRead b (memWrite a v s) = if a = b then v else memRead b s := by
  simp only [memRead, memWrite_mem]
  rw [readCell_writeCell h]
  by_cases hab : a = b
  · simp [hab]
  · have : a.toNat ≠ b.toNat := fun e => hab (BitVec.eq_of_toNat_eq e)
    simp [hab, this]

/-- What a burst's store does to the memory: one `MemWrite`, of the byte received or, after a race, of a free one. -/
theorem storeByte_mem (ptr : BitVec 16) (s : State) :
    (storeByte ptr s).mem = (memWrite (bufAddr ptr s.seq.idx)
      (if s.raced then Config.freeByte s.draws else s.seq.val) s).mem := by
  unfold storeByte
  split <;> simp [*, drawn]

/-- What the host's store does to the memory: one `MemWrite`, of its byte or, in a race with a burst that fills its
buffer, of a free one. -/
theorem hostBufWrite_mem (a : BitVec 16) (v : BitVec 8) (s : State) :
    (hostBufWrite a v s).mem = (memWrite a
      (if inRunningBurst a s && fillsBuffer s then Config.freeByte s.draws else v) s).mem := by
  unfold hostBufWrite
  cases inRunningBurst a s <;> cases fillsBuffer s <;> rfl

/-- The store of `readBytes` at one of its two places: the whole store, or nothing (log entry 24). -/
theorem storeIf_eq (late : Bool) (ptr : BitVec 16) (s : State) :
    storeIf late ptr s = if storesAfterStop s = late then storeByte ptr s else s := by
  unfold storeIf
  split
  · cases hr : s.raced <;> simp [storeByte, hr, drawn, memWrite]
  · rfl

/-- A burst's store keeps the canonical form. -/
theorem memWf_storeByte (ptr : BitVec 16) {s : State} (h : memWf s.mem = true) :
    memWf (storeByte ptr s).mem = true := by
  rw [storeByte_mem]
  exact memWf_memWrite s h _ _

/-- So does the store of `readBytes` at either place. -/
theorem memWf_storeIf (late : Bool) (ptr : BitVec 16) {s : State} (h : memWf s.mem = true) :
    memWf (storeIf late ptr s).mem = true := by
  rw [storeIf_eq]
  split
  · exact memWf_storeByte ptr h
  · exact h

/-- The host's store keeps the canonical form. -/
theorem memWf_hostBufWrite (a : BitVec 16) (v : BitVec 8) {s : State} (h : memWf s.mem = true) :
    memWf (hostBufWrite a v s).mem = true := by
  rw [hostBufWrite_mem]
  exact memWf_memWrite s h _ _

/-- Reset memory has the canonical form. -/
theorem memWf_reset : memWf State.reset.mem = true := rfl

end Sys2Proof.Machine
end

