-- ==== Sys2Proof/Laws/Run.lean ====
section
/-! SUPPORT. Running the block under listed drives: `Reach prog n m s Q` says that from `s`, whatever
drives serve `n` ticks, the run comes to a state of `Q` with `m` served ticks left. The micro-operations
and micro-programs are composed from it. -/

namespace Sys2Proof.Machine

/-- With served ticks to go and a command running, there is a drive to take. -/
theorem serves_cons {prog : List Step} {ds : List Drive} {n : Nat} {s : State}
    (h : serves prog ds (n + 1) s = true) (hb : s.seq.busy = true) :
    ∃ d ds', ds = d :: ds' ∧
      serves prog ds' (if waitEnds d s then n else n + 1) (tick prog d s) = true := by
  cases ds with
  | nil => simp [serves, hb] at h
  | cons d ds' => exact ⟨d, ds', rfl, by simpa [serves, hb] using h⟩

/-- Fewer ticks are served as well. -/
theorem serves_mono {prog : List Step} {ds : List Drive} {n m : Nat} {s : State}
    (h : serves prog ds n s = true) (hmn : m ≤ n) : serves prog ds m s = true := by
  induction ds generalizing n m s with
  | nil => simp [serves] at h ⊢; rcases h with h | h; · left; omega
           · right; exact h
  | cons d ds ih =>
    simp only [serves] at h ⊢
    split
    · rfl
    · rename_i hm
      simp only [Bool.or_eq_true, beq_iff_eq, Bool.not_eq_true', not_or] at hm
      have hn : ¬ n = 0 := by omega
      simp only [Bool.or_eq_true, beq_iff_eq, Bool.not_eq_true', hn, hm.2] at h
      refine ih h ?_
      split <;> omega

/-- The run under the listed drives followed by other inputs. -/
def runDrives (prog : List Step) (ds : List Drive) (rest : List Input) (s : State) : State :=
  runTicks prog (ds.map Input.drive ++ rest) s

theorem runDrives_cons {prog : List Step} {d : Drive} {ds : List Drive} {rest : List Input} {s : State}
    (hb : s.seq.busy = true) :
    runDrives prog (d :: ds) rest s = runDrives prog ds rest (tick prog d s) := by
  simp [runDrives, runTicks, hb]

/-- Once the command has completed the run only puts inputs back. -/
theorem runTicks_idle {prog : List Step} {ins : List Input} {s : State} (hb : s.seq.busy = false) :
    runTicks prog ins s = { s with inputs := ins } := by
  cases ins with
  | nil => rfl
  | cons i ins => cases i <;> simp [runTicks, hb]

/-- From `s`, whatever drives serve `n` ticks, the run comes to a state of `Q` with `m` served. -/
def Reach (prog : List Step) (n m : Nat) (s : State) (Q : State → Prop) : Prop :=
  ∀ ds, serves prog ds n s = true → ∃ ds' s', Q s' ∧ serves prog ds' m s' = true ∧
    ∀ rest, runDrives prog ds rest s = runDrives prog ds' rest s'

theorem Reach.refl {prog : List Step} {n : Nat} {s : State} {Q : State → Prop} (h : Q s) :
    Reach prog n n s Q :=
  fun ds hs => ⟨ds, s, h, hs, fun _ => rfl⟩

theorem Reach.trans {prog : List Step} {n m k : Nat} {s : State} {Q R : State → Prop}
    (h1 : Reach prog n m s Q) (h2 : ∀ s', Q s' → Reach prog m k s' R) : Reach prog n k s R := by
  intro ds hs
  obtain ⟨ds1, s1, hQ, hs1, he1⟩ := h1 ds hs
  obtain ⟨ds2, s2, hR, hs2, he2⟩ := h2 s1 hQ ds1 hs1
  exact ⟨ds2, s2, hR, hs2, fun rest => (he1 rest).trans (he2 rest)⟩

theorem Reach.mono {prog : List Step} {n m : Nat} {s : State} {Q R : State → Prop}
    (h : Reach prog n m s Q) (hQR : ∀ s', Q s' → R s') : Reach prog n m s R := by
  intro ds hs
  obtain ⟨ds', s', hQ, h'⟩ := h ds hs
  exact ⟨ds', s', hQR s' hQ, h'⟩

/-- More ticks than needed. -/
theorem Reach.credit {prog : List Step} {n n' m : Nat} {s : State} {Q : State → Prop}
    (h : Reach prog n m s Q) (hn : n ≤ n') : Reach prog n' m s Q :=
  fun ds hs => h ds (serves_mono hs hn)

/-- Ticks left over may be forgotten. -/
theorem Reach.drop {prog : List Step} {n m m' : Nat} {s : State} {Q : State → Prop}
    (h : Reach prog n m s Q) (hm : m' ≤ m) : Reach prog n m' s Q := by
  intro ds hs
  obtain ⟨ds', s', hQ, hs', he⟩ := h ds hs
  exact ⟨ds', s', hQ, serves_mono hs' hm, he⟩

/-- A sequencer's tick takes one served tick. -/
theorem Reach.seq {prog : List Step} {n : Nat} {s : State} {Q : State → Prop}
    (hb : s.seq.busy = true) (he : s.eng.eop = .none)
    (hQ : Q (seqTick prog s)) : Reach prog (n + 1) n s Q := by
  intro ds hs
  obtain ⟨d, ds', rfl, h⟩ := serves_cons hs hb
  have hw : waitEnds d s = true := by simp [waitEnds, he]
  have ht : tick prog d s = seqTick prog s := by simp [tick, he]
  rw [hw, ht] at h
  exact ⟨ds', seqTick prog s, hQ, by simpa using h, fun rest => by rw [runDrives_cons hb, ht]⟩

/-- A family of assertions `R k` about an engine operation with `k` phases to go: a tick whose wait
ends takes it from `k + 1` to `k`, a tick whose wait goes on leaves it at `k + 1`. -/
structure PhaseMeasure (R : Nat → State → Prop) : Prop where
  busy : ∀ k s, R (k + 1) s → s.seq.busy = true ∧ s.eng.eop ≠ .none
  next : ∀ k s d, R (k + 1) s → waitEnds d s = true → R k (enginePhase d s)
  stay : ∀ k s d, R (k + 1) s → waitEnds d s = false → R (k + 1) (enginePhase d s)

/-- An engine operation with `k` phases to go is over after `k` served ticks. -/
theorem PhaseMeasure.reach {R : Nat → State → Prop} (hR : PhaseMeasure R) (prog : List Step) (k m : Nat)
    (s : State) (h : R k s) : Reach prog (k + m) m s (R 0) := by
  intro ds
  induction ds generalizing k s with
  | nil =>
    intro hs
    cases k with
    | zero => exact ⟨[], s, h, by simpa using hs, fun _ => rfl⟩
    | succ k =>
      have := (hR.busy k s h).1
      rw [Nat.add_right_comm] at hs
      simp [serves, this] at hs
  | cons d ds ih =>
    intro hs
    cases k with
    | zero => exact ⟨d :: ds, s, h, by simpa using hs, fun _ => rfl⟩
    | succ k =>
      obtain ⟨hb, he⟩ := hR.busy k s h
      rw [Nat.add_right_comm] at hs
      obtain ⟨d', ds', hd, hs'⟩ := serves_cons hs hb
      obtain ⟨rfl, rfl⟩ := List.cons.inj hd
      have ht : tick prog d s = enginePhase d s := by simp [tick, he]
      rw [ht] at hs'
      by_cases hw : waitEnds d s = true
      · rw [if_pos hw] at hs'
        obtain ⟨ds1, s1, hQ, hs1, he1⟩ := ih k _ (hR.next k s d h hw) hs'
        exact ⟨ds1, s1, hQ, hs1, fun rest => by rw [runDrives_cons hb, ht, he1 rest]⟩
      · have hw : waitEnds d s = false := by simpa using hw
        rw [hw] at hs'
        have hs'' : serves prog ds (k + 1 + m) (enginePhase d s) = true := by
          rw [Nat.add_right_comm]; simpa using hs'
        obtain ⟨ds1, s1, hQ, hs1, he1⟩ := ih (k + 1) _ (hR.stay k s d h hw) hs''
        exact ⟨ds1, s1, hQ, hs1, fun rest => by rw [runDrives_cons hb, ht, he1 rest]⟩

/-- The engine alone, run to the end of its operation, ends in `R 0`. -/
theorem PhaseMeasure.engineRun {R : Nat → State → Prop} (hR : PhaseMeasure R)
    (h0 : ∀ s, R 0 s → s.eng.eop = .none) (k : Nat) (s : State) (h : R k s) (ds : List Drive)
    (hend : (engineRun ds s).eng.eop = .none) : R 0 (engineRun ds s) := by
  induction ds generalizing k s with
  | nil =>
    cases k with
    | zero => exact h
    | succ k => exact absurd hend (hR.busy k s h).2
  | cons d ds ih =>
    cases k with
    | zero => simpa [Machine.engineRun, h0 s h] using h
    | succ k =>
      have he := (hR.busy k s h).2
      simp only [Machine.engineRun, if_neg he] at hend ⊢
      by_cases hw : waitEnds d s = true
      · exact ih k _ (hR.next k s d h hw) hend
      · exact ih (k + 1) _ (hR.stay k s d h (by simpa using hw)) hend

/-- The engine alone, run under any drives, is somewhere in the measure. -/
theorem PhaseMeasure.engineRun_at {R : Nat → State → Prop} (hR : PhaseMeasure R)
    (h0 : ∀ s, R 0 s → s.eng.eop = .none) (ds : List Drive) (k : Nat) (s : State) (h : R k s) :
    ∃ j, R j (Machine.engineRun ds s) := by
  induction ds generalizing k s with
  | nil => exact ⟨k, h⟩
  | cons d ds ih =>
    cases k with
    | zero => exact ⟨0, by simpa [Machine.engineRun, h0 s h] using h⟩
    | succ k =>
      simp only [Machine.engineRun, if_neg (hR.busy k s h).2]
      by_cases hw : waitEnds d s = true
      · exact ih k _ (hR.next k s d h hw)
      · exact ih (k + 1) _ (hR.stay k s d h (by simpa using hw))

end Sys2Proof.Machine
end

