-- ==== Sys2Proof/Laws/Engine.lean ====
section
/-! SUPPORT. What the six engine operations do at the wire level (spec/40_line_engine.md R150 to R155):
each runs, however long its waits last, to exactly one state, the event of R158 under some draws. -/

namespace Sys2Proof.Machine

variable (s0 : State)

/-- `GenStart` with `k` phases to go. -/
def genStartAt : Nat → State → Prop
  | 4, s => s = s0
  | 3, s => s = { s0 with eng := { s0.eng with phase := .s2 } }
  | 2, s => s = { s0 with trace := s0.trace ++ [.S], eng := { s0.eng with phase := .s3, sdaLow := true } }
  | 1, s => s = { s0 with
      trace := s0.trace ++ [.S], eng := { s0.eng with phase := .s4, sdaLow := true, sclLow := true } }
  | 0, s => s = eventGenStart s0
  | _, _ => False

theorem genStart_measure (hb : s0.seq.busy = true) (hm : s0.ctrl.moden = true)
    (he : s0.eng.eop = .genStart) (hp : s0.eng.phase = .s1) (h1 : s0.eng.sdaLow = false)
    (h2 : s0.eng.sclLow = false) : PhaseMeasure (genStartAt s0) where
  busy k s h := by
    match k, h with
    | 0, h => subst h; simp [hb, he]
    | 1, h => subst h; simp [hb, he]
    | 2, h => subst h; simp [hb, he]
    | 3, h => subst h; simp [hb, he]
  next k s d h hw := by
    match k, h with
    | 0, h => subst h; simp [genStartAt, enginePhase, hm, he, phaseGenStart, eventGenStart, endOp, emit,
        setAckpend]
    | 1, h => subst h; simp [genStartAt, enginePhase, hm, he, phaseGenStart, toPhase, setScl]
    | 2, h => subst h; simp [genStartAt, enginePhase, hm, he, phaseGenStart, toPhase, setSda, emit]
    | 3, h =>
      subst h
      simp [waitEnds, he, hp] at hw
      simp [genStartAt, enginePhase, hm, he, phaseGenStart, hp, sclIn, sdaIn, h1, h2, hw, toPhase]
  stay k s d h hw := by
    match k, h with
    | 0, h => subst h; simp [waitEnds, he] at hw
    | 1, h => subst h; simp [waitEnds, he] at hw
    | 2, h => subst h; simp [waitEnds, he] at hw
    | 3, h =>
      subst h
      simp [waitEnds, he, hp] at hw
      simp [genStartAt, enginePhase, hm, he, phaseGenStart, hp, sclIn, sdaIn, h1, h2, toPhase]
      intro a b; simp [hw b] at a

/-- `GenRestart` with `k` phases to go. -/
def genRestartAt : Nat → State → Prop
  | 6, s => s = s0
  | 5, s => ∃ b, s = { s0 with eng := { s0.eng with phase := .r2, sdaLow := false, sclLow := b } }
  | 4, s => s = { s0 with eng := { s0.eng with phase := .r3, sdaLow := false, sclLow := false } }
  | 3, s => ∃ c, s = { s0 with
      stat := { s0.stat with bcol := s0.stat.bcol || c }
      eng := { s0.eng with phase := .r4, sdaLow := false, sclLow := false } }
  | 2, s => ∃ c, s = { s0 with
      trace := s0.trace ++ [.Sr]
      stat := { s0.stat with bcol := s0.stat.bcol || c }
      eng := { s0.eng with phase := .r5, sdaLow := true, sclLow := false } }
  | 1, s => ∃ c, s = { s0 with
      trace := s0.trace ++ [.Sr]
      stat := { s0.stat with bcol := s0.stat.bcol || c }
      eng := { s0.eng with phase := .r6, sdaLow := true, sclLow := true } }
  | 0, s => ∃ c, s = eventGenRestart c s0
  | _, _ => False

theorem genRestart_measure (hb : s0.seq.busy = true) (hm : s0.ctrl.moden = true)
    (he : s0.eng.eop = .genRestart) (hp : s0.eng.phase = .r1) : PhaseMeasure (genRestartAt s0) where
  busy k s h := by
    match k, h with
    | 0, ⟨_, h⟩ => subst h; simp [hb, he]
    | 1, ⟨_, h⟩ => subst h; simp [hb, he]
    | 2, ⟨_, h⟩ => subst h; simp [hb, he]
    | 3, h => subst h; simp [hb, he]
    | 4, ⟨_, h⟩ => subst h; simp [hb, he]
    | 5, h => subst h; simp [hb, he]
  next k s d h hw := by
    match k, h with
    | 0, ⟨c, h⟩ =>
      subst h
      exact ⟨c, by simp [enginePhase, hm, he, phaseGenRestart, eventGenRestart, endOp, emit, setAckpend]⟩
    | 1, ⟨c, h⟩ => subst h; exact ⟨c, by simp [enginePhase, hm, he, phaseGenRestart, toPhase, setScl]⟩
    | 2, ⟨c, h⟩ =>
      subst h; exact ⟨c, by simp [enginePhase, hm, he, phaseGenRestart, toPhase, setSda, emit]⟩
    | 3, h =>
      subst h
      exact ⟨d.sdaLow, by
        simp [enginePhase, hm, he, phaseGenRestart, toPhase, sampleBcol, monitorBcol, sdaIn]⟩
    | 4, ⟨b, h⟩ =>
      subst h
      simp [waitEnds, he] at hw
      simp [genRestartAt, enginePhase, hm, he, phaseGenRestart, releaseScl, setScl, sclIn, hw, toPhase]
    | 5, h =>
      subst h
      exact ⟨s.eng.sclLow, by simp [enginePhase, hm, he, phaseGenRestart, hp, toPhase, setSda]⟩
  stay k s d h hw := by
    match k, h with
    | 0, ⟨c, h⟩ => subst h; simp [waitEnds, he] at hw
    | 1, ⟨c, h⟩ => subst h; simp [waitEnds, he] at hw
    | 2, ⟨c, h⟩ => subst h; simp [waitEnds, he] at hw
    | 3, h => subst h; simp [waitEnds, he] at hw
    | 4, ⟨b, h⟩ =>
      subst h
      simp [waitEnds, he] at hw
      exact ⟨false, by simp [enginePhase, hm, he, phaseGenRestart, releaseScl, setScl, sclIn, hw]⟩
    | 5, h => subst h; simp [waitEnds, he, hp] at hw

/-- `GenStop` with `k` phases to go. -/
def genStopAt : Nat → State → Prop
  | 5, s => s = s0
  | 4, s => ∃ b, s = { s0 with eng := { s0.eng with phase := .p2, sdaLow := true, sclLow := b } }
  | 3, s => s = { s0 with eng := { s0.eng with phase := .p3, sdaLow := true, sclLow := false } }
  | 2, s => s = { s0 with eng := { s0.eng with phase := .p4, sdaLow := false, sclLow := false } }
  | 1, s => ∃ c, s = { s0 with
      trace := s0.trace ++ [.P]
      stat := { s0.stat with bcol := s0.stat.bcol || c }
      eng := { s0.eng with phase := .p5, sdaLow := false, sclLow := false } }
  | 0, s => ∃ c, s = eventGenStop c s0
  | _, _ => False

theorem genStop_measure (hb : s0.seq.busy = true) (hm : s0.ctrl.moden = true)
    (he : s0.eng.eop = .genStop) (hp : s0.eng.phase = .p1) : PhaseMeasure (genStopAt s0) where
  busy k s h := by
    match k, h with
    | 0, ⟨_, h⟩ => subst h; simp [hb, he]
    | 1, h => subst h; simp [hb, he]
    | 2, h => subst h; simp [hb, he]
    | 3, ⟨_, h⟩ => subst h; simp [hb, he]
    | 4, h => subst h; simp [hb, he]
  next k s d h hw := by
    match k, h with
    | 0, ⟨c, h⟩ =>
      subst h
      exact ⟨c, by simp [enginePhase, hm, he, phaseGenStop, eventGenStop, endOp, emit, setAckpend]⟩
    | 1, h =>
      subst h
      exact ⟨d.sdaLow, by
        simp [enginePhase, hm, he, phaseGenStop, toPhase, sampleBcol, monitorBcol, sdaIn, emit]⟩
    | 2, h => subst h; simp [genStopAt, enginePhase, hm, he, phaseGenStop, toPhase, setSda]
    | 3, ⟨b, h⟩ =>
      subst h
      simp [waitEnds, he] at hw
      simp [genStopAt, enginePhase, hm, he, phaseGenStop, releaseScl, setScl, sclIn, hw, toPhase]
    | 4, h =>
      subst h
      exact ⟨s.eng.sclLow, by simp [enginePhase, hm, he, phaseGenStop, hp, toPhase, setSda]⟩
  stay k s d h hw := by
    match k, h with
    | 0, ⟨c, h⟩ => subst h; simp [waitEnds, he] at hw
    | 1, h => subst h; simp [waitEnds, he] at hw
    | 2, h => subst h; simp [waitEnds, he] at hw
    | 3, ⟨b, h⟩ =>
      subst h
      simp [waitEnds, he] at hw
      exact ⟨false, by simp [enginePhase, hm, he, phaseGenStop, releaseScl, setScl, sclIn, hw]⟩
    | 4, h => subst h; simp [waitEnds, he, hp] at hw

/-- `AckSeq` with `k` phases to go; `c` is the collision draw, forced false when an ACK is sent. -/
def ackSeqAt : Nat → State → Prop
  | 5, s => s = s0
  | 4, s => ∃ b, s = { s0 with eng := { s0.eng with
      phase := .a1, sdaLow := !s0.ctrl.ackdt, sclLow := b } }
  | 3, s => s = { s0 with eng := { s0.eng with
      phase := .a2, sdaLow := !s0.ctrl.ackdt, sclLow := false } }
  | 2, s => ∃ c, (s0.ctrl.ackdt = false → c = false) ∧ s = { s0 with
      stat := { s0.stat with bcol := s0.stat.bcol || c }
      eng := { s0.eng with phase := .a3, sdaLow := !s0.ctrl.ackdt, sclLow := false } }
  | 1, s => ∃ c, (s0.ctrl.ackdt = false → c = false) ∧ s = { s0 with
      stat := { s0.stat with bcol := s0.stat.bcol || c }
      eng := { s0.eng with phase := .a4, sdaLow := !s0.ctrl.ackdt, sclLow := true } }
  | 0, s => ∃ c, (s0.ctrl.ackdt = false → c = false) ∧ s = eventAckSeq c s0
  | _, _ => False

theorem ackSeq_measure (hb : s0.seq.busy = true) (hm : s0.ctrl.moden = true)
    (he : s0.eng.eop = .ackSeq) (hp : s0.eng.phase = .a0) : PhaseMeasure (ackSeqAt s0) where
  busy k s h := by
    match k, h with
    | 0, ⟨_, _, h⟩ => subst h; simp [hb, he]
    | 1, ⟨_, _, h⟩ => subst h; simp [hb, he]
    | 2, h => subst h; simp [hb, he]
    | 3, ⟨_, h⟩ => subst h; simp [hb, he]
    | 4, h => subst h; simp [hb, he]
  next k s d h hw := by
    match k, h with
    | 0, ⟨c, hc, h⟩ =>
      subst h
      exact ⟨c, hc, by
        simp [enginePhase, hm, he, phaseAckSeq, eventAckSeq, endOp, emit, setAckpend, setSda]⟩
    | 1, ⟨c, hc, h⟩ =>
      subst h; exact ⟨c, hc, by simp [enginePhase, hm, he, phaseAckSeq, toPhase, setScl]⟩
    | 2, h =>
      subst h
      refine ⟨s0.ctrl.ackdt && d.sdaLow, by simp +contextual, ?_⟩
      cases ha : s0.ctrl.ackdt <;>
        simp [enginePhase, hm, he, phaseAckSeq, toPhase, sampleBcol, monitorBcol, sdaIn, ha]
    | 3, ⟨b, h⟩ =>
      subst h
      simp [waitEnds, he] at hw
      simp [ackSeqAt, enginePhase, hm, he, phaseAckSeq, releaseScl, setScl, sclIn, hw, toPhase]
    | 4, h =>
      subst h
      exact ⟨s.eng.sclLow, by simp [enginePhase, hm, he, phaseAckSeq, hp, toPhase, setSda]⟩
  stay k s d h hw := by
    match k, h with
    | 0, ⟨c, _, h⟩ => subst h; simp [waitEnds, he] at hw
    | 1, ⟨c, _, h⟩ => subst h; simp [waitEnds, he] at hw
    | 2, h => subst h; simp [waitEnds, he] at hw
    | 3, ⟨b, h⟩ =>
      subst h
      simp [waitEnds, he] at hw
      exact ⟨false, by simp [enginePhase, hm, he, phaseAckSeq, releaseScl, setScl, sclIn, hw]⟩
    | 4, h => subst h; simp [waitEnds, he, hp] at hw

/-- In the middle of a byte sent: `k` bits are out. -/
def sendingAt (k : Nat) (p : Phase) (a b c : Bool) : State :=
  { s0 with
    stat := { s0.stat with bcol := s0.stat.bcol || c }
    eng := { s0.eng with
      sr := s0.txb <<< k, bitcnt := BitVec.ofNat 4 k, phase := p, sdaLow := a, sclLow := b } }

/-- In the acknowledge slot of a byte sent. -/
def ackSlotAt (p : Phase) (b c : Bool) : State :=
  { s0 with
    stat := { s0.stat with bcol := s0.stat.bcol || c, tbf := false }
    eng := { s0.eng with sr := 0x00#8, bitcnt := 8#4, phase := p, sdaLow := false, sclLow := b } }

/-- The end of `Transmit` at the wire level: the event, with the shift register run empty. -/
def sentByte (a c : Bool) : State :=
  { eventTransmit a c s0 with
    eng := { (eventTransmit a c s0).eng with sr := 0x00#8, bitcnt := 8#4 } }

/-- No 1 bit is sent, so no collision is seen (R158). -/
def sendForced (c : Bool) : Prop := s0.txb = 0x00#8 → c = false

/-- `Transmit` with `m` phases to go. -/
inductive TransmitAt : Nat → State → Prop
  | load : TransmitAt 37 s0
  | ta (k : Nat) (a b c : Bool) (hk : k < 8) (hc : sendForced s0 c) :
      TransmitAt (4 * (7 - k) + 8) (sendingAt s0 k .ta a b c)
  | tb (k : Nat) (a b c : Bool) (hk : k < 8) (hc : sendForced s0 c)
      (ha : a = !(s0.txb <<< k).getLsbD 7) :
      TransmitAt (4 * (7 - k) + 7) (sendingAt s0 k .tb a b c)
  | tc (k : Nat) (a c : Bool) (hk : k < 8) (hc : sendForced s0 c)
      (ha : a = !(s0.txb <<< k).getLsbD 7) :
      TransmitAt (4 * (7 - k) + 6) (sendingAt s0 k .tc a false c)
  | td (k : Nat) (a c : Bool) (hk : k < 8) (hc : sendForced s0 c)
      (ha : a = !(s0.txb <<< k).getLsbD 7) :
      TransmitAt (4 * (7 - k) + 5) (sendingAt s0 k .td a false c)
  | t8 (a b c : Bool) (hc : sendForced s0 c) : TransmitAt 4 (sendingAt s0 8 .t8 a b c)
  | t9 (b c : Bool) (hc : sendForced s0 c) : TransmitAt 3 (ackSlotAt s0 .t9 b c)
  | t10 (c : Bool) (hc : sendForced s0 c) : TransmitAt 2 (ackSlotAt s0 .t10 false c)
  | t11 (a c : Bool) (hc : sendForced s0 c) : TransmitAt 1
      { ackSlotAt s0 .t11 false c with
        stat := { (ackSlotAt s0 .t11 false c).stat with ackstat := a }
        known := { s0.known with ackstat := true } }
  | done (a c : Bool) (hc : sendForced s0 c) : TransmitAt 0 (sentByte s0 a c)

theorem bitcnt_next (k : Nat) (hk : k < 8) :
    BitVec.ofNat 4 k + 1#4 = BitVec.ofNat 4 (k + 1) ∧
      (BitVec.ofNat 4 (k + 1) = 8#4 ↔ k = 7) := by
  interval_cases k <;> decide

theorem transmit_measure (hb : s0.seq.busy = true) (hm : s0.ctrl.moden = true)
    (he : s0.eng.eop = .transmit) (hp : s0.eng.phase = .t0) : PhaseMeasure (TransmitAt s0) where
  busy k s h := by
    cases h <;> simp [hb, he, sendingAt, ackSlotAt]
  next m s d h hw := by
    generalize hm' : m + 1 = m' at h
    cases h with
    | load =>
      obtain rfl : m = 36 := by omega
      have := TransmitAt.ta (s0 := s0) 0 s0.eng.sdaLow s0.eng.sclLow false (by omega) (fun _ => rfl)
      convert this using 1
      simp [enginePhase, hm, he, phaseTransmit, hp, sendingAt]
    | ta k a b c hk hc =>
      obtain rfl : m = 4 * (7 - k) + 7 := by omega
      have := TransmitAt.tb (s0 := s0) k _ b c hk hc rfl
      convert this using 1
      simp [enginePhase, hm, he, phaseTransmit, sendingAt, toPhase, setSda]
    | tb k a b c hk hc ha =>
      obtain rfl : m = 4 * (7 - k) + 6 := by omega
      have := TransmitAt.tc (s0 := s0) k a c hk hc ha
      convert this using 1
      simp [waitEnds, he, sendingAt] at hw
      simp [enginePhase, hm, he, phaseTransmit, sendingAt, releaseScl, setScl, sclIn, hw, toPhase]
    | tc k a c hk hc ha =>
      obtain rfl : m = 4 * (7 - k) + 5 := by omega
      have := TransmitAt.td (s0 := s0) k a (c || ((s0.txb <<< k).getLsbD 7 && d.sdaLow)) hk
        (fun h0 => by simp [hc h0, h0]) ha
      convert this using 1
      subst ha
      simp only [enginePhase, sendingAt, hm, he, phaseTransmit, toPhase, sampleBcol, monitorBcol, sdaIn,
        if_true]
      cases (s0.txb <<< k).getLsbD 7 <;> simp [Bool.or_assoc]
    | td k a c hk hc ha =>
      obtain rfl : m = 4 * (7 - k) + 4 := by omega
      obtain ⟨h1, h2⟩ := bitcnt_next k hk
      by_cases h7 : k = 7
      · subst h7
        have := TransmitAt.t8 (s0 := s0) a true c hc
        convert this using 1
        simp [enginePhase, hm, he, phaseTransmit, sendingAt, ← BitVec.shiftLeft_add]
      · have := TransmitAt.ta (s0 := s0) (k + 1) a true c (by omega) hc
        convert this using 1
        · omega
        · have h2' : ¬ BitVec.ofNat 4 (k + 1) = 8#4 := fun e => h7 (h2.1 e)
          simp [enginePhase, hm, he, phaseTransmit, sendingAt, h1, h2', ← BitVec.shiftLeft_add]
    | t8 a b c hc =>
      obtain rfl : m = 3 := by omega
      have := TransmitAt.t9 (s0 := s0) b c hc
      convert this using 1
      simp [enginePhase, hm, he, phaseTransmit, sendingAt, ackSlotAt, toPhase, setSda]
    | t9 b c hc =>
      obtain rfl : m = 2 := by omega
      have := TransmitAt.t10 (s0 := s0) c hc
      convert this using 1
      simp [waitEnds, he, ackSlotAt] at hw
      simp [enginePhase, hm, he, phaseTransmit, ackSlotAt, releaseScl, setScl, sclIn, hw, toPhase]
    | t10 c hc =>
      obtain rfl : m = 1 := by omega
      have := TransmitAt.t11 (s0 := s0) (!d.sdaLow) c hc
      convert this using 1
      simp [enginePhase, hm, he, phaseTransmit, ackSlotAt, toPhase, sdaIn]
    | t11 a c hc =>
      obtain rfl : m = 0 := by omega
      have := TransmitAt.done (s0 := s0) a c hc
      convert this using 1
      simp [enginePhase, hm, he, phaseTransmit, ackSlotAt, sentByte, eventTransmit, endOp, emit, setScl]
    | done a c hc => omega
  stay m s d h hw := by
    cases h with
    | tb k a b c hk hc ha =>
      have := TransmitAt.tb (s0 := s0) k a false c hk hc ha
      convert this using 1
      simp [waitEnds, he, sendingAt] at hw
      simp [enginePhase, hm, he, phaseTransmit, sendingAt, releaseScl, setScl, sclIn, hw]
    | t9 b c hc =>
      have := TransmitAt.t9 (s0 := s0) false c hc
      convert this using 1
      simp [waitEnds, he, ackSlotAt] at hw
      simp [enginePhase, hm, he, phaseTransmit, ackSlotAt, releaseScl, setScl, sclIn, hw]
    | _ => simp [waitEnds, he, hp, sendingAt, ackSlotAt] at hw

/-- In the middle of a byte received: `k` bits are in, `x` is the shift register. -/
def receivingAt (k : Nat) (p : Phase) (b : Bool) (x : BitVec 8) : State :=
  { s0 with eng := { s0.eng with
      sr := x, bitcnt := BitVec.ofNat 4 k, phase := p, sdaLow := false, sclLow := b } }

/-- The end of `Receive` at the wire level: the event, with the byte in the shift register. -/
def receivedByte (v : BitVec 8) : State :=
  { eventReceive v s0 with eng := { (eventReceive v s0).eng with sr := v, bitcnt := 8#4 } }

/-- `Receive` with `m` phases to go. -/
inductive ReceiveAt : Nat → State → Prop
  | start : ReceiveAt 26 s0
  | va (k : Nat) (b : Bool) (x : BitVec 8) (hk : k < 8) :
      ReceiveAt (3 * (7 - k) + 4) (receivingAt s0 k .va b x)
  | vb (k : Nat) (x : BitVec 8) (hk : k < 8) :
      ReceiveAt (3 * (7 - k) + 3) (receivingAt s0 k .vb false x)
  | vc (k : Nat) (x : BitVec 8) (hk : k < 8) :
      ReceiveAt (3 * (7 - k) + 2) (receivingAt s0 k .vc false x)
  | v8 (x : BitVec 8) : ReceiveAt 1 (receivingAt s0 8 .v8 true x)
  | done (v : BitVec 8) : ReceiveAt 0 (receivedByte s0 v)

theorem receive_measure (hb : s0.seq.busy = true) (hm : s0.ctrl.moden = true)
    (he : s0.eng.eop = .receive) (hp : s0.eng.phase = .v0) : PhaseMeasure (ReceiveAt s0) where
  busy k s h := by
    cases h <;> simp [hb, he, receivingAt]
  next m s d h hw := by
    generalize hm' : m + 1 = m' at h
    cases h with
    | start =>
      obtain rfl : m = 25 := by omega
      have := ReceiveAt.va (s0 := s0) 0 s0.eng.sclLow s0.eng.sr (by omega)
      convert this using 1
      simp [enginePhase, hm, he, phaseReceive, hp, receivingAt]
    | va k b x hk =>
      obtain rfl : m = 3 * (7 - k) + 3 := by omega
      have := ReceiveAt.vb (s0 := s0) k x hk
      convert this using 1
      simp [waitEnds, he, receivingAt] at hw
      simp [enginePhase, hm, he, phaseReceive, receivingAt, releaseScl, setScl, sclIn, hw, toPhase]
    | vb k x hk =>
      obtain rfl : m = 3 * (7 - k) + 2 := by omega
      have := ReceiveAt.vc (s0 := s0) k ((x <<< 1) ||| (0#7 ++ BitVec.ofBool (!d.sdaLow))) hk
      convert this using 1
      simp [enginePhase, hm, he, phaseReceive, receivingAt, sdaIn]
    | vc k x hk =>
      obtain rfl : m = 3 * (7 - k) + 1 := by omega
      obtain ⟨h1, h2⟩ := bitcnt_next k hk
      by_cases h7 : k = 7
      · subst h7
        have := ReceiveAt.v8 (s0 := s0) x
        convert this using 1
        simp [enginePhase, hm, he, phaseReceive, receivingAt]
      · have := ReceiveAt.va (s0 := s0) (k + 1) true x (by omega)
        convert this using 1
        · omega
        · have h2' : ¬ BitVec.ofNat 4 (k + 1) = 8#4 := fun e => h7 (h2.1 e)
          simp [enginePhase, hm, he, phaseReceive, receivingAt, h1, h2']
    | v8 x =>
      obtain rfl : m = 0 := by omega
      have := ReceiveAt.done (s0 := s0) x
      convert this using 1
      cases hr : s0.stat.rbf <;>
        simp [enginePhase, hm, he, phaseReceive, receivingAt, receivedByte, eventReceive, endOp, emit,
          setAckpend, hr]
    | done v => omega
  stay m s d h hw := by
    cases h with
    | va k b x hk =>
      have := ReceiveAt.va (s0 := s0) k false x hk
      convert this using 1
      simp [waitEnds, he, receivingAt] at hw
      simp [enginePhase, hm, he, phaseReceive, receivingAt, releaseScl, setScl, sclIn, hw]
    | _ => simp [waitEnds, he, hp, receivingAt] at hw

/-- Where `Transmit` ends. -/
theorem transmitAt_zero {s : State} (h : TransmitAt s0 0 s) :
    ∃ a c, sendForced s0 c ∧ s = sentByte s0 a c := by
  generalize hm : 0 = m at h
  cases h with
  | done a c hc => exact ⟨a, c, hc, rfl⟩
  | _ => omega

/-- Where `Receive` ends. -/
theorem receiveAt_zero {s : State} (h : ReceiveAt s0 0 s) : ∃ v, s = receivedByte s0 v := by
  generalize hm : 0 = m at h
  cases h with
  | done v => exact ⟨v, rfl⟩
  | _ => omega

end Sys2Proof.Machine
end

