-- ==== Sys2Proof/Laws/PerInstr.lean ====
section
/-! SUPPORT. Per-instruction laws: the encoding of every command whose operands are in order meets the row of
the opcode map (spec/30_encoding.md R109) that has its opcode. -/

namespace Sys2Proof.Laws.EncodeRow

open Sys2Proof Sys2Proof.Machine

/-- The command's word has a row in the map, meets that row's `match` under its `mask`, and the row builds
the command from it. -/
def Statement (i : Instr) : Prop :=
  i.wellFormed = true →
    ∃ r, rowOf (opField (encode i)) = some r ∧ encode i &&& r.mask = r.pattern ∧ r.build (encode i) = i

theorem waitIdle : Statement .waitIdle := fun _ => ⟨_, rfl, rfl, rfl⟩

theorem start : Statement .start := fun _ => ⟨_, rfl, rfl, rfl⟩

theorem restart : Statement .restart := fun _ => ⟨_, rfl, rfl, rfl⟩

theorem stop : Statement .stop := fun _ => ⟨_, rfl, rfl, rfl⟩

theorem writeByte (b : BitVec 8) : Statement (.writeByte b) := by
  intro _
  refine ⟨_, by rw [encode, opField_pack]; rfl, ?_, by simp [encode]⟩
  rw [encode, pack_and]
  simp [opField, ctrlField, regField, data16Field, ptrField, low8_and]
  rfl

theorem readByte : Statement .readByte := fun _ => ⟨_, rfl, rfl, rfl⟩

theorem sendAck : Statement .sendAck := fun _ => ⟨_, rfl, rfl, rfl⟩

theorem sendNotAck : Statement .sendNotAck := fun _ => ⟨_, rfl, rfl, rfl⟩

theorem ackStatus : Statement .ackStatus := fun _ => ⟨_, rfl, rfl, rfl⟩

theorem writeRegister (dev : BitVec 7) (reg : BitVec 16) (data : BitVec 8) : Statement (.writeRegister dev reg data) := by
  intro _
  refine ⟨_, by rw [encode, opField_pack]; rfl, ?_, by simp [encode]⟩
  rw [encode, pack_and]
  simp [opField, ctrlField, regField, data16Field, ptrField, devc_and, low8_and]
  rfl

theorem readRegister (dev : BitVec 7) (reg : BitVec 16) : Statement (.readRegister dev reg) := by
  intro _
  refine ⟨_, by rw [encode, opField_pack]; rfl, ?_, by simp [encode]⟩
  rw [encode, pack_and]
  simp [opField, ctrlField, regField, data16Field, ptrField, devc_and]
  rfl

theorem writeRegisterWide (dev : BitVec 7) (reg : BitVec 16) (data16 : BitVec 16) : Statement (.writeRegisterWide dev reg data16) := by
  intro _
  refine ⟨_, by rw [encode, opField_pack]; rfl, ?_, by simp [encode]⟩
  rw [encode, pack_and]
  simp [opField, ctrlField, regField, data16Field, ptrField, devc_and]
  rfl

theorem writeBitField (dev : BitVec 7) (reg : BitVec 16) (bitStart : BitVec 3) (length : BitVec 4) (value : BitVec 8) : Statement (.writeBitField dev reg bitStart length value) := by
  intro _
  refine ⟨_, by rw [encode, opField_pack]; rfl, ?_, by simp [encode]⟩
  rw [encode, pack_and]
  simp [opField, ctrlField, regField, data16Field, ptrField, devc_and, low8_and, fieldAux_and]
  rfl

theorem readBitField (dev : BitVec 7) (reg : BitVec 16) (bitStart : BitVec 3) (length : BitVec 4) : Statement (.readBitField dev reg bitStart length) := by
  intro _
  refine ⟨_, by rw [encode, opField_pack]; rfl, ?_, by simp [encode]⟩
  rw [encode, pack_and]
  simp [opField, ctrlField, regField, data16Field, ptrField, devc_and, fieldAux_and]
  rfl

theorem writeSingleBit (dev : BitVec 7) (reg : BitVec 16) (bitNum : BitVec 3) (value : BitVec 8) : Statement (.writeSingleBit dev reg bitNum value) := by
  intro _
  refine ⟨_, by rw [encode, opField_pack]; rfl, ?_, by simp [encode]⟩
  rw [encode, pack_and]
  simp [opField, ctrlField, regField, data16Field, ptrField, devc_and, low8_and, fieldAux_zero_and]
  rfl

theorem readSingleBit (dev : BitVec 7) (reg : BitVec 16) (bitNum : BitVec 3) : Statement (.readSingleBit dev reg bitNum) := by
  intro _
  refine ⟨_, by rw [encode, opField_pack]; rfl, ?_, by simp [encode]⟩
  rw [encode, pack_and]
  simp [opField, ctrlField, regField, data16Field, ptrField, devc_and, fieldAux_zero_and]
  rfl

theorem writeBytes (dev : BitVec 7) (reg : BitVec 16) (ptr : BitVec 16) (len : BitVec 16) : Statement (.writeBytes dev reg ptr len) := by
  intro _
  refine ⟨_, by rw [encode, opField_pack]; rfl, ?_, by simp [encode]⟩
  rw [encode, pack_and]
  simp [opField, ctrlField, regField, data16Field, ptrField, devc_and]
  rfl

theorem readBytes (dev : BitVec 7) (reg : BitVec 16) (ptr : BitVec 16) (len : BitVec 16) : Statement (.readBytes dev reg ptr len) := by
  intro _
  refine ⟨_, by rw [encode, opField_pack]; rfl, ?_, by simp [encode]⟩
  rw [encode, pack_and]
  simp [opField, ctrlField, regField, data16Field, ptrField, devc_and]
  rfl

theorem ldWrite (ctrl : BitVec 8) (addr : BitVec 8) (data : BitVec 8) : Statement (.ldWrite ctrl addr data) := by
  intro h
  have hc := ctrl_and ctrl (by simp_all [Instr.wellFormed])
  refine ⟨_, by rw [encode, opField_pack]; rfl, ?_, by simp [encode]⟩
  rw [encode, pack_and]
  simp [opField, ctrlField, regField, data16Field, ptrField, low8_and, hc]
  rfl

theorem ldRead (ctrl : BitVec 8) (addr : BitVec 8) : Statement (.ldRead ctrl addr) := by
  intro h
  have hc := ctrl_and ctrl (by simp_all [Instr.wellFormed])
  refine ⟨_, by rw [encode, opField_pack]; rfl, ?_, by simp [encode]⟩
  rw [encode, pack_and]
  simp [opField, ctrlField, regField, data16Field, ptrField, low8_and, hc]
  rfl

theorem ldPageWrite (ctrl : BitVec 8) (addr : BitVec 8) (ptr : BitVec 16) (len : BitVec 16) : Statement (.ldPageWrite ctrl addr ptr len) := by
  intro h
  have hc := ctrl_and ctrl (by simp_all [Instr.wellFormed])
  refine ⟨_, by rw [encode, opField_pack]; rfl, ?_, by simp [encode]⟩
  rw [encode, pack_and]
  simp [opField, ctrlField, regField, data16Field, ptrField, low8_and, hc]
  rfl

theorem ldSequentialRead (ctrl : BitVec 8) (addr : BitVec 8) (ptr : BitVec 16) (len : BitVec 16) : Statement (.ldSequentialRead ctrl addr ptr len) := by
  intro h
  have hc := ctrl_and ctrl (by simp_all [Instr.wellFormed])
  refine ⟨_, by rw [encode, opField_pack]; rfl, ?_, by simp [encode]⟩
  rw [encode, pack_and]
  simp [opField, ctrlField, regField, data16Field, ptrField, low8_and, hc]
  rfl

end Sys2Proof.Laws.EncodeRow
end

