-- ==== Sys2Proof/Laws/Sequencer.lean ====
section
/-! SUPPORT. What the micro-operations do (spec/41_bus_controller.md R181 to R184,
spec/42_byte_transceiver.md R201 to R203): each, started between engine operations, runs to one state that
its bus events (`BusEffect`) and its working registers (`work`) determine. -/

namespace Sys2Proof.Machine

/-- The action at a position. -/
def actOf (prog : List Step) (p : Pos) : Option (Act × Nat) :=
  match prog[p.upc.toNat]? with
  | none => none
  | some st =>
    match st[p.sub]? with
    | none => none
    | some a => some (a, st.length)

/-- The position of the sequencer. -/
def pos (s : State) : Pos := ⟨s.seq.upc, s.seq.sub⟩

theorem actAt_eq (prog : List Step) (s : State) : actAt prog s = actOf prog (pos s) := rfl

/-- The position after an action of a step of `n` actions. -/
def nextPos (n : Nat) (p : Pos) : Pos :=
  if p.sub + 1 < n then ⟨p.upc, p.sub + 1⟩ else ⟨p.upc + 1#8, 0⟩

/-- A command runs, no engine operation is in progress (R60), and no received byte waits to be read (R33). -/
structure Ready (s : State) : Prop where
  busy : s.seq.busy = true
  moden : s.ctrl.moden = true
  eop : s.eng.eop = .none
  rbf : s.stat.rbf = false
  pending : anyPending s.ctrl = false
  trun : s.stat.trun = false
  tbf : s.stat.tbf = false

/-- What the bus events `es` of a run make of the block, from a state between engine operations to another
(R36, R41, R42, R45, R47, R58, R148), and what no run of a command changes. -/
structure BusEffect (s : State) (es : List Event) (t : State) : Prop where
  trace : t.trace = s.trace ++ es
  view : busView t = (busView s).afterAll es
  ctrl : t.ctrl = { s.ctrl with ackdt := t.ctrl.ackdt }
  tbf : t.stat.tbf = s.stat.tbf
  trun : t.stat.trun = s.stat.trun
  bcol : s.stat.bcol = true → t.stat.bcol = true
  quiet : es = [] → t.stat.bcol = s.stat.bcol
  eop : t.eng.eop = s.eng.eop
  phase : es ≠ [] → t.eng.phase = .none
  phaseKept : es = [] → t.eng.phase = s.eng.phase
  busy : t.seq.busy = s.seq.busy
  cw : t.seq.cw = s.seq.cw
  fatal : t.seq.fatal = s.seq.fatal
  fcode : t.seq.fcode = s.seq.fcode
  cfg : t.cfg = s.cfg
  hpRdata : t.hpRdata = s.hpRdata
  rst : t.rst = s.rst
  raced : t.raced = s.raced

/-- The working registers of the sequencer, and what else a micro-program works on. -/
structure Work where
  pos : Pos
  out : Xfer
  idx : BitVec 16
  tmp : BitVec 8
  val : BitVec 8
  res : Res
  wcol : Bool
  mem : List Host.Cell
  draws : Nat
  inputs : List Input

def work (s : State) : Work where
  pos := pos s
  out := s.seq.out
  idx := s.seq.idx
  tmp := s.seq.tmp
  val := s.seq.val
  res := s.res
  wcol := s.stat.wcol
  mem := s.mem
  draws := s.draws
  inputs := s.inputs

theorem BusView.afterAll_append (v : BusView) (es fs : List Event) :
    v.afterAll (es ++ fs) = (v.afterAll es).afterAll fs := by
  simp [BusView.afterAll, List.foldl_append]

theorem BusEffect.refl (s : State) : BusEffect s [] s := by
  constructor <;> simp [BusView.afterAll]

theorem BusEffect.trans {s t u : State} {es fs : List Event} (h : BusEffect s es t)
    (g : BusEffect t fs u) : BusEffect s (es ++ fs) u where
  trace := by rw [g.trace, h.trace, List.append_assoc]
  view := by rw [g.view, h.view, BusView.afterAll_append]
  ctrl := by rw [g.ctrl, h.ctrl]
  tbf := g.tbf.trans h.tbf
  trun := g.trun.trans h.trun
  bcol hb := g.bcol (h.bcol hb)
  quiet he := by
    obtain ⟨h1, h2⟩ := List.append_eq_nil_iff.1 he
    rw [g.quiet h2, h.quiet h1]
  eop := g.eop.trans h.eop
  phase he := by
    by_cases h2 : fs = []
    · rw [g.phaseKept h2]; exact h.phase (fun h1 => he (by rw [h1, h2]; rfl))
    · exact g.phase h2
  phaseKept he := by
    obtain ⟨h1, h2⟩ := List.append_eq_nil_iff.1 he
    rw [g.phaseKept h2, h.phaseKept h1]
  busy := g.busy.trans h.busy
  cw := g.cw.trans h.cw
  fatal := g.fatal.trans h.fatal
  fcode := g.fcode.trans h.fcode
  cfg := g.cfg.trans h.cfg
  hpRdata := g.hpRdata.trans h.hpRdata
  rst := g.rst.trans h.rst
  raced := g.raced.trans h.raced

/-- No bus event leaves a received byte unread (R33, R202). -/
theorem BusView.afterAll_rbf (es : List Event) (v : BusView) (h : v.rbf = false) :
    (v.afterAll es).rbf = false := by
  induction es generalizing v with
  | nil => exact h
  | cons e es ih => exact ih _ (by cases e <;> first | exact h | rfl)

theorem BusEffect.ready {s t : State} {es : List Event} (h : BusEffect s es t) (r : Ready s) :
    Ready t where
  busy := h.busy.trans r.busy
  moden := by rw [h.ctrl]; exact r.moden
  eop := h.eop.trans r.eop
  rbf := by
    have := BusView.afterAll_rbf es (busView s) r.rbf
    rw [← h.view] at this
    exact this
  pending := by rw [h.ctrl]; exact r.pending
  trun := h.trun.trans r.trun
  tbf := h.tbf.trans r.tbf

/-- Where an action leaves the sequencer. -/
theorem goNext_pos (n : Nat) (s : State) : pos (goNext n s) = nextPos n (pos s) := by
  unfold goNext nextPos pos
  split <;> rfl

theorem Ready.noPending {s : State} (r : Ready s) : s.ctrl.sen = false ∧ s.ctrl.rsen = false ∧
    s.ctrl.pen = false ∧ s.ctrl.rcen = false ∧ s.ctrl.acken = false := by
  have := r.pending
  simp [anyPending] at this
  tauto

/-- An action of the sequencer, at its position. -/
theorem reach_act {prog : List Step} {s : State} {Q : State → Prop} {a : Act} {n m : Nat} (r : Ready s)
    (ha : actOf prog (pos s) = some (a, n)) (hQ : Q (runAct a n s)) : Reach prog (m + 1) m s Q := by
  refine Reach.seq r.busy r.eop ?_
  simpa [seqTick, actAt_eq, ha] using hQ

/-- An action that only moves the sequencer and changes working registers. -/
theorem reach_local {prog : List Step} {s t : State} {a : Act} {n m : Nat} (r : Ready s)
    (ha : actOf prog (pos s) = some (a, n)) (ht : runAct a n s = t) (he : BusEffect s [] t) :
    Reach prog (m + 1) m s (fun u => BusEffect s [] u ∧ work u = work t) :=
  reach_act r ha ⟨ht ▸ he, by rw [ht]⟩

theorem goNext_eq (n : Nat) (s : State) : goNext n s = goTo (nextPos n (pos s)) s := by
  unfold goNext nextPos pos goTo
  split <;> rfl

@[simp] theorem pos_goTo (p : Pos) (s : State) : pos (goTo p s) = p := rfl

/-- An engine operation and the hold for it: `s1` is the state in which the operation has just started, with
`k` phases to go in the measure `R`; from every state it can end in, the hold goes on. -/
theorem reach_operation {prog : List Step} {R : Nat → State → Prop} {s s1 : State} {Q : State → Prop}
    {a b : Act} {n k m : Nat} (r : Ready s) (ha : actOf prog (pos s) = some (a, n))
    (hs1 : runAct a n s = s1) (hR : PhaseMeasure R) (hk : R k s1)
    (hb : actOf prog (nextPos n (pos s)) = some (b, n))
    (hend : ∀ t, R 0 t → Ready t ∧ pos t = nextPos n (pos s) ∧ Q (runAct b n t)) :
    Reach prog (k + 2 + m) m s Q := by
  have h1 : Reach prog (k + 2 + m) (k + (m + 1)) s (fun t => t = s1) := by
    rw [show k + 2 + m = (k + (m + 1)) + 1 by omega]
    exact reach_act r ha hs1
  refine h1.trans ?_
  rintro _ rfl
  refine (hR.reach prog k (m + 1) _ hk).trans ?_
  intro t ht
  obtain ⟨rt, hp, hq⟩ := hend t ht
  exact reach_act rt (by rw [hp]; exact hb) hq

/-- `C_START` (R182): one `S`. -/
theorem reach_start {prog : List Step} {s : State} {n m : Nat} (r : Ready s)
    (h1 : s.eng.sdaLow = false) (h2 : s.eng.sclLow = false)
    (ha : actOf prog (pos s) = some (.setSen, n))
    (hb : actOf prog (nextPos n (pos s)) = some (.holdSen, n)) :
    Reach prog (6 + m) m s (fun t => BusEffect s [.S] t ∧
      work t = { work s with pos := nextPos n (nextPos n (pos s)) }) := by
  obtain ⟨p1, p2, p3, p4, p5⟩ := r.noPending
  let s1 := goTo (nextPos n (pos s)) (beginOp .genStart .s1 { s with
    ctrl := { s.ctrl with sen := true }, seq := { s.seq with bstate := .start } })
  refine reach_operation (k := 4) (s1 := s1) r ha (goNext_eq ..)
    (genStart_measure s1 r.busy r.moden rfl rfl h1 h2) rfl hb ?_
  rintro t rfl
  have hc : s.ctrl = { s.ctrl with sen := false } := by rw [← p1]
  have ht : runAct .holdSen n (eventGenStart s1) =
      goTo (nextPos n (nextPos n (pos s))) (eventGenStart s1) := goNext_eq ..
  refine ⟨⟨r.busy, r.moden, rfl, r.rbf, ?_, r.trun, r.tbf⟩, rfl, ?_, ?_⟩
  · have := r.pending; rw [hc] at this; exact this
  · rw [ht]
    constructor <;> first | rfl | exact hc.symm | simp [s1, eventGenStart, goTo, emit, beginOp, r.eop]
  · rw [ht]; rfl

/-- `C_RESTART` (R183): one `Sr`. -/
theorem reach_restart {prog : List Step} {s : State} {n m : Nat} (r : Ready s)
    (ha : actOf prog (pos s) = some (.setRsen, n))
    (hb : actOf prog (nextPos n (pos s)) = some (.holdRsen, n)) :
    Reach prog (8 + m) m s (fun t => BusEffect s [.Sr] t ∧
      work t = { work s with pos := nextPos n (nextPos n (pos s)) }) := by
  obtain ⟨p1, p2, p3, p4, p5⟩ := r.noPending
  let s1 := goTo (nextPos n (pos s)) (beginOp .genRestart .r1 { s with
    ctrl := { s.ctrl with rsen := true }, seq := { s.seq with bstate := .restart } })
  refine reach_operation (k := 6) (s1 := s1) r ha (goNext_eq ..)
    (genRestart_measure s1 r.busy r.moden rfl rfl) rfl hb ?_
  rintro t ⟨c, rfl⟩
  have hc : s.ctrl = { s.ctrl with rsen := false } := by rw [← p2]
  have ht : runAct .holdRsen n (eventGenRestart c s1) =
      goTo (nextPos n (nextPos n (pos s))) (eventGenRestart c s1) := goNext_eq ..
  refine ⟨⟨r.busy, r.moden, rfl, r.rbf, ?_, r.trun, r.tbf⟩, rfl, ?_, ?_⟩
  · have := r.pending; rw [hc] at this; exact this
  · rw [ht]
    constructor <;> first | rfl | exact hc.symm |
      simp +contextual [s1, eventGenRestart, goTo, emit, beginOp, r.eop]
  · rw [ht]; rfl

/-- `C_STOP` (R184): one `P`, and `STOPI`. -/
theorem reach_stop {prog : List Step} {s : State} {n m : Nat} (r : Ready s)
    (ha : actOf prog (pos s) = some (.setPen, n))
    (hb : actOf prog (nextPos n (pos s)) = some (.holdPen, n)) :
    Reach prog (7 + m) m s (fun t => BusEffect s [.P] t ∧
      work t = { work s with
        pos := nextPos n (nextPos n (pos s)), res := { s.res with stopi := true } }) := by
  obtain ⟨p1, p2, p3, p4, p5⟩ := r.noPending
  let s1 := goTo (nextPos n (pos s)) (beginOp .genStop .p1 { s with
    ctrl := { s.ctrl with pen := true }, seq := { s.seq with bstate := .stop } })
  refine reach_operation (k := 5) (s1 := s1) r ha (goNext_eq ..)
    (genStop_measure s1 r.busy r.moden rfl rfl) rfl hb ?_
  rintro t ⟨c, rfl⟩
  have hc : s.ctrl = { s.ctrl with pen := false } := by rw [← p3]
  have ht : runAct .holdPen n (eventGenStop c s1) =
      goTo (nextPos n (nextPos n (pos s))) { eventGenStop c s1 with res := { s.res with stopi := true } } :=
    goNext_eq ..
  refine ⟨⟨r.busy, r.moden, rfl, r.rbf, ?_, r.trun, r.tbf⟩, rfl, ?_, ?_⟩
  · have := r.pending; rw [hc] at this; exact this
  · rw [ht]
    constructor <;> first | rfl | exact hc.symm |
      simp +contextual [s1, eventGenStop, goTo, emit, beginOp, r.eop]
  · rw [ht]; rfl

/-- `W_IDLE` between engine operations (R181): it clears `WCOL`. -/
theorem reach_wIdle {prog : List Step} {s : State} {n m : Nat} (r : Ready s)
    (ha : actOf prog (pos s) = some (.wIdle, n)) :
    Reach prog (1 + m) m s (fun t => BusEffect s [] t ∧
      work t = { work s with pos := nextPos n (pos s), wcol := false }) := by
  rw [Nat.add_comm]
  refine reach_act r ha ?_
  have ht : runAct .wIdle n s =
      goTo (nextPos n (pos s)) { s with stat := { s.stat with wcol := false } } := by
    have : engineBusy s = false := by simp [engineBusy, r.pending, r.trun]
    simp only [runAct, actWIdle, this]
    exact goNext_eq ..
  rw [ht]
  exact ⟨by constructor <;> simp [goTo, busView, BusView.afterAll], rfl⟩

/-- `TX` with `WCOL = 0` (R201): one `Tx` with the acknowledge level the byte met. -/
theorem reach_tx {prog : List Step} {s : State} {n m : Nat} {src : ByteSrc} {fail : Pos} (r : Ready s)
    (hw : s.stat.wcol = false) (ha : actOf prog (pos s) = some (.load src fail, n))
    (hb : actOf prog (nextPos n (pos s)) = some (.holdTx fail, n)) :
    Reach prog (39 + m) m s (fun t => ∃ a, BusEffect s [.Tx (srcByte src s) a] t ∧
      work t = { work s with
        pos := if a then fail else nextPos n (nextPos n (pos s)), out := ackOutcome a }) := by
  let s1 := goTo (nextPos n (pos s)) (beginOp .transmit .t0 { s with
    txb := srcByte src s
    known := { s.known with txb := true }
    stat := { s.stat with tbf := true, trun := true }
    seq := { s.seq with bstate := bstateAfterLoad s.seq.bstate } })
  have hs1 : runAct (.load src fail) n s = s1 := by
    have : loadRejected s = false := by simp [loadRejected, r.pending, r.trun, r.tbf, hw]
    simp [runAct, actLoad, loadTxb, this, beginOp, hw, goNext_eq, s1, pos]
  refine reach_operation (k := 37) (s1 := s1) r ha hs1
    (transmit_measure s1 r.busy r.moden rfl rfl) .load hb ?_
  intro t ht
  obtain ⟨a, c, -, rfl⟩ := transmitAt_zero s1 ht
  have ht : runAct (.holdTx fail) n (sentByte s1 a c) =
      goTo (if a then fail else nextPos n (nextPos n (pos s)))
        (setOut (ackOutcome a) (sentByte s1 a c)) := by
    cases a
    · exact goNext_eq ..
    · rfl
  refine ⟨⟨r.busy, r.moden, rfl, r.rbf, r.pending, rfl, rfl⟩, rfl, a, ?_, ?_⟩
  · rw [ht]
    constructor <;> first | rfl |
      simp +contextual [s1, sentByte, eventTransmit, goTo, setOut, emit, beginOp, r.eop, r.trun,
        r.tbf]
  · rw [ht]; rfl

/-- `TX` with `WCOL = 1` (R201): the load is rejected and nothing is sent. -/
theorem reach_tx_rejected {prog : List Step} {s : State} {n m : Nat} {src : ByteSrc} {fail : Pos}
    (r : Ready s) (hw : s.stat.wcol = true) (ha : actOf prog (pos s) = some (.load src fail, n)) :
    Reach prog (1 + m) m s (fun t => BusEffect s [] t ∧
      work t = { work s with pos := fail, out := .writeCollision }) := by
  rw [Nat.add_comm]
  refine reach_act r ha ?_
  have ht : runAct (.load src fail) n s =
      goTo fail (setOut .writeCollision { s with stat := { s.stat with wcol := true } }) := by
    have : loadRejected s = true := by simp [loadRejected, hw]
    simp [runAct, actLoad, loadTxb, this]
  rw [ht]
  refine ⟨by constructor <;> simp [goTo, setOut, busView, BusView.afterAll], ?_⟩
  simp [work, goTo, setOut, pos, hw]

/-- `RX` (R202): one `Rx`, and `VAL` is its byte. -/
theorem reach_rx {prog : List Step} {s : State} {n m : Nat} (r : Ready s)
    (ha : actOf prog (pos s) = some (.setRcen, n))
    (hb : actOf prog (nextPos n (pos s)) = some (.holdRcen, n)) :
    Reach prog (28 + m) m s (fun t => ∃ v, BusEffect s [.Rx v] t ∧
      work t = { work s with pos := nextPos n (nextPos n (pos s)), val := v }) := by
  obtain ⟨p1, p2, p3, p4, p5⟩ := r.noPending
  let s1 := goTo (nextPos n (pos s)) (beginOp .receive .v0 { s with
    ctrl := { s.ctrl with rcen := true }, seq := { s.seq with bstate := .dataPhase } })
  have hrun : runAct .setRcen n s = s1 := goNext_eq ..
  -- after the reception `RBF` is 1, so the hold is reached from outside `Ready`
  have h1 : Reach prog (28 + m) (26 + (m + 1)) s (fun t => t = s1) := by
    rw [show 28 + m = (26 + (m + 1)) + 1 by omega]
    exact reach_act r ha hrun
  refine h1.trans ?_
  rintro _ rfl
  refine ((receive_measure s1 r.busy r.moden rfl rfl).reach prog 26 (m + 1) _ .start).trans ?_
  intro t ht
  obtain ⟨v, rfl⟩ := receiveAt_zero s1 ht
  have hc : s.ctrl = { s.ctrl with rcen := false } := by rw [← p4]
  have hpos : pos (receivedByte s1 v) = nextPos n (pos s) := rfl
  have ht : runAct .holdRcen n (receivedByte s1 v) =
      goTo (nextPos n (nextPos n (pos s))) { receivedByte s1 v with
        stat := { (receivedByte s1 v).stat with rxov := false, rbf := false }
        seq := { (receivedByte s1 v).seq with val := v } } := by
    have hg : rxbRead (receivedByte s1 v) = v := by
      simp [rxbRead, receivedByte, eventReceive, emit, s1, goTo, beginOp, r.rbf]
    simp only [runAct, actHoldRcen]
    rw [if_neg (by simp [receivedByte, eventReceive, emit]), hg, goNext_eq]
    simp [receivedByte, eventReceive, emit, s1, goTo, beginOp, pos, r.rbf]
  refine Reach.seq r.busy rfl ?_
  have hq : seqTick prog (receivedByte s1 v) = runAct .holdRcen n (receivedByte s1 v) := by
    simp only [seqTick, actAt_eq, hpos, hb]
  rw [hq, ht]
  refine ⟨v, ?_, rfl⟩
  constructor <;> first | rfl | exact hc.symm |
    simp +contextual [s1, receivedByte, eventReceive, goTo, emit, beginOp, r.eop, busView,
      BusView.afterAll, BusView.after, r.rbf]

/-- `ACK(d)` (R203): one `Ak(d)`; an ACK leaves `BCOL` as it was. -/
theorem reach_ack {prog : List Step} {s : State} {n m : Nat} {d : Bool} (r : Ready s)
    (ha : actOf prog (pos s) = some (.setAck d, n))
    (hb : actOf prog (nextPos n (pos s)) = some (.holdAck, n)) :
    Reach prog (7 + m) m s (fun t => BusEffect s [.Ak d] t ∧
      (d = false → t.stat.bcol = s.stat.bcol) ∧
      work t = { work s with pos := nextPos n (nextPos n (pos s)) }) := by
  obtain ⟨p1, p2, p3, p4, p5⟩ := r.noPending
  let s1 := goTo (nextPos n (pos s)) (beginOp .ackSeq .a0 { s with
    ctrl := { s.ctrl with ackdt := d, acken := true } })
  refine reach_operation (k := 5) (s1 := s1) r ha (goNext_eq ..)
    (ackSeq_measure s1 r.busy r.moden rfl rfl) rfl hb ?_
  rintro t ⟨c, hd, rfl⟩
  have hc : s.ctrl = { s.ctrl with acken := false } := by rw [← p5]
  have ht : runAct .holdAck n (eventAckSeq c s1) =
      goTo (nextPos n (nextPos n (pos s))) (eventAckSeq c s1) := goNext_eq ..
  refine ⟨⟨r.busy, r.moden, rfl, r.rbf, ?_, r.trun, r.tbf⟩, rfl, ?_, ?_, ?_⟩
  · have := r.pending; rw [hc] at this; exact this
  · rw [ht]
    constructor <;> first | rfl |
      simp +contextual [s1, eventAckSeq, goTo, emit, beginOp, r.eop, p5]
  · intro h
    rw [ht]
    simp [eventAckSeq, goTo, emit, hd h, s1, beginOp]
  · rw [ht]; rfl

end Sys2Proof.Machine
end

