-- ==== Sys2Proof/Laws/Procedures.lean ====
section
/-! SUPPORT. What the two transaction procedures do (spec/43_register_accessor.md R221, R224), composed from
the micro-operations, and how a command that is accepted comes from its run (spec/30_encoding.md R120,
R121). -/

namespace Sys2Proof.Machine

/-- From `s`, whatever drives serve `n` ticks, the run comes with `m` served ticks left to a state that some
bus events, related to it by `P`, lead to. -/
def RunsTo (prog : List Step) (n m : Nat) (s : State) (P : List Event → State → Prop) : Prop :=
  Reach prog n m s (fun t => ∃ es, BusEffect s es t ∧ P es t)

theorem RunsTo.bind {prog : List Step} {n m k : Nat} {s : State} {P Q : List Event → State → Prop}
    (h : RunsTo prog n m s P) (r : Ready s)
    (g : ∀ es t, Ready t → BusEffect s es t → P es t → RunsTo prog m k t (fun fs u => Q (es ++ fs) u)) :
    RunsTo prog n k s Q :=
  h.trans fun t ⟨es, he, hp⟩ => (g es t (he.ready r) he hp).mono fun _ ⟨fs, hf, hq⟩ =>
    ⟨es ++ fs, he.trans hf, hq⟩

theorem RunsTo.mono {prog : List Step} {n m : Nat} {s : State} {P Q : List Event → State → Prop}
    (h : RunsTo prog n m s P) (g : ∀ es t, BusEffect s es t → P es t → Q es t) : RunsTo prog n m s Q :=
  Reach.mono h fun t ⟨es, he, hp⟩ => ⟨es, he, g es t he hp⟩

theorem RunsTo.credit {prog : List Step} {n n' m : Nat} {s : State} {P : List Event → State → Prop}
    (h : RunsTo prog n m s P) (hn : n ≤ n') : RunsTo prog n' m s P := Reach.credit h hn

theorem RunsTo.drop {prog : List Step} {n m m' : Nat} {s : State} {P : List Event → State → Prop}
    (h : RunsTo prog n m s P) (hm : m' ≤ m) : RunsTo prog n m' s P := Reach.drop h hm

theorem RunsTo.refl {prog : List Step} {n : Nat} {s : State} {P : List Event → State → Prop} (h : P [] s) :
    RunsTo prog n n s P := Reach.refl ⟨[], BusEffect.refl s, h⟩

section micro
variable {prog : List Step} {s : State} {w : Work} {n m : Nat}

/-- `W_IDLE` (R181). -/
theorem runs_wIdle (r : Ready s) (hw : work s = w) (ha : actOf prog w.pos = some (.wIdle, n)) :
    RunsTo prog (1 + m) m s (fun es t => es = [] ∧
      work t = { w with pos := nextPos n w.pos, wcol := false }) := by
  subst hw
  exact (reach_wIdle r ha).mono fun _ ⟨h1, h2⟩ => ⟨_, h1, rfl, h2⟩

/-- `C_START` (R182). -/
theorem runs_start (r : Ready s) (hw : work s = w) (h1 : s.eng.sdaLow = false) (h2 : s.eng.sclLow = false)
    (ha : actOf prog w.pos = some (.setSen, n))
    (hb : actOf prog (nextPos n w.pos) = some (.holdSen, n)) :
    RunsTo prog (6 + m) m s (fun es t => es = [.S] ∧
      work t = { w with pos := nextPos n (nextPos n w.pos) }) := by
  subst hw
  exact (reach_start r h1 h2 ha hb).mono fun _ ⟨h1, h2⟩ => ⟨_, h1, rfl, h2⟩

/-- `C_RESTART` (R183). -/
theorem runs_restart (r : Ready s) (hw : work s = w) (ha : actOf prog w.pos = some (.setRsen, n))
    (hb : actOf prog (nextPos n w.pos) = some (.holdRsen, n)) :
    RunsTo prog (8 + m) m s (fun es t => es = [.Sr] ∧
      work t = { w with pos := nextPos n (nextPos n w.pos) }) := by
  subst hw
  exact (reach_restart r ha hb).mono fun _ ⟨h1, h2⟩ => ⟨_, h1, rfl, h2⟩

/-- `C_STOP` (R184). -/
theorem runs_stop (r : Ready s) (hw : work s = w) (ha : actOf prog w.pos = some (.setPen, n))
    (hb : actOf prog (nextPos n w.pos) = some (.holdPen, n)) :
    RunsTo prog (7 + m) m s (fun es t => es = [.P] ∧
      work t = { w with pos := nextPos n (nextPos n w.pos), res := { w.res with stopi := true } }) := by
  subst hw
  exact (reach_stop r ha hb).mono fun _ ⟨h1, h2⟩ => ⟨_, h1, rfl, h2⟩

/-- `TX` with `WCOL = 0` (R201). -/
theorem runs_tx {src : ByteSrc} {fail : Pos} {b : BitVec 8} (r : Ready s) (hw : work s = w)
    (hc : w.wcol = false) (hs : srcByte src s = b) (ha : actOf prog w.pos = some (.load src fail, n))
    (hb : actOf prog (nextPos n w.pos) = some (.holdTx fail, n)) :
    RunsTo prog (39 + m) m s (fun es t => ∃ a, es = [.Tx b a] ∧
      work t = { w with
        pos := if a then fail else nextPos n (nextPos n w.pos), out := ackOutcome a }) := by
  subst hw hs
  exact (reach_tx r hc ha hb).mono fun _ ⟨a, h1, h2⟩ => ⟨_, h1, a, rfl, h2⟩

/-- `RX` (R202). -/
theorem runs_rx (r : Ready s) (hw : work s = w) (ha : actOf prog w.pos = some (.setRcen, n))
    (hb : actOf prog (nextPos n w.pos) = some (.holdRcen, n)) :
    RunsTo prog (28 + m) m s (fun es t => ∃ v, es = [.Rx v] ∧
      work t = { w with pos := nextPos n (nextPos n w.pos), val := v }) := by
  subst hw
  exact (reach_rx r ha hb).mono fun _ ⟨v, h1, h2⟩ => ⟨_, h1, v, rfl, h2⟩

/-- `ACK(d)` (R203). -/
theorem runs_ack {d : Bool} (r : Ready s) (hw : work s = w) (ha : actOf prog w.pos = some (.setAck d, n))
    (hb : actOf prog (nextPos n w.pos) = some (.holdAck, n)) :
    RunsTo prog (7 + m) m s (fun es t => es = [.Ak d] ∧ (d = false → t.stat.bcol = s.stat.bcol) ∧
      work t = { w with pos := nextPos n (nextPos n w.pos) }) := by
  subst hw
  exact (reach_ack r ha hb).mono fun _ ⟨h1, h2, h3⟩ => ⟨_, h1, rfl, h2, h3⟩

/-- An action that only moves the sequencer and changes working registers. -/
theorem runs_local {a : Act} {t : State} (r : Ready s) (hw : work s = w)
    (ha : actOf prog w.pos = some (a, n)) (ht : runAct a n s = t) (he : BusEffect s [] t) :
    RunsTo prog (1 + m) m s (fun es u => es = [] ∧ u = t) := by
  subst hw
  rw [Nat.add_comm]
  exact (reach_act r ha (Q := fun u => u = t) ht).mono fun u hu => ⟨[], hu ▸ he, rfl, hu⟩

end micro

/-- The action at `k` of a numbered step. -/
theorem actOf_step {prog : List Step} {u : BitVec 8} {st : Step} (h : prog[u.toNat]? = some st) (k : Nat) :
    actOf prog ⟨u, k⟩ = (st[k]?).map (fun a => (a, st.length)) := by
  simp only [actOf, h]
  cases st[k]? <;> rfl

theorem nextPos_lt {n k : Nat} {u : BitVec 8} (h : k + 1 < n) : nextPos n ⟨u, k⟩ = ⟨u, k + 1⟩ := by
  simp [nextPos, h]

/-- The drivers of an idle bus (R148). -/
def BusFree (s : State) : Prop := s.eng.sdaLow = false ∧ s.eng.sclLow = false

theorem BusEffect.busFree {s t : State} (h : BusEffect s [] t) (f : BusFree s) : BusFree t := by
  have := h.view
  exact ⟨(congrArg BusView.sdaLow this).trans f.1, (congrArg BusView.sclLow this).trans f.2⟩

/-- After events that end in a STOP the bus is free (R45, R148). -/
theorem BusEffect.busFree_of_stop {s t : State} {es : List Event} (h : BusEffect s (es ++ [.P]) t) :
    BusFree t ∧ t.seq.bstate = .idle := by
  have := h.view
  rw [BusView.afterAll_append] at this
  exact ⟨⟨congrArg BusView.sdaLow this, congrArg BusView.sclLow this⟩, congrArg BusView.bstate this⟩

/-- `W_IDLE; C_STOP` (R221 w5, w6; R224 r9, r10), in a step of `n` actions of which they are `k` to `k + 2`. -/
theorem runs_close {prog : List Step} {s : State} {w : Work} {n m k : Nat} {u : BitVec 8} (r : Ready s)
    (hw : work s = w) (hp : w.pos = ⟨u, k⟩) (hn : k + 2 < n)
    (h0 : actOf prog ⟨u, k⟩ = some (.wIdle, n)) (h1 : actOf prog ⟨u, k + 1⟩ = some (.setPen, n))
    (h2 : actOf prog ⟨u, k + 2⟩ = some (.holdPen, n)) :
    RunsTo prog (8 + m) m s (fun es t => es = [.P] ∧
      work t = { w with
        pos := nextPos n ⟨u, k + 2⟩, wcol := false, res := { w.res with stopi := true } }) := by
  have e0 : nextPos n ⟨u, k⟩ = ⟨u, k + 1⟩ := nextPos_lt (by omega)
  have e1 : nextPos n ⟨u, k + 1⟩ = ⟨u, k + 2⟩ := nextPos_lt (by omega)
  rw [show 8 + m = 1 + (7 + m) by omega]
  refine (runs_wIdle r hw (hp ▸ h0)).bind r ?_
  rintro _ t r1 - ⟨rfl, w1⟩
  rw [hp, e0] at w1
  refine (runs_stop r1 w1 h1 (by rw [e1]; exact h2)).mono ?_
  rintro _ t - ⟨rfl, w2⟩
  exact ⟨rfl, by rw [w2]; simp only [e1]⟩

/-- `XWriteReg(dev, r8, d8)` (R221): one write transaction; its outcome says whether every byte was
acknowledged, and a STOP always closes it. -/
theorem runs_xWriteReg {prog : List Step} {s : State} {w : Work} {u : BitVec 8} {dev : BitVec 7}
    {r8 b : BitVec 8} {d8 : ByteSrc} {tail : Step} {m : Nat} (r : Ready s) (f : BusFree s)
    (hw : work s = w) (hpos : w.pos = ⟨u, 0⟩) (hs : ∀ t, (work t).tmp = w.tmp → srcByte d8 t = b)
    (hp : prog[u.toNat]? = some (xWriteReg u dev r8 d8 ++ tail)) :
    RunsTo prog (ticksWrite + m) m s (fun es t => ∃ a₀ a₁ a₂,
      let l := [(addrByte dev false, a₀), (r8, a₁), (b, a₂)]
      es = writeTrace l ∧ work t = { w with
        pos := nextPos (12 + tail.length) ⟨u, 11⟩, out := ackOutcome (anyNack l), wcol := false,
        res := { w.res with stopi := true } }) := by
  have hlen : (xWriteReg u dev r8 d8 ++ tail).length = 12 + tail.length := by
    simp [xWriteReg, cStart, tx, cStop]; omega
  have act : ∀ k, actOf prog ⟨u, k⟩ =
      ((xWriteReg u dev r8 d8 ++ tail)[k]?).map (fun a => (a, 12 + tail.length)) := fun k => by
    rw [← hlen]; exact actOf_step hp k
  have nx : ∀ k, k < 11 → nextPos (12 + tail.length) ⟨u, k⟩ = ⟨u, k + 1⟩ := fun k hk =>
    nextPos_lt (by omega)
  have close : ∀ (t : State) (w' : Work), Ready t → work t = w' → w'.pos = ⟨u, 9⟩ →
      RunsTo prog (8 + m) m t (fun es t => es = [.P] ∧ work t = { w' with
        pos := nextPos (12 + tail.length) ⟨u, 11⟩, wcol := false,
        res := { w'.res with stopi := true } }) := fun t w' rt hw' hp' =>
    runs_close rt hw' hp' (by omega) (act 9) (act 10) (act 11)
  rw [show ticksWrite + m = 1 + (6 + (39 + (39 + (39 + (8 + m))))) by simp [ticksWrite]; omega]
  refine (runs_wIdle r hw (hpos ▸ act 0)).bind r ?_
  rintro _ t1 r1 e1 ⟨rfl, w1⟩
  rw [hpos, nx 0 (by omega)] at w1
  refine (runs_start r1 w1 (e1.busFree f).1 (e1.busFree f).2 (act 1)
    (by simp only [nx 1 (by omega)]; exact act 2)).bind r1 ?_
  rintro _ t2 r2 - ⟨rfl, w2⟩
  simp only [nx 1 (by omega), nx 2 (by omega)] at w2
  refine (runs_tx r2 w2 rfl rfl (act 3) (by simp only [nx 3 (by omega)]; exact act 4)).bind r2 ?_
  rintro _ t3 r3 - ⟨a₀, rfl, w3⟩
  simp only [nx 3 (by omega), nx 4 (by omega)] at w3
  cases a₀
  case true =>
    refine ((close t3 _ r3 w3 rfl).mono ?_).credit (by omega)
    rintro _ t - ⟨rfl, w4⟩
    exact ⟨true, false, false, rfl, w4⟩
  simp only [Bool.false_eq_true, if_false] at w3
  refine (runs_tx r3 w3 rfl rfl (act 5) (by simp only [nx 5 (by omega)]; exact act 6)).bind r3 ?_
  rintro _ t4 r4 - ⟨a₁, rfl, w4⟩
  simp only [nx 5 (by omega), nx 6 (by omega)] at w4
  cases a₁
  case true =>
    refine ((close t4 _ r4 w4 rfl).mono ?_).credit (by omega)
    rintro _ t - ⟨rfl, w5⟩
    exact ⟨false, true, false, rfl, w5⟩
  simp only [Bool.false_eq_true, if_false] at w4
  refine (runs_tx r4 w4 rfl (hs t4 (by rw [w4])) (act 7)
    (by simp only [nx 7 (by omega)]; exact act 8)).bind r4 ?_
  rintro _ t5 r5 - ⟨a₂, rfl, w5⟩
  simp only [nx 7 (by omega), nx 8 (by omega)] at w5
  refine (close t5 _ r5 w5 (by cases a₂ <;> rfl)).mono ?_
  rintro _ t - ⟨rfl, w6⟩
  exact ⟨false, false, a₂, by cases a₂ <;> rfl, by rw [w6]; cases a₂ <;> rfl⟩

/-- The actions of `XReadReg` up to the byte received (R224 r0 to r7). -/
def readHead (dev : BitVec 7) (r8 : BitVec 8) (fail : Pos) : List Act :=
  [.wIdle, .setSen, .holdSen, .load (.lit (addrByte dev false)) fail, .holdTx fail,
   .load (.lit r8) fail, .holdTx fail, .wIdle, .setRsen, .holdRsen,
   .load (.lit (addrByte dev true)) fail, .holdTx fail, .setRcen, .holdRcen]

/-- The actions of `XReadReg` after the byte received and its caller's `mid` (R224 r8 to r10). -/
def readEnd (fail : Pos) : List Act :=
  [.unlessReadNack fail, .setAck true, .holdAck, .wIdle, .setPen, .holdPen]

theorem xReadRegWith_eq (u : BitVec 8) (dev : BitVec 7) (r8 : BitVec 8) (mid tail : List Act) :
    xReadRegWith u dev r8 mid ++ tail =
      readHead dev r8 ⟨u, 17 + mid.length⟩ ++ (mid ++ (readEnd ⟨u, 17 + mid.length⟩ ++ tail)) := by
  simp [xReadRegWith, cStart, cRestart, tx, rx, ack, cStop, readHead, readEnd]

/-- The actions of `XReadReg` inlined in step `u` up to the byte received. -/
theorem actOf_readHead {prog : List Step} {u : BitVec 8} {dev : BitVec 7} {r8 : BitVec 8}
    {mid tail : List Act} (hp : prog[u.toNat]? = some (xReadRegWith u dev r8 mid ++ tail)) :
    let n := 20 + mid.length + tail.length
    let fail : Pos := ⟨u, 17 + mid.length⟩
    actOf prog ⟨u, 0⟩ = some (.wIdle, n) ∧ actOf prog ⟨u, 1⟩ = some (.setSen, n) ∧
    actOf prog ⟨u, 2⟩ = some (.holdSen, n) ∧
    actOf prog ⟨u, 3⟩ = some (.load (.lit (addrByte dev false)) fail, n) ∧
    actOf prog ⟨u, 4⟩ = some (.holdTx fail, n) ∧ actOf prog ⟨u, 5⟩ = some (.load (.lit r8) fail, n) ∧
    actOf prog ⟨u, 6⟩ = some (.holdTx fail, n) ∧ actOf prog ⟨u, 7⟩ = some (.wIdle, n) ∧
    actOf prog ⟨u, 8⟩ = some (.setRsen, n) ∧ actOf prog ⟨u, 9⟩ = some (.holdRsen, n) ∧
    actOf prog ⟨u, 10⟩ = some (.load (.lit (addrByte dev true)) fail, n) ∧
    actOf prog ⟨u, 11⟩ = some (.holdTx fail, n) ∧ actOf prog ⟨u, 12⟩ = some (.setRcen, n) ∧
    actOf prog ⟨u, 13⟩ = some (.holdRcen, n) := by
  rw [xReadRegWith_eq] at hp
  simp only [actOf_step hp]
  refine ⟨?_, ?_, ?_, ?_, ?_, ?_, ?_, ?_, ?_, ?_, ?_, ?_, ?_, ?_⟩ <;> simp [readHead, readEnd] <;> omega

/-- The actions of `XReadReg` inlined in step `u` after its caller's `mid`. -/
theorem actOf_readEnd {prog : List Step} {u : BitVec 8} {dev : BitVec 7} {r8 : BitVec 8}
    {mid tail : List Act} (hp : prog[u.toNat]? = some (xReadRegWith u dev r8 mid ++ tail)) :
    let n := 20 + mid.length + tail.length
    let j := mid.length
    actOf prog ⟨u, 14 + j⟩ = some (.unlessReadNack ⟨u, 17 + j⟩, n) ∧
    actOf prog ⟨u, 15 + j⟩ = some (.setAck true, n) ∧ actOf prog ⟨u, 16 + j⟩ = some (.holdAck, n) ∧
    actOf prog ⟨u, 17 + j⟩ = some (.wIdle, n) ∧ actOf prog ⟨u, 18 + j⟩ = some (.setPen, n) ∧
    actOf prog ⟨u, 19 + j⟩ = some (.holdPen, n) := by
  rw [xReadRegWith_eq] at hp
  simp only [actOf_step hp]
  refine ⟨?_, ?_, ?_, ?_, ?_, ?_⟩ <;>
  · rw [List.getElem?_append_right (by simp only [readHead, List.length_cons, List.length_nil]; omega),
      List.getElem?_append_right (by simp only [readHead, List.length_cons, List.length_nil]; omega)]
    simp [readHead, readEnd, show ∀ k j : Nat, k + j - 14 - j = k - 14 by omega]
    omega

/-- The first half of `XReadReg` (R224 r0 to r6), and r9, r10 where a byte is not acknowledged. What the second half
does from the acknowledged read-direction byte on is the caller's to say: within `c` ticks it appends the
byte `v` and `rest`, and the working registers become `G v` of what they were. -/
theorem runs_readAddress {prog : List Step} {s : State} {w : Work} {u : BitVec 8} {dev : BitVec 7}
    {r8 : BitVec 8} {mid tail : List Act} {c m : Nat} {rest : List Event} {G : BitVec 8 → Work → Work}
    (r : Ready s) (f : BusFree s) (hw : work s = w) (hpos : w.pos = ⟨u, 0⟩)
    (hp : prog[u.toNat]? = some (xReadRegWith u dev r8 mid ++ tail)) (hc : 8 ≤ c)
    (close : ∀ (t : State) (w' : Work), Ready t → work t = w' → w'.pos = ⟨u, 17 + mid.length⟩ →
      RunsTo prog (8 + m) m t (fun es t => es = [.P] ∧ work t = { w' with
        pos := nextPos (20 + mid.length + tail.length) ⟨u, 19 + mid.length⟩, wcol := false,
        res := { w'.res with stopi := true } }))
    (byte : ∀ (t : State) (w' : Work) (es : List Event), Ready t → BusEffect s es t → work t = w' →
      w'.pos = ⟨u, 12⟩ →
      RunsTo prog (c + m) m t (fun es t => ∃ v, es = [.Rx v] ++ rest ∧ work t = G v w')) :
    RunsTo prog (133 + (c + m)) m s (fun es t => ∃ a₀ a₁ a₂ v,
      let l := [(addrByte dev false, a₀), (r8, a₁)]
      let rd := (addrByte dev true, a₂)
      es = (if readOk l rd then [.S] ++ txTrace l ++ [.Sr, .Tx rd.1 false, .Rx v] ++ rest
        else readTrace l rd v false) ∧
      (readOk l rd = true →
        work t = G v { w with pos := ⟨u, 12⟩, out := .success, wcol := false }) ∧
      (readOk l rd = false → work t = { w with
        pos := nextPos (20 + mid.length + tail.length) ⟨u, 19 + mid.length⟩, out := .notAcknowledged,
        wcol := false, res := { w.res with stopi := true } })) := by
  obtain ⟨c0, c1, c2, c3, c4, c5, c6, c7, c8, c9, c10, c11, -, -⟩ := actOf_readHead hp
  have nx : ∀ k, k < 12 → nextPos (20 + mid.length + tail.length) ⟨u, k⟩ = ⟨u, k + 1⟩ := fun k hk =>
    nextPos_lt (by omega)
  rw [show 133 + (c + m) = 1 + (6 + (39 + (39 + (1 + (8 + (39 + (c + m))))))) by omega]
  refine (runs_wIdle r hw (hpos ▸ c0)).bind r ?_
  rintro _ t1 r1 e1 ⟨rfl, w1⟩
  rw [hpos, nx 0 (by omega)] at w1
  refine (runs_start r1 w1 (e1.busFree f).1 (e1.busFree f).2 c1
    (by simp only [nx 1 (by omega)]; exact c2)).bind r1 ?_
  rintro _ t2 r2 e2 ⟨rfl, w2⟩
  simp only [nx 1 (by omega), nx 2 (by omega)] at w2
  refine (runs_tx r2 w2 rfl rfl c3 (by simp only [nx 3 (by omega)]; exact c4)).bind r2 ?_
  rintro _ t3 r3 e3 ⟨a₀, rfl, w3⟩
  simp only [nx 3 (by omega), nx 4 (by omega)] at w3
  cases a₀
  case true =>
    refine ((close t3 _ r3 w3 rfl).mono ?_).credit (by omega)
    rintro _ t - ⟨rfl, w4⟩
    exact ⟨true, false, false, 0x00#8, rfl, fun h => by simp [readOk, anyNack] at h, fun _ => w4⟩
  simp only [Bool.false_eq_true, if_false] at w3
  refine (runs_tx r3 w3 rfl rfl c5 (by simp only [nx 5 (by omega)]; exact c6)).bind r3 ?_
  rintro _ t4 r4 e4 ⟨a₁, rfl, w4⟩
  simp only [nx 5 (by omega), nx 6 (by omega)] at w4
  cases a₁
  case true =>
    refine ((close t4 _ r4 w4 rfl).mono ?_).credit (by omega)
    rintro _ t - ⟨rfl, w5⟩
    exact ⟨false, true, false, 0x00#8, rfl, fun h => by simp [readOk, anyNack] at h, fun _ => w5⟩
  simp only [Bool.false_eq_true, if_false] at w4
  refine (runs_wIdle r4 w4 c7).bind r4 ?_
  rintro _ t5 r5 e5 ⟨rfl, w5⟩
  simp only [nx 7 (by omega)] at w5
  refine (runs_restart r5 w5 c8 (by simp only [nx 8 (by omega)]; exact c9)).bind r5 ?_
  rintro _ t6 r6 e6 ⟨rfl, w6⟩
  simp only [nx 8 (by omega), nx 9 (by omega)] at w6
  refine (runs_tx r6 w6 rfl rfl c10 (by simp only [nx 10 (by omega)]; exact c11)).bind r6 ?_
  rintro _ t7 r7 e7 ⟨a₂, rfl, w7⟩
  simp only [nx 10 (by omega), nx 11 (by omega)] at w7
  cases a₂
  case true =>
    refine ((close t7 _ r7 w7 rfl).mono ?_).credit (by omega)
    rintro _ t - ⟨rfl, w8⟩
    exact ⟨false, false, true, 0x00#8, rfl, fun h => by simp [readOk, anyNack] at h, fun _ => w8⟩
  simp only [Bool.false_eq_true, if_false] at w7
  refine (byte t7 _ _ r7 ((((((e1.trans e2).trans e3).trans e4).trans e5).trans e6).trans e7) w7
    rfl).mono ?_
  rintro _ t - ⟨v, rfl, w8⟩
  exact ⟨false, false, false, v, rfl, fun _ => w8, fun h => by simp [readOk, anyNack] at h⟩

/-- R224 r8 to r10, from the action after the byte and the caller's `mid`: the optional not-acknowledge, and the
STOP, in a step of `n` actions of which they are `k` to `k + 5`. -/
theorem runs_endRead {prog : List Step} {s : State} {w : Work} {u : BitVec 8} {k n m : Nat} (r : Ready s)
    (hw : work s = w) (hpos : w.pos = ⟨u, k⟩) (hn : k + 5 < n)
    (h0 : actOf prog ⟨u, k⟩ = some (.unlessReadNack ⟨u, k + 3⟩, n))
    (h1 : actOf prog ⟨u, k + 1⟩ = some (.setAck true, n))
    (h2 : actOf prog ⟨u, k + 2⟩ = some (.holdAck, n))
    (h3 : actOf prog ⟨u, k + 3⟩ = some (.wIdle, n)) (h4 : actOf prog ⟨u, k + 4⟩ = some (.setPen, n))
    (h5 : actOf prog ⟨u, k + 5⟩ = some (.holdPen, n)) :
    RunsTo prog (16 + m) m s (fun es t => es = (if s.cfg.readNack then [.Ak true] else []) ++ [.P] ∧
      work t = { w with
        pos := nextPos n ⟨u, k + 5⟩, wcol := false, res := { w.res with stopi := true } }) := by
  subst hw
  have nx : ∀ j, j < k + 5 → nextPos n ⟨u, j⟩ = ⟨u, j + 1⟩ := fun j hj => nextPos_lt (by omega)
  have close := fun (t : State) (rt : Ready t) (h : pos t = ⟨u, k + 3⟩) =>
    runs_close (m := m) (n := n) rt rfl h (by omega) h3 h4 h5
  rw [show 16 + m = 1 + (7 + (8 + m)) by omega]
  have hp : pos s = ⟨u, k⟩ := hpos
  cases hnack : s.cfg.readNack
  case false =>
    refine RunsTo.credit (n := 1 + (8 + m)) ?_ (by omega)
    refine (runs_local (t := goTo ⟨u, k + 3⟩ s) r rfl (hpos ▸ h0)
      (by simp [runAct, hnack]) (by constructor <;> simp [goTo, busView, BusView.afterAll])).bind r ?_
    rintro _ _ r9 e9 ⟨rfl, rfl⟩
    refine (close _ r9 rfl).mono ?_
    rintro _ t - ⟨rfl, w9⟩
    exact ⟨rfl, w9⟩
  refine (runs_local (t := goTo ⟨u, k + 1⟩ s) r rfl (hpos ▸ h0)
    (by simp [runAct, hnack, goNext_eq, hp, nx k (by omega)])
    (by constructor <;> simp [goTo, busView, BusView.afterAll])).bind r ?_
  rintro _ _ r9 e9 ⟨rfl, rfl⟩
  refine (runs_ack (w := { work s with pos := ⟨u, k + 1⟩ }) r9 rfl h1
    (by simp only [nx (k + 1) (by omega)]; exact h2)).bind r9 ?_
  rintro _ t10 r10 e10 ⟨rfl, -, w10⟩
  simp only [nx (k + 1) (by omega), nx (k + 2) (by omega)] at w10
  refine (close _ r10 (congrArg Work.pos w10)).mono ?_
  rintro _ t - ⟨rfl, w11⟩
  exact ⟨rfl, by rw [w11, w10]⟩

/-- The store of `readBytes` at the place `late` says, in an unbroken burst (R253, spec/20_memory.md R84). -/
theorem storeIf_effect {s : State} {n : Nat} (late : Bool) (ptr : BitVec 16) (h : s.raced = false) :
    ∃ t, runAct (.storeIf late ptr) n s = t ∧ BusEffect s [] t ∧
      work t = { work s with
        pos := nextPos n (pos s)
        mem := if storesAfterStop s = late then
          writeCell (work s).mem (bufAddr ptr (work s).idx).toNat (work s).val else (work s).mem } := by
  refine ⟨_, rfl, ?_, ?_⟩
  · by_cases hs : storesAfterStop s = late <;>
      simp only [runAct, storeIf_eq, hs, if_true, if_false, goNext_eq] <;>
      constructor <;> simp [goTo, storeByte, h, busView, BusView.afterAll]
  · by_cases hs : storesAfterStop s = late <;>
      simp only [runAct, storeIf_eq, hs, if_true, if_false, goNext_eq] <;>
      simp [goTo, storeByte, h, work, pos]

/-- `XReadReg(dev, r8)` (R224), r0 to r10: one read transaction; `VAL` is the byte received if every byte sent
was acknowledged, the not-acknowledge follows the byte if `READ_NACK` says so, and a STOP always closes it. -/
theorem runs_xReadReg {prog : List Step} {s : State} {w : Work} {u : BitVec 8} {dev : BitVec 7}
    {r8 : BitVec 8} {tail : List Act} {m : Nat} (r : Ready s) (f : BusFree s)
    (hw : work s = w) (hpos : w.pos = ⟨u, 0⟩)
    (hp : prog[u.toNat]? = some (xReadReg u dev r8 ++ tail)) :
    RunsTo prog (ticksRead + m) m s (fun es t => ∃ a₀ a₁ a₂ v,
      let l := [(addrByte dev false, a₀), (r8, a₁)]
      let rd := (addrByte dev true, a₂)
      es = readTrace l rd v s.cfg.readNack ∧ work t = { w with
        pos := nextPos (20 + tail.length) ⟨u, 19⟩, out := ackOutcome (!readOk l rd), wcol := false,
        val := if readOk l rd then v else w.val, res := { w.res with stopi := true } }) := by
  obtain ⟨-, -, -, -, -, -, -, -, -, -, -, -, c12, c13⟩ := actOf_readHead (mid := []) hp
  obtain ⟨c14, c15, c16, c17, c18, c19⟩ := actOf_readEnd (mid := []) hp
  simp only [List.length_nil, Nat.add_zero] at c12 c13 c14 c15 c16 c17 c18 c19
  have h := runs_readAddress (mid := []) (tail := tail) (c := 44) (m := m)
    (rest := (if s.cfg.readNack then [.Ak true] else []) ++ [.P])
    (G := fun v w' => { w' with
      pos := nextPos (20 + tail.length) ⟨u, 19⟩, wcol := false, val := v,
      res := { w'.res with stopi := true } })
    r f hw hpos hp (by omega)
    (fun t w' rt hw' hp' => runs_close rt hw' hp' (by simp; omega) c17 c18 c19)
    (by
      intro t w' es rt e hw' hp'
      rw [show 44 + m = 28 + (16 + m) by omega]
      have n12 : nextPos (20 + tail.length) ⟨u, 12⟩ = ⟨u, 13⟩ := nextPos_lt (by omega)
      have n13 : nextPos (20 + tail.length) ⟨u, 13⟩ = ⟨u, 14⟩ := nextPos_lt (by omega)
      refine (runs_rx rt hw' (hp' ▸ c12) (by rw [hp', n12]; exact c13)).bind rt ?_
      rintro _ t8 r8 e8 ⟨v, rfl, w8⟩
      rw [hp', n12, n13] at w8
      refine (runs_endRead r8 w8 rfl (by omega) c14 c15 c16 c17 c18 c19).mono ?_
      rintro _ t - ⟨rfl, w9⟩
      exact ⟨v, by rw [e8.cfg, e.cfg], w9⟩)
  rw [show ticksRead + m = 133 + (44 + m) by simp [ticksRead]; omega]
  refine h.mono ?_
  rintro _ t - ⟨a₀, a₁, a₂, v, rfl, ht, hf⟩
  refine ⟨a₀, a₁, a₂, v, ?_, ?_⟩
  · cases a₀ <;> cases a₁ <;> cases a₂ <;> rfl
  · cases hr : readOk [(addrByte dev false, a₀), (r8, a₁)] (addrByte dev true, a₂)
    · rw [hf hr]; rfl
    · rw [ht hr]; rfl

/-- The read transaction of `readBytes` (R253 step 1), in an unbroken burst: as `runs_xReadReg`, and the byte is
stored on the way where `storesAfterStop` says so (spec/20_memory.md R84, log entry 24). -/
theorem runs_xReadRegStore {prog : List Step} {s : State} {w : Work} {u : BitVec 8} {dev : BitVec 7}
    {r8 : BitVec 8} {ptr : BitVec 16} {tail : List Act} {m : Nat} (r : Ready s) (f : BusFree s)
    (hraced : s.raced = false) (hw : work s = w) (hpos : w.pos = ⟨u, 0⟩)
    (hp : prog[u.toNat]? = some (xReadRegWith u dev r8 [.storeIf false ptr] ++ tail)) :
    RunsTo prog (ticksRead + 1 + m) m s (fun es t => ∃ a₀ a₁ a₂ v,
      let l := [(addrByte dev false, a₀), (r8, a₁)]
      let rd := (addrByte dev true, a₂)
      es = readTrace l rd v s.cfg.readNack ∧ work t = { w with
        pos := nextPos (21 + tail.length) ⟨u, 20⟩, out := ackOutcome (!readOk l rd), wcol := false,
        val := if readOk l rd then v else w.val, res := { w.res with stopi := true },
        mem := if readOk l rd && !storesAfterStop s then writeCell w.mem (bufAddr ptr w.idx).toNat v
          else w.mem }) := by
  obtain ⟨-, -, -, -, -, -, -, -, -, -, -, -, c12, c13⟩ := actOf_readHead hp
  obtain ⟨c15, c16, c17, c18, c19, c20⟩ := actOf_readEnd hp
  have c14 : actOf prog ⟨u, 14⟩ = some (.storeIf false ptr, 21 + tail.length) := by
    rw [xReadRegWith_eq] at hp
    rw [actOf_step hp]
    simp [readHead, readEnd]
    omega
  simp only [List.length_singleton] at c12 c13 c15 c16 c17 c18 c19 c20
  have n12 : nextPos (21 + tail.length) ⟨u, 12⟩ = ⟨u, 13⟩ := nextPos_lt (by omega)
  have n13 : nextPos (21 + tail.length) ⟨u, 13⟩ = ⟨u, 14⟩ := nextPos_lt (by omega)
  have n14 : nextPos (21 + tail.length) ⟨u, 14⟩ = ⟨u, 15⟩ := nextPos_lt (by omega)
  have h := runs_readAddress (mid := [.storeIf false ptr]) (tail := tail) (c := 45) (m := m)
    (rest := (if s.cfg.readNack then [.Ak true] else []) ++ [.P])
    (G := fun v w' => { w' with
      pos := nextPos (21 + tail.length) ⟨u, 20⟩, wcol := false, val := v,
      res := { w'.res with stopi := true },
      mem := if !storesAfterStop s then writeCell w'.mem (bufAddr ptr w'.idx).toNat v else w'.mem })
    r f hw hpos hp (by omega)
    (fun t w' rt hw' hp' => runs_close rt hw' hp' (by simp; omega) c18 c19 c20)
    (by
      intro t w' es rt e hw' hp'
      rw [show 45 + m = 28 + (1 + (16 + m)) by omega]
      refine (runs_rx rt hw' (hp' ▸ c12) (by rw [hp', n12]; exact c13)).bind rt ?_
      rintro _ t8 r8 e8 ⟨v, rfl, w8⟩
      rw [hp', n12, n13] at w8
      have hp8 : pos t8 = ⟨u, 14⟩ := congrArg Work.pos w8
      have hcfg : t8.cfg = s.cfg := e8.cfg.trans e.cfg
      have hlate : storesAfterStop t8 = storesAfterStop s := by rw [storesAfterStop, hcfg]; rfl
      have hr8 : t8.raced = false := e8.raced.trans (e.raced.trans hraced)
      obtain ⟨t9, ht9, e9, w9⟩ := storeIf_effect (n := 21 + tail.length) false ptr hr8
      rw [hp8, n14, hlate] at w9
      refine (runs_local r8 w8 c14 ht9 e9).bind r8 ?_
      rintro _ _ r9 e9 ⟨rfl, rfl⟩
      refine (runs_endRead r9 w9 rfl (by omega) c15 c16 c17 c18 c19 c20).mono ?_
      rintro _ t - ⟨rfl, w10⟩
      refine ⟨v, by rw [e9.cfg, hcfg]; rfl, ?_⟩
      rw [w10, w8]
      cases storesAfterStop s <;> rfl)
  rw [show ticksRead + 1 + m = 133 + (45 + m) by simp [ticksRead]; omega]
  refine h.mono ?_
  rintro _ t - ⟨a₀, a₁, a₂, v, rfl, ht, hf⟩
  refine ⟨a₀, a₁, a₂, v, ?_, ?_⟩
  · cases a₀ <;> cases a₁ <;> cases a₂ <;> rfl
  · cases hr : readOk [(addrByte dev false, a₀), (r8, a₁)] (addrByte dev true, a₂)
    · rw [hf hr]; rfl
    · rw [ht hr]; rfl

/-! From a run to a command. -/

/-- What a run leaves of its inputs are some of the last of them. -/
theorem runTicks_inputs (prog : List Step) (ins : List Input) (s : State) :
    ∃ n, (runTicks prog ins s).inputs = ins.drop n := by
  induction ins generalizing s with
  | nil => exact ⟨0, rfl⟩
  | cons i ins ih =>
    cases i with
    | drive d =>
      cases hb : s.seq.busy
      · exact ⟨0, by simp [runTicks, hb]⟩
      · obtain ⟨n, hn⟩ := ih (tick prog d s)
        exact ⟨n + 1, by simpa [runTicks, hb] using hn⟩
    | _ => exact ⟨0, rfl⟩

/-- A command that is accepted is the run of its micro-program (R120). -/
theorem exec_of_accepts {i : Instr} {s : State} (h : accepts i s) :
    exec i s = .next (runTicks (program i) s.inputs (acceptCommand (encode i) s)) := by
  obtain ⟨h1, h0, h2, h3, h4, h5, h6, h7, h8⟩ := h
  cases i <;>
    simp only [exec, execWaitIdle, execStart, execRestart, execStop, execWriteByte, execReadByte,
      execSendAck, execSendNotAck, execAckStatus, execWriteRegister, execReadRegister,
      execWriteRegisterWide, execWriteBitField, execReadBitField, execWriteSingleBit, execReadSingleBit,
      execWriteBytes, execReadBytes, execLdWrite, execLdRead, execLdPageWrite, execLdSequentialRead,
      issue, gate, program, h0, h1, h2, h3, h4, h5, h6, h7, h8] <;> rfl

/-- A command just accepted is ready to run, and what its run has to go by is `s` itself (R120). -/
theorem ready_of_accepts {i : Instr} {s : State} (h : accepts i s) :
    Ready (acceptCommand (encode i) s) ∧ (s.seq.bstate = .idle → BusFree (acceptCommand (encode i) s)) := by
  obtain ⟨-, -, -, -, h4, h5, -⟩ := h
  simp only [launchOk, Bool.and_eq_true, Bool.not_eq_true', decide_eq_true_eq] at h4
  obtain ⟨⟨⟨⟨⟨⟨g1, g2⟩, g3⟩, g4⟩, g5⟩, -⟩, g7⟩ := h4
  refine ⟨⟨rfl, h5, g5, g4, g1, g2, g3⟩, fun hb => ?_⟩
  rw [if_pos hb] at g7
  simp only [Bool.and_eq_true, Bool.not_eq_true'] at g7
  exact ⟨g7.1.1, g7.1.2⟩

/-- `done` (R121): the command completes. -/
theorem reach_done {prog : List Step} {s : State} {n m : Nat} (r : Ready s)
    (ha : actOf prog (pos s) = some (.done, n)) :
    Reach prog (m + 1) m s (fun t => t = completeCommand s) :=
  reach_act r ha rfl

/-- A command that is accepted, whose run comes to its `done` within the ticks that are served, answers the
next state that `done` makes there, but for the inputs left over (R121). -/
theorem exec_of_runs {i : Instr} {s : State} {n m : Nat} {P : List Event → State → Prop}
    (h : accepts i s) (hs : served i s) (hn : n ≤ tickBound i)
    (hr : RunsTo (program i) n (m + 1) (acceptCommand (encode i) s) P)
    (hd : ∀ es t, P es t → ∃ k, actOf (program i) (pos t) = some (.done, k)) :
    ∃ es t k, BusEffect (acceptCommand (encode i) s) es t ∧ P es t ∧
      exec i s = .next { completeCommand t with inputs := s.inputs.drop k } := by
  obtain ⟨ds, rest, hin, hsv⟩ := hs
  obtain ⟨ds', t, ⟨es, he, hp⟩, hsv', hrun⟩ := hr ds (serves_mono hsv hn)
  obtain ⟨j, hj⟩ := hd es t hp
  obtain ⟨ds'', t', rfl, -, hrun'⟩ := reach_done (he.ready (ready_of_accepts h).1) hj ds' hsv'
  have hrun2 := (hrun rest).trans (hrun' rest)
  obtain ⟨k, hk⟩ := runTicks_inputs (program i) s.inputs (acceptCommand (encode i) s)
  refine ⟨es, t, k, he, hp, ?_⟩
  rw [exec_of_accepts h, ← hk]
  congr 1
  rw [hin]
  simp only [runDrives] at hrun2
  rw [hrun2, runTicks_idle rfl]

/-- What a command leaves when it completes, from what its run leaves (R121). -/
theorem completed_of_effect {i : Instr} {s t : State} {es : List Event} {r : Res} {idled : Bool} {k : Nat}
    (e : BusEffect (acceptCommand (encode i) s) es t) (hb : t.eng.eop = .none)
    (hr : { t.res with outcome := t.seq.out, valid := true } = r)
    (hw : t.stat.wcol = (!idled && s.stat.wcol)) :
    completed i s es r idled { completeCommand t with inputs := s.inputs.drop k } := by
  subst hr
  exact ⟨e.trace, rfl, e.view, e.ctrl, e.tbf, e.trun, hw, e.bcol, e.quiet, hb, e.phase, rfl, e.cw, rfl,
    e.fatal, e.fcode, e.cfg, e.hpRdata, e.rst, e.raced, k, rfl⟩

end Sys2Proof.Machine
end

