-- ==== Sys2Proof/Tests/Slice0.lean ====
section
/-! SUPPORT. The model's own tests: the checks of `Instr.wellFormed`, words of every command written out
from the spec's encodings, and one command or host access each on a small state. Expected values are those
of spec/30_encoding.md R125 and of the vectors of spec/95_test_vectors.md named at each test. -/

namespace Sys2Proof.Tests

open Sys2Proof.Machine

-- One theorem at a time: many kernel evaluations at once use more memory than the check allows.
set_option Elab.async false

/-! Operand checks: an ill-formed command for each, refused. -/

theorem test_wf_control_byte : (Instr.ldWrite 0xA1#8 0x05#8 0x77#8).wellFormed = false := by decide
theorem test_wf_control_byte_read : (Instr.ldRead 0xA1#8 0x05#8).wellFormed = false := by decide
theorem test_wf_length_zero : (Instr.readBitField 0x50#7 0x10#16 4#3 0#4).wellFormed = false := by
  decide
theorem test_wf_length_above : (Instr.writeBitField 0x50#7 0x10#16 4#3 6#4 1#8).wellFormed = false := by
  decide
theorem test_wf_range : (Instr.writeBytes 0x50#7 0x10#16 0xFFFF#16 2#16).wellFormed = false := by decide
theorem test_wf_range_end : (Instr.writeBytes 0x50#7 0x10#16 0xFFFF#16 1#16).wellFormed = true := by
  decide
theorem test_wf_range_page : (Instr.ldPageWrite 0xA0#8 0x00#8 0x8000#16 0x8001#16).wellFormed = false := by
  decide
theorem test_wf_sequential_zero :
    (Instr.ldSequentialRead 0xA0#8 0x00#8 0x0100#16 0#16).wellFormed = false := by decide

/-! Decoding: one word per command, written out from R101 and R109. -/

theorem test_decode_waitIdle : decode 0x0400000000000000#64 = .ok .waitIdle := by decide
theorem test_decode_start : decode 0x0800000000000000#64 = .ok .start := by decide
theorem test_decode_restart : decode 0x0C00000000000000#64 = .ok .restart := by decide
theorem test_decode_stop : decode 0x1000000000000000#64 = .ok .stop := by decide
theorem test_decode_writeByte : decode 0x1400000000A00000#64 = .ok (.writeByte 0xA0#8) := by decide
theorem test_decode_readByte : decode 0x1800000000000000#64 = .ok .readByte := by decide
theorem test_decode_sendAck : decode 0x1C00000000000000#64 = .ok .sendAck := by decide
theorem test_decode_sendNotAck : decode 0x2000000000000000#64 = .ok .sendNotAck := by decide
theorem test_decode_ackStatus : decode 0x2400000000000000#64 = .ok .ackStatus := by decide
theorem test_decode_writeRegister :
    decode 0x4050001000AB0000#64 = .ok (.writeRegister 0x50#7 0x0010#16 0xAB#8) := by decide
/-- 95 E1: device `0x7F`, register `0xFF`. -/
theorem test_decode_readRegister :
    decode 0x447F00FF00000000#64 = .ok (.readRegister 0x7F#7 0x00FF#16) := by decide
theorem test_decode_writeRegisterWide :
    decode 0x4850002012340000#64 = .ok (.writeRegisterWide 0x50#7 0x0020#16 0x1234#16) := by decide
theorem test_decode_writeBitField :
    decode 0x4C50001000020034#64 = .ok (.writeBitField 0x50#7 0x0010#16 4#3 3#4 2#8) := by decide
theorem test_decode_readBitField :
    decode 0x5050001000000034#64 = .ok (.readBitField 0x50#7 0x0010#16 4#3 3#4) := by decide
theorem test_decode_writeSingleBit :
    decode 0x5450001000010007#64 = .ok (.writeSingleBit 0x50#7 0x0010#16 7#3 1#8) := by decide
theorem test_decode_readSingleBit :
    decode 0x5850001000000007#64 = .ok (.readSingleBit 0x50#7 0x0010#16 7#3) := by decide
theorem test_decode_writeBytes :
    decode 0x6050001000020200#64 = .ok (.writeBytes 0x50#7 0x0010#16 0x0200#16 2#16) := by decide
theorem test_decode_readBytes :
    decode 0x6450001000020300#64 = .ok (.readBytes 0x50#7 0x0010#16 0x0300#16 2#16) := by decide
theorem test_decode_ldWrite :
    decode 0x68A0000500770000#64 = .ok (.ldWrite 0xA0#8 0x05#8 0x77#8) := by decide
theorem test_decode_ldRead : decode 0x6CA0000500000000#64 = .ok (.ldRead 0xA0#8 0x05#8) := by decide
theorem test_decode_ldPageWrite :
    decode 0x70A0000800040400#64 = .ok (.ldPageWrite 0xA0#8 0x08#8 0x0400#16 4#16) := by decide
theorem test_decode_ldSequentialRead :
    decode 0x74A0000000030100#64 = .ok (.ldSequentialRead 0xA0#8 0x00#8 0x0100#16 3#16) := by decide

/-- R118: the all-zero word is no command. -/
theorem test_decode_zero_word : decode 0#64 = .error .illegalOpcode := by decide
/-- R117: bit 55 of a register-addressed command is no operand bit. -/
theorem test_decode_bit55 : decode 0x40D0001000AB0000#64 = .error .illegalOperand := by decide
/-- R117: bit 3 of `AUX` of a bit-field command. -/
theorem test_decode_aux_bit3 : decode 0x505000100000003C#64 = .error .illegalOperand := by decide
/-- R114: bit 48 of a low-density command. -/
theorem test_decode_bit48 : decode 0x68A1000500770000#64 = .error .illegalOperand := by decide

/-! States and environments. -/

/-- The booted state `B0` of spec/95_test_vectors.md. -/
def booted : State := { State.reset with ctrl := { State.reset.ctrl with moden := true } }

/-- An open transaction: `BSTATE = b`, parked drivers (R148), `ACKPEND`. -/
def inTransaction (b : Bstate) (ackpend : Bool) : State :=
  { booted with
    seq := { booted.seq with bstate := b }
    eng := { booted.eng with
      sdaLow := decide (b = .start) || decide (b = .restart), sclLow := true, ackpend := ackpend } }

def quiet (n : Nat) : List Drive := List.replicate n ⟨false, false⟩
/-- The drives of one `TX` whose byte meets the acknowledge level `a` (R153). -/
def txDrives (a : Bool) : List Drive := quiet 36 ++ [⟨!a, false⟩] ++ quiet 2
/-- The drives of one `RX` that gets `v` (R154). -/
def rxDrives (v : BitVec 8) : List Drive := quiet 1 ++ receiveDrives v ++ quiet 1
/-- A register write: three bytes sent. -/
def writeDrives (a b c : Bool) : List Drive :=
  quiet 7 ++ txDrives a ++ txDrives b ++ txDrives c ++ quiet 8
/-- A register read of `v`, everything acknowledged, without `READ_NACK`. -/
def readDrives (v : BitVec 8) : List Drive :=
  quiet 7 ++ txDrives false ++ txDrives false ++ quiet 9 ++ txDrives false ++ rxDrives v ++ quiet 9

def withDrives (ds : List Drive) (s : State) : State := { s with inputs := ds.map Input.drive }

/-- The state after a command; the state before it if the command does not answer a next state. -/
def after (i : Instr) (s : State) : State :=
  match exec i s with
  | .next t => t
  | .fault _ => s
  | .refused _ => s

/-- Does the command answer a next state? -/
def answers (i : Instr) (s : State) : Bool :=
  match exec i s with
  | .next _ => true
  | .fault _ => false
  | .refused _ => false

theorem exec_after {i : Instr} {s : State} (h : answers i s = true) : exec i s = .next (after i s) := by
  unfold answers at h
  unfold after
  split at h <;> simp_all

/-- `RES` and the trace, as the vectors show them. -/
def shown (i : Instr) (ds : List Drive) (s : State) : BitVec 32 × List Event :=
  (resWord (after i (withDrives ds s)).res, (after i (withDrives ds s)).trace)

/-! Commands, one or two vectors each. -/

/-- R185, example. -/
theorem test_waitIdle :
    let s := { inTransaction .dataPhase false with
      stat := { State.reset.stat with wcol := true }, inputs := (quiet 2).map Input.drive }
    resWord (after .waitIdle s).res = 0x00000010#32 ∧ (after .waitIdle s).stat.wcol = false ∧
      (after .waitIdle s).seq.bstate = .dataPhase := by decide

/-- R186, example. -/
theorem test_start : shown .start (quiet 7) booted = (0x00000010#32, [.S]) := by decide
theorem test_start_seqstat : seqstatWord (after .start (withDrives (quiet 7) booted)).seq = 0x20#8 := by
  decide

/-- R187: `Sr`, and `BSTATE = Restart`. -/
theorem test_restart :
    shown .restart (quiet 9) (inTransaction .dataPhase false) = (0x00000010#32, [.Sr]) := by decide

/-- R188, example. -/
theorem test_stop : shown .stop (quiet 8) (inTransaction .start false) = (0x00000018#32, [.P]) := by
  decide
/-- R188: legal with a received byte not yet acknowledged; afterwards idle and released. -/
theorem test_stop_abort :
    let t := after .stop (withDrives (quiet 8) (inTransaction .dataPhase true))
    t.seq.bstate = .idle ∧ t.eng.sdaLow = false ∧ t.eng.sclLow = false ∧ t.eng.ackpend = false := by
  decide

/-- R204, example with the slave present. -/
theorem test_writeByte_acknowledged :
    shown (.writeByte 0xA0#8) (txDrives false ++ quiet 1) (inTransaction .start false) =
      (0x00000010#32, [.Tx 0xA0#8 false]) := by decide +kernel
/-- R204, example with no slave. -/
theorem test_writeByte_refused :
    shown (.writeByte 0xA0#8) (txDrives true ++ quiet 1) (inTransaction .start false) =
      (0x00000012#32, [.Tx 0xA0#8 true]) := by decide +kernel

/-- R205, example. -/
theorem test_readByte :
    shown .readByte (rxDrives 0x5A#8 ++ quiet 2) (inTransaction .addressPhase false) =
      (0x00005A10#32, [.Rx 0x5A#8]) := by decide +kernel
/-- 95 V-T4 with the command already running: a byte finishes reception while `RBF = 1` (R154). -/
theorem test_readByte_overflow :
    let s := { inTransaction .addressPhase false with
      rxb := 0x11#8, known := { State.reset.known with rxb := true }
      stat := { State.reset.stat with rbf := true } }
    let t := runTicks progReadByte ((rxDrives 0x22#8 ++ quiet 2).map .drive)
      (acceptCommand (encode .readByte) s)
    resWord t.res = 0x00001110#32 ∧ t.trace = [.Rx 0x22#8] ∧ t.rxb = 0x11#8 := by decide +kernel
/-- 93 U13: the launch state of V-T4 itself is outside R61 (`RBF = 1`) and refused. -/
theorem test_readByte_refused :
    let s := { inTransaction .addressPhase false with stat := { State.reset.stat with rbf := true } }
    exec .readByte s = .refused .notLaunchState := rfl

/-- R206, example. -/
theorem test_sendAck :
    shown .sendAck (quiet 8) (inTransaction .dataPhase true) = (0x00000010#32, [.Ak false]) := by decide
/-- R207: `ACKDT` stays 1 afterwards. -/
theorem test_sendNotAck :
    shown .sendNotAck (quiet 8) (inTransaction .dataPhase true) = (0x00000010#32, [.Ak true]) ∧
      (after .sendNotAck (withDrives (quiet 8) (inTransaction .dataPhase true))).ctrl.ackdt = true := by
  decide

/-- R266, example: acknowledged. -/
theorem test_ackStatus_acknowledged :
    let s := { booted with known := { State.reset.known with ackstat := true } }
    shown .ackStatus (quiet 2) s = (0x00000110#32, []) := by decide
/-- R266, example: not acknowledged. -/
theorem test_ackStatus_refused :
    let s := { booted with
      known := { State.reset.known with ackstat := true }
      stat := { State.reset.stat with ackstat := true } }
    shown .ackStatus (quiet 2) s = (0x00000010#32, []) := by decide

/-- R223, example. -/
theorem test_writeRegister :
    shown (.writeRegister 0x50#7 0x0010#16 0xAB#8) (writeDrives false false false ++ quiet 1) booted =
      (0x00000018#32, [.S, .Tx 0xA0#8 false, .Tx 0x10#8 false, .Tx 0xAB#8 false, .P]) := by
  decide +kernel
/-- 95 V-R1: the register byte is not acknowledged. -/
theorem test_writeRegister_refused :
    shown (.writeRegister 0x50#7 0x0010#16 0xAB#8)
        (quiet 7 ++ txDrives false ++ txDrives true ++ quiet 9) booted =
      (0x0000001A#32, [.S, .Tx 0xA0#8 false, .Tx 0x10#8 true, .P]) := by decide +kernel

/-- R225, example. -/
theorem test_readRegister :
    shown (.readRegister 0x50#7 0x0010#16) (readDrives 0xAB#8 ++ quiet 3) booted =
      (0x0000AB18#32, [.S, .Tx 0xA0#8 false, .Tx 0x10#8 false, .Sr, .Tx 0xA1#8 false, .Rx 0xAB#8, .P]) :=
  by decide +kernel
/-- 95 V-R1: the read address is not acknowledged, `DATA = 0x00`. -/
theorem test_readRegister_refused :
    shown (.readRegister 0x50#7 0x0010#16)
        (quiet 7 ++ txDrives false ++ txDrives false ++ quiet 9 ++ txDrives true ++ quiet 11) booted =
      (0x0000001A#32, [.S, .Tx 0xA0#8 false, .Tx 0x10#8 false, .Sr, .Tx 0xA1#8 true, .P]) := by
  decide +kernel

/-- R227: the high byte first, and `reg[7:0] = 0xFF` wraps to register `0x00`. -/
theorem test_writeRegisterWide_wraps :
    shown (.writeRegisterWide 0x50#7 0x12FF#16 0x1234#16)
        (writeDrives false false false ++ quiet 1 ++ writeDrives false false false ++ quiet 1) booted =
      (0x00000018#32, [.S, .Tx 0xA0#8 false, .Tx 0xFF#8 false, .Tx 0x12#8 false, .P,
        .S, .Tx 0xA0#8 false, .Tx 0x00#8 false, .Tx 0x34#8 false, .P]) := by decide +kernel

/-- R230, example: `0xAF` becomes `0xAB`. -/
theorem test_writeBitField :
    shown (.writeBitField 0x50#7 0x0010#16 4#3 3#4 2#8)
        (readDrives 0xAF#8 ++ quiet 3 ++ writeDrives false false false ++ quiet 1) booted =
      (0x00000018#32, [.S, .Tx 0xA0#8 false, .Tx 0x10#8 false, .Sr, .Tx 0xA1#8 false, .Rx 0xAF#8, .P,
        .S, .Tx 0xA0#8 false, .Tx 0x10#8 false, .Tx 0xAB#8 false, .P]) := by decide +kernel

/-- R232, example. -/
theorem test_readBitField :
    (shown (.readBitField 0x50#7 0x0010#16 4#3 3#4) (readDrives 0xAB#8 ++ quiet 4) booted).1 =
      0x00000218#32 := by decide +kernel

/-- R234, example: `0x2B` becomes `0xAB`; bits 7:1 of the value are ignored. -/
theorem test_writeSingleBit :
    shown (.writeSingleBit 0x50#7 0x0010#16 7#3 0xFF#8)
        (readDrives 0x2B#8 ++ quiet 3 ++ writeDrives false false false ++ quiet 1) booted =
      (0x00000018#32, [.S, .Tx 0xA0#8 false, .Tx 0x10#8 false, .Sr, .Tx 0xA1#8 false, .Rx 0x2B#8, .P,
        .S, .Tx 0xA0#8 false, .Tx 0x10#8 false, .Tx 0xAB#8 false, .P]) := by decide +kernel

/-- R235, example. -/
theorem test_readSingleBit :
    (shown (.readSingleBit 0x50#7 0x0010#16 7#3) (readDrives 0xAB#8 ++ quiet 4) booted).1 =
      0x00000118#32 := by decide +kernel

/-- R251, example. -/
theorem test_writeBytes :
    shown (.writeBytes 0x50#7 0x0010#16 0x0200#16 2#16)
        (quiet 2 ++ writeDrives false false false ++ quiet 5 ++ writeDrives false false false ++ quiet 5)
        { booted with mem := [(0x0200, 0x11#8), (0x0201, 0x22#8)] } =
      (0x00020018#32, [.S, .Tx 0xA0#8 false, .Tx 0x10#8 false, .Tx 0x11#8 false, .P,
        .S, .Tx 0xA0#8 false, .Tx 0x10#8 false, .Tx 0x22#8 false, .P]) := by decide +kernel
/-- R251: `LEN = 0` does nothing at all. -/
theorem test_writeBytes_none :
    shown (.writeBytes 0x50#7 0x0010#16 0x0200#16 0#16) (quiet 2) booted = (0x00000010#32, []) := by
  decide

/-- The booted state with `readBytes` storing where R253 prints it (true) or where R84 says (false). -/
def storing (late : Bool) : State := { booted with cfg := { booted.cfg with storeAfterStop := some late } }

/-- R253, example, at both places of the store; the result from reset, where the place is open. -/
theorem test_readBytes :
    let t := fun s => after (.readBytes 0x50#7 0x0010#16 0x0300#16 2#16) (withDrives
      (quiet 1 ++ readDrives 0x22#8 ++ quiet 7 ++ readDrives 0x22#8 ++ quiet 8) s)
    resWord (t booted).res = 0x00020018#32 ∧
      ∀ late, (t (storing late)).mem = [(0x0300, 0x22#8), (0x0301, 0x22#8)] := by decide +kernel
/-- In the STOP that follows the reception the byte is in the buffer at R84's place, and not yet at R253's. -/
theorem test_readBytes_order :
    let i : Instr := .readBytes 0x50#7 0x0010#16 0x0300#16 1#16
    let ds := quiet 8 ++ txDrives false ++ txDrives false ++ quiet 9 ++ txDrives false ++
      rxDrives 0x22#8 ++ quiet 2
    let t := fun late => after i (withDrives ds (storing late))
    (t false).mem = [(0x0300, 0x22#8)] ∧ (t false).trace.count .P = 0 ∧ (t true).mem = [] := by
  decide +kernel

/-- R258, example. -/
theorem test_ldWrite :
    shown (.ldWrite 0xA0#8 0x05#8 0x77#8) (writeDrives false false false ++ quiet 1) booted =
      (0x00000018#32, [.S, .Tx 0xA0#8 false, .Tx 0x05#8 false, .Tx 0x77#8 false, .P]) := by
  decide +kernel

/-- R260, example. -/
theorem test_ldRead :
    shown (.ldRead 0xA0#8 0x05#8)
        (quiet 7 ++ txDrives false ++ txDrives false ++ quiet 9 ++ txDrives false ++ rxDrives 0x77#8 ++
          quiet 17) booted =
      (0x00007718#32, [.S, .Tx 0xA0#8 false, .Tx 0x05#8 false, .Sr, .Tx 0xA1#8 false, .Rx 0x77#8,
        .Ak true, .P]) := by decide +kernel

/-- R262: two bytes, the second not acknowledged: `COUNT = 1`. -/
theorem test_ldPageWrite_refused :
    shown (.ldPageWrite 0xA0#8 0x08#8 0x0400#16 2#16)
        (quiet 7 ++ txDrives false ++ txDrives false ++ quiet 2 ++ txDrives false ++ quiet 5 ++
          txDrives true ++ quiet 9)
        { booted with mem := [(0x0400, 0xDE#8), (0x0401, 0xAD#8)] } =
      (0x0001001A#32, [.S, .Tx 0xA0#8 false, .Tx 0x08#8 false, .Tx 0xDE#8 false, .Tx 0xAD#8 true, .P]) :=
  by decide +kernel

/-- R264, R265: two bytes; the acknowledge, then the not-acknowledge. -/
theorem test_ldSequentialRead :
    let t := after (.ldSequentialRead 0xA0#8 0x00#8 0x0100#16 2#16) (withDrives
      (quiet 7 ++ txDrives false ++ txDrives false ++ quiet 9 ++ txDrives false ++
        rxDrives 0x10#8 ++ quiet 12 ++ rxDrives 0x20#8 ++ quiet 20) booted)
    resWord t.res = 0x00020018#32 ∧ t.mem = [(0x0100, 0x10#8), (0x0101, 0x20#8)] ∧
      t.trace = [.S, .Tx 0xA0#8 false, .Tx 0x00#8 false, .Sr, .Tx 0xA1#8 false, .Rx 0x10#8, .Ak false,
        .Rx 0x20#8, .Ak true, .P] := by decide +kernel
/-- R264: a `BCOL` left over aborts the read after its first byte. -/
theorem test_ldSequentialRead_collision :
    shown (.ldSequentialRead 0xA0#8 0x00#8 0x0100#16 2#16)
        (quiet 7 ++ txDrives false ++ txDrives false ++ quiet 9 ++ txDrives false ++ rxDrives 0x10#8 ++
          quiet 12) { booted with stat := { State.reset.stat with bcol := true } } =
      (0x0001001B#32, [.S, .Tx 0xA0#8 false, .Tx 0x00#8 false, .Sr, .Tx 0xA1#8 false, .Rx 0x10#8,
        .P]) := by decide +kernel

/-! Witnesses: for every claim of Sys2Proof/Certificates/Slice0/Obligations.lean with hypotheses, a state and
operands that meet all of them, clause by clause. -/

theorem test_hyp_EncodeThenDecode :
    (Instr.ldSequentialRead 0xFE#8 0xFF#8 0xFFFF#16 1#16).wellFormed = true := by decide

/-- The opcodes where the ranges of R118 meet the map. -/
theorem test_hyp_IllegalOpcodes :
    (∀ op ∈ [0x00#6, 0x0A#6, 0x0F#6, 0x17#6, 0x1E#6, 0x3F#6],
      decode (pack op 0#8 0#16 0#16 0#16) = .error .illegalOpcode) ∧
    (∀ op ∈ [0x01#6, 0x09#6, 0x10#6, 0x16#6, 0x18#6, 0x1D#6],
      decode (pack op 0#8 0#16 0#16 0#16) ≠ .error .illegalOpcode) ∧ launchOk booted = true := by
  decide

theorem test_hyp_NonOperandBitsIllegal :
    ∃ r, rowOf (opField 0x40D0001000AB0000#64) = some r ∧ r.mask.getLsbD 55 = true ∧
      r.pattern.getLsbD 55 = false ∧ (0x40D0001000AB0000#64).getLsbD 55 = true := by
  refine ⟨_, rfl, ?_⟩; decide

theorem test_hyp_FieldLaws :
    fieldOk 0#3 1#4 = true ∧ fieldOk 4#3 3#4 = true ∧ fieldOk 7#3 8#4 = true ∧ fieldOk 7#3 1#4 = true := by
  decide

theorem test_hyp_launch : launch booted ∧ booted.ctrl.moden = true := by
  unfold launch; decide

/-- `start` accepted, no drive yet: the state a command in progress is in. -/
def running : State := after .start booted

theorem test_hyp_RunningCommandGoesOn :
    running.seq.busy = true ∧ running.rst = false ∧ running.cfg.timeout = none ∧ decode running.seq.cw = .ok .start ∧
      runningOk .start running = true ∧ running.inputs = [] ∧
      (runTicks progStart ((quiet 2).map .drive) running).seq.busy = true := by decide

theorem test_hyp_ResetStep :
    let s := { running with inputs := [.rst] }
    s.cfg.timeout = none ∧ s.inputs = [.rst] := by decide

/-- `rst` held and then released, with the host writing in between: the write is ignored (R310). -/
def held : State :=
  { State.reset with rst := true, inputs := [.hostWrite 0#3 0x40#64, .drive ⟨true, true⟩, .rstRelease] }

theorem test_hyp_ResetStep_held :
    held.cfg.timeout = none ∧ held.rst = true ∧ (∀ rest, held.inputs ≠ .rst :: rest) ∧
      step held = .next { held with inputs := [.drive ⟨true, true⟩, .rstRelease] } ∧
      step { held with inputs := [.rstRelease] } = .next { State.reset with inputs := [] } :=
  ⟨rfl, rfl, by intro rest h; simp [held] at h, rfl, rfl⟩

/-- Every kind of access at the head of the inputs, and a word that decodes. -/
theorem test_hyp_StepRunsDecodedCommand :
    let s := fun i => { booted with inputs := [i] }
    decode 0x0800000000000000#64 = .ok .start ∧
    (∀ i ∈ ([.hostWrite 4#3 0x0800000000000000#64, .hostWrite 7#3 0#64, .hostRead 1#3,
      .bufWrite 0x0200#16 0x11#8, .bufRead 0x0200#16] : List Input),
      (s i).cfg.timeout = none ∧ (s i).inputs = i :: []) := by decide

/-- A fatal fault with a transaction open, and the next inputs no reset. -/
theorem test_hyp_Fatal :
    let s := { raiseFatal .badPort (inTransaction .dataPhase false) with
      inputs := [.hostWrite 0#3 0#64, .drive ⟨true, false⟩] }
    s.seq.fatal = true ∧ s.seq.busy = false ∧ s.cfg.timeout = none ∧
      (∀ rest, s.inputs ≠ .rst :: rest) ∧ ∃ t, step s = .next t :=
  ⟨rfl, rfl, rfl, by intro rest h; simp at h, _, rfl⟩

/-- No fault latched, and the next input no host write. -/
theorem test_hyp_FatalIsLatched_quiet :
    let s := { running with inputs := [.drive ⟨false, false⟩] }
    s.seq.fatal = false ∧ (∀ idx v rest, s.inputs ≠ .hostWrite idx v :: rest) ∧ ∃ t, step s = .next t :=
  ⟨rfl, by intro idx v rest h; simp at h, _, rfl⟩

/-- `rst` released (also for `HostReads`, `CtrlWrite`, `StatWrite`), and asserted. -/
theorem test_hyp_BadPort :
    booted.rst = false ∧ booted.seq.fatal = false ∧ booted.seq.busy = false ∧ held.rst = true := by decide

theorem test_hyp_Reentry :
    running.rst = false ∧ running.seq.busy = true ∧ running.seq.fatal = false := by decide

/-- One state for each check of acceptance, the first that fails deciding. -/
theorem test_hyp_AcceptanceInOrder :
    (launchOk State.reset = true ∧ State.reset.ctrl.moden = false) ∧
    rowOf (opField 0#64) = none ∧
    (∃ r, rowOf (opField 0x40D0001000AB0000#64) = some r ∧ 0x40D0001000AB0000#64 &&& r.mask ≠ r.pattern) ∧
    (decode 0x5050001000000000#64 = .ok (.readBitField 0x50#7 0x10#16 0#3 0#4) ∧
      (Instr.readBitField 0x50#7 0x10#16 0#3 0#4).wellFormed = false) ∧
    (let s := { booted with cfg := { Config.default with bufValid := [(0, 0x200)] } }
     let i : Instr := .writeBytes 0x50#7 0x10#16 0x01FF#16 2#16
     decode (encode i) = .ok i ∧ i.wellFormed = true ∧ bufferOk i s = false) ∧
    (decode 0x0C00000000000000#64 = .ok .restart ∧ preOk .restart booted = false) ∧
    (preOk .start booted = true ∧ bufferOk .start booted = true ∧ booted.inputs = []) := by
  refine ⟨by decide, by decide, ⟨_, rfl, by decide⟩, by decide, by decide, by decide, by decide⟩

/-- The range check at its edges: one byte too long; the last admitted byte; the byte after it. -/
theorem test_hyp_BufferRangeChecked :
    let s := { booted with cfg := { Config.default with bufValid := [(0x0100, 0x100)] } }
    burstRange (.writeBytes 0x50#7 0x10#16 0xFFFF#16 2#16) = some (0xFFFF#16, 2#16) ∧
    0xFFFF + 2 > 65536 ∧
    admitted s.cfg.bufValid 0x0100 = true ∧ admitted s.cfg.bufValid 0x01FF = true ∧
    admitted s.cfg.bufValid 0x0200 = false ∧ admitted s.cfg.bufValid 0x00FF = false ∧
    (Instr.writeBytes 0x50#7 0x10#16 0x01FF#16 2#16).wellFormed = true ∧
    bufferOk (.writeBytes 0x50#7 0x10#16 0xFFFF#16 0#16) s = true := by decide

theorem test_hyp_OperandValuesRefused :
    (0#4).toNat = 0 ∧ (4#3).toNat + 1 < (6#4).toNat ∧ (0xA1#8).getLsbD 0 = true := by decide

/-- For each row of the legality table a launch state outside it. -/
theorem test_hyp_SequenceFaults :
    launchOk (inTransaction .start false) = true ∧ launchOk (inTransaction .restart false) = true ∧
    launchOk (inTransaction .addressPhase false) = true ∧
    launchOk (inTransaction .dataPhase false) = true ∧ launchOk (inTransaction .dataPhase true) = true ∧
    (inTransaction .dataPhase true).eng.ackpend = true ∧ composite (.ldRead 0xA0#8 0x05#8) = true ∧
    (Instr.ldRead 0xA0#8 0x05#8).wellFormed = true ∧ bufferOk (.ldRead 0xA0#8 0x05#8) booted = true := by
  decide

theorem test_hyp_TimeoutRefused :
    ({ booted with cfg := { Config.default with timeout := some 0 } } : State).cfg.timeout = some 0 := rfl

/-- The range of a running burst at its edges; a burst that fills its buffer, raced and not. -/
theorem test_hyp_HostBufferAccess :
    let s := after (.writeBytes 0x50#7 0x10#16 0x0200#16 2#16) booted
    let u := after (.readBytes 0x50#7 0x10#16 0x0200#16 2#16) booted
    inRunningBurst 0x01FF#16 s = false ∧ inRunningBurst 0x0200#16 s = true ∧
    inRunningBurst 0x0201#16 s = true ∧ inRunningBurst 0x0202#16 s = false ∧
    fillsBuffer s = false ∧ s.raced = false ∧ memWf s.mem = true ∧
    (hostBufWrite 0x0200#16 0x11#8 s).raced = true ∧
    inRunningBurst 0x0200#16 u = true ∧ fillsBuffer u = true := by decide

/-- An engine operation at a phase. -/
def atPhase (o : Eop) (p : Phase) : State :=
  { running with eng := { running.eng with eop := o, phase := p, sclLow := true } }

/-- `GenStart` at its first phase, the lines released. -/
def starting : State := { running with eng := { running.eng with eop := .genStart, phase := .s1 } }

theorem test_hyp_ClockStretchWait :
    (∀ pq ∈ sclWaits, (atPhase (phaseOp pq.1) pq.1).eng.eop = phaseOp pq.1) ∧
    (∀ pq ∈ sclWaits, (atPhase (phaseOp pq.1) pq.1).ctrl.moden = true) := by decide

/-- Each sample point, a collision there, and a byte whose bit is 0; T10, T11 and Vb. -/
theorem test_hyp_SdaSamples :
    samplePoint (atPhase .genRestart .r3) = true ∧ samplePoint (atPhase .genStop .p4) = true ∧
    samplePoint { atPhase .transmit .tc with eng := { (atPhase .transmit .tc).eng with sr := 0x80#8 } } =
      true ∧
    samplePoint (atPhase .transmit .tc) = false ∧
    samplePoint { atPhase .ackSeq .a2 with ctrl := { booted.ctrl with ackdt := true } } = true ∧
    (enginePhase ⟨true, false⟩ (atPhase .genRestart .r3)).stat.bcol = true ∧
    (enginePhase ⟨false, false⟩ (atPhase .transmit .t10)).stat.ackstat = true ∧
    phaseOp .t10 = .transmit ∧ phaseOp .t11 = .transmit ∧
    (enginePhase ⟨false, false⟩ (atPhase .receive .vb)).eng.sr = 0x01#8 ∧
    (∀ p ∈ ([.r3, .p4, .tc, .a2, .t10, .t11, .vb] : List Phase),
      phaseOp (atPhase (phaseOp p) p).eng.phase = (atPhase (phaseOp p) p).eng.eop) ∧
    (atPhase .transmit .t10).ctrl.moden = true := by decide

/-- Bit 7 and bit 0 of a byte on the wire, its acknowledge slot, and the acknowledge sequence. -/
theorem test_hyp_SdaOfTransfers :
    let s := atPhase .transmit .t0
    s.seq.busy = true ∧ s.ctrl.moden = true ∧
    (engineRun (quiet 2) s).eng.phase = .tb ∧ (engineRun (quiet 2) s).eng.bitcnt = 0#4 ∧
    (engineRun (quiet 30) s).eng.phase = .tb ∧ (engineRun (quiet 30) s).eng.bitcnt = 7#4 ∧
    (engineRun (quiet 35) s).eng.phase = .t10 ∧
    (atPhase .receive .v0).seq.busy = true ∧ (atPhase .receive .v0).eng.eop = .receive ∧
    (atPhase .ackSeq .a0).seq.busy = true ∧ (engineRun (quiet 1) (atPhase .ackSeq .a0)).eng.phase = .a1 ∧
    (engineRun (quiet 3) (atPhase .ackSeq .a0)).eng.phase = .a3 := by decide

/-- Every operation comes to its end under a quiet environment. -/
theorem test_hyp_WireRefinesEvents :
    ((engineRun (quiet 40) starting).eng.eop = .none ∧ starting.eng.sdaLow = false ∧
     starting.eng.sclLow = false ∧ starting.seq.busy = true ∧ starting.ctrl.moden = true) ∧
    (engineRun (quiet 40) (atPhase .genRestart .r1)).eng.eop = .none ∧
    (engineRun (quiet 40) (atPhase .genStop .p1)).eng.eop = .none ∧
    (engineRun (quiet 40) (atPhase .transmit .t0)).eng.eop = .none ∧
    (engineRun (quiet 40) (atPhase .receive .v0)).eng.eop = .none ∧
    (engineRun (quiet 40) (atPhase .ackSeq .a0)).eng.eop = .none := by decide +kernel

theorem test_hyp_EndlessWait :
    (∀ pq ∈ sclWaits, (atPhase (phaseOp pq.1) pq.1).eng.eop =
      phaseOp (atPhase (phaseOp pq.1) pq.1).eng.phase) ∧
    (atPhase .genStart .s1).eng.eop = phaseOp .s1 ∧ (atPhase .genStart .s1).seq.busy = true ∧
    (∀ d ∈ ([⟨true, true⟩, ⟨false, true⟩] : List Drive), d.sclLow = true) ∧
    (∀ d ∈ ([⟨true, false⟩, ⟨false, true⟩] : List Drive), d.sdaLow = true ∨ d.sclLow = true) := by
  decide

/-- Drives that serve a command give `served`. -/
theorem served_of {i : Instr} {s : State} {ds : List Drive}
    (h : serves (program i) ds (tickBound i) (acceptCommand (encode i) (withDrives ds s)) = true) :
    served i (withDrives ds s) :=
  ⟨ds, [], by simp [withDrives], h⟩

theorem test_hyp_waitIdle : let s := withDrives (quiet 2) booted
    accepts .waitIdle s ∧ served .waitIdle s :=
  ⟨by unfold accepts; decide, served_of (by decide)⟩

theorem test_hyp_start : let s := withDrives (quiet 7) booted
    accepts .start s ∧ served .start s := ⟨by unfold accepts; decide, served_of (by decide)⟩
theorem test_hyp_restart : let s := withDrives (quiet 9) (inTransaction .dataPhase false)
    accepts .restart s ∧ served .restart s := ⟨by unfold accepts; decide, served_of (by decide)⟩
theorem test_hyp_stop : let s := withDrives (quiet 8) (inTransaction .dataPhase true)
    accepts .stop s ∧ served .stop s := ⟨by unfold accepts; decide, served_of (by decide)⟩

theorem test_hyp_writeByte :
    let s := withDrives (txDrives false ++ quiet 1) (inTransaction .start false)
    accepts (.writeByte 0xA0#8) s ∧ served (.writeByte 0xA0#8) s ∧ s.stat.wcol = false :=
  ⟨by unfold accepts; decide, served_of (by decide +kernel), rfl⟩
/-- 93 U23: a launch state with `WCOL = 1`; the outcome is `WriteCollision`. -/
theorem test_hyp_writeByte_collision :
    let s := withDrives (quiet 2) { inTransaction .start false with
      stat := { State.reset.stat with wcol := true } }
    accepts (.writeByte 0xA0#8) s ∧ served (.writeByte 0xA0#8) s ∧ s.stat.wcol = true ∧
      exec (.writeByte 0xA0#8) s = .next (after (.writeByte 0xA0#8) s) ∧
      (after (.writeByte 0xA0#8) s).res.outcome = .writeCollision :=
  ⟨by unfold accepts; decide, served_of (by decide), rfl, exec_after (by decide), by decide⟩

theorem test_hyp_readByte :
    let s := withDrives (rxDrives 0x5A#8 ++ quiet 2) (inTransaction .addressPhase false)
    accepts .readByte s ∧ served .readByte s :=
  ⟨by unfold accepts; decide, served_of (by decide +kernel)⟩
theorem test_hyp_sendAck : let s := withDrives (quiet 8) (inTransaction .dataPhase true)
    accepts .sendAck s ∧ served .sendAck s := ⟨by unfold accepts; decide, served_of (by decide)⟩
theorem test_hyp_sendNotAck : let s := withDrives (quiet 8) (inTransaction .dataPhase true)
    accepts .sendNotAck s ∧ served .sendNotAck s := ⟨by unfold accepts; decide, served_of (by decide)⟩
theorem test_hyp_ackStatus : let s := withDrives (quiet 2) booted
    accepts .ackStatus s ∧ served .ackStatus s := ⟨by unfold accepts; decide, served_of (by decide)⟩

theorem test_hyp_writeRegister : let i : Instr := .writeRegister 0x50#7 0x0010#16 0xAB#8
    let s := withDrives (writeDrives false false false ++ quiet 1) booted
    accepts i s ∧ served i s := ⟨by unfold accepts; decide, served_of (by decide +kernel)⟩
theorem test_hyp_readRegister : let i : Instr := .readRegister 0x50#7 0x0010#16
    let s := withDrives (readDrives 0xAB#8 ++ quiet 3) booted
    accepts i s ∧ served i s := ⟨by unfold accepts; decide, served_of (by decide +kernel)⟩
theorem test_hyp_writeRegisterWide : let i : Instr := .writeRegisterWide 0x50#7 0x12FF#16 0x1234#16
    let s := withDrives
      (writeDrives false false false ++ quiet 1 ++ writeDrives false false false ++ quiet 1) booted
    accepts i s ∧ served i s := ⟨by unfold accepts; decide, served_of (by decide +kernel)⟩
theorem test_hyp_writeBitField : let i : Instr := .writeBitField 0x50#7 0x0010#16 4#3 3#4 2#8
    let s := withDrives
      (readDrives 0xAF#8 ++ quiet 3 ++ writeDrives false false false ++ quiet 1) booted
    accepts i s ∧ served i s := ⟨by unfold accepts; decide, served_of (by decide +kernel)⟩
theorem test_hyp_writeSingleBit : let i : Instr := .writeSingleBit 0x50#7 0x0010#16 7#3 1#8
    let s := withDrives
      (readDrives 0x2B#8 ++ quiet 3 ++ writeDrives false false false ++ quiet 1) booted
    accepts i s ∧ served i s := ⟨by unfold accepts; decide, served_of (by decide +kernel)⟩
theorem test_hyp_readBitField : let i : Instr := .readBitField 0x50#7 0x0010#16 4#3 3#4
    let s := withDrives (readDrives 0xAB#8 ++ quiet 4) booted
    accepts i s ∧ served i s := ⟨by unfold accepts; decide, served_of (by decide +kernel)⟩
theorem test_hyp_readSingleBit : let i : Instr := .readSingleBit 0x50#7 0x0010#16 0#3
    let s := withDrives (readDrives 0xAB#8 ++ quiet 4) booted
    accepts i s ∧ served i s := ⟨by unfold accepts; decide, served_of (by decide +kernel)⟩
/-- `LEN = 1`, and `LEN = 0`. -/
theorem test_hyp_writeBytes : let i : Instr := .writeBytes 0x50#7 0x0010#16 0xFFFF#16 1#16
    let s := withDrives (quiet 2 ++ writeDrives false false false ++ quiet 5) booted
    let j : Instr := .writeBytes 0x50#7 0x0010#16 0xFFFF#16 0#16
    (accepts i s ∧ served i s) ∧ (accepts j s ∧ served j s) :=
  ⟨⟨by unfold accepts; decide, served_of (by decide +kernel)⟩,
   by unfold accepts; decide, served_of (by decide +kernel)⟩
theorem test_hyp_readBytes : let i : Instr := .readBytes 0x50#7 0x0010#16 0xFFFF#16 1#16
    let s := withDrives (quiet 1 ++ readDrives 0x22#8 ++ quiet 8) booted
    let s' := withDrives (quiet 1 ++ readDrives 0x22#8 ++ quiet 8) (storing true)
    (accepts i s ∧ served i s ∧ memWf s.mem = true) ∧ (accepts i s' ∧ served i s') :=
  ⟨⟨by unfold accepts; decide, served_of (by decide +kernel), rfl⟩,
   by unfold accepts; decide, served_of (by decide +kernel)⟩
theorem test_hyp_ldWrite : let i : Instr := .ldWrite 0xA0#8 0x05#8 0x77#8
    let s := withDrives (writeDrives false false false ++ quiet 1) booted
    accepts i s ∧ served i s := ⟨by unfold accepts; decide, served_of (by decide +kernel)⟩
theorem test_hyp_ldRead : let i : Instr := .ldRead 0xA0#8 0x05#8
    let s := withDrives (quiet 7 ++ txDrives false ++ txDrives false ++ quiet 9 ++ txDrives false ++
      rxDrives 0x77#8 ++ quiet 17) booted
    accepts i s ∧ served i s := ⟨by unfold accepts; decide, served_of (by decide +kernel)⟩
theorem test_hyp_ldPageWrite : let i : Instr := .ldPageWrite 0xA0#8 0x08#8 0x0400#16 1#16
    let s := withDrives (quiet 7 ++ txDrives false ++ txDrives false ++ quiet 2 ++ txDrives false ++
      quiet 13) booted
    accepts i s ∧ served i s := ⟨by unfold accepts; decide, served_of (by decide +kernel)⟩

/-- The drives of a sequential read of two bytes. -/
def sequentialDrives : List Drive :=
  quiet 7 ++ txDrives false ++ txDrives false ++ quiet 9 ++ txDrives false ++
    rxDrives 0x10#8 ++ quiet 12 ++ rxDrives 0x20#8 ++ quiet 20

/-- The state at step 9, with `BCOL` as given. -/
def atStep9 (bcol : Bool) : State :=
  { booted with
    stat := { booted.stat with bcol := bcol }
    seq := { booted.seq with busy := true, upc := 9#8 } }

/-- Every clause is reached: the test of step 9 both ways, the whole read, and the abort after the first byte on a
`BCOL` left over. -/
theorem test_hyp_ldSequentialRead :
    let i : Instr := .ldSequentialRead 0xA0#8 0x00#8 0x0100#16 2#16
    let s := withDrives sequentialDrives booted
    let s' := withDrives sequentialDrives { booted with stat := { State.reset.stat with bcol := true } }
    (accepts i s ∧ served i s ∧ memWf s.mem = true ∧ (after i s).res.outcome = .success) ∧
    (accepts i s' ∧ served i s' ∧ exec i s' = .next (after i s') ∧
      (after i s').res.outcome = .busCollision) ∧
    (tick (program i) ⟨false, false⟩ (atStep9 true)).seq.upc = 12#8 ∧
    (tick (program i) ⟨false, false⟩ (atStep9 true)).seq.out = .busCollision ∧
    (tick (program i) ⟨false, false⟩ (atStep9 false)).seq.upc = 10#8 ∧
    (atStep9 true).seq.sub = 0 ∧ (atStep9 true).eng.eop = .none :=
  ⟨⟨by unfold accepts; decide, served_of (by decide +kernel), rfl, by decide +kernel⟩,
   ⟨by unfold accepts; decide, served_of (by decide +kernel), exec_after (by decide +kernel),
    by decide +kernel⟩, by decide, by decide, by decide, rfl, rfl⟩

/-- The reference target of R90 at `0x50` with an empty memory. -/
def target : RefTarget := refTarget 0x50#7 fun _ => 0x00#8

/-- The target selected and told register `0x10`, then acknowledging a byte; and one sending `0x5A`. -/
theorem test_hyp_ReferenceTargetOnTheWire :
    let r := target.reactAll [.S, .Tx 0xA0#8 false]
    let q : RefTarget := { target with mem := fun _ => 0x5A#8, sel := .reading }
    (r.engineRun 37 (atPhase .transmit .t0)).trace = [.Tx 0x00#8 false] ∧
    (target.engineRun 37 (atPhase .transmit .t0)).trace = [.Tx 0x00#8 true] ∧
    (q.engineRun 26 (atPhase .receive .v0)).trace = [.Rx 0x5A#8] ∧
    (q.engineRun 4 starting).trace = [.S] ∧ (q.engineRun 6 (atPhase .genRestart .r1)).trace = [.Sr] ∧
    (q.engineRun 5 (atPhase .genStop .p1)).trace = [.P] ∧
    (q.engineRun 5 (atPhase .ackSeq .a0)).trace = [.Ak false] ∧
    (atPhase .ackSeq .a0).ctrl.moden = true := by decide +kernel

/-- A write and a read that the reference target answers. -/
theorem test_hyp_RegisterRoundTrip :
    let wr : Instr := .writeRegister 0x50#7 0x0010#16 0xAB#8
    let rd : Instr := .readRegister 0x50#7 0x0010#16
    let s := withDrives (writeDrives false false false ++ quiet 1) booted
    let t := after wr s
    let t' := withDrives (readDrives 0xAB#8 ++ quiet 3) t
    accepts wr s ∧ served wr s ∧ exec wr s = .next t ∧ served rd t' ∧
      exec rd t' = .next (after rd t') ∧ target.honoursAll (after rd t').trace = true :=
  ⟨by unfold accepts; decide, served_of (by decide +kernel), exec_after (by decide +kernel),
   served_of (by decide +kernel), exec_after (by decide +kernel), by decide +kernel⟩

/-- A field written and read back over a register that holds `0x00`. -/
theorem test_hyp_BitFieldRoundTrip :
    let wr : Instr := .writeBitField 0x50#7 0x0010#16 4#3 3#4 2#8
    let rd : Instr := .readBitField 0x50#7 0x0010#16 4#3 3#4
    let s := withDrives
      (readDrives 0x00#8 ++ quiet 3 ++ writeDrives false false false ++ quiet 1) booted
    let t := after wr s
    let t' := withDrives (readDrives 0x08#8 ++ quiet 4) t
    accepts wr s ∧ served wr s ∧ exec wr s = .next t ∧ served rd t' ∧
      exec rd t' = .next (after rd t') ∧ target.honoursAll (after rd t').trace = true :=
  ⟨by unfold accepts; decide, served_of (by decide +kernel), exec_after (by decide +kernel),
   served_of (by decide +kernel), exec_after (by decide +kernel), by decide +kernel⟩

/-- A bit written and read back over a register that holds `0x00`. -/
theorem test_hyp_BitFieldRoundTrip_single :
    let wr : Instr := .writeSingleBit 0x50#7 0x0010#16 7#3 0xFF#8
    let rd : Instr := .readSingleBit 0x50#7 0x0010#16 7#3
    let s := withDrives
      (readDrives 0x00#8 ++ quiet 3 ++ writeDrives false false false ++ quiet 1) booted
    let t := after wr s
    let t' := withDrives (readDrives 0x80#8 ++ quiet 4) t
    accepts wr s ∧ served wr s ∧ exec wr s = .next t ∧ served rd t' ∧
      exec rd t' = .next (after rd t') ∧ target.honoursAll (after rd t').trace = true :=
  ⟨by unfold accepts; decide, served_of (by decide +kernel), exec_after (by decide +kernel),
   served_of (by decide +kernel), exec_after (by decide +kernel), by decide +kernel⟩

/-- A burst that stores, half done, for the frames. -/
theorem test_hyp_Frames :
    let i : Instr := .readBytes 0x50#7 0x0010#16 0x0300#16 2#16
    let s := withDrives (quiet 1 ++ readDrives 0x22#8 ++ quiet 6) booted
    exec i s = .next (after i s) ∧ (after i s).seq.busy = true ∧
      burstRange i = some (0x0300#16, 2#16) ∧ storesBuffer i = true ∧ storesBuffer .start = false ∧
      exec .start booted = .next running := by
  refine ⟨exec_after (by decide +kernel), by decide +kernel, rfl, rfl, rfl, exec_after (by decide)⟩

theorem test_hyp_Inv_quiescent : Inv booted ∧ booted.seq.busy = false := by
  refine ⟨⟨by unfold engineInv; decide, fun h => absurd h (by decide), fun _ => by unfold quiescentInv; decide, by decide,
    by decide, by decide, by decide, by decide, by decide, by decide⟩, by decide⟩

/-- A START in the middle of its pattern: an engine operation under the invariant. -/
theorem test_hyp_Inv_running :
    let s := after .start (withDrives (quiet 3) booted)
    Inv s ∧ s.seq.busy = true ∧ s.eng.eop = .genStart ∧ ∃ t, step s = .next t := by
  refine ⟨⟨by unfold engineInv; decide, fun _ => ⟨.start, .holdSen, 2, by decide, by decide, by decide,
    by decide, by decide, by decide⟩, fun h => absurd h (by decide), by decide, by decide, by decide,
    by decide, by decide, by decide, by decide⟩, by decide, by decide, _, rfl⟩

theorem test_hyp_MemoryFormKept :
    let s := { booted with mem := [(0x0010, 0x01#8)], inputs := [.bufWrite 0x0010#16 0x00#8] }
    memWf s.mem = true ∧ ∃ t, step s = .next t ∧ t.mem = [] := ⟨rfl, _, rfl, by decide⟩

end Sys2Proof.Tests
end

section
/-! The scope family: `TIMEOUT` refused (spec/00_scope.md R9), a command in progress going on (R83, R329), and
the wire level against the event level (R12, R158). -/

namespace Sys2Proof.Machine

/-! `TIMEOUT` other than `none` (R9). -/

/-- Every arm of the dispatch is the acceptance of its command, with the command's micro-program. -/
theorem exec_eq_issue (i : Instr) (s : State) : exec i s = issue i (program i) s := by
  cases i <;> rfl

theorem gate_of_timeout {s : State} (go : State → Host.Outcome State Fault Refusal)
    (h : s.cfg.timeout ≠ none) : gate s go = .refused .timeoutVariant := if_pos h

theorem stepInput_of_timeout {s : State} (h : s.cfg.timeout ≠ none) :
    stepInput s = .refused .timeoutVariant := if_pos h

/-- Settles O22: the step tests `TIMEOUT` first, and so does the gate that every command is accepted through. -/
theorem timeoutRefused : Obligations.TimeoutRefused := by
  unfold Obligations.TimeoutRefused
  intro s n hn
  have h : s.cfg.timeout ≠ none := by simp [hn]
  refine ⟨stepInput_of_timeout h, fun i => ?_⟩
  calc exec i s = issue i (program i) s := exec_eq_issue i s
    _ = .refused .timeoutVariant := gate_of_timeout _ h

/-! Each engine operation, run to its end, is its event (R158). -/

section operations

variable {s : State} {ds : List Drive} (hb : s.seq.busy = true) (hm : s.ctrl.moden = true)
  (hend : (engineRun ds s).eng.eop = .none)
include hb hm hend

theorem engineRun_genStart (he : s.eng.eop = .genStart) (hp : s.eng.phase = .s1)
    (hsda : s.eng.sdaLow = false) (hscl : s.eng.sclLow = false) :
    engineRun ds s = eventGenStart s :=
  (genStart_measure s hb hm he hp hsda hscl).engineRun (fun _ h => h ▸ rfl) 4 s rfl ds hend

theorem engineRun_genRestart (he : s.eng.eop = .genRestart) (hp : s.eng.phase = .r1) :
    ∃ c, engineRun ds s = eventGenRestart c s :=
  (genRestart_measure s hb hm he hp).engineRun (fun _ ⟨_, h⟩ => h ▸ rfl) 6 s rfl ds hend

theorem engineRun_genStop (he : s.eng.eop = .genStop) (hp : s.eng.phase = .p1) :
    ∃ c, engineRun ds s = eventGenStop c s :=
  (genStop_measure s hb hm he hp).engineRun (fun _ ⟨_, h⟩ => h ▸ rfl) 5 s rfl ds hend

theorem engineRun_transmit (he : s.eng.eop = .transmit) (hp : s.eng.phase = .t0) :
    ∃ a c, sendForced s c ∧ engineRun ds s = sentByte s a c :=
  transmitAt_zero s <| (transmit_measure s hb hm he hp).engineRun
    (fun _ h => by obtain ⟨_, _, _, rfl⟩ := transmitAt_zero s h; rfl) 37 s .load ds hend

theorem engineRun_receive (he : s.eng.eop = .receive) (hp : s.eng.phase = .v0) :
    ∃ v, engineRun ds s = receivedByte s v :=
  receiveAt_zero s <| (receive_measure s hb hm he hp).engineRun
    (fun _ h => by obtain ⟨_, rfl⟩ := receiveAt_zero s h; rfl) 26 s .start ds hend

theorem engineRun_ackSeq (he : s.eng.eop = .ackSeq) (hp : s.eng.phase = .a0) :
    ∃ c, (s.ctrl.ackdt = false → c = false) ∧ engineRun ds s = eventAckSeq c s :=
  (ackSeq_measure s hb hm he hp).engineRun (fun _ ⟨_, _, h⟩ => h ▸ rfl) 5 s rfl ds hend

end operations

/-- `SR` and `BITCNT`, in which the two levels differ after a byte sent, are not seen at the event level (R159). -/
theorem eventView_sentByte (a c : Bool) (s : State) :
    eventView (sentByte s a c) = eventView (eventTransmit a c s) := rfl

theorem eventView_receivedByte (v : BitVec 8) (s : State) :
    eventView (receivedByte s v) = eventView (eventReceive v s) := rfl

/-- Settles O28: one lemma per operation says where its run ends, and the event view of that state is the event's. -/
theorem wireRefinesEvents : Obligations.WireRefinesEvents := by
  unfold Obligations.WireRefinesEvents
  intro s ds hb hm hend
  refine ⟨fun he hp hsda hscl => ?_, fun he hp => ?_, fun he hp => ?_, fun he hp => ?_,
    fun he hp => ?_, fun he hp => ?_⟩
  · exact congrArg eventView (engineRun_genStart hb hm hend he hp hsda hscl)
  · obtain ⟨c, h⟩ := engineRun_genRestart hb hm hend he hp
    exact ⟨c, congrArg eventView h⟩
  · obtain ⟨c, h⟩ := engineRun_genStop hb hm hend he hp
    exact ⟨c, congrArg eventView h⟩
  · obtain ⟨a, c, hc, h⟩ := engineRun_transmit hb hm hend he hp
    exact ⟨a, c, hc, (congrArg eventView h).trans (eventView_sentByte a c s)⟩
  · obtain ⟨v, h⟩ := engineRun_receive hb hm hend he hp
    exact ⟨v, (congrArg eventView h).trans (eventView_receivedByte v s)⟩
  · obtain ⟨c, hc, h⟩ := engineRun_ackSeq hb hm hend he hp
    exact ⟨c, hc, congrArg eventView h⟩

/-! The ticks of a running command do not look at the inputs still to come, and leave them alone. -/

/-- `s` with other inputs still to come. -/
def withInputs (ins : List Input) (s : State) : State := { s with inputs := ins }

section ticks

variable (ins : List Input) (s : State)

@[simp] theorem withInputs_eng : (withInputs ins s).eng = s.eng := rfl

theorem withInputs_ite {c : Prop} [Decidable c] (t u : State) :
    withInputs ins (if c then t else u) = if c then withInputs ins t else withInputs ins u :=
  apply_ite (withInputs ins) c t u

/-! The engine. -/

theorem withInputs_releaseScl (d : Drive) (go : Phase) :
    withInputs ins (releaseScl d go s) = releaseScl d go (withInputs ins s) :=
  withInputs_ite ins _ _

theorem withInputs_phaseGenStart (d : Drive) :
    withInputs ins (phaseGenStart d s) = phaseGenStart d (withInputs ins s) := by
  simp only [phaseGenStart, withInputs_eng]
  cases s.eng.phase with
  | s1 => exact withInputs_ite ins _ _
  | _ => rfl

theorem withInputs_phaseGenRestart (d : Drive) :
    withInputs ins (phaseGenRestart d s) = phaseGenRestart d (withInputs ins s) := by
  simp only [phaseGenRestart, withInputs_eng]
  cases s.eng.phase with
  | r2 => exact withInputs_releaseScl ins s d _
  | _ => rfl

theorem withInputs_phaseGenStop (d : Drive) :
    withInputs ins (phaseGenStop d s) = phaseGenStop d (withInputs ins s) := by
  simp only [phaseGenStop, withInputs_eng]
  cases s.eng.phase with
  | p2 => exact withInputs_releaseScl ins s d _
  | _ => rfl

theorem withInputs_phaseTransmit (d : Drive) :
    withInputs ins (phaseTransmit d s) = phaseTransmit d (withInputs ins s) := by
  simp only [phaseTransmit, withInputs_eng]
  cases s.eng.phase with
  | tb | t9 => exact withInputs_releaseScl ins s d _
  | _ => rfl

theorem withInputs_phaseReceive (d : Drive) :
    withInputs ins (phaseReceive d s) = phaseReceive d (withInputs ins s) := by
  simp only [phaseReceive, withInputs_eng]
  cases s.eng.phase with
  | va => exact withInputs_releaseScl ins s d _
  | v8 => cases h : s.stat.rbf <;> simp [withInputs, h] <;> rfl
  | _ => rfl

theorem withInputs_phaseAckSeq (d : Drive) :
    withInputs ins (phaseAckSeq d s) = phaseAckSeq d (withInputs ins s) := by
  simp only [phaseAckSeq, withInputs_eng]
  cases s.eng.phase with
  | a1 => exact withInputs_releaseScl ins s d _
  | _ => rfl

theorem withInputs_enginePhase (d : Drive) :
    withInputs ins (enginePhase d s) = enginePhase d (withInputs ins s) := by
  simp only [enginePhase, withInputs_ite, withInputs_eng]
  cases s.eng.eop with
  | none => rfl
  | genStart => simp only [withInputs_phaseGenStart]; rfl
  | genRestart => simp only [withInputs_phaseGenRestart]; rfl
  | genStop => simp only [withInputs_phaseGenStop]; rfl
  | transmit => simp only [withInputs_phaseTransmit]; rfl
  | receive => simp only [withInputs_phaseReceive]; rfl
  | ackSeq => simp only [withInputs_phaseAckSeq]; rfl

/-! The sequencer. -/

theorem withInputs_goNext (n : Nat) : withInputs ins (goNext n s) = goNext n (withInputs ins s) :=
  withInputs_ite ins _ _

theorem withInputs_loadTxb (b : BitVec 8) :
    withInputs ins (loadTxb b s) = loadTxb b (withInputs ins s) :=
  withInputs_ite ins _ _

theorem withInputs_loadByte (ptr : BitVec 16) :
    withInputs ins (loadByte ptr s) = loadByte ptr (withInputs ins s) :=
  withInputs_ite ins _ _

theorem withInputs_storeByte (ptr : BitVec 16) :
    withInputs ins (storeByte ptr s) = storeByte ptr (withInputs ins s) :=
  withInputs_ite ins _ _

theorem withInputs_storeIf (late : Bool) (ptr : BitVec 16) :
    withInputs ins (storeIf late ptr s) = storeIf late ptr (withInputs ins s) := by
  simp only [storeIf, ← withInputs_storeByte]; rfl

theorem withInputs_actLoad (n : Nat) (b : ByteSrc) (fail : Pos) :
    withInputs ins (actLoad n b fail s) = actLoad n b fail (withInputs ins s) := by
  have hb : srcByte b (withInputs ins s) = srcByte b s := by cases b <;> rfl
  simp only [actLoad, hb, ← withInputs_loadTxb, ← withInputs_goNext, withInputs_ite]; rfl

theorem withInputs_runAct (a : Act) (n : Nat) :
    withInputs ins (runAct a n s) = runAct a n (withInputs ins s) := by
  cases a with
  | setSen | setRsen | setPen | setRcen | setAck _ | countByte => exact withInputs_goNext ins _ n
  | load b fail => exact withInputs_actLoad ins s n b fail
  | readBuf ptr => simp only [runAct, withInputs_goNext, withInputs_loadByte]
  | writeBuf ptr => simp only [runAct, withInputs_goNext, withInputs_storeByte]
  | storeIf late ptr => simp only [runAct, withInputs_goNext, withInputs_storeIf]
  | _ =>
    simp only [runAct, actWIdle, actHoldPen, actHoldTx, actHoldRcen, actDataFromAckstat,
      withInputs_ite, withInputs_goNext]
    rfl

theorem withInputs_seqTick (prog : List Step) :
    withInputs ins (seqTick prog s) = seqTick prog (withInputs ins s) := by
  have ha : actAt prog (withInputs ins s) = actAt prog s := rfl
  simp only [seqTick, ha]
  split
  · rfl
  · exact withInputs_runAct ins s _ _

theorem withInputs_tick (prog : List Step) (d : Drive) :
    withInputs ins (tick prog d s) = tick prog d (withInputs ins s) := by
  rw [tick, withInputs_ite, withInputs_seqTick, withInputs_enginePhase]
  rfl

end ticks

/-! Runs and their cuts (R83, R329). -/

theorem runTicks_drive {prog : List Step} {d : Drive} {ins : List Input} {s : State}
    (hb : s.seq.busy = true) :
    runTicks prog (.drive d :: ins) s = runTicks prog ins (tick prog d s) := if_pos hb

/-- A run goes by the inputs it is given, not by those the state holds. -/
theorem runTicks_withInputs (prog : List Step) (ins ins' : List Input) (s : State) :
    runTicks prog ins (withInputs ins' s) = runTicks prog ins s := by
  induction ins generalizing s with
  | nil => rfl
  | cons i ins ih =>
    cases i with
    | drive d =>
      cases hb : s.seq.busy with
      | false => exact (runTicks_idle (s := withInputs ins' s) hb).trans (runTicks_idle hb).symm
      | true =>
        calc runTicks prog (.drive d :: ins) (withInputs ins' s)
          _ = runTicks prog ins (tick prog d (withInputs ins' s)) := runTicks_drive hb
          _ = runTicks prog ins (tick prog d s) := by rw [← withInputs_tick, ih]
          _ = runTicks prog (.drive d :: ins) s := (runTicks_drive hb).symm
    | _ => rfl

/-- A run under drives that leaves the command in progress has taken them all, so it may be cut after them. -/
theorem runTicks_append {prog : List Step} {ds : List Drive} {rest : List Input} {s : State}
    (h : (runTicks prog (ds.map .drive) s).seq.busy = true) :
    runTicks prog (ds.map .drive ++ rest) s = runTicks prog rest (runTicks prog (ds.map .drive) s) := by
  induction ds generalizing s with
  | nil => exact (runTicks_withInputs prog rest [] s).symm
  | cons d ds ih =>
    cases hb : s.seq.busy with
    | false => rw [runTicks_idle hb] at h; exact absurd (hb.symm.trans h) Bool.false_ne_true
    | true =>
      simp only [List.map_cons, List.cons_append, runTicks_drive hb] at h ⊢
      exact ih h

theorem resume_of_runningOk {i : Instr} {ins : List Input} {s : State} (hd : decode s.seq.cw = .ok i)
    (hr : runningOk i s = true) : resume ins s = .next (runTicks (program i) ins s) := by
  simp only [resume, hd, if_pos hr]

section steps

variable {i : Instr} {s : State} (ht : s.cfg.timeout = none) (hrst : s.rst = false)
  (hb : s.seq.busy = true) (hd : decode s.seq.cw = .ok i) (hr : runningOk i s = true)
include ht hrst hb hd hr

/-- With a drive listed, a step runs the command under all the drives that come next. -/
theorem step_running_drive {d : Drive} {rest : List Input} (hin : s.inputs = .drive d :: rest) :
    step s = .next (runTicks (program i) s.inputs s) := by
  have hstep : step s = resume s.inputs s := by simp [step, stepInput, ht, hrst, hb, hin]
  rw [hstep, resume_of_runningOk hd hr]

/-- With nothing listed, a step runs the command for one tick under free drives. -/
theorem step_running_free (hin : s.inputs = []) :
    step s = .next (withInputs [] (tick (program i) (freeDrive s) (drawn s))) := by
  have hstep : step s = resume [.drive (freeDrive s)] (drawn s) := by
    simp [step, stepInput, ht, hrst, hb, hin]
  have hbd : (drawn s).seq.busy = true := hb
  rw [hstep, resume_of_runningOk (s := drawn s) hd hr, runTicks_drive hbd]
  rfl

end steps

/-- Settles O9: a step is one run from the state it finds, and a run may be cut after any of its drives. -/
theorem runningCommandGoesOn : Obligations.RunningCommandGoesOn := by
  unfold Obligations.RunningCommandGoesOn
  refine ⟨fun i s ht hrst hb hd hr => ⟨fun d rest hin => ?_, fun hin => ?_⟩, fun prog ds rest s h => ?_⟩
  · exact step_running_drive ht hrst hb hd hr hin
  · exact step_running_free ht hrst hb hd hr hin
  · exact runTicks_append h

end Sys2Proof.Machine
end

section
/-! SUPPORT. How a micro-program moves from action to action: what an action starts, where it leaves the
sequencer, and the `BSTATE` and `ACKPEND` its successors find (spec/10_state.md R45, R47; spec/40_bus_engine.md R149).
That every micro-program flows is one test per command. -/

namespace Sys2Proof.Machine

/-- The engine operation an action starts (R149): none for an action that only works on the sequencer. -/
def opens : Act → Eop
  | .setSen => .genStart
  | .setRsen => .genRestart
  | .setPen => .genStop
  | .load _ _ => .transmit
  | .setRcen => .receive
  | .setAck _ => .ackSeq
  | _ => .none

/-- `BSTATE` after an action (R45). -/
def bstateAfterAct : Act → Bstate → Bstate
  | .setSen, _ => .start
  | .setRsen, _ => .restart
  | .setPen, _ => .stop
  | .load _ _, b => bstateAfterLoad b
  | .setRcen, _ => .dataPhase
  | _, b => b

/-- The `BSTATE` values an action may find between engine operations (R45). -/
def legalFrom : Act → Bstate → Bool
  | .setSen, b => b == .idle
  | .setRsen, b => b == .dataPhase
  | .setPen, b => b != .idle
  | .load _ _, b => b != .idle
  | .setRcen, b => b == .addressPhase || b == .dataPhase
  | .setAck _, b => b == .dataPhase
  | _, _ => true

/-- Where an action that does not hold may leave the sequencer: nowhere if it completes the command. -/
def successors (n : Nat) (p : Pos) : Act → List Pos
  | .holdTx fail => [nextPos n p, fail]
  | .unlessReadNack dest | .ifFailed dest | .ifIdxIsLen _ dest | .unlessIdxBelowLen _ dest
  | .ifBcol dest => [nextPos n p, dest]
  | .goto dest => [dest]
  | .done => []
  | _ => [nextPos n p]

/-- The pairs of `pairsAt`, from the list and the position. -/
def pairsOf (prs : List (List BusPairs)) (p : Pos) : BusPairs :=
  match prs[p.upc.toNat]? with
  | none => []
  | some l =>
    match l[p.sub]? with
    | none => []
    | some ps => ps

/-- `ACKPEND` is what the action expects of it once its operation is over (R47). -/
def ackpendFits (a : Act) (k : Bool) : Bool :=
  match ackpendHeld a with
  | none => true
  | some b => k == b

/-- A running command may be at `p`, with the operation `o` just started, in `BSTATE` and `ACKPEND` `x`. -/
def mayEnter (prog : List Step) (prs : List (List BusPairs)) (o : Eop) (x : Bstate × Bool) (p : Pos) :
    Bool :=
  match actOf prog p with
  | none => false
  | some (a, _) => (pairsOf prs p).contains x &&
      (if o = .none then ackpendFits a x.2 else holdsFor a == o)

/-- What holding leaves of `BSTATE` and `ACKPEND` when the operation is over (R45, R47). -/
def pairAfterOp : Eop → Bstate × Bool → Bstate × Bool
  | .none, x => x
  | .genStart, x => (x.1, false)
  | .genRestart, x => (x.1, false)
  | .genStop, _ => (.idle, false)
  | .transmit, x => x
  | .receive, x => (x.1, true)
  | .ackSeq, x => (x.1, false)

/-- The pairs at an action are closed under the end of the operation it holds for, and from each of them the action is
legal and leads to a position that may be entered. -/
def actFlows (prog : List Step) (prs : List (List BusPairs)) (p : Pos) (a : Act) (n : Nat) : Bool :=
  (pairsOf prs p).all fun x =>
    (pairsOf prs p).contains (pairAfterOp (holdsFor a) x) &&
    (x.1 == .stop || !ackpendFits a x.2 ||
      (legalFrom a x.1 && (a != .done || pQuiescent.contains x) &&
        (successors n p a).all (mayEnter prog prs (opens a) (bstateAfterAct a x.1, x.2))))

/-- Every action of a micro-program flows into its successors. -/
def flows (prog : List Step) (prs : List (List BusPairs)) : Bool :=
  (List.range prog.length).all fun u => (List.range (prog[u]?.getD []).length).all fun k =>
    match actOf prog ⟨BitVec.ofNat 8 u, k⟩ with
    | none => true
    | some (a, n) => actFlows prog prs ⟨BitVec.ofNat 8 u, k⟩ a n

end Sys2Proof.Machine
end

section
/-! SUPPORT. Every micro-program flows. -/

namespace Sys2Proof.Machine

/-- Every action of every micro-program flows into its successors, whatever the operands are. -/
theorem flows_program (i : Instr) : flows (program i) (pairs i) = true := by
  cases i <;>
    simp only [program, progReadRegister, progWriteRegister, progWriteRegisterWide, progWriteBytes,
      progWriteBitField, progReadBitField, progWriteSingleBit, progReadSingleBit, progWriteField, progReadField,
      progReadBytes, xReadReg, xReadRegWith, List.length_nil, List.length_singleton, xWriteReg, cStart, cStop,
      cRestart, tx, rx, ack, List.cons_append, List.nil_append, Nat.add_zero, Nat.reduceAdd]
  case writeRegisterWide =>
    generalize highByte _ = b0, lowByte _ = b1, regNext8 _ = b2, reg8 _ = b3, addrByte _ _ = b4
    cbv
  all_goals cbv

end Sys2Proof.Machine
end

section
/-! SUPPORT. What one phase of an engine operation in progress can do (R150 to R155): the operation goes on, or
it is over. -/

namespace Sys2Proof.Machine

theorem releaseScl_eq (d : Drive) (go : Phase) (s : State) : releaseScl d go s =
    { s with eng := { s.eng with sclLow := false, phase := if d.sclLow then s.eng.phase else go } } := by
  cases h : d.sclLow <;> simp [releaseScl, setScl, toPhase, sclIn, h]

/-- The START conditions of the trace that no STOP has closed are those `BSTATE` and `PHASE` say are open (R62). -/
def balanced (s : State) : Prop := s.trace.count .S = s.trace.count .P + openStarts s

/-- The pending bits and `TRUN` say which operation is in progress (R46, R60). -/
def pendingFits (s : State) : Prop :=
  s.ctrl.sen = decide (s.eng.eop = .genStart) ∧
  s.ctrl.rsen = decide (s.eng.eop = .genRestart) ∧
  s.ctrl.pen = decide (s.eng.eop = .genStop) ∧
  s.ctrl.rcen = decide (s.eng.eop = .receive) ∧
  s.ctrl.acken = decide (s.eng.eop = .ackSeq) ∧
  s.stat.trun = decide (s.eng.eop = .transmit)

/-- So does `BSTATE` (R45). -/
def opFits (s : State) : Prop := pendingFits s ∧ opBstate s.eng.eop s.seq.bstate = true

/-- `PHASE` is a phase of the operation in progress, and `TBF`, the drivers and `BITCNT` fit it (R150 to R155). -/
def phaseFits (s : State) : Prop :=
  phaseOp s.eng.phase = s.eng.eop ∧ s.stat.tbf = tbfPhase s.eng.phase ∧ phaseOk s.eng = true ∧
  (s.eng.phase = .a1 ∨ s.eng.phase = .a2 ∨ s.eng.phase = .a3 → s.eng.sdaLow = !s.ctrl.ackdt)

/-- A phase of an operation that is not its last. -/
structure OpGoesOn (s t : State) : Prop where
  eop : t.eng.eop = s.eng.eop
  ctrl : t.ctrl = s.ctrl
  trun : t.stat.trun = s.stat.trun
  rbf : t.stat.rbf = s.stat.rbf
  bstate : t.seq.bstate = s.seq.bstate
  ackpend : t.eng.ackpend = s.eng.ackpend
  fits : phaseFits t
  balance : balanced t

/-- The last phase of an operation. -/
structure OpEnds (s t : State) : Prop where
  eop : t.eng.eop = .none
  phase : t.eng.phase = .none
  pending : anyPending t.ctrl = false
  trun : t.stat.trun = false
  tbf : t.stat.tbf = false
  rbf : t.stat.rbf = (s.stat.rbf || s.eng.eop == .receive)
  pair : (t.seq.bstate, t.eng.ackpend) = pairAfterOp s.eng.eop (s.seq.bstate, s.eng.ackpend)
  parked : parked t.seq.bstate t.eng = true
  balance : balanced t

theorem bitcnt_succ_lt {b : BitVec 4} (h : b.toNat < 8) (hn : b + 1#4 ≠ 8#4) : (b + 1#4).toNat < 8 := by
  bv_omega

section phases

variable {s : State} (d : Drive) (h : opFits s) (hf : phaseFits s) (hb : balanced s)
include h hf hb

theorem phaseGenStart_cases (ho : s.eng.eop = .genStart) :
    OpGoesOn s (phaseGenStart d s) ∨ OpEnds s (phaseGenStart d s) := by
  obtain ⟨hph, htbf, hok, -⟩ := hf
  simp [opFits, pendingFits, ho, opBstate] at h
  rw [ho] at hph
  unfold balanced openStarts at hb
  cases hp : s.eng.phase <;> simp only [hp, phaseOp, reduceCtorEq] at hph <;>
    simp [hp, h, phaseOk, tbfPhase] at hok htbf hb <;> simp only [phaseGenStart, hp]
  case s1 =>
    refine .inl ?_
    split <;> constructor <;>
      simp [*, phaseFits, phaseOp, phaseOk, tbfPhase, balanced, openStarts]
  case s4 =>
    refine .inr ?_
    constructor <;> simp [*, anyPending, pairAfterOp, parked, balanced, openStarts]
  all_goals
    refine .inl ?_
    constructor <;> simp [*, phaseFits, phaseOp, phaseOk, tbfPhase, balanced, openStarts]

theorem phaseGenRestart_cases (ho : s.eng.eop = .genRestart) :
    OpGoesOn s (phaseGenRestart d s) ∨ OpEnds s (phaseGenRestart d s) := by
  obtain ⟨hph, htbf, hok, -⟩ := hf
  simp [opFits, pendingFits, ho, opBstate] at h
  rw [ho] at hph
  unfold balanced openStarts at hb
  cases hp : s.eng.phase <;> simp only [hp, phaseOp, reduceCtorEq] at hph <;>
    simp [hp, h, phaseOk, tbfPhase] at hok htbf hb <;> simp only [phaseGenRestart, hp]
  case r2 =>
    refine .inl ?_
    rw [releaseScl_eq]
    cases d.sclLow <;> constructor <;>
      simp [*, phaseFits, phaseOp, phaseOk, tbfPhase, balanced, openStarts]
  case r6 =>
    refine .inr ?_
    constructor <;> simp [*, anyPending, pairAfterOp, parked, balanced, openStarts]
  all_goals
    refine .inl ?_
    constructor <;> simp [*, phaseFits, phaseOp, phaseOk, tbfPhase, balanced, openStarts, monitorBcol]

theorem phaseGenStop_cases (ho : s.eng.eop = .genStop) :
    OpGoesOn s (phaseGenStop d s) ∨ OpEnds s (phaseGenStop d s) := by
  obtain ⟨hph, htbf, hok, -⟩ := hf
  simp [opFits, pendingFits, ho, opBstate] at h
  rw [ho] at hph
  unfold balanced openStarts at hb
  cases hp : s.eng.phase <;> simp only [hp, phaseOp, reduceCtorEq] at hph <;>
    simp [hp, h, phaseOk, tbfPhase] at hok htbf hb <;> simp only [phaseGenStop, hp]
  case p2 =>
    refine .inl ?_
    rw [releaseScl_eq]
    cases d.sclLow <;> constructor <;>
      simp [*, phaseFits, phaseOp, phaseOk, tbfPhase, balanced, openStarts]
  case p5 =>
    refine .inr ?_
    constructor <;> simp [*, anyPending, pairAfterOp, parked, balanced, openStarts]
  all_goals
    refine .inl ?_
    constructor <;> simp [*, phaseFits, phaseOp, phaseOk, tbfPhase, balanced, openStarts, monitorBcol]

theorem phaseTransmit_cases (ho : s.eng.eop = .transmit) :
    OpGoesOn s (phaseTransmit d s) ∨ OpEnds s (phaseTransmit d s) := by
  obtain ⟨hph, htbf, hok, -⟩ := hf
  simp [opFits, pendingFits, ho, opBstate] at h
  rw [ho] at hph
  unfold balanced openStarts at hb
  cases hp : s.eng.phase <;> simp only [hp, phaseOp, reduceCtorEq] at hph <;>
    simp [hp, phaseOk, tbfPhase] at hok htbf hb <;> simp only [phaseTransmit, hp]
  case tb | t9 =>
    refine .inl ?_
    rw [releaseScl_eq]
    cases d.sclLow <;> constructor <;>
      simp [*, phaseFits, phaseOp, phaseOk, tbfPhase, balanced, openStarts]
  case td =>
    have hlt := bitcnt_succ_lt hok.2
    refine .inl ?_
    by_cases hw : s.eng.bitcnt + 1#4 = 8#4 <;> constructor <;>
      simp_all [phaseFits, phaseOp, phaseOk, tbfPhase, balanced, openStarts]
  case t11 =>
    obtain ⟨⟨h1, h2, h3, h4, h5, -⟩, hbs⟩ := h
    refine .inr ?_
    rcases hbs with hbs | hbs <;> constructor <;>
      simp_all [anyPending, pairAfterOp, parked, balanced, openStarts]
  all_goals
    refine .inl ?_
    constructor <;> simp [*, phaseFits, phaseOp, phaseOk, tbfPhase, balanced, openStarts, monitorBcol]

theorem phaseReceive_cases (ho : s.eng.eop = .receive) :
    OpGoesOn s (phaseReceive d s) ∨ OpEnds s (phaseReceive d s) := by
  obtain ⟨hph, htbf, hok, -⟩ := hf
  simp [opFits, pendingFits, ho, opBstate] at h
  rw [ho] at hph
  unfold balanced openStarts at hb
  cases hp : s.eng.phase <;> simp only [hp, phaseOp, reduceCtorEq] at hph <;>
    simp [hp, h, phaseOk, tbfPhase] at hok htbf hb <;> simp only [phaseReceive, hp]
  case va =>
    refine .inl ?_
    rw [releaseScl_eq]
    cases d.sclLow <;> constructor <;>
      simp [*, phaseFits, phaseOp, phaseOk, tbfPhase, balanced, openStarts]
  case vc =>
    have hlt := bitcnt_succ_lt hok.2
    refine .inl ?_
    by_cases hw : s.eng.bitcnt + 1#4 = 8#4 <;> constructor <;>
      simp_all [phaseFits, phaseOp, phaseOk, tbfPhase, balanced, openStarts]
  case v8 =>
    refine .inr ?_
    cases hr : s.stat.rbf <;> constructor <;>
      simp [*, anyPending, pairAfterOp, parked, balanced, openStarts]
  all_goals
    refine .inl ?_
    constructor <;> simp [*, phaseFits, phaseOp, phaseOk, tbfPhase, balanced, openStarts]

theorem phaseAckSeq_cases (ho : s.eng.eop = .ackSeq) :
    OpGoesOn s (phaseAckSeq d s) ∨ OpEnds s (phaseAckSeq d s) := by
  obtain ⟨hph, htbf, hok, hack⟩ := hf
  simp [opFits, pendingFits, ho, opBstate] at h
  rw [ho] at hph
  unfold balanced openStarts at hb
  cases hp : s.eng.phase <;> simp only [hp, phaseOp, reduceCtorEq] at hph <;>
    simp [hp, h, phaseOk, tbfPhase] at hok htbf hb hack <;> simp only [phaseAckSeq, hp]
  case a1 =>
    refine .inl ?_
    rw [releaseScl_eq]
    cases d.sclLow <;> constructor <;>
      simp [*, phaseFits, phaseOp, phaseOk, tbfPhase, balanced, openStarts]
  case a4 =>
    refine .inr ?_
    constructor <;> simp [*, anyPending, pairAfterOp, parked, balanced, openStarts]
  all_goals
    refine .inl ?_
    constructor <;> simp [*, phaseFits, phaseOp, phaseOk, tbfPhase, balanced, openStarts, monitorBcol]

/-- What a phase of the operation in progress can do: the operation goes on, or it is over. -/
theorem enginePhase_cases (hm : s.ctrl.moden = true) (hne : s.eng.eop ≠ .none) :
    OpGoesOn s (enginePhase d s) ∨ OpEnds s (enginePhase d s) := by
  rw [enginePhase, if_pos hm]
  cases ho : s.eng.eop with
  | none => exact absurd ho hne
  | genStart => exact phaseGenStart_cases d h hf hb ho
  | genRestart => exact phaseGenRestart_cases d h hf hb ho
  | genStop => exact phaseGenStop_cases d h hf hb ho
  | transmit => exact phaseTransmit_cases d h hf hb ho
  | receive => exact phaseReceive_cases d h hf hb ho
  | ackSeq => exact phaseAckSeq_cases d h hf hb ho

end phases

end Sys2Proof.Machine
end

section
/-! SUPPORT. What one action of the sequencer does between engine operations (R60). -/

namespace Sys2Proof.Machine

/-- The first phase of an engine operation (R150 to R155). -/
def firstPhase : Eop → Phase
  | .none => .none
  | .genStart => .s1
  | .genRestart => .r1
  | .genStop => .p1
  | .transmit => .t0
  | .receive => .v0
  | .ackSeq => .a0

/-- The sequencer may act: no engine operation is in progress (R60). -/
structure Idle (s : State) : Prop where
  eop : s.eng.eop = .none
  phase : s.eng.phase = .none
  pending : anyPending s.ctrl = false
  trun : s.stat.trun = false
  tbf : s.stat.tbf = false
  wcol : s.stat.wcol = false
  rxov : s.stat.rxov = false

/-- What an action that does not complete the command does, from a state in which the sequencer may act. -/
structure ActMoves (a : Act) (n : Nat) (s t : State) : Prop where
  pos : pos t ∈ successors n (pos s) a
  bstate : t.seq.bstate = bstateAfterAct a s.seq.bstate
  eop : t.eng.eop = opens a
  phase : t.eng.phase = firstPhase (opens a)
  ackpend : t.eng.ackpend = s.eng.ackpend
  sdaLow : t.eng.sdaLow = s.eng.sdaLow
  sclLow : t.eng.sclLow = s.eng.sclLow
  pending : pendingFits t
  tbf : t.stat.tbf = decide (opens a = .transmit)
  wcol : t.stat.wcol = false
  rxov : t.stat.rxov = false
  rbf : t.stat.rbf = (s.stat.rbf && a != .holdRcen)
  moden : t.ctrl.moden = s.ctrl.moden
  trace : t.trace = s.trace
  rst : t.rst = s.rst
  busy : t.seq.busy = s.seq.busy
  cw : t.seq.cw = s.seq.cw
  out : s.seq.out ≠ .timeout → t.seq.out ≠ .timeout
  outcome : t.res.outcome = s.res.outcome


theorem runAct_moves {a : Act} {s : State} (h : Idle s) (n : Nat) (ha : a ≠ .done) :
    ActMoves a n s (runAct a n s) := by
  obtain ⟨heop, hphase, hpend, htrun, htbf, hwcol, hrxov⟩ := h
  have hrej : loadRejected s = false := by simp [loadRejected, hpend, htrun, htbf, hwcol]
  have hbusy : engineBusy s = false := by simp [engineBusy, hpend, htrun]
  simp [anyPending] at hpend
  cases a with
  | done => exact absurd rfl ha
  | holdTx fail =>
    simp only [runAct, actHoldTx, htrun]
    cases s.stat.ackstat <;> constructor <;>
      simp [*, goNext_eq, pos, bstateAfterAct, opens, firstPhase, successors, pendingFits]
  | holdRcen =>
    simp only [runAct, actHoldRcen]
    cases s.known.rxb <;> constructor <;>
      simp [*, goNext_eq, pos, bstateAfterAct, opens, firstPhase, successors, pendingFits]
  | dataFromAckstat =>
    simp only [runAct, actDataFromAckstat]
    cases s.known.ackstat <;> constructor <;>
      simp [*, goNext_eq, pos, bstateAfterAct, opens, firstPhase, successors, pendingFits]
  | unlessReadNack | ifFailed | ifIdxIsLen | unlessIdxBelowLen | ifBcol =>
    simp only [runAct]
    split <;> constructor <;>
      simp [*, goNext_eq, pos, bstateAfterAct, opens, firstPhase, successors, pendingFits]
  | readBuf ptr =>
    simp only [runAct, loadByte]
    cases s.raced <;> constructor <;>
      simp [*, goNext_eq, pos, bstateAfterAct, opens, firstPhase, successors, pendingFits]
  | writeBuf ptr =>
    simp only [runAct, storeByte]
    cases s.raced <;> constructor <;>
      simp [*, goNext_eq, pos, bstateAfterAct, opens, firstPhase, successors, pendingFits]
  | _ =>
    constructor <;>
      simp [*, runAct, actLoad, loadTxb, actWIdle, actSetSen, actSetRsen, actSetPen, actHoldPen, actSetRcen, actSetAck,
        actCountByte, storeIf, goNext_eq, pos, bstateAfterAct, opens, firstPhase, successors, pendingFits]

end Sys2Proof.Machine
end

section
/-! SUPPORT. The invariant cut into the part of the block and the part of the running micro-program, and what
the flow of the micro-program says at the sequencer's position. -/

namespace Sys2Proof.Machine

/-- The part of the invariant that does not speak of the micro-program. -/
structure BlockInv (s : State) : Prop where
  op : opFits s
  fits : phaseFits s
  parked : s.eng.eop = .none → parked s.seq.bstate s.eng = true
  wcol : s.stat.wcol = false
  rxov : s.stat.rxov = false
  balance : balanced s
  out : s.seq.out ≠ .timeout
  outcome : s.res.outcome ≠ .timeout

/-- The micro-program's part: the sequencer of command `i` is where it may be. -/
structure AtAction (i : Instr) (s : State) : Prop where
  enter : mayEnter (program i) (pairs i) s.eng.eop (s.seq.bstate, s.eng.ackpend) (pos s) = true
  rbf : s.stat.rbf = true → s.eng.eop = .none ∧ ∃ n, actOf (program i) (pos s) = some (.holdRcen, n)

theorem mayEnter_iff {prog : List Step} {prs : List (List BusPairs)} {o : Eop} {x : Bstate × Bool}
    {p : Pos} : mayEnter prog prs o x p = true ↔
      ∃ a n, actOf prog p = some (a, n) ∧ x ∈ pairsOf prs p ∧
        (o ≠ .none → holdsFor a = o) ∧ (o = .none → ackpendFits a x.2 = true) := by
  unfold mayEnter
  cases actOf prog p with
  | none => simp
  | some an => obtain ⟨a, n⟩ := an; by_cases ho : o = .none <;> simp [ho]

theorem ackpendFits_iff {a : Act} {k : Bool} :
    ackpendFits a k = true ↔ ∀ b, ackpendHeld a = some b → k = b := by
  cases a <;> simp [ackpendFits, ackpendHeld]

theorem runningInv_iff (s : State) : runningInv s ↔
    ∃ i, decode s.seq.cw = .ok i ∧ i.wellFormed = true ∧ AtAction i s := by
  constructor
  · rintro ⟨i, a, n, hd, hw, ha, ho, hp, hk, hr⟩
    rw [actAt_eq] at ha
    refine ⟨i, hd, hw, mayEnter_iff.2 ⟨a, n, ha, hp, ho, fun h => ackpendFits_iff.2 (hk h)⟩, fun h => ?_⟩
    obtain ⟨rfl, he⟩ := hr h
    exact ⟨he, n, ha⟩
  · rintro ⟨i, hd, hw, he, hr⟩
    obtain ⟨a, n, ha, hp, ho, hk⟩ := mayEnter_iff.1 he
    refine ⟨i, a, n, hd, hw, ha, ho, hp, fun h => ackpendFits_iff.1 (hk h), fun h => ?_⟩
    obtain ⟨he, m, hm⟩ := hr h
    rw [ha] at hm
    obtain ⟨rfl, -⟩ := Prod.mk.inj (Option.some.inj hm)
    exact ⟨rfl, he⟩

/-- The invariant in its two parts, and what it says beside them. -/
theorem inv_iff (s : State) : Inv s ↔ BlockInv s ∧
    (s.seq.busy = true → ∃ i, decode s.seq.cw = .ok i ∧ i.wellFormed = true ∧ AtAction i s) ∧
    (s.seq.busy = false → quiescentInv s) ∧
    (s.ctrl.moden = false → s.seq.busy = false ∧ s.seq.bstate = .idle) ∧
    (s.rst = true → s.ctrl.moden = false ∧ s.seq.fatal = false) := by
  rw [← runningInv_iff]
  constructor
  · rintro ⟨⟨hphase, hsen, hrsen, hpen, hrcen, hacken, htrun, htbf, hop, hok, hack, hpark⟩,
      hrun, hq, hwcol, hrxov, hmoden, hbal, hout, hres, hrst⟩
    exact ⟨⟨⟨⟨hsen, hrsen, hpen, hrcen, hacken, htrun⟩, hop⟩, ⟨hphase, htbf, hok, hack⟩, hpark, hwcol, hrxov, hbal,
      hout, hres⟩, hrun, hq, hmoden, hrst⟩
  · rintro ⟨⟨⟨⟨hsen, hrsen, hpen, hrcen, hacken, htrun⟩, hop⟩, ⟨hphase, htbf, hok, hack⟩, hpark, hwcol, hrxov, hbal,
      hout, hres⟩, hrun, hq, hmoden, hrst⟩
    exact ⟨⟨hphase, hsen, hrsen, hpen, hrcen, hacken, htrun, htbf, hop, hok, hack, hpark⟩,
      hrun, hq, hwcol, hrxov, hmoden, hbal, hout, hres, hrst⟩

/-- The invariant of a running block. -/
structure Running (i : Instr) (s : State) : Prop extends BlockInv s, AtAction i s where
  busy : s.seq.busy = true
  decodes : decode s.seq.cw = .ok i
  wellFormed : i.wellFormed = true
  moden : s.ctrl.moden = true
  released : s.rst = false

theorem inv_running {s : State} (h : Inv s) (hb : s.seq.busy = true) : ∃ i, Running i s := by
  obtain ⟨hblock, hrun, -, hm, hrst⟩ := (inv_iff s).1 h
  obtain ⟨i, hd, hw, ha⟩ := hrun hb
  have hmod : s.ctrl.moden = true := by
    cases hc : s.ctrl.moden
    · exact absurd (hb.symm.trans (hm hc).1) (by decide)
    · rfl
  refine ⟨i, hblock, ha, hb, hd, hw, hmod, ?_⟩
  cases hr : s.rst
  · rfl
  · exact absurd (hmod.symm.trans (hrst hr).1) (by decide)

theorem Running.inv {i : Instr} {s : State} (h : Running i s) : Inv s := by
  refine (inv_iff s).2 ⟨h.toBlockInv, fun _ => ⟨i, h.decodes, h.wellFormed, h.toAtAction⟩, ?_, ?_, ?_⟩
  · intro hb; exact absurd (h.busy.symm.trans hb) (by decide)
  · intro hm; exact absurd (h.moden.symm.trans hm) (by decide)
  · intro hr; exact absurd (h.released.symm.trans hr) (by decide)

/-! What the flow of the micro-program says at a position. -/

theorem actOf_lt {prog : List Step} {p : Pos} {a : Act} {n : Nat} (h : actOf prog p = some (a, n)) :
    p.upc.toNat < prog.length ∧ p.sub < (prog[p.upc.toNat]?.getD []).length := by
  unfold actOf at h
  split at h
  · cases h
  · rename_i st hst
    split at h
    · cases h
    · rename_i b hb
      exact ⟨(List.getElem?_eq_some_iff.1 hst).1, by simpa [hst] using (List.getElem?_eq_some_iff.1 hb).1⟩

theorem actFlows_of_flows {prog : List Step} {prs : List (List BusPairs)} (h : flows prog prs = true)
    {p : Pos} {a : Act} {n : Nat} (ha : actOf prog p = some (a, n)) : actFlows prog prs p a n = true := by
  obtain ⟨hu, hk⟩ := actOf_lt ha
  simp only [flows, List.all_eq_true, List.mem_range] at h
  simpa [ha] using h _ hu _ hk

variable {i : Instr} {s : State}

theorem Running.at_act (h : Running i s) : ∃ a n, actOf (program i) (pos s) = some (a, n) ∧
    (s.seq.bstate, s.eng.ackpend) ∈ pairsOf (pairs i) (pos s) ∧
    (s.eng.eop ≠ .none → holdsFor a = s.eng.eop) ∧ (s.eng.eop = .none → ackpendFits a s.eng.ackpend = true) :=
  mayEnter_iff.1 h.enter

/-- The pairs an action may find are closed under the end of the operation it holds for. -/
theorem pairAfterOp_mem {p : Pos} {a : Act} {n : Nat} {x : Bstate × Bool}
    (ha : actOf (program i) p = some (a, n)) (hx : x ∈ pairsOf (pairs i) p) :
    pairAfterOp (holdsFor a) x ∈ pairsOf (pairs i) p := by
  have h := actFlows_of_flows (flows_program i) ha
  simp only [actFlows, List.all_eq_true, Bool.and_eq_true, List.contains_iff_mem] at h
  exact (h x hx).1

/-- From a pair an action may find, with its operation over, the action is legal and leads where the next may begin. -/
theorem act_flow {p : Pos} {a : Act} {n : Nat} {x : Bstate × Bool}
    (ha : actOf (program i) p = some (a, n)) (hx : x ∈ pairsOf (pairs i) p) (hs : x.1 ≠ .stop)
    (hk : ackpendFits a x.2 = true) :
    legalFrom a x.1 = true ∧ (a = .done → x ∈ pQuiescent) ∧
      ∀ q ∈ successors n p a, mayEnter (program i) (pairs i) (opens a) (bstateAfterAct a x.1, x.2) q = true := by
  have h := actFlows_of_flows (flows_program i) ha
  simp only [actFlows, List.all_eq_true, Bool.and_eq_true] at h
  have h := (h x hx).2
  simp [hs, hk] at h
  obtain ⟨⟨h1, h2⟩, h3⟩ := h
  refine ⟨h1, fun hd => h2.resolve_left (fun hn => hn hd), h3⟩

theorem ackpendFits_pairAfterOp (a : Act) (x : Bstate × Bool) :
    ackpendFits a (pairAfterOp (holdsFor a) x).2 = true := by
  cases a <;> rfl

theorem eq_holdRcen {a : Act} (h : holdsFor a = .receive) : a = .holdRcen := by
  cases a with
  | holdRcen => rfl
  | _ => cases h

/-- Between engine operations the sequencer may act. -/
theorem BlockInv.idle (h : BlockInv s) (he : s.eng.eop = .none) : Idle s := by
  obtain ⟨⟨hsen, hrsen, hpen, hrcen, hacken, htrun⟩, -⟩ := h.op
  obtain ⟨hp, htbf, -⟩ := h.fits
  have hphase : s.eng.phase = .none := by
    rw [he] at hp
    cases hq : s.eng.phase <;> simp [hq, phaseOp] at hp ⊢
  constructor <;> simp_all [h.wcol, h.rxov, anyPending, tbfPhase]

end Sys2Proof.Machine
end

section
/-! SUPPORT. What the phases of the engine leave unchanged. -/

namespace Sys2Proof.Machine

/-- What no phase of the engine changes, and what only some operation's do (R36, R39, R42, R58, R59). -/
structure EngineFrame (s t : State) : Prop where
  seq : t.seq = { s.seq with bstate := t.seq.bstate }
  res : t.res = s.res
  txb : t.txb = s.txb
  cfg : t.cfg = s.cfg
  hpRdata : t.hpRdata = s.hpRdata
  rst : t.rst = s.rst
  moden : t.ctrl.moden = s.ctrl.moden
  baud : t.ctrl.baud = s.ctrl.baud
  ackdt : t.ctrl.ackdt = s.ctrl.ackdt
  wcol : t.stat.wcol = s.stat.wcol
  bcol : s.stat.bcol = true → t.stat.bcol = true
  ackstat : s.eng.eop ≠ .transmit → t.stat.ackstat = s.stat.ackstat
  received : s.eng.eop ≠ .receive → t.rxb = s.rxb ∧ t.stat.rbf = s.stat.rbf ∧ t.stat.rxov = s.stat.rxov
  rxov : s.stat.rbf = false → t.stat.rxov = s.stat.rxov
  eop : t.eng.eop = s.eng.eop ∨ t.eng.eop = .none
  trace : s.trace <+: t.trace

theorem EngineFrame.refl (s : State) : EngineFrame s s := by
  constructor <;> simp

section phases

variable (d : Drive) (s : State)

theorem phaseGenStart_frame : EngineFrame s (phaseGenStart d s) := by
  unfold phaseGenStart
  split
  case h_1 => split <;> constructor <;> simp
  all_goals constructor <;> simp

theorem phaseGenRestart_frame : EngineFrame s (phaseGenRestart d s) := by
  unfold phaseGenRestart
  split <;> constructor <;> simp +contextual [releaseScl_eq, monitorBcol]

theorem phaseGenStop_frame : EngineFrame s (phaseGenStop d s) := by
  unfold phaseGenStop
  split <;> constructor <;> simp +contextual [releaseScl_eq, monitorBcol]

theorem phaseTransmit_frame (ho : s.eng.eop = .transmit) : EngineFrame s (phaseTransmit d s) := by
  unfold phaseTransmit
  split <;> constructor <;> simp +contextual [releaseScl_eq, monitorBcol, ho]

theorem phaseReceive_frame (ho : s.eng.eop = .receive) : EngineFrame s (phaseReceive d s) := by
  unfold phaseReceive
  split
  case h_5 => cases hr : s.stat.rbf <;> constructor <;> simp [ho, hr]
  all_goals constructor <;> simp +contextual [releaseScl_eq, ho]

theorem phaseAckSeq_frame : EngineFrame s (phaseAckSeq d s) := by
  unfold phaseAckSeq
  split <;> constructor <;> simp +contextual [releaseScl_eq, monitorBcol]

theorem enginePhase_frame : EngineFrame s (enginePhase d s) := by
  unfold enginePhase
  split
  · cases ho : s.eng.eop with
    | none => exact .refl s
    | genStart => exact phaseGenStart_frame d s
    | genRestart => exact phaseGenRestart_frame d s
    | genStop => exact phaseGenStop_frame d s
    | transmit => exact phaseTransmit_frame d s ho
    | receive => exact phaseReceive_frame d s ho
    | ackSeq => exact phaseAckSeq_frame d s
  · exact .refl s

end phases

end Sys2Proof.Machine
end

section
/-! SUPPORT. A tick of the running command keeps the invariant. -/

namespace Sys2Proof.Machine

variable {i : Instr} {s : State}

theorem EngineFrame.pos {s t : State} (f : EngineFrame s t) : pos t = pos s := by
  unfold Machine.pos; rw [f.seq]

theorem EngineFrame.running {t : State} (f : EngineFrame s t) (h : Running i s) (hb : BlockInv t)
    (ha : AtAction i t) : Running i t where
  toBlockInv := hb
  toAtAction := ha
  busy := by rw [f.seq]; exact h.busy
  decodes := by rw [f.seq]; exact h.decodes
  wellFormed := h.wellFormed
  moden := f.moden.trans h.moden
  released := f.rst.trans h.released

theorem OpEnds.pendingFits {t : State} (e : OpEnds s t) : pendingFits t := by
  have hp := e.pending
  simp [anyPending] at hp
  simp [Machine.pendingFits, e.eop, e.trun, hp]

theorem OpEnds.phaseFits {t : State} (e : OpEnds s t) : phaseFits t := by
  simp [Machine.phaseFits, e.eop, e.phase, e.tbf, phaseOp, tbfPhase, phaseOk]

theorem ne_stop_of_parked {b : Bstate} {e : Engine} (h : parked b e = true) : b ≠ .stop := by
  rintro rfl; cases h

/-- A phase of the engine keeps the invariant of a running block. -/
theorem Running.enginePhase (h : Running i s) (hne : s.eng.eop ≠ .none) (d : Drive) :
    Running i (enginePhase d s) := by
  have f := enginePhase_frame d s
  obtain ⟨a, n, ha, hmem, hold, -⟩ := h.at_act
  have hrbf : s.stat.rbf = false := by
    cases hr : s.stat.rbf
    · rfl
    · exact absurd (h.rbf hr).1 hne
  have hout : (Machine.enginePhase d s).seq.out ≠ .timeout := by rw [f.seq]; exact h.out
  have houtcome : (Machine.enginePhase d s).res.outcome ≠ .timeout := by rw [f.res]; exact h.outcome
  have hwcol := f.wcol.trans h.wcol
  have hrxov := (f.rxov hrbf).trans h.rxov
  rcases enginePhase_cases d h.op h.fits h.balance h.moden hne with g | e
  · refine f.running h ⟨?_, g.fits, ?_, hwcol, hrxov, g.balance, hout, houtcome⟩ ⟨?_, ?_⟩
    · have := h.op
      simpa [opFits, pendingFits, g.eop, g.ctrl, g.trun, g.bstate] using this
    · intro he; exact absurd (g.eop.symm.trans he) hne
    · rw [g.eop, g.bstate, g.ackpend, f.pos]; exact h.enter
    · intro hr; exact absurd ((g.rbf.trans hrbf).symm.trans hr) (by decide)
  · have hx := pairAfterOp_mem ha hmem
    have hk := ackpendFits_pairAfterOp a (s.seq.bstate, s.eng.ackpend)
    rw [hold hne, ← e.pair] at hx hk
    refine f.running h ⟨⟨e.pendingFits, ?_⟩, e.phaseFits, fun _ => e.parked, hwcol, hrxov, e.balance, hout,
      houtcome⟩ ⟨?_, ?_⟩
    · simpa [e.eop, opBstate] using ne_stop_of_parked e.parked
    · rw [f.pos]
      exact mayEnter_iff.2 ⟨a, n, ha, hx, fun hne' => absurd e.eop hne', fun _ => hk⟩
    · intro hr
      rw [e.rbf, hrbf] at hr
      obtain rfl := eq_holdRcen ((hold hne).trans (by simpa using hr))
      exact ⟨e.eop, n, by rw [f.pos]; exact ha⟩

/-! The sequencer. -/

/-- The drivers between operations let the next one start. -/
theorem phaseFits_of_moves {a : Act} {n : Nat} {t : State} (m : ActMoves a n s t)
    (hl : legalFrom a s.seq.bstate = true) (hp : parked s.seq.bstate s.eng = true) : phaseFits t := by
  have hb := ne_stop_of_parked hp
  unfold phaseFits phaseOk
  rw [m.eop, m.phase, m.tbf, m.sdaLow, m.sclLow]
  cases a <;> simp [legalFrom] at hl <;> cases hs : s.seq.bstate <;>
    simp_all [opens, firstPhase, phaseOp, tbfPhase, parked]

theorem opBstate_of_legal {a : Act} {b : Bstate} (hl : legalFrom a b = true) (hb : b ≠ .stop) :
    opBstate (opens a) (bstateAfterAct a b) = true := by
  cases a <;> cases b <;> simp_all [legalFrom, opBstate, opens, bstateAfterAct, bstateAfterLoad]

theorem bstateEdge_of_legal {a : Act} {b : Bstate} (hl : legalFrom a b = true) (hb : b ≠ .stop) :
    bstateEdge b (bstateAfterAct a b) = true := by
  cases a <;> cases b <;> simp_all [legalFrom, bstateEdge, bstateAfterAct, bstateAfterLoad]

theorem bstateAfterAct_of_opens_none {a : Act} (h : opens a = .none) (b : Bstate) : bstateAfterAct a b = b := by
  cases a with
  | setSen | setRsen | setPen | load | setRcen | setAck => cases h
  | _ => rfl

theorem parked_of_moves {a : Act} {n : Nat} {t : State} (m : ActMoves a n s t)
    (hp : parked s.seq.bstate s.eng = true) (ho : t.eng.eop = .none) : parked t.seq.bstate t.eng = true := by
  rw [m.eop] at ho
  have : t.seq.bstate = s.seq.bstate := by
    rw [m.bstate]
    exact bstateAfterAct_of_opens_none ho _
  unfold parked
  rw [this, m.sdaLow, m.sclLow]
  exact hp

theorem openStarts_of_moves {a : Act} {n : Nat} {t : State} (m : ActMoves a n s t)
    (hl : legalFrom a s.seq.bstate = true) (hb : s.seq.bstate ≠ .stop) (hph : s.eng.phase = .none) :
    openStarts t = openStarts s := by
  unfold openStarts
  rw [m.bstate, m.phase, hph]
  cases a <;> cases hs : s.seq.bstate <;> simp_all [legalFrom, opens, bstateAfterAct, bstateAfterLoad, firstPhase]

/-- An action that does not complete the command keeps the invariant of a running block. -/
theorem Running.runAct (h : Running i s) (he : s.eng.eop = .none) {a : Act} {n : Nat}
    (ha : actOf (program i) (pos s) = some (a, n)) (hd : a ≠ .done) : Running i (runAct a n s) := by
  have hidle := h.idle he
  have m := runAct_moves hidle n hd
  obtain ⟨a', n', ha', hmem, -, hk⟩ := h.at_act
  obtain ⟨rfl, rfl⟩ := Prod.mk.inj (Option.some.inj (ha.symm.trans ha'))
  have hpark := h.parked he
  have hb := ne_stop_of_parked hpark
  obtain ⟨hl, -, hflow⟩ := act_flow ha hmem hb (hk he)
  have hrbf : (Machine.runAct a n s).stat.rbf = false := by
    rw [m.rbf]
    cases hr : s.stat.rbf
    · rfl
    · obtain ⟨-, k, hk⟩ := h.rbf hr
      obtain ⟨rfl, -⟩ := Prod.mk.inj (Option.some.inj (ha.symm.trans hk))
      rfl
  refine {
    op := ⟨m.pending, ?_⟩
    fits := phaseFits_of_moves m hl hpark
    parked := parked_of_moves m hpark
    wcol := m.wcol
    rxov := m.rxov
    balance := ?_
    out := m.out h.out
    outcome := ?_
    enter := ?_
    rbf := ?_
    busy := m.busy.trans h.busy
    decodes := ?_
    wellFormed := h.wellFormed
    moden := m.moden.trans h.moden
    released := m.rst.trans h.released }
  · rw [m.eop, m.bstate]; exact opBstate_of_legal hl hb
  · unfold balanced
    rw [m.trace, openStarts_of_moves m hl hb hidle.phase]
    exact h.balance
  · rw [m.outcome]; exact h.outcome
  · rw [m.eop, m.bstate, m.ackpend]; exact hflow _ m.pos
  · intro hr; exact absurd (hrbf.symm.trans hr) (by decide)
  · rw [m.cw]; exact h.decodes

/-- At `done` the command leaves a quiescent state (R61, R121). -/
theorem Running.completes (h : Running i s) (he : s.eng.eop = .none) {n : Nat}
    (ha : actOf (program i) (pos s) = some (.done, n)) : Inv (completeCommand s) := by
  obtain ⟨a', n', ha', hmem, -, hk⟩ := h.at_act
  obtain ⟨rfl, rfl⟩ := Prod.mk.inj (Option.some.inj (ha.symm.trans ha'))
  obtain ⟨-, hq, -⟩ := act_flow ha hmem (ne_stop_of_parked (h.parked he)) rfl
  have hrbf : s.stat.rbf = false := by
    cases hr : s.stat.rbf
    · rfl
    · obtain ⟨-, k, hk⟩ := h.rbf hr
      cases ha.symm.trans hk
  refine (inv_iff _).2 ⟨⟨h.op, h.fits, h.parked, h.wcol, h.rxov, h.balance, h.out, h.out⟩, ?_, ?_, ?_, ?_⟩
  · intro hb; cases hb
  · exact fun _ => ⟨he, hrbf, hq rfl⟩
  · intro hm; exact absurd (h.moden.symm.trans hm) (by decide)
  · intro hr; exact absurd (h.released.symm.trans hr) (by decide)

/-- A tick of the running command keeps the invariant, and the command runs on unless it completes. -/
theorem Running.tick (h : Running i s) (d : Drive) :
    Running i (tick (program i) d s) ∨
    ((Machine.tick (program i) d s).seq.busy = false ∧ Inv (Machine.tick (program i) d s)) := by
  unfold Machine.tick
  split
  · rename_i he
    obtain ⟨a, n, ha, -⟩ := h.at_act
    have : seqTick (program i) s = Machine.runAct a n s := by simp [seqTick, actAt_eq, ha]
    rw [this]
    by_cases hd : a = .done
    · subst hd; exact .inr ⟨rfl, h.completes he ha⟩
    · exact .inl (h.runAct he ha hd)
  · rename_i hne
    exact .inl (h.enginePhase hne d)

theorem Inv.withInputs (h : Inv s) (ins : List Input) : Inv (withInputs ins s) := h

theorem Running.runTicks (h : Running i s) (ins : List Input) : Inv (runTicks (program i) ins s) := by
  induction ins generalizing s with
  | nil => exact h.inv.withInputs _
  | cons x ins ih =>
    cases x with
    | drive d =>
      rw [runTicks_drive h.busy]
      rcases h.tick d with h' | ⟨hb, h'⟩
      · exact ih h'
      · rw [runTicks_idle hb]; exact h'.withInputs _
    | _ => exact h.inv.withInputs _

end Sys2Proof.Machine
end

section
/-! The invariant (spec/10_state.md R45, R46, R60, R61): acceptance, host accesses and reset keep it, and what it
says of quiescent and running states. Settles O55, O56, O58, O59 and O60. -/

namespace Sys2Proof.Machine

variable {i : Instr} {s t : State}

/-- The invariant speaks of these fields only. -/
theorem Inv.congr (h : Inv s) (hctrl : t.ctrl = s.ctrl) (hstat : t.stat = s.stat) (hres : t.res = s.res)
    (hseq : t.seq = s.seq) (heng : t.eng = s.eng) (htrace : t.trace = s.trace) (hrst : t.rst = s.rst) : Inv t := by
  obtain ⟨⟩ := t
  cases hctrl; cases hstat; cases hres; cases hseq; cases heng; cases htrace; cases hrst
  exact h

theorem Inv.raiseFatal (h : Inv s) (hrst : s.rst = false) (c : FatalCode) : Inv (raiseFatal c s) := by
  obtain ⟨hengine, hrun, hquiet, hwcol, hrxov, hmoden, hbal, hout, hres, -⟩ := h
  exact ⟨hengine, hrun, hquiet, hwcol, hrxov, hmoden, hbal, hout, hres,
    fun hr => absurd (hrst.symm.trans hr) (by decide)⟩

/-- What acceptance can do: nothing, a fatal fault, or what the accepted write does (R120). -/
theorem gate_next {go : State → Host.Outcome State Fault Refusal} (h : gate s go = .next t) :
    t = s ∨ (s.rst = false ∧ ∃ c, t = raiseFatal c s) ∨
      (launch s ∧ s.ctrl.moden = true ∧ go s = .next t) := by
  unfold gate at h
  split at h
  · cases h
  rename_i ht
  split at h
  · exact .inl (Host.Outcome.next.inj h).symm
  rename_i hr
  simp only [Bool.not_eq_true] at hr
  split at h
  · exact .inl (Host.Outcome.next.inj h).symm
  rename_i hf
  split at h
  · exact .inr (.inl ⟨hr, _, (Host.Outcome.next.inj h).symm⟩)
  rename_i hb
  split at h
  · cases h
  rename_i hl
  split at h
  · exact .inr (.inl ⟨hr, _, (Host.Outcome.next.inj h).symm⟩)
  rename_i hm
  simp only [Bool.not_eq_true, Bool.not_eq_true', Bool.not_eq_false] at hf hb hl hm
  exact .inr (.inr ⟨⟨not_not.1 ht, hr, hf, hb, hl⟩, hm, h⟩)

/-- What the execution of a command can do (R120). -/
theorem exec_next (h : exec i s = .next t) :
    t = s ∨ (s.rst = false ∧ ∃ c, t = raiseFatal c s) ∨
    (accepts i s ∧ t = runTicks (program i) s.inputs (acceptCommand (encode i) s)) := by
  rw [exec_eq_issue] at h
  rcases gate_next h with h | h | ⟨hl, hm, h⟩
  · exact .inl h
  · exact .inr (.inl h)
  have hr := hl.2.1
  obtain ⟨ht, hr, hf, hb, hl⟩ := hl
  split at h
  · exact .inr (.inl ⟨hr, _, (Host.Outcome.next.inj h).symm⟩)
  rename_i hw
  split at h
  · exact .inr (.inl ⟨hr, _, (Host.Outcome.next.inj h).symm⟩)
  rename_i hbuf
  split at h
  · exact .inr (.inl ⟨hr, _, (Host.Outcome.next.inj h).symm⟩)
  rename_i hp
  simp only [Bool.not_eq_true', Bool.not_eq_false] at hw hbuf hp
  exact .inr (.inr ⟨⟨ht, hr, hf, hb, hl, hm, hw, hbuf, hp⟩, (Host.Outcome.next.inj h).symm⟩)

theorem encodeRow (i : Instr) : Sys2Proof.Laws.EncodeRow.Statement i := by
  cases i with
  | waitIdle => exact Sys2Proof.Laws.EncodeRow.waitIdle
  | start => exact Sys2Proof.Laws.EncodeRow.start
  | restart => exact Sys2Proof.Laws.EncodeRow.restart
  | stop => exact Sys2Proof.Laws.EncodeRow.stop
  | writeByte b => exact Sys2Proof.Laws.EncodeRow.writeByte b
  | readByte => exact Sys2Proof.Laws.EncodeRow.readByte
  | sendAck => exact Sys2Proof.Laws.EncodeRow.sendAck
  | sendNotAck => exact Sys2Proof.Laws.EncodeRow.sendNotAck
  | ackStatus => exact Sys2Proof.Laws.EncodeRow.ackStatus
  | writeRegister dev reg data => exact Sys2Proof.Laws.EncodeRow.writeRegister dev reg data
  | readRegister dev reg => exact Sys2Proof.Laws.EncodeRow.readRegister dev reg
  | writeRegisterWide dev reg data => exact Sys2Proof.Laws.EncodeRow.writeRegisterWide dev reg data
  | writeBitField dev reg b l v => exact Sys2Proof.Laws.EncodeRow.writeBitField dev reg b l v
  | readBitField dev reg b l => exact Sys2Proof.Laws.EncodeRow.readBitField dev reg b l
  | writeSingleBit dev reg b v => exact Sys2Proof.Laws.EncodeRow.writeSingleBit dev reg b v
  | readSingleBit dev reg b => exact Sys2Proof.Laws.EncodeRow.readSingleBit dev reg b
  | writeBytes dev reg ptr len => exact Sys2Proof.Laws.EncodeRow.writeBytes dev reg ptr len
  | readBytes dev reg ptr len => exact Sys2Proof.Laws.EncodeRow.readBytes dev reg ptr len
  | ldWrite ctrl addr data => exact Sys2Proof.Laws.EncodeRow.ldWrite ctrl addr data
  | ldRead ctrl addr => exact Sys2Proof.Laws.EncodeRow.ldRead ctrl addr
  | ldPageWrite ctrl addr ptr len => exact Sys2Proof.Laws.EncodeRow.ldPageWrite ctrl addr ptr len
  | ldSequentialRead ctrl addr ptr len => exact Sys2Proof.Laws.EncodeRow.ldSequentialRead ctrl addr ptr len

/-- The word latched at acceptance decodes to the command (R101, R109, R124). -/
theorem decode_encode (hw : i.wellFormed = true) : decode (encode i) = .ok i := by
  obtain ⟨r, hr, hm, hb⟩ := encodeRow i hw
  rw [decode_of_row hr hm, hb]

/-- The legality table of R291 from `BSTATE` and `ACKPEND` alone. -/
def legalPair (i : Instr) (x : Bstate × Bool) : Bool :=
  preOk i { State.reset with
    seq := { State.reset.seq with bstate := x.1 }, eng := { State.reset.eng with ackpend := x.2 } }

theorem preOk_eq (i : Instr) (s : State) : preOk i s = legalPair i (s.seq.bstate, s.eng.ackpend) := by
  cases i <;> rfl

/-- A command may begin its micro-program in every quiescent state the legality table lets through. -/
def beginsWell (i : Instr) : Bool :=
  pQuiescent.all fun x => !legalPair i x || mayEnter (program i) (pairs i) .none x ⟨0#8, 0⟩

theorem beginsWell_all (i : Instr) : beginsWell i = true := by
  cases i <;> rfl

/-- An accepted command begins where its micro-program may be entered (R61, R120). -/
theorem Inv.accepted (h : Inv s) (ha : accepts i s) : Running i (acceptCommand (encode i) s) := by
  obtain ⟨hblock, -, hq, -, -⟩ := (inv_iff s).1 h
  obtain ⟨-, hr, -, hb, -, hm, hw, -, hp⟩ := ha
  obtain ⟨he, hrbf, hpair⟩ := hq hb
  have henter : mayEnter (program i) (pairs i) .none (s.seq.bstate, s.eng.ackpend) ⟨0#8, 0⟩ = true := by
    have := List.all_eq_true.1 (beginsWell_all i) _ hpair
    simpa [← preOk_eq, hp] using this
  refine ⟨⟨hblock.op, hblock.fits, hblock.parked, hblock.wcol, hblock.rxov, hblock.balance,
    by simp, by simp⟩, ⟨?_, ?_⟩, rfl, decode_encode hw, hw, hm, hr⟩
  · simpa [he, pos] using henter
  · intro h; exact absurd (hrbf.symm.trans h) (by decide)

theorem Inv.exec (h : Inv s) (he : exec i s = .next t) : Inv t := by
  rcases exec_next he with rfl | ⟨hr, c, rfl⟩ | ⟨ha, rfl⟩
  · exact h
  · exact h.raiseFatal hr c
  · exact (h.accepted ha).runTicks _

theorem Inv.writeCmd {w : CmdWord} (h : Inv s) (hw : writeCmd w s = .next t) : Inv t := by
  unfold Machine.writeCmd at hw
  split at hw
  · exact h.exec hw
  · rcases gate_next hw with rfl | ⟨hr, c, rfl⟩ | ⟨hl, -, hf⟩
    · exact h
    · exact h.raiseFatal hr c
    · cases hf; exact h.raiseFatal hl.2.1 _

theorem Inv.writeCtrl (h : Inv s) (hrst : s.rst = false) (hb : s.seq.busy = false) (v : BitVec 64) :
    Inv (writeCtrl v s) := by
  unfold Machine.writeCtrl
  split
  · exact h.raiseFatal hrst _
  rename_i hopen
  obtain ⟨hengine, hrun, hquiet, hwcol, hrxov, hmoden, hbal, hout, hres, -⟩ := h
  refine ⟨hengine, hrun, hquiet, hwcol, hrxov, fun hv => ⟨hb, ?_⟩, hbal, hout, hres,
    fun hr => absurd (hrst.symm.trans hr) (by decide)⟩
  cases hm : s.ctrl.moden with
  | false => exact (hmoden hm).2
  | true =>
    have hv : v.getLsbD 6 = false := hv
    rw [hv, hm] at hopen
    simpa [transactionOpen] using hopen

theorem Inv.writeStat (h : Inv s) (v : BitVec 64) : Inv (writeStat v s) := by
  obtain ⟨hengine, hrun, hquiet, hwcol, hrxov, hrest⟩ := h
  exact ⟨hengine, hrun, hquiet, by simp [Machine.writeStat, hwcol], by simp [Machine.writeStat, hrxov], hrest⟩

theorem Inv.hostWrite {idx : BitVec 3} {v : BitVec 64} (h : Inv s) (hw : hostWrite idx v s = .next t) : Inv t := by
  unfold Machine.hostWrite at hw
  split at hw
  · exact h.writeCmd hw
  split at hw
  · cases hw; exact h
  rename_i hr
  simp only [Bool.not_eq_true] at hr
  split at hw
  · cases hw; exact h
  split at hw
  · cases hw; exact h.raiseFatal hr _
  rename_i hb
  simp only [Bool.not_eq_true] at hb
  split at hw
  · cases hw; exact h.writeCtrl hr hb v
  split at hw
  · cases hw; exact h.writeStat v
  · cases hw; exact h.raiseFatal hr _

/-! The host's reads, and its accesses to its own buffer, leave the block as it is (R21, R73). -/

theorem hostRead_eq (idx : BitVec 3) (s : State) : hostRead idx s =
    { s with hpRdata := (hostRead idx s).hpRdata, draws := (hostRead idx s).draws } := by
  unfold hostRead
  repeat' split
  all_goals rfl

theorem hostBufWrite_eq (a : BitVec 16) (v : BitVec 8) (s : State) : hostBufWrite a v s =
    { s with
      mem := (hostBufWrite a v s).mem
      draws := (hostBufWrite a v s).draws
      raced := (hostBufWrite a v s).raced } := by
  unfold hostBufWrite
  cases inRunningBurst a s <;> cases fillsBuffer s <;> rfl

theorem hostBufRead_eq (a : BitVec 16) (s : State) : hostBufRead a s =
    { s with hpRdata := (hostBufRead a s).hpRdata, draws := (hostBufRead a s).draws } := by
  unfold hostBufRead
  cases inRunningBurst a s <;> rfl

/-- The reset values meet the invariant, whatever the level of `rst` is (R63, R310). -/
theorem inv_reset (rst : Bool) : Inv { State.reset with rst := rst } := by
  simp [Inv, engineInv, quiescentInv, State.reset, phaseOp, tbfPhase, opBstate, phaseOk, parked, openStarts,
    pQuiescent, pIdle]

theorem inv_resetBlock (s : State) : Inv (resetBlock s) :=
  (inv_reset true).congr rfl rfl rfl rfl rfl rfl rfl

theorem Inv.releaseRst (h : Inv s) : Inv { s with rst := false } := by
  obtain ⟨hengine, hrun, hquiet, hwcol, hrxov, hmoden, hbal, hout, hres, -⟩ := h
  exact ⟨hengine, hrun, hquiet, hwcol, hrxov, hmoden, hbal, hout, hres, fun hr => Bool.noConfusion hr⟩

/-! Steps. -/

/-- What a step can do, input by input (R21, R73, R310, R311). -/
inductive StepTo (s : State) : State → Prop
  | still (ins : List Input) : StepTo s (withInputs ins s)
  | run {t : State} (hb : s.seq.busy = true) (hr : s.rst = false) (d : Drive) (rest : List Input)
      (h : resume (.drive d :: rest) s = .next t) : StepTo s t
  | runFree {t : State} (hb : s.seq.busy = true) (hr : s.rst = false)
      (h : resume [.drive (freeDrive s)] (drawn s) = .next t) : StepTo s t
  | hostWrite {t : State} (idx : BitVec 3) (v : BitVec 64) (rest : List Input)
      (hin : s.inputs = .hostWrite idx v :: rest) (h : hostWrite idx v (withInputs rest s) = .next t) : StepTo s t
  | hostRead (idx : BitVec 3) (rest : List Input) : StepTo s (hostRead idx (withInputs rest s))
  | bufWrite (a : BitVec 16) (v : BitVec 8) (rest : List Input) :
      StepTo s (hostBufWrite a v (withInputs rest s))
  | bufRead (a : BitVec 16) (rest : List Input) : StepTo s (hostBufRead a (withInputs rest s))
  | reset (rest : List Input) (hin : s.inputs = .rst :: rest) : StepTo s (resetBlock (withInputs rest s))
  | release (rest : List Input) (hin : s.inputs = .rstRelease :: rest) :
      StepTo s { withInputs rest s with rst := false }

theorem step_next (h : step s = .next t) : StepTo s t := by
  unfold step stepInput at h
  split at h
  · cases h
  split at h
  · split at h
    · rename_i hc
      simp only [Bool.and_eq_true, Bool.not_eq_true'] at hc
      exact .runFree hc.1 hc.2 h
    · cases h; exact .still s.inputs
  · split at h
    · rename_i hc
      simp only [Bool.and_eq_true, Bool.not_eq_true'] at hc
      exact .run hc.1 hc.2 _ _ h
    · cases h; exact .still _
  · rename_i hin; exact .hostWrite _ _ _ hin h
  · cases h; exact .hostRead _ _
  · cases h; exact .bufWrite _ _ _
  · cases h; exact .bufRead _ _
  · rename_i hin; cases h; exact .reset _ hin
  · rename_i hin; cases h; exact .release _ hin

theorem Inv.resume {ins : List Input} (h : Inv s) (hb : s.seq.busy = true) (hr : resume ins s = .next t) : Inv t := by
  obtain ⟨i, hi⟩ := inv_running h hb
  unfold Machine.resume at hr
  rw [hi.decodes] at hr
  dsimp only at hr
  split at hr
  · cases hr; exact hi.runTicks ins
  · cases hr

/-- Settles O56: each thing a step can do keeps the invariant; a drive does so by the ticks of the running command. -/
theorem invKept : Obligations.InvKept := by
  unfold Obligations.InvKept
  intro s t h hs
  cases step_next hs with
  | still ins => exact h.withInputs ins
  | run hb _ d rest hr => exact h.resume hb hr
  | runFree hb _ hr =>
    have hd : Inv (drawn s) := h.congr rfl rfl rfl rfl rfl rfl rfl
    exact hd.resume hb hr
  | hostWrite idx v rest _ hw => exact (h.withInputs rest).hostWrite hw
  | hostRead idx rest => rw [hostRead_eq]; exact h.congr rfl rfl rfl rfl rfl rfl rfl
  | bufWrite a v rest => rw [hostBufWrite_eq]; exact h.congr rfl rfl rfl rfl rfl rfl rfl
  | bufRead a rest => rw [hostBufRead_eq]; exact h.congr rfl rfl rfl rfl rfl rfl rfl
  | reset rest => exact inv_resetBlock _
  | release rest => exact (h.withInputs rest).releaseRst

/-- Settles O55: the reset values are those of a quiescent, disabled block. -/
theorem invAtReset : Obligations.InvAtReset := by
  unfold Obligations.InvAtReset
  exact ⟨inv_reset false, memWf_reset⟩

/-- Settles O60: an action moves `BSTATE` only where it is legal, and of the phases only the last of a STOP does. -/
theorem bstateEdges : Obligations.BstateEdges := by
  unfold Obligations.BstateEdges
  intro i d s h hb hd
  obtain ⟨i', hi⟩ := inv_running h hb
  obtain rfl : i = i' := Except.ok.inj (hd.symm.trans hi.decodes)
  unfold tick
  split
  · rename_i he
    obtain ⟨a, n, ha, hmem, -, hk⟩ := hi.at_act
    have hns := ne_stop_of_parked (hi.parked he)
    obtain ⟨hl, -, -⟩ := act_flow ha hmem hns (hk he)
    have hedge := bstateEdge_of_legal hl hns
    simp only [seqTick, actAt_eq, ha]
    by_cases hdone : a = .done
    · subst hdone; exact hedge
    · rw [(runAct_moves (hi.idle he) n hdone).bstate]; exact hedge
  · rename_i hne
    rcases enginePhase_cases d hi.op hi.fits hi.balance hi.moden hne with g | e
    · rw [g.bstate]; cases s.seq.bstate <;> rfl
    · have hop := hi.op.2
      have hb : (enginePhase d s).seq.bstate = (pairAfterOp s.eng.eop (s.seq.bstate, s.eng.ackpend)).1 := by
        rw [← e.pair]
      rw [hb]
      cases ho : s.eng.eop <;> cases hs : s.seq.bstate <;> simp_all [opBstate, pairAfterOp, bstateEdge]

/-- Settles O58: the pair of `BSTATE` and `ACKPEND` is quiescent and the drivers are parked for it. -/
theorem quiescentStates : Obligations.QuiescentStates := by
  unfold Obligations.QuiescentStates
  intro s h hb
  obtain ⟨hblock, -, hquiet, -⟩ := (inv_iff s).1 h
  obtain ⟨he, hrbf, hpair⟩ := hquiet hb
  obtain ⟨-, -, hpend, htrun, htbf, -⟩ := hblock.idle he
  have hpark := hblock.parked he
  simp only [pQuiescent, pIdle, pOpen, pStart, pRestart, pAddr, pData, pReceived, List.cons_append,
    List.nil_append, List.mem_cons, List.not_mem_nil, or_false, Prod.mk.injEq] at hpair
  have hpend' := hpend
  simp [anyPending] at hpend'
  rcases hpair with ⟨hs, hk⟩ | ⟨hs, hk⟩ | ⟨hs, hk⟩ | ⟨hs, hk⟩ | ⟨hs, hk⟩ | ⟨hs, hk⟩ <;>
    simp_all [parked, launchOk]

/-- Settles O59: the operation in progress is the one the action at the sequencer holds for. -/
theorem engineAndSequencerExclude : Obligations.EngineAndSequencerExclude := by
  unfold Obligations.EngineAndSequencerExclude
  intro s h hb
  obtain ⟨i, hi⟩ := inv_running h hb
  obtain ⟨a, n, ha, -, hold, -⟩ := hi.at_act
  obtain ⟨⟨h1, h2, h3, h4, h5, h6⟩, -⟩ := hi.op
  refine ⟨i, a, n, hi.decodes, ha, hold, fun ha => ?_, ?_, ?_, ?_⟩
  · have he : s.eng.eop = .none := by
      by_contra hne
      exact hne ((hold hne).symm.trans ha)
    exact ⟨he, (hi.idle he).pending, (hi.idle he).trun⟩
  all_goals
    simp only [h1, h2, h3]
    cases s.eng.eop <;> decide

end Sys2Proof.Machine
end

section
/-! What a command leaves unchanged (spec/10_state.md R22, R28, R36, R38, R39, R41, R42, R59). Settles O54. -/

namespace Sys2Proof.Machine

/-- What running actions of `A`, and phases of the operations they start, leaves unchanged (R22, R28, R36, R38, R39,
R41, R42, R59). -/
structure RegFrame (A : Act → Prop) (s t : State) : Prop where
  moden : t.ctrl.moden = s.ctrl.moden
  baud : t.ctrl.baud = s.ctrl.baud
  cfg : t.cfg = s.cfg
  hpRdata : t.hpRdata = s.hpRdata
  rst : t.rst = s.rst
  bcol : s.stat.bcol = true → t.stat.bcol = true
  trace : s.trace <+: t.trace
  ackdt : (∀ a, A a → opens a ≠ .ackSeq) → t.ctrl.ackdt = s.ctrl.ackdt
  sent : (∀ a, A a → opens a ≠ .transmit) → t.txb = s.txb ∧ t.stat.ackstat = s.stat.ackstat
  received : (∀ a, A a → opens a ≠ .receive ∧ holdsFor a ≠ .receive) →
    t.rxb = s.rxb ∧ t.stat.rbf = s.stat.rbf ∧ t.stat.rxov = s.stat.rxov
  bus : (∀ a, A a → opens a = .none) →
    t.eng = s.eng ∧ t.seq.bstate = s.seq.bstate ∧ t.trace = s.trace ∧ t.ctrl = s.ctrl
  wcol : (∀ a, A a → opens a = .none ∧ holdsFor a ≠ .receive) →
    t.stat = { s.stat with wcol := t.stat.wcol }
  stat : (∀ a, A a → opens a = .none ∧ holdsFor a ≠ .receive ∧ a ≠ .wIdle) → t.stat = s.stat

variable {A : Act → Prop} {s t u : State}

theorem RegFrame.refl (s : State) : RegFrame A s s := by
  constructor <;> simp

theorem RegFrame.trans (f : RegFrame A s t) (g : RegFrame A t u) : RegFrame A s u where
  moden := g.moden.trans f.moden
  baud := g.baud.trans f.baud
  cfg := g.cfg.trans f.cfg
  hpRdata := g.hpRdata.trans f.hpRdata
  rst := g.rst.trans f.rst
  bcol h := g.bcol (f.bcol h)
  trace := f.trace.trans g.trace
  ackdt h := (g.ackdt h).trans (f.ackdt h)
  sent h := ⟨(g.sent h).1.trans (f.sent h).1, (g.sent h).2.trans (f.sent h).2⟩
  received h := by
    obtain ⟨f1, f2, f3⟩ := f.received h
    obtain ⟨g1, g2, g3⟩ := g.received h
    exact ⟨g1.trans f1, g2.trans f2, g3.trans f3⟩
  bus h := by
    obtain ⟨f1, f2, f3, f4⟩ := f.bus h
    obtain ⟨g1, g2, g3, g4⟩ := g.bus h
    exact ⟨g1.trans f1, g2.trans f2, g3.trans f3, g4.trans f4⟩
  wcol h := by rw [g.wcol h, f.wcol h]
  stat h := (g.stat h).trans (f.stat h)

/-- A phase of an operation that an action of `A` starts. -/
theorem regFrame_enginePhase {a : Act} (ha : A a) (ho : opens a = s.eng.eop) (hne : s.eng.eop ≠ .none) (d : Drive) :
    RegFrame A s (enginePhase d s) := by
  have f := enginePhase_frame d s
  exact { moden := f.moden, baud := f.baud, cfg := f.cfg, hpRdata := f.hpRdata, rst := f.rst, bcol := f.bcol,
          trace := f.trace, ackdt := fun _ => f.ackdt
          sent := fun h => ⟨f.txb, f.ackstat (ho ▸ h a ha)⟩
          received := fun h => f.received (ho ▸ (h a ha).1)
          bus := fun h => absurd (ho.symm.trans (h a ha)) hne
          wcol := fun h => absurd (ho.symm.trans (h a ha).1) hne
          stat := fun h => absurd (ho.symm.trans (h a ha).1) hne }

/-- Fewer actions leave more unchanged. -/
theorem RegFrame.mono {B : Act → Prop} (f : RegFrame A s t) (h : ∀ a, A a → B a) : RegFrame B s t where
  moden := f.moden
  baud := f.baud
  cfg := f.cfg
  hpRdata := f.hpRdata
  rst := f.rst
  bcol := f.bcol
  trace := f.trace
  ackdt hB := f.ackdt fun a ha => hB a (h a ha)
  sent hB := f.sent fun a ha => hB a (h a ha)
  received hB := f.received fun a ha => hB a (h a ha)
  bus hB := f.bus fun a ha => hB a (h a ha)
  wcol hB := f.wcol fun a ha => hB a (h a ha)
  stat hB := f.stat fun a ha => hB a (h a ha)

theorem runAct_frame (a : Act) (n : Nat) (s : State) : RegFrame (· = a) s (runAct a n s) := by
  cases a with
  | wIdle | holdSen | holdRsen | holdPen | holdAck =>
    simp only [runAct, actWIdle, actHoldPen]
    split
    · exact .refl s
    · constructor <;> simp [opens, holdsFor]
  | unlessReadNack | ifFailed | ifIdxIsLen | unlessIdxBelowLen | ifBcol =>
    simp only [runAct]
    split <;> constructor <;> simp [opens, holdsFor]
  | load b fail =>
    simp only [runAct, actLoad, loadTxb]
    cases loadRejected s <;> cases s.stat.wcol <;> constructor <;> simp [opens, holdsFor]
  | holdTx fail =>
    simp only [runAct, actHoldTx]
    split
    · exact .refl s
    · split <;> constructor <;> simp [opens, holdsFor]
  | holdRcen =>
    simp only [runAct, actHoldRcen]
    split
    · exact .refl s
    · cases s.known.rxb <;> constructor <;> simp [opens, holdsFor]
  | dataFromAckstat =>
    simp only [runAct, actDataFromAckstat]
    cases s.known.ackstat <;> constructor <;> simp [opens, holdsFor]
  | readBuf ptr =>
    simp only [runAct, loadByte]
    cases s.raced <;> constructor <;> simp [opens, holdsFor]
  | writeBuf ptr =>
    simp only [runAct, storeByte]
    cases s.raced <;> constructor <;> simp [opens, holdsFor]
  | _ =>
    constructor <;> simp [runAct, actSetSen, actSetRsen, actSetPen, actSetRcen, actSetAck, actCountByte,
      storeIf, opens, holdsFor]

/-- An action leaves the engine operation as it is or starts its own. -/
theorem runAct_eop (a : Act) (n : Nat) (s : State) :
    (runAct a n s).eng.eop = s.eng.eop ∨ (runAct a n s).eng.eop = opens a := by
  by_cases ho : opens a = .none
  · exact .inl (congrArg Engine.eop ((runAct_frame a n s).bus (by rintro _ rfl; exact ho)).1)
  cases a with
  | load b fail =>
    simp only [runAct, actLoad, loadTxb]
    cases loadRejected s <;> cases s.stat.wcol <;> simp [opens]
  | setSen | setRsen | setPen | setRcen | setAck =>
    exact .inr (by simp [runAct, actSetSen, actSetRsen, actSetPen, actSetRcen, actSetAck, opens])
  | _ => exact absurd rfl ho

/-- The actions of a micro-program. -/
def hasAct (prog : List Step) (a : Act) : Prop := ∃ st ∈ prog, a ∈ st

theorem hasAct_of_actOf {prog : List Step} {p : Pos} {a : Act} {n : Nat} (h : actOf prog p = some (a, n)) :
    hasAct prog a := by
  unfold actOf at h
  split at h
  · cases h
  rename_i st hst
  split at h
  · cases h
  rename_i b hb
  cases h
  exact ⟨st, List.mem_of_getElem? hst, List.mem_of_getElem? hb⟩

/-- The operation in progress is one that the micro-program starts. -/
def opOfProgram (prog : List Step) (s : State) : Prop :=
  s.eng.eop = .none ∨ ∃ a, hasAct prog a ∧ opens a = s.eng.eop

theorem tick_frame {prog : List Step} (h : opOfProgram prog s) (d : Drive) :
    RegFrame (hasAct prog) s (tick prog d s) ∧ opOfProgram prog (tick prog d s) := by
  unfold tick
  split
  · rename_i he
    unfold seqTick
    split
    · exact ⟨.refl s, h⟩
    · rename_i a n ha
      have hmem := hasAct_of_actOf (actAt_eq prog s ▸ ha)
      refine ⟨(runAct_frame a n s).mono fun b hb => hb ▸ hmem, ?_⟩
      rcases runAct_eop a n s with heq | heq
      · exact .inl (heq.trans he)
      · exact .inr ⟨a, hmem, heq.symm⟩
  · rename_i hne
    obtain ⟨a, hmem, ha⟩ := h.resolve_left hne
    refine ⟨regFrame_enginePhase hmem ha hne d, ?_⟩
    rcases (enginePhase_frame d s).eop with heq | heq
    · exact .inr ⟨a, hmem, ha.trans heq.symm⟩
    · exact .inl heq

theorem withInputs_frame (ins : List Input) (s : State) : RegFrame A s (withInputs ins s) := by
  constructor <;> simp [withInputs]

theorem runTicks_frame {prog : List Step} (h : opOfProgram prog s) (ins : List Input) :
    RegFrame (hasAct prog) s (runTicks prog ins s) := by
  induction ins generalizing s with
  | nil => exact withInputs_frame [] s
  | cons x ins ih =>
    cases x with
    | drive d =>
      cases hb : s.seq.busy with
      | false => rw [runTicks_idle hb]; exact withInputs_frame _ s
      | true =>
        obtain ⟨f, h'⟩ := tick_frame h d
        rw [runTicks_drive hb]
        exact f.trans (ih h')
    | _ => exact withInputs_frame _ s

theorem raiseFatal_frame (c : FatalCode) (s : State) : RegFrame A s (raiseFatal c s) := by
  constructor <;> simp

theorem acceptCommand_frame (w : CmdWord) (s : State) : RegFrame A s (acceptCommand w s) := by
  constructor <;> simp

/-- The frame of a command, completed or not. -/
theorem exec_frame {i : Instr} (h : exec i s = .next t) : RegFrame (hasAct (program i)) s t := by
  rcases exec_next h with rfl | ⟨-, c, rfl⟩ | ⟨ha, rfl⟩
  · exact .refl _
  · exact raiseFatal_frame c s
  · have hop : opOfProgram (program i) (acceptCommand (encode i) s) := .inl (ready_of_accepts ha).1.eop
    exact (acceptCommand_frame (encode i) s).trans (runTicks_frame hop s.inputs)

/-! Which actions a command is made of. -/

/-- What holds of every action of a program, as a test of the program. -/
theorem forall_hasAct {prog : List Step} {p : Act → Bool} (h : (prog.all fun st => st.all p) = true) {a : Act}
    (ha : hasAct prog a) : p a = true := by
  obtain ⟨st, hst, hmem⟩ := ha
  exact List.all_eq_true.1 (List.all_eq_true.1 h st hst) a hmem

theorem opens_of_not_acknowledges {i : Instr} (h : acknowledges i = false) {a : Act}
    (ha : hasAct (program i) a) : opens a ≠ .ackSeq := by
  have : ((program i).all fun st => st.all fun a => opens a != .ackSeq) = true := by
    cases i <;> cases h <;> rfl
  simpa using forall_hasAct this ha

theorem opens_of_not_transmits {i : Instr} (h : transmits i = false) {a : Act}
    (ha : hasAct (program i) a) : opens a ≠ .transmit := by
  have : ((program i).all fun st => st.all fun a => opens a != .transmit) = true := by
    cases i <;> cases h <;> rfl
  simpa using forall_hasAct this ha

theorem opens_of_not_receives {i : Instr} (h : receives i = false) {a : Act}
    (ha : hasAct (program i) a) : opens a ≠ .receive ∧ holdsFor a ≠ .receive := by
  have : ((program i).all fun st => st.all fun a => opens a != .receive && holdsFor a != .receive) = true := by
    cases i <;> cases h <;> rfl
  simpa using forall_hasAct this ha

theorem acts_waitIdle {a : Act} (h : hasAct (program .waitIdle) a) : a = .wIdle ∨ a = .done := by
  simpa [hasAct, program, progWaitIdle, or_comm] using h

theorem acts_ackStatus {a : Act} (h : hasAct (program .ackStatus) a) : a = .dataFromAckstat ∨ a = .done := by
  simpa [hasAct, program, progAckStatus] using h

/-- Settles O54: every action of the command, and every phase of the operations it starts, keeps to the frame. -/
theorem registerFrame : Obligations.RegisterFrame := by
  unfold Obligations.RegisterFrame
  intro i s t h
  have f := exec_frame h
  refine ⟨f.moden, f.baud, f.cfg, f.hpRdata, f.rst,
    fun hi => f.ackdt fun a => opens_of_not_acknowledges hi,
    fun hi => f.sent fun a => opens_of_not_transmits hi,
    fun hi => f.received fun a => opens_of_not_receives hi, fun hi => ?_, fun hi => ?_, f.bcol, ?_⟩
  · have hq : ∀ a, hasAct (program i) a → opens a = .none ∧ holdsFor a ≠ .receive := by
      rintro a ha
      rcases hi with rfl | rfl
      · rcases acts_waitIdle ha with rfl | rfl <;> decide
      · rcases acts_ackStatus ha with rfl | rfl <;> decide
    obtain ⟨heng, hbs, htr, hctrl⟩ := f.bus fun a ha => (hq a ha).1
    exact ⟨heng, hbs, htr, hctrl, f.wcol hq⟩
  · subst hi
    refine f.stat fun a ha => ?_
    rcases acts_ackStatus ha with rfl | rfl <;> decide
  · obtain ⟨es, he⟩ := f.trace
    exact ⟨es, he.symm⟩

end Sys2Proof.Machine
end

section
/-! The host's accesses and reset (spec/10_state.md R21, R31, R40, R63, R310). Settles O8, O10, O11, O12 and O13. -/

namespace Sys2Proof.Machine

/-! The host's writes to `CTRL` and `STAT` (R31, R40). -/

section writes

variable {s : State} (v : BitVec 64) (hr : s.rst = false)
include hr

theorem hostWrite_ctrl : hostWrite 0#3 v s =
    if s.seq.fatal = true then .next s
    else if s.seq.busy = true then .next (raiseFatal .reentry s) else .next (writeCtrl v s) := by
  rw [hostWrite, if_neg (by decide), if_neg (by simp [hr]), if_pos rfl]

theorem hostWrite_stat : hostWrite 1#3 v s =
    if s.seq.fatal = true then .next s
    else if s.seq.busy = true then .next (raiseFatal .reentry s) else .next (writeStat v s) := by
  rw [hostWrite, if_neg (by decide), if_neg (by simp [hr]), if_neg (by decide : (1#3 : BitVec 3) ≠ 0#3), if_pos rfl]

end writes

/-- The write that R31 refuses: it would disable the module with a transaction open. -/
theorem writeCtrl_refused_iff (v : BitVec 64) (s : State) :
    (!v.getLsbD 6 && s.ctrl.moden && transactionOpen s) = true ↔
      v.getLsbD 6 = false ∧ s.ctrl.moden = true ∧ s.seq.bstate ≠ .idle := by
  simp only [transactionOpen, Bool.and_eq_true, Bool.not_eq_true', bne_iff_ne, and_assoc]

/-- Settles O12: the checks of a write to `CTRL` in order, and what the accepted write takes. -/
theorem ctrlWrite : Obligations.CtrlWrite := by
  unfold Obligations.CtrlWrite
  intro v s hr
  simp only [hostWrite_ctrl v hr, writeCtrl, writeCtrl_refused_iff, apply_ite Host.Outcome.next]
  rfl

/-- Settles O13: the checks of a write to `STAT` in order, and the three flags the accepted write can clear. -/
theorem statWrite : Obligations.StatWrite := by
  unfold Obligations.StatWrite
  intro v s hr
  exact hostWrite_stat v hr

/-! What a step does with a host access at the head of the inputs (R21, R49, R73, R120). -/

theorem hostWrite_cmd {w : CmdWord} {i : Instr} (hd : decode w = .ok i) (s : State) :
    hostWrite 4#3 w s = exec i s := by
  rw [hostWrite, if_pos rfl, writeCmd, hd]

section step

variable {s : State} {rest : List Input} (ht : s.cfg.timeout = none)
include ht

theorem step_hostWrite {idx : BitVec 3} {v : BitVec 64} (hin : s.inputs = .hostWrite idx v :: rest) :
    step s = hostWrite idx v (withInputs rest s) := by
  simp [step, stepInput, ht, hin, withInputs]

theorem step_hostRead {idx : BitVec 3} (hin : s.inputs = .hostRead idx :: rest) :
    step s = .next (hostRead idx (withInputs rest s)) := by
  simp [step, stepInput, ht, hin, withInputs]

theorem step_bufWrite {a : BitVec 16} {v : BitVec 8} (hin : s.inputs = .bufWrite a v :: rest) :
    step s = .next (hostBufWrite a v (withInputs rest s)) := by
  simp [step, stepInput, ht, hin, withInputs]

theorem step_bufRead {a : BitVec 16} (hin : s.inputs = .bufRead a :: rest) :
    step s = .next (hostBufRead a (withInputs rest s)) := by
  simp [step, stepInput, ht, hin, withInputs]

theorem step_rst (hin : s.inputs = .rst :: rest) :
    step s = .next (resetBlock (withInputs rest s)) := by
  simp [step, stepInput, ht, hin, withInputs]

theorem step_rstRelease (hin : s.inputs = .rstRelease :: rest) :
    step s = .next { withInputs rest s with rst := false } := by
  simp [step, stepInput, ht, hin, withInputs]

end step

/-- Settles O8: one equation per access; the word placed by `withFetchWord` is the host's next write. -/
theorem stepRunsDecodedCommand : Obligations.StepRunsDecodedCommand := by
  unfold Obligations.StepRunsDecodedCommand
  intro s ht
  refine ⟨fun w i rest hd hin => ?_, fun idx v rest hin => step_hostWrite ht hin,
    fun idx rest hin => step_hostRead ht hin, fun a v rest hin => step_bufWrite ht hin,
    fun a rest hin => step_bufRead ht hin, fun w i hd => ?_⟩
  · exact (step_hostWrite ht hin).trans (hostWrite_cmd hd _)
  · have hw : BitVec.ofNat 64 (w.toNat % 2 ^ 64) = w := by
      rw [Nat.mod_eq_of_lt w.isLt, BitVec.ofNat_toNat, BitVec.setWidth_eq]
    have hin : (s.withFetchWord 64 w.toNat).inputs = .hostWrite 4#3 w :: s.inputs := by
      simp only [State.withFetchWord, presentWord, hw]
    have ht' : (s.withFetchWord 64 w.toNat).cfg.timeout = none := ht
    rw [step_hostWrite ht' hin, hostWrite_cmd hd]
    rfl

/-! While `rst` is asserted (R310). -/

section held

variable {s : State} (hr : s.rst = true)
include hr

theorem hostRead_of_rst (idx : BitVec 3) : hostRead idx s = s := if_pos hr

theorem gate_of_rst (ht : s.cfg.timeout = none) (go : State → Host.Outcome State Fault Refusal) :
    gate s go = .next s := by
  rw [gate, if_neg (by simp [ht]), if_pos hr]

theorem hostWrite_of_rst (ht : s.cfg.timeout = none) (idx : BitVec 3) (v : BitVec 64) :
    hostWrite idx v s = .next s := by
  by_cases h4 : idx = 4#3
  · rw [hostWrite, if_pos h4, writeCmd]
    cases decode v with
    | ok i => exact (exec_eq_issue i s).trans (gate_of_rst hr ht _)
    | error e => exact gate_of_rst hr ht _
  · rw [hostWrite, if_neg h4, if_pos hr]

end held

/-- No piece of state of the block but the level of `rst` differs. -/
def sameBlock (s t : State) : Prop :=
  t.ctrl = s.ctrl ∧ t.stat = s.stat ∧ t.txb = s.txb ∧ t.rxb = s.rxb ∧ t.res = s.res ∧
  t.seq = s.seq ∧ t.eng = s.eng ∧ t.trace = s.trace ∧ t.known = s.known ∧ t.cfg = s.cfg

/-- While `rst` stays asserted a step changes nothing of the block. -/
theorem step_of_rst {s : State} (ht : s.cfg.timeout = none) (hr : s.rst = true)
    (hrst : ∀ rest, s.inputs ≠ .rst :: rest) (hrel : ∀ rest, s.inputs ≠ .rstRelease :: rest) :
    ∃ t, step s = .next t ∧ sameBlock s t ∧ t.rst = s.rst := by
  cases hi : s.inputs with
  | nil => exact ⟨s, by simp [step, stepInput, ht, hi, hr], by simp [sameBlock]⟩
  | cons x rest =>
    cases x with
    | drive d =>
      exact ⟨withInputs rest s, by simp [step, stepInput, ht, hi, hr, withInputs], by simp [sameBlock, withInputs]⟩
    | hostWrite idx v =>
      exact ⟨_, (step_hostWrite ht hi).trans (hostWrite_of_rst (s := withInputs rest s) hr ht idx v),
        by simp [sameBlock, withInputs]⟩
    | hostRead idx =>
      refine ⟨_, step_hostRead ht hi, ?_⟩
      rw [hostRead_eq]; simp [sameBlock, withInputs]
    | bufWrite a v =>
      refine ⟨_, step_bufWrite ht hi, ?_⟩
      rw [hostBufWrite_eq]; simp [sameBlock, withInputs]
    | bufRead a =>
      refine ⟨_, step_bufRead ht hi, ?_⟩
      rw [hostBufRead_eq]; simp [sameBlock, withInputs]
    | rst => exact absurd hi (hrst rest)
    | rstRelease => exact absurd hi (hrel rest)

/-- Settles O10: the step that takes `rst` is `resetBlock`, and while `rst` is asserted the host is not heard. -/
theorem resetStep : Obligations.ResetStep := by
  unfold Obligations.ResetStep
  refine ⟨fun s rest ht hin => ⟨_, step_rst ht hin, ?_⟩, fun s ht hr hin => ?_⟩
  · simp [State.reset, fatalCodeBits, bufferKept, memRead, withInputs]
    rfl
  · by_cases hrel : ∃ rest, s.inputs = .rstRelease :: rest
    · obtain ⟨rest, hi⟩ := hrel
      exact ⟨_, step_rstRelease ht hi, rfl, rfl, rfl, rfl, rfl, rfl, rfl, rfl, rfl, rfl, by simp [hi]⟩
    · obtain ⟨t, hs, ⟨h1, h2, h3, h4, h5, h6, h7, h8, h9, h10⟩, hrst⟩ :=
        step_of_rst ht hr hin (fun rest hi => hrel ⟨rest, hi⟩)
      exact ⟨t, hs, h1, h2, h3, h4, h5, h6, h7, h8, h9, h10, by simp [hrst, hr, hrel]⟩

/-! Host reads (R21, R22, R32, R43, R48). -/

section reads
variable {s : State} (hr : s.rst = false)
include hr

theorem rdata_ctrl : (hostRead 0#3 s).hpRdata = (ctrlWord s.ctrl).setWidth 64 := by
  simp [hostRead, hr]

theorem rdata_stat : (hostRead 1#3 s).hpRdata = (statWord s.stat (ackstatRead s)).setWidth 64 := by
  simp only [hostRead, hr]; cases s.known.ackstat <;> simp

theorem rdata_txb : (hostRead 2#3 s).hpRdata = (txbRead s).setWidth 64 := by
  simp only [hostRead, hr]; cases s.known.txb <;> simp

theorem rdata_rxb : (hostRead 3#3 s).hpRdata = (rxbRead s).setWidth 64 := by
  simp only [hostRead, hr]; cases s.known.rxb <;> simp

theorem rdata_res : (hostRead 5#3 s).hpRdata = (resWord s.res).setWidth 64 := by
  simp [hostRead, hr]

theorem rdata_seqstat : (hostRead 6#3 s).hpRdata = (seqstatWord s.seq).setWidth 64 := by
  simp [hostRead, hr]

theorem rdata_reserved : (hostRead 4#3 s).hpRdata = 0#64 ∧ (hostRead 7#3 s).hpRdata = 0#64 := by
  simp [hostRead, hr]

end reads

/-- Above a register's own bits the read data is 0 (R57). -/
theorem extract_setWidth_above {w : Nat} (x : BitVec w) (k m : Nat) (h : w ≤ k) :
    (x.setWidth 64).extractLsb' k m = 0#m := by
  apply BitVec.eq_of_getLsbD_eq
  intro j hj
  simp [BitVec.getLsbD_extractLsb', BitVec.getLsbD_of_ge x (k + j) (by omega)]

/-- Within the read data a register's fields stand where they stand in the register (R57). -/
theorem extract_setWidth_within {w : Nat} (x : BitVec w) (k m : Nat) (h : k + m ≤ 64) :
    (x.setWidth 64).extractLsb' k m = x.extractLsb' k m := by
  apply BitVec.eq_of_getLsbD_eq
  intro j hj
  simp [BitVec.getLsbD_extractLsb', show k + j < 64 by omega]

theorem ctrlWord_bits (c : Ctrl) :
    let v := (ctrlWord c).setWidth 64
    v.getLsbD 0 = c.sen ∧ v.getLsbD 1 = c.rsen ∧ v.getLsbD 2 = c.pen ∧
    v.getLsbD 3 = c.rcen ∧ v.getLsbD 4 = c.acken ∧ v.getLsbD 5 = c.ackdt ∧
    v.getLsbD 6 = c.moden ∧ v.getLsbD 7 = false ∧ v.extractLsb' 8 8 = c.baud ∧
    v.extractLsb' 16 48 = 0#48 := by
  refine ⟨?_, ?_, ?_, ?_, ?_, ?_, ?_, ?_, ?_, extract_setWidth_above _ _ _ (by omega)⟩
  case refine_9 =>
    rw [extract_setWidth_within _ _ _ (by omega)]
    apply BitVec.eq_of_getLsbD_eq
    intro j hj
    simp only [ctrlWord, BitVec.getLsbD_extractLsb', BitVec.getLsbD_append]
    grind
  all_goals simp only [ctrlWord, BitVec.getLsbD_setWidth, BitVec.getLsbD_append]; simp

theorem seqstatWord_bits (q : Sequencer) :
    let v := (seqstatWord q).setWidth 64
    v.getLsbD 0 = q.busy ∧ v.getLsbD 1 = q.fatal ∧
    v.extractLsb' 2 3 = fatalCodeBits q.fcode ∧ v.extractLsb' 5 3 = bstateCode q.bstate ∧
    v.extractLsb' 8 56 = 0#56 := by
  refine ⟨?_, ?_, ?_, ?_, extract_setWidth_above _ _ _ (by omega)⟩
  case refine_3 | refine_4 =>
    rw [extract_setWidth_within _ _ _ (by omega)]
    apply BitVec.eq_of_getLsbD_eq
    intro j hj
    simp only [seqstatWord, BitVec.getLsbD_extractLsb', BitVec.getLsbD_append]
    grind
  all_goals simp only [seqstatWord, BitVec.getLsbD_setWidth, BitVec.getLsbD_append]; simp

theorem statWord_bits (st : Stat) (a : Bool) :
    let v := (statWord st a).setWidth 64
    v.getLsbD 0 = st.rbf ∧ v.getLsbD 1 = st.tbf ∧ v.getLsbD 2 = st.trun ∧
    v.getLsbD 3 = a ∧
    v.getLsbD 4 = st.wcol ∧ v.getLsbD 5 = st.rxov ∧ v.getLsbD 6 = st.bcol ∧
    v.getLsbD 7 = false ∧ v.extractLsb' 8 56 = 0#56 := by
  refine ⟨?_, ?_, ?_, ?_, ?_, ?_, ?_, ?_, extract_setWidth_above _ _ _ (by omega)⟩
  all_goals simp only [statWord, BitVec.getLsbD_setWidth, BitVec.getLsbD_append]; simp

theorem resWord_bits (r : Res) :
    let v := (resWord r).setWidth 64
    v.extractLsb' 0 3 = xferCode r.outcome ∧ v.getLsbD 3 = r.stopi ∧
    v.getLsbD 4 = r.valid ∧ v.extractLsb' 5 3 = 0#3 ∧ v.extractLsb' 8 8 = r.data ∧
    v.extractLsb' 16 16 = r.count ∧ v.extractLsb' 32 32 = 0#32 := by
  refine ⟨?_, ?_, ?_, ?_, ?_, ?_, extract_setWidth_above _ _ _ (by omega)⟩
  case refine_2 | refine_3 => simp only [resWord, BitVec.getLsbD_setWidth, BitVec.getLsbD_append]; simp
  all_goals
    rw [extract_setWidth_within _ _ _ (by omega)]
    apply BitVec.eq_of_getLsbD_eq
    intro j hj
    simp only [resWord, BitVec.getLsbD_extractLsb', BitVec.getLsbD_append]
    grind

/-- A byte as the host reads it. -/
theorem byte_bits (b : BitVec 8) : (b.setWidth 64).extractLsb' 0 8 = b ∧ (b.setWidth 64).extractLsb' 8 56 = 0#56 :=
  ⟨by rw [extract_setWidth_within _ _ _ (by omega)]; exact BitVec.extractLsb'_eq_self,
    extract_setWidth_above _ _ _ (by omega)⟩

/-- Settles O11: which word each index shows, and where its layout puts the fields. -/
theorem hostReads : Obligations.HostReads := by
  unfold Obligations.HostReads
  refine ⟨fun idx s hr => hostRead_of_rst hr idx, fun s hr => ?_⟩
  rw [rdata_ctrl hr, rdata_stat hr, rdata_txb hr, rdata_rxb hr, rdata_res hr, rdata_seqstat hr]
  exact ⟨fun idx => hostRead_eq idx s, ctrlWord_bits _, statWord_bits _ _, byte_bits _, byte_bits _, resWord_bits _,
    seqstatWord_bits _, rdata_reserved hr⟩

end Sys2Proof.Machine
end

section
/-! SUPPORT. Whole transactions (R62), and the steps of a run, each with what follows it. -/

namespace Sys2Proof.Machine

/-- The events `es` end in a STOP, and close `k` transactions that were open before them. -/
structure Closes (k : Nat) (es : List Event) : Prop where
  balance : es.count .P = es.count .S + k
  ends : ∃ pre, es = pre ++ [.P]

/-- The STOP closes the transaction that is open. -/
theorem closes_stop : Closes 1 [.P] := ⟨rfl, [], rfl⟩

/-- Between its START and its STOP a transaction has other events only. -/
theorem Closes.cons {k : Nat} {es : List Event} (h : Closes k es) (e : Event) (hs : e ≠ .S) (hp : e ≠ .P) :
    Closes k (e :: es) where
  balance := by simp [hs, hp, h.balance]
  ends := by obtain ⟨pre, rfl⟩ := h.ends; exact ⟨e :: pre, rfl⟩

/-- A START opens the transaction that the events after it close. -/
theorem Closes.opened {es : List Event} (h : Closes 1 es) : Closes 0 (.S :: es) where
  balance := by simp [h.balance]
  ends := by obtain ⟨pre, rfl⟩ := h.ends; exact ⟨.S :: pre, rfl⟩

/-- Whole transactions one after the other. -/
theorem Closes.append {es fs : List Event} (h : Closes 0 es) (g : Closes 0 fs) : Closes 0 (es ++ fs) where
  balance := by rw [List.count_append, List.count_append, h.balance, g.balance]; omega
  ends := by obtain ⟨pre, rfl⟩ := g.ends; exact ⟨es ++ pre, by simp⟩

theorem Closes.txTrace {k : Nat} {es : List Event} (h : Closes k es) (l : List (BitVec 8 × Bool)) :
    Closes k (txTrace l ++ es) := by
  induction l with
  | nil => exact h
  | cons x l ih =>
    obtain ⟨b, a⟩ := x
    cases a with
    | false => exact ih.cons (.Tx b false) nofun nofun
    | true => exact h.cons (.Tx b true) nofun nofun

/-- A write transaction is whole (R223). -/
theorem closes_writeTrace (l : List (BitVec 8 × Bool)) : Closes 0 (writeTrace l) :=
  (closes_stop.txTrace l).opened

/-- A read transaction is whole (R225). -/
theorem closes_readTrace (l : List (BitVec 8 × Bool)) (r : BitVec 8 × Bool) (v : BitVec 8) (nackSent : Bool) :
    Closes 0 (readTrace l r v nackSent) := by
  have nack : Closes 1 ((if nackSent then [.Ak true] else []) ++ [.P]) := by
    cases nackSent with
    | false => exact closes_stop
    | true => exact closes_stop.cons (.Ak true) nofun nofun
  have read : Closes 1 (if r.2 then [.Tx r.1 true, .P]
      else .Tx r.1 false :: .Rx v :: ((if nackSent then [.Ak true] else []) ++ [.P])) := by
    cases r.2 with
    | false => exact (nack.cons (.Rx v) nofun nofun).cons (.Tx r.1 false) nofun nofun
    | true => exact closes_stop.cons (.Tx r.1 true) nofun nofun
  unfold readTrace
  split
  · exact closes_writeTrace l
  · simpa using ((read.cons .Sr nofun nofun).txTrace l).opened

/-- A run of events `es` that close `k` transactions comes to `p` with `STOPI` set (R62, R184). -/
structure Closing (k : Nat) (p : Pos) (es : List Event) (t : State) : Prop where
  closes : Closes k es
  pos : pos t = p
  stopi : t.res.stopi = true

/-- The sequencer is at `p` after whole transactions, or after no event, with `n = 0` due and `STOPI` still `b`. -/
def Rest (n : Nat) (b : Bool) (p : Pos) (es : List Event) (t : State) : Prop :=
  (n = 0 ∧ es = [] ∧ pos t = p ∧ t.res.stopi = b) ∨ Closing 0 p es t

theorem Rest.after {n : Nat} {p : Pos} {es fs : List Event} {t : State} (h : Rest n true p fs t)
    (g : Closes 0 es) : Closing 0 p (es ++ fs) t := by
  rcases h with ⟨-, rfl, hp, hb⟩ | h
  · exact ⟨by simpa using g, hp, hb⟩
  · exact ⟨g.append h.closes, h.pos, h.stopi⟩

/-! The actions that only work on the sequencer, the result and the buffer. -/

def localAct : Act → Bool
  | .returnVal | .returnTmp | .dataFromVal | .insert _ _ _ | .extract _ _ | .ifFailed _ | .ifIdxIsLen _ _
  | .unlessIdxBelowLen _ _ | .goto _ | .readBuf _ | .writeBuf _ | .storeIf _ _ | .countByte | .ifBcol _ => true
  | _ => false

/-- Where an action may leave the sequencer when `i` bytes are counted. -/
def targets (n : Nat) (p : Pos) (i : BitVec 16) : Act → List Pos
  | .ifIdxIsLen len dest => if i = len then [dest] else [nextPos n p]
  | .unlessIdxBelowLen len dest => if i.toNat < len.toNat then [nextPos n p] else [dest]
  | a => successors n p a

/-- The bytes counted after an action (R250). -/
def idxAfter (i : BitVec 16) : Act → BitVec 16
  | .countByte => i + 1#16
  | _ => i

/-- What a local action does: no event, and nothing to `STOPI` and `WCOL`. -/
structure LocalMoves (a : Act) (n : Nat) (s t : State) : Prop where
  effect : BusEffect s [] t
  pos : pos t ∈ targets n (pos s) s.seq.idx a
  idx : t.seq.idx = idxAfter s.seq.idx a
  stopi : t.res.stopi = s.res.stopi
  wcol : t.stat.wcol = s.stat.wcol

theorem localAct_moves {a : Act} (h : localAct a = true) (n : Nat) (s : State) :
    LocalMoves a n s (runAct a n s) := by
  have effect : BusEffect s [] (runAct a n s) := by
    cases a with
    | ifFailed | ifIdxIsLen | unlessIdxBelowLen | ifBcol =>
      simp only [runAct]
      split <;> constructor <;> simp [busView, BusView.afterAll]
    | readBuf ptr =>
      simp only [runAct, loadByte]
      split <;> constructor <;> simp [busView, BusView.afterAll]
    | writeBuf ptr =>
      simp only [runAct, storeByte]
      split <;> constructor <;> simp [busView, BusView.afterAll]
    | returnVal | returnTmp | dataFromVal | insert | extract | goto | storeIf | countByte =>
      constructor <;> simp [runAct, actCountByte, storeIf, busView, BusView.afterAll]
    | _ => cases h
  cases a with
  | ifFailed | ifIdxIsLen | unlessIdxBelowLen | ifBcol =>
    refine ⟨effect, ?_, ?_, ?_, ?_⟩ <;> simp only [runAct] <;> split <;>
      simp [*, goNext_eq, targets, successors, idxAfter, Machine.pos]
  | readBuf ptr =>
    refine ⟨effect, ?_, ?_, ?_, ?_⟩ <;> simp only [runAct, loadByte] <;> split <;>
      simp [goNext_eq, targets, successors, idxAfter, Machine.pos]
  | writeBuf ptr =>
    refine ⟨effect, ?_, ?_, ?_, ?_⟩ <;> simp only [runAct, storeByte] <;> split <;>
      simp [goNext_eq, targets, successors, idxAfter, Machine.pos]
  | returnVal | returnTmp | dataFromVal | insert | extract | goto | storeIf | countByte =>
    refine ⟨effect, ?_, ?_, ?_, ?_⟩ <;>
      simp [runAct, actCountByte, storeIf, goNext_eq, targets, successors, idxAfter, Machine.pos]
  | _ => cases h

/-! Steps of a run, each with what follows it. -/

/-- The sequencer may act, at `q`, in an unbroken burst, with `i` bytes counted, `STOPI = b` and `WCOL = c`. -/
structure At (q : Pos) (i : BitVec 16) (b c : Bool) (s : State) : Prop extends Ready s where
  pos : pos s = q
  unraced : s.raced = false
  idx : s.seq.idx = i
  stopi : s.res.stopi = b
  wcol : s.stat.wcol = c

theorem at_of_work {s t : State} {es : List Event} {w : Work} (r : Ready t) (e : BusEffect s es t)
    (hs : s.raced = false) (h : work t = w) : At w.pos w.idx w.res.stopi w.wcol t where
  toReady := r
  pos := congrArg Work.pos h
  unraced := e.raced.trans hs
  idx := congrArg Work.idx h
  stopi := congrArg (fun w => w.res.stopi) h
  wcol := congrArg Work.wcol h

section steps

variable {prog : List Step} {s : State} {j n k m : Nat} {P : List Event → State → Prop} {p q q' : Pos}
  {i i' : BitVec 16} {b c : Bool}

/-- A local action, with what follows it at each place it may leave the sequencer. -/
theorem RunsTo.act {a : Act} (h : At q i b c s) (ha : actOf prog q = some (a, n)) (hl : localAct a = true)
    (next : ∀ q' ∈ targets n q i a, ∀ t, At q' (idxAfter i a) b c t → (BusFree s → BusFree t) →
      RunsTo prog k m t P) :
    RunsTo prog (1 + k) m s P := by
  obtain ⟨r, rfl, hr, rfl, rfl, rfl⟩ := h
  have l := localAct_moves hl n s
  refine (runs_local r rfl ha rfl l.effect).bind r ?_
  rintro _ _ rt e ⟨rfl, rfl⟩
  exact next _ l.pos _ ⟨rt, rfl, e.raced.trans hr, l.idx, l.stopi, l.wcol⟩ e.busFree

/-- A local action that leaves the sequencer at one place. -/
theorem RunsTo.goes {a : Act} (h : At q i b c s)
    (next : ∀ t, At q' i' b c t → (BusFree s → BusFree t) → RunsTo prog k m t P)
    (ha : actOf prog q = some (a, n) := by rfl) (hl : localAct a = true := by rfl)
    (hq : targets n q i a = [q'] := by rfl) (hi : idxAfter i a = i' := by rfl) :
    RunsTo prog (1 + k) m s P :=
  RunsTo.act h ha hl fun x hx => by
    obtain rfl : x = q' := by simpa [hq] using hx
    exact hi ▸ next

/-- A local action that leaves the sequencer at one of two places. -/
theorem RunsTo.branches {a : Act} {q'' : Pos} (h : At q i b c s)
    (next : ∀ t, At q' i' b c t → (BusFree s → BusFree t) → RunsTo prog k m t P)
    (jump : ∀ t, At q'' i' b c t → RunsTo prog k m t P)
    (ha : actOf prog q = some (a, n) := by rfl) (hl : localAct a = true := by rfl)
    (hq : targets n q i a = [q', q''] := by rfl) (hi : idxAfter i a = i' := by rfl) :
    RunsTo prog (1 + k) m s P :=
  RunsTo.act h ha hl fun x hx t ht f => by
    rw [hi] at ht
    rw [hq] at hx
    rcases List.mem_pair.1 hx with rfl | rfl
    · exact next t ht f
    · exact jump t ht

/-- `W_IDLE` (R181). -/
theorem RunsTo.wIdle (h : At q i b c s)
    (next : ∀ t, At q' i b false t → (BusFree s → BusFree t) → RunsTo prog k m t P)
    (ha : actOf prog q = some (.wIdle, n) := by rfl) (hq : nextPos n q = q' := by rfl) :
    RunsTo prog (1 + k) m s P := by
  subst hq
  obtain ⟨r, rfl, hr, rfl, rfl, rfl⟩ := h
  refine (runs_wIdle r rfl ha).bind r ?_
  rintro _ t rt e ⟨rfl, w⟩
  exact next t (at_of_work rt e hr w) e.busFree

theorem RunsTo.event {e : Event} (h : RunsTo prog k m s (Closing j p)) (hs : e ≠ .S) (hp : e ≠ .P) :
    RunsTo prog k m s (fun fs u => Closing j p ([e] ++ fs) u) :=
  h.mono fun _ _ _ h => ⟨h.closes.cons e hs hp, h.pos, h.stopi⟩

/-- `C_START` (R182). -/
theorem RunsTo.start (h : At q i b c s) (f : BusFree s)
    (next : ∀ t, At q' i b c t → RunsTo prog k m t (Closing 1 p))
    (ha : actOf prog q = some (.setSen, n) := by rfl)
    (hb : actOf prog (nextPos n q) = some (.holdSen, n) := by rfl)
    (hq : nextPos n (nextPos n q) = q' := by rfl) :
    RunsTo prog (6 + k) m s (Closing 0 p) := by
  subst hq
  obtain ⟨r, rfl, hr, rfl, rfl, rfl⟩ := h
  refine (runs_start r rfl f.1 f.2 ha hb).bind r ?_
  rintro _ t rt e ⟨rfl, w⟩
  exact (next t (at_of_work rt e hr w)).mono fun _ _ _ h => ⟨h.closes.opened, h.pos, h.stopi⟩

/-- `C_RESTART` (R183). -/
theorem RunsTo.restart (h : At q i b c s) (next : ∀ t, At q' i b c t → RunsTo prog k m t (Closing j p))
    (ha : actOf prog q = some (.setRsen, n) := by rfl)
    (hb : actOf prog (nextPos n q) = some (.holdRsen, n) := by rfl)
    (hq : nextPos n (nextPos n q) = q' := by rfl) :
    RunsTo prog (8 + k) m s (Closing j p) := by
  subst hq
  obtain ⟨r, rfl, hr, rfl, rfl, rfl⟩ := h
  refine (runs_restart r rfl ha hb).bind r ?_
  rintro _ t rt e ⟨rfl, w⟩
  exact (next t (at_of_work rt e hr w)).event nofun nofun

/-- `C_STOP` (R184). -/
theorem RunsTo.stop (h : At q i b c s) (ha : actOf prog q = some (.setPen, n))
    (hb : actOf prog (nextPos n q) = some (.holdPen, n)) :
    RunsTo prog (7 + m) m s (Closing 1 (nextPos n (nextPos n q))) := by
  obtain ⟨r, rfl, hr, rfl, rfl, rfl⟩ := h
  refine (runs_stop r rfl ha hb).mono ?_
  rintro _ t - ⟨rfl, w⟩
  exact ⟨closes_stop, congrArg Work.pos w, congrArg (fun w => w.res.stopi) w⟩

/-- `RX` (R202). -/
theorem RunsTo.rx (h : At q i b c s) (next : ∀ t, At q' i b c t → RunsTo prog k m t (Closing j p))
    (ha : actOf prog q = some (.setRcen, n) := by rfl)
    (hb : actOf prog (nextPos n q) = some (.holdRcen, n) := by rfl)
    (hq : nextPos n (nextPos n q) = q' := by rfl) :
    RunsTo prog (28 + k) m s (Closing j p) := by
  subst hq
  obtain ⟨r, rfl, hr, rfl, rfl, rfl⟩ := h
  refine (runs_rx r rfl ha hb).bind r ?_
  rintro _ t rt e ⟨v, rfl, w⟩
  exact (next t (at_of_work rt e hr w)).event nofun nofun

/-- `ACK(d)` (R203). -/
theorem RunsTo.ack {d : Bool} (h : At q i b c s) (next : ∀ t, At q' i b c t → RunsTo prog k m t (Closing j p))
    (ha : actOf prog q = some (.setAck d, n) := by rfl)
    (hb : actOf prog (nextPos n q) = some (.holdAck, n) := by rfl)
    (hq : nextPos n (nextPos n q) = q' := by rfl) :
    RunsTo prog (7 + k) m s (Closing j p) := by
  subst hq
  obtain ⟨r, rfl, hr, rfl, rfl, rfl⟩ := h
  refine (runs_ack r rfl ha hb).bind r ?_
  rintro _ t rt e ⟨rfl, -, w⟩
  exact (next t (at_of_work rt e hr w)).event nofun nofun

/-- `TX` with `WCOL = 0` (R201): what follows the byte not acknowledged, and what follows the byte acknowledged. -/
theorem RunsTo.tx {x : ByteSrc} {fail : Pos} (h : At q i b false s)
    (abort : ∀ t, At fail i b false t → RunsTo prog k m t (Closing j p))
    (next : ∀ t, At q' i b false t → RunsTo prog k m t (Closing j p))
    (ha : actOf prog q = some (.load x fail, n) := by rfl)
    (hb : actOf prog (nextPos n q) = some (.holdTx fail, n) := by rfl)
    (hq : nextPos n (nextPos n q) = q' := by rfl) :
    RunsTo prog (39 + k) m s (Closing j p) := by
  subst hq
  obtain ⟨r, rfl, hr, rfl, rfl, hc⟩ := h
  refine (runs_tx r rfl hc rfl ha hb).bind r ?_
  rintro _ t rt e ⟨a, rfl, w⟩
  have hat := at_of_work rt e hr w
  rw [show (work s).wcol = false from hc] at hat
  cases a with
  | false => exact (next t hat).event nofun nofun
  | true => exact (abort t hat).event nofun nofun

end steps

end Sys2Proof.Machine
end

section
/-! SUPPORT. The low-density commands come to their `done` after one transaction (spec/44_burst_transfer.md
R258 to R264). -/

namespace Sys2Proof.Machine

section transaction

variable {prog : List Step} {s : State} {k m : Nat} {p : Pos} {i : BitVec 16} {b c : Bool}

/-- The two steps that end every low-density command. -/
theorem runs_closeSteps {u : BitVec 8} (h : At ⟨u, 0⟩ i b c s) (h0 : prog[u.toNat]? = some [.wIdle])
    (h1 : prog[(u + 1#8).toNat]? = some cStop) (hk : 8 + m ≤ k) :
    RunsTo prog k m s (Closing 1 ⟨u + 1#8 + 1#8, 0⟩) := by
  refine RunsTo.credit (n := 1 + (7 + m)) ?_ (by omega)
  refine RunsTo.wIdle h (fun t (ht : At ⟨u + 1#8, 0⟩ i b false t) _ => ?_) (actOf_step h0 0)
  exact RunsTo.stop ht (actOf_step h1 0) (actOf_step h1 1)

/-- The START and the two bytes that begin every low-density command. -/
theorem runs_address {ctrl addr : ByteSrc} {fail : Pos} {rest : List Step}
    (hprog : prog = [.wIdle] :: cStart :: tx ctrl fail :: tx addr fail :: rest) (h : At ⟨0#8, 0⟩ i b c s)
    (f : BusFree s) (abort : ∀ t, At fail i b false t → RunsTo prog k m t (Closing 1 p))
    (next : ∀ t, At ⟨4#8, 0⟩ i b false t → RunsTo prog k m t (Closing 1 p)) :
    RunsTo prog (85 + k) m s (Closing 0 p) := by
  subst hprog
  rw [show 85 + k = 1 + (6 + (39 + (39 + k))) by omega]
  refine RunsTo.wIdle h fun t (ht : At ⟨1#8, 0⟩ i b false t) free => ?_
  refine RunsTo.start ht (free f) fun t (ht : At ⟨2#8, 0⟩ i b false t) => ?_
  refine RunsTo.tx ht (fun t ht => (abort t ht).credit (by omega)) fun t (ht : At ⟨3#8, 0⟩ i b false t) => ?_
  exact RunsTo.tx ht abort next

/-- The RESTART and the read-direction byte that follow them in the commands that read. -/
theorem runs_turnaround {ctrl addr ctrlRd : ByteSrc} {fail : Pos} {rest : List Step}
    (hprog : prog = [.wIdle] :: cStart :: tx ctrl fail :: tx addr fail ::
      [.wIdle] :: cRestart :: tx ctrlRd fail :: rest) (h : At ⟨0#8, 0⟩ i b c s)
    (f : BusFree s) (abort : ∀ t, At fail i b false t → RunsTo prog k m t (Closing 1 p))
    (next : ∀ t, At ⟨7#8, 0⟩ i b false t → RunsTo prog k m t (Closing 1 p)) :
    RunsTo prog (133 + k) m s (Closing 0 p) := by
  rw [show 133 + k = 85 + (1 + (8 + (39 + k))) by omega]
  refine runs_address hprog h f (fun t ht => (abort t ht).credit (by omega)) fun t ht => ?_
  subst hprog
  refine RunsTo.wIdle ht fun t (ht : At ⟨5#8, 0⟩ i b false t) _ => ?_
  refine RunsTo.restart ht fun t (ht : At ⟨6#8, 0⟩ i b false t) => ?_
  exact RunsTo.tx ht abort next

end transaction

section commands

variable {s : State} {k m : Nat} {i : BitVec 16} {b c : Bool} {ctrl addr : BitVec 8}

theorem runs_ldWrite {data : BitVec 8} (h : At ⟨0#8, 0⟩ i b c s) (f : BusFree s) :
    RunsTo (progLdWrite ctrl addr data) (132 + m) m s (Closing 0 ⟨7#8, 0⟩) := by
  have close {k : Nat} (hk : 8 + m ≤ k) (t : State) (ht : At ⟨5#8, 0⟩ i b false t) :
      RunsTo (progLdWrite ctrl addr data) k m t (Closing 1 ⟨7#8, 0⟩) := runs_closeSteps ht rfl rfl hk
  rw [show 132 + m = 85 + (39 + (8 + m)) by omega]
  refine runs_address rfl h f (close (by omega)) fun t ht => ?_
  exact RunsTo.tx ht (close le_rfl) (close le_rfl)

theorem runs_ldRead (h : At ⟨0#8, 0⟩ i b c s) (f : BusFree s) :
    RunsTo (progLdRead ctrl addr) (177 + m) m s (Closing 0 ⟨11#8, 0⟩) := by
  have close {k : Nat} (hk : 8 + m ≤ k) (t : State) (ht : At ⟨9#8, 0⟩ i b false t) :
      RunsTo (progLdRead ctrl addr) k m t (Closing 1 ⟨11#8, 0⟩) := runs_closeSteps ht rfl rfl hk
  rw [show 177 + m = 133 + (28 + (1 + (7 + (8 + m)))) by omega]
  refine runs_turnaround rfl h f (close (by omega)) fun t ht => ?_
  refine RunsTo.rx ht fun t (ht : At ⟨7#8, 2⟩ i b false t) => ?_
  refine RunsTo.goes ht fun t (ht : At ⟨8#8, 0⟩ i b false t) _ => ?_
  exact RunsTo.ack ht (close le_rfl)

/-- The bytes of a page write that are still to be sent, `k` of them. -/
theorem runs_pageBytes {ptr len : BitVec 16} (hi : i.toNat + k = len.toNat) (h : At ⟨4#8, 0⟩ i b false s) :
    RunsTo (progLdPageWrite ctrl addr ptr len) (44 * k + (9 + m)) m s (Closing 1 ⟨10#8, 0⟩) := by
  have close {k : Nat} (hk : 8 + m ≤ k) (i : BitVec 16) (t : State) (ht : At ⟨8#8, 0⟩ i b false t) :
      RunsTo (progLdPageWrite ctrl addr ptr len) k m t (Closing 1 ⟨10#8, 0⟩) := runs_closeSteps ht rfl rfl hk
  induction k generalizing s i with
  | zero =>
    have hlen : i = len := BitVec.eq_of_toNat_eq hi
    rw [show 44 * 0 + (9 + m) = 1 + (8 + m) by omega]
    exact RunsTo.goes h (fun t ht _ => close le_rfl i t ht) (hq := by exact if_pos hlen)
  | succ k ih =>
    have hlen : i ≠ len := by rintro rfl; omega
    rw [show 44 * (k + 1) + (9 + m) = 1 + (1 + (39 + (1 + (1 + (1 + (44 * k + (9 + m))))))) by omega]
    refine RunsTo.goes h (fun t (ht : At ⟨5#8, 0⟩ i b false t) _ => ?_) (hq := by exact if_neg hlen)
    refine RunsTo.goes ht fun t (ht : At ⟨6#8, 0⟩ i b false t) _ => ?_
    refine RunsTo.tx ht (close (by omega) i) fun t (ht : At ⟨7#8, 0⟩ i b false t) => ?_
    refine RunsTo.wIdle ht fun t (ht : At ⟨7#8, 1⟩ i b false t) _ => ?_
    refine RunsTo.goes ht fun t (ht : At ⟨7#8, 2⟩ (i + 1#16) b false t) _ => ?_
    refine RunsTo.goes ht fun t (ht : At ⟨4#8, 0⟩ (i + 1#16) b false t) _ => ?_
    exact ih (by bv_omega) ht

theorem runs_ldPageWrite {ptr len : BitVec 16} (h : At ⟨0#8, 0⟩ 0#16 b c s) (f : BusFree s) :
    RunsTo (progLdPageWrite ctrl addr ptr len) (len.toNat * 44 + 94 + m) m s (Closing 0 ⟨10#8, 0⟩) := by
  rw [show len.toNat * 44 + 94 + m = 85 + (44 * len.toNat + (9 + m)) by omega]
  refine runs_address rfl h f (fun t ht => ?_) fun t ht => runs_pageBytes (by simp) ht
  exact runs_closeSteps ht rfl rfl (by omega)

theorem runs_sequentialClose {ptr len : BitVec 16} (h : At ⟨12#8, 0⟩ i b c s) (hk : 8 + m ≤ k) :
    RunsTo (progLdSequentialRead ctrl addr ptr len) k m s (Closing 1 ⟨14#8, 0⟩) :=
  runs_closeSteps h rfl rfl hk

/-- A byte received, stored and counted; after a collision of its reception only the STOP follows (R264). -/
theorem runs_sequentialByte {ptr len : BitVec 16} (hk : 8 + m ≤ k) (h : At ⟨7#8, 0⟩ i b c s)
    (next : ∀ t, At ⟨10#8, 0⟩ (i + 1#16) b c t →
      RunsTo (progLdSequentialRead ctrl addr ptr len) k m t (Closing 1 ⟨14#8, 0⟩)) :
    RunsTo (progLdSequentialRead ctrl addr ptr len) (31 + k) m s (Closing 1 ⟨14#8, 0⟩) := by
  rw [show 31 + k = 28 + (1 + (1 + (1 + k))) by omega]
  refine RunsTo.rx h fun t (ht : At ⟨8#8, 0⟩ i b c t) => ?_
  refine RunsTo.goes ht fun t (ht : At ⟨8#8, 1⟩ i b c t) _ => ?_
  refine RunsTo.goes ht fun t (ht : At ⟨9#8, 0⟩ (i + 1#16) b c t) _ => ?_
  exact RunsTo.branches ht (fun t ht _ => next t ht) fun t ht => runs_sequentialClose ht hk

/-- The bytes of a sequential read that are still to be received, `k + 1` of them. -/
theorem runs_sequentialBytes {ptr len : BitVec 16} (hi : i.toNat + (k + 1) = len.toNat)
    (h : At ⟨7#8, 0⟩ i b c s) :
    RunsTo (progLdSequentialRead ctrl addr ptr len) (40 * k + (47 + m)) m s (Closing 1 ⟨14#8, 0⟩) := by
  induction k generalizing s i with
  | zero =>
    rw [show 40 * 0 + (47 + m) = 31 + (1 + (7 + (8 + m))) by omega]
    refine runs_sequentialByte (by omega) h fun t ht => ?_
    refine RunsTo.goes ht (fun t (ht : At ⟨11#8, 0⟩ (i + 1#16) b c t) _ => ?_) (hq := by exact if_neg (by bv_omega))
    exact RunsTo.ack ht fun t ht => runs_sequentialClose ht le_rfl
  | succ k ih =>
    rw [show 40 * (k + 1) + (47 + m) = 31 + (1 + (7 + (1 + (40 * k + (47 + m))))) by omega]
    refine runs_sequentialByte (by omega) h fun t ht => ?_
    refine RunsTo.goes ht (fun t (ht : At ⟨10#8, 1⟩ (i + 1#16) b c t) _ => ?_) (hq := by exact if_pos (by bv_omega))
    refine RunsTo.ack ht fun t (ht : At ⟨10#8, 3⟩ (i + 1#16) b c t) => ?_
    exact RunsTo.goes ht fun t (ht : At ⟨7#8, 0⟩ (i + 1#16) b c t) _ => ih (by bv_omega) ht

theorem runs_ldSequentialRead {ptr len : BitVec 16} (hlen : 1 ≤ len.toNat) (h : At ⟨0#8, 0⟩ 0#16 b c s)
    (f : BusFree s) :
    RunsTo (progLdSequentialRead ctrl addr ptr len) (len.toNat * 40 + 140 + m) m s (Closing 0 ⟨14#8, 0⟩) := by
  obtain ⟨k, hk⟩ : ∃ k, len.toNat = k + 1 := ⟨len.toNat - 1, by omega⟩
  rw [show len.toNat * 40 + 140 + m = 133 + (40 * k + (47 + m)) by omega]
  refine runs_turnaround rfl h f (fun t ht => ?_) fun t ht => runs_sequentialBytes (by simp [hk]) ht
  exact runs_sequentialClose ht (by omega)

end commands

end Sys2Proof.Machine
end

section
/-! SUPPORT. The register commands and the register bursts come to their `done` after whole transactions
(spec/43_register_accessor.md R223 to R235, spec/44_burst_transfer.md R251, R253). -/

namespace Sys2Proof.Machine

section transactions

variable {prog : List Step} {s : State} {k m n : Nat} {p : Pos} {i : BitVec 16} {b c : Bool} {u : BitVec 8}
  {dev : BitVec 7} {r8 : BitVec 8}

theorem srcByte_of_tmp {s t : State} (x : ByteSrc) (h : t.seq.tmp = s.seq.tmp) : srcByte x t = srcByte x s := by
  cases x with
  | lit => rfl
  | tmp => exact h

/-- The actions of a step after its first part `st`. -/
theorem actOf_append {st tail : Step} {l : Nat} (hp : prog[u.toNat]? = some (st ++ tail)) (hl : st.length = l)
    (j : Nat) : actOf prog ⟨u, l + j⟩ = (tail[j]?).map (fun a => (a, l + tail.length)) := by
  subst hl
  rw [actOf_step hp, List.length_append, List.getElem?_append_right (by omega), Nat.add_sub_cancel_left]

theorem length_xWriteReg (d8 : ByteSrc) : (xWriteReg u dev r8 d8).length = 12 := rfl

theorem length_xReadRegWith (mid : List Act) : (xReadRegWith u dev r8 mid).length = 20 + mid.length := by
  simp [xReadRegWith, cStart, cRestart, cStop, tx, rx, ack]
  omega

/-- What follows a whole transaction. -/
theorem RunsTo.whole {j : Nat} {Q : List Event → State → Prop} {q : Pos} (h : At ⟨u, 0⟩ i b c s)
    (hr : RunsTo prog j k s Q)
    (hq : ∀ es t, Q es t → Closes 0 es ∧ ∃ w : Work, work t = w ∧
      w.pos = q ∧ w.idx = i ∧ w.res.stopi = true ∧ w.wcol = false)
    (next : ∀ t, At q i true false t → BusFree t → RunsTo prog k m t (Rest 0 true p)) :
    RunsTo prog j m s (Closing 0 p) := by
  refine hr.bind h.toReady ?_
  rintro es t rt e hes
  obtain ⟨hc, w, hw, rfl, rfl, hs, hwc⟩ := hq es t hes
  have hat := at_of_work rt e h.unraced hw
  rw [hs, hwc] at hat
  obtain ⟨pre, rfl⟩ := hc.ends
  exact (next t hat e.busFree_of_stop.1).mono fun fs v _ g => g.after hc

/-- `XWriteReg` (R221), with what follows it. -/
theorem RunsTo.write {d8 : ByteSrc} {tail : Step} {q : Pos} (h : At ⟨u, 0⟩ i b c s) (f : BusFree s)
    (next : ∀ t, At q i true false t → BusFree t → RunsTo prog k m t (Rest 0 true p))
    (hp : prog[u.toNat]? = some (xWriteReg u dev r8 d8 ++ tail) := by rfl)
    (hq : nextPos (12 + tail.length) ⟨u, 11⟩ = q := by rfl) :
    RunsTo prog (ticksWrite + k) m s (Closing 0 p) := by
  have hr := runs_xWriteReg (m := k) h.toReady f rfl h.pos
    (fun t ht => srcByte_of_tmp (s := s) d8 ht) hp
  refine hr.whole h ?_ next
  rintro _ t ⟨a₀, a₁, a₂, rfl, hw⟩
  exact ⟨closes_writeTrace _, _, hw, hq, h.idx, rfl, rfl⟩

/-- `XReadReg` (R224), with what follows it. -/
theorem RunsTo.read {tail : List Act} {q : Pos} (h : At ⟨u, 0⟩ i b c s) (f : BusFree s)
    (next : ∀ t, At q i true false t → BusFree t → RunsTo prog k m t (Rest 0 true p))
    (hp : prog[u.toNat]? = some (xReadReg u dev r8 ++ tail) := by rfl)
    (hq : nextPos (20 + tail.length) ⟨u, 19⟩ = q := by rfl) :
    RunsTo prog (ticksRead + k) m s (Closing 0 p) := by
  refine (runs_xReadReg (m := k) h.toReady f rfl h.pos hp).whole h ?_ next
  rintro _ t ⟨a₀, a₁, a₂, v, rfl, hw⟩
  exact ⟨closes_readTrace _ _ _ _, _, hw, hq, h.idx, rfl, rfl⟩

/-- The read transaction of `readBytes` (R253), with what follows it. -/
theorem RunsTo.readStore {ptr : BitVec 16} {tail : List Act} {q : Pos} (h : At ⟨u, 0⟩ i b c s) (f : BusFree s)
    (next : ∀ t, At q i true false t → BusFree t → RunsTo prog k m t (Rest 0 true p))
    (hp : prog[u.toNat]? = some (xReadRegWith u dev r8 [.storeIf false ptr] ++ tail) := by rfl)
    (hq : nextPos (21 + tail.length) ⟨u, 20⟩ = q := by rfl) :
    RunsTo prog (ticksRead + 1 + k) m s (Closing 0 p) := by
  refine (runs_xReadRegStore (m := k) h.toReady f h.unraced rfl h.pos hp).whole h ?_ next
  rintro _ t ⟨a₀, a₁, a₂, v, rfl, hw⟩
  exact ⟨closes_readTrace _ _ _ _, _, hw, hq, h.idx, rfl, rfl⟩

/-- At its `done` a command has no transaction to come. -/
theorem At.rest (h : At p i b c s) (hk : m ≤ k) : RunsTo prog k m s (Rest 0 b p) :=
  (RunsTo.refl (Or.inl ⟨rfl, rfl, h.pos, h.stopi⟩)).credit hk

/-- What holds with `n` transactions due holds with none due. -/
theorem RunsTo.noneDue (h : RunsTo prog k m s (Rest n b p)) : RunsTo prog k m s (Rest 0 b p) :=
  h.mono fun _ _ _ g => g.imp_left fun ⟨_, h⟩ => ⟨rfl, h⟩

theorem RunsTo.rest (h : RunsTo prog k m s (Closing 0 p)) : RunsTo prog k m s (Rest n b p) :=
  h.mono fun _ _ _ => Or.inr

/-- The transaction of an `XWriteReg` that is a step of its own, after which the command is at its `done`. -/
theorem RunsTo.lastWrite {d8 : ByteSrc} (h : At ⟨u, 0⟩ i b c s) (f : BusFree s)
    (hp : prog[u.toNat]? = some (xWriteReg u dev r8 d8)) :
    RunsTo prog (ticksWrite + m) m s (Closing 0 ⟨u + 1#8, 0⟩) :=
  RunsTo.write (tail := []) h f (fun _ ht _ => ht.rest le_rfl) (by simpa using hp)

end transactions

section commands

variable {s : State} {k m : Nat} {i : BitVec 16} {b c : Bool} {dev : BitVec 7} {reg : BitVec 16}

theorem runs_writeRegister {data : BitVec 8} (h : At ⟨0#8, 0⟩ i b c s) (f : BusFree s) :
    RunsTo (progWriteRegister dev reg data) (ticksWrite + m) m s (Closing 0 ⟨1#8, 0⟩) :=
  RunsTo.lastWrite h f rfl

theorem runs_readRegister (h : At ⟨0#8, 0⟩ i b c s) (f : BusFree s) :
    RunsTo (progReadRegister dev reg) (ticksRead + (2 + m)) m s (Closing 0 ⟨1#8, 0⟩) := by
  rw [show 2 + m = 1 + (1 + m) by omega]
  have tail := actOf_append (prog := progReadRegister dev reg) (u := 0#8) rfl
    (length_xReadRegWith [])
  refine RunsTo.read h f fun t (ht : At ⟨0#8, 20⟩ i true false t) _ => ?_
  refine RunsTo.goes ht (fun t (ht : At ⟨0#8, 21⟩ i true false t) _ => ?_) (tail 0)
  exact RunsTo.goes ht (fun t ht _ => ht.rest le_rfl) (tail 1)

theorem runs_writeRegisterWide {data16 : BitVec 16} (h : At ⟨0#8, 0⟩ i b c s) (f : BusFree s) :
    RunsTo (progWriteRegisterWide dev reg data16) (ticksWrite + (1 + (ticksWrite + m))) m s
      (Closing 0 ⟨2#8, 0⟩) := by
  have tail := actOf_append (prog := progWriteRegisterWide dev reg data16) (u := 0#8) rfl (length_xWriteReg _)
  refine RunsTo.write h f fun t (ht : At ⟨0#8, 12⟩ i true false t) f => ?_
  refine RunsTo.branches ht (fun t (ht : At ⟨1#8, 0⟩ i true false t) free => ?_)
    (fun t ht => ht.rest (by omega)) (tail 0)
  exact (RunsTo.lastWrite ht (free f) rfl).rest

theorem runs_writeField {bitStart length : Nat} {value : BitVec 8} (h : At ⟨0#8, 0⟩ i b c s) (f : BusFree s) :
    RunsTo (progWriteField dev reg bitStart length value) (ticksRead + (3 + (ticksWrite + m))) m s
      (Closing 0 ⟨3#8, 0⟩) := by
  rw [show 3 + (ticksWrite + m) = 1 + (1 + (1 + (ticksWrite + m))) by omega]
  have tail := actOf_append (prog := progWriteField dev reg bitStart length value) (u := 0#8) rfl
    (length_xReadRegWith [])
  refine RunsTo.read h f fun t (ht : At ⟨0#8, 20⟩ i true false t) f => ?_
  refine RunsTo.goes ht (fun t (ht : At ⟨0#8, 21⟩ i true false t) free => ?_) (tail 0)
  refine RunsTo.branches ht (fun t (ht : At ⟨1#8, 0⟩ i true false t) free' => ?_)
    (fun t ht => ht.rest (by omega)) (tail 1)
  refine RunsTo.goes ht fun t (ht : At ⟨2#8, 0⟩ i true false t) free'' => ?_
  exact (RunsTo.lastWrite ht (free'' (free' (free f))) rfl).rest

theorem runs_readField {bitStart length : Nat} (h : At ⟨0#8, 0⟩ i b c s) (f : BusFree s) :
    RunsTo (progReadField dev reg bitStart length) (ticksRead + (3 + m)) m s (Closing 0 ⟨2#8, 0⟩) := by
  rw [show 3 + m = 1 + (1 + (1 + m)) by omega]
  have tail := actOf_append (prog := progReadField dev reg bitStart length) (u := 0#8) rfl
    (length_xReadRegWith [])
  refine RunsTo.read h f fun t (ht : At ⟨0#8, 20⟩ i true false t) _ => ?_
  refine RunsTo.goes ht (fun t (ht : At ⟨0#8, 21⟩ i true false t) _ => ?_) (tail 0)
  refine RunsTo.branches ht (fun t (ht : At ⟨1#8, 0⟩ i true false t) _ => ?_)
    (fun t ht => ht.rest (by omega)) (tail 1)
  exact RunsTo.goes ht fun t ht _ => ht.rest le_rfl

/-- The transactions of a write burst that are still to come, `k` of them. -/
theorem runs_writeBytes {ptr len : BitVec 16} (hi : i.toNat + k = len.toNat) (h : At ⟨0#8, 0⟩ i b c s)
    (f : BusFree s) :
    RunsTo (progWriteBytes dev reg ptr len) ((ticksWrite + 5) * k + (1 + m)) m s (Rest k b ⟨4#8, 0⟩) := by
  have tail := actOf_append (prog := progWriteBytes dev reg ptr len) (u := 2#8) rfl (length_xWriteReg _)
  induction k generalizing s i b c with
  | zero =>
    have hlen : i = len := BitVec.eq_of_toNat_eq hi
    rw [show (ticksWrite + 5) * 0 + (1 + m) = 1 + m by omega]
    exact RunsTo.goes h (fun t ht _ => ht.rest le_rfl) (hq := by exact if_pos hlen)
  | succ k ih =>
    have hlen : i ≠ len := by rintro rfl; omega
    rw [show (ticksWrite + 5) * (k + 1) + (1 + m) =
      1 + (1 + (ticksWrite + (1 + (1 + (1 + ((ticksWrite + 5) * k + (1 + m))))))) by rw [Nat.mul_succ]; omega]
    refine RunsTo.goes h (fun t (ht : At ⟨1#8, 0⟩ i b c t) free => ?_) (hq := by exact if_neg hlen)
    refine RunsTo.goes ht fun t (ht : At ⟨2#8, 0⟩ i b c t) free' => ?_
    refine RunsTo.rest ?_
    refine RunsTo.write ht (free' (free f)) fun t (ht : At ⟨2#8, 12⟩ i true false t) f => ?_
    refine RunsTo.branches ht (fun t (ht : At ⟨3#8, 0⟩ i true false t) free => ?_)
      (fun t ht => ht.rest (by omega)) (tail 0)
    refine RunsTo.goes ht fun t (ht : At ⟨3#8, 1⟩ (i + 1#16) true false t) free' => ?_
    refine RunsTo.goes ht fun t (ht : At ⟨0#8, 0⟩ (i + 1#16) true false t) free'' => ?_
    exact (ih (by bv_omega) ht (free'' (free' (free f)))).noneDue

/-- The transactions of a read burst that are still to come, `k` of them. -/
theorem runs_readBytes {ptr len : BitVec 16} (hi : i.toNat + k = len.toNat) (h : At ⟨0#8, 0⟩ i b c s)
    (f : BusFree s) :
    RunsTo (progReadBytes dev reg ptr len) ((ticksRead + 7) * k + (1 + m)) m s (Rest k b ⟨4#8, 0⟩) := by
  have tail := actOf_append (prog := progReadBytes dev reg ptr len) (u := 1#8) rfl
    (length_xReadRegWith _)
  induction k generalizing s i b c with
  | zero =>
    have hlen : i = len := BitVec.eq_of_toNat_eq hi
    rw [show (ticksRead + 7) * 0 + (1 + m) = 1 + m by omega]
    exact RunsTo.goes h (fun t ht _ => ht.rest le_rfl) (hq := by exact if_pos hlen)
  | succ k ih =>
    have hlen : i ≠ len := by rintro rfl; omega
    rw [show (ticksRead + 7) * (k + 1) + (1 + m) =
      1 + (ticksRead + 1 + (1 + (1 + (1 + (1 + (1 + ((ticksRead + 7) * k + (1 + m)))))))) by rw [Nat.mul_succ]; omega]
    refine RunsTo.goes h (fun t (ht : At ⟨1#8, 0⟩ i b c t) free => ?_) (hq := by exact if_neg hlen)
    refine RunsTo.rest ?_
    refine RunsTo.readStore ht (free f) fun t (ht : At ⟨1#8, 21⟩ i true false t) f => ?_
    refine RunsTo.goes ht (fun t (ht : At ⟨1#8, 22⟩ i true false t) free => ?_) (tail 0)
    refine RunsTo.branches ht (fun t (ht : At ⟨2#8, 0⟩ i true false t) free₁ => ?_)
      (fun t ht => ht.rest (by omega)) (tail 1)
    refine RunsTo.goes ht fun t (ht : At ⟨3#8, 0⟩ i true false t) free₂ => ?_
    refine RunsTo.goes ht fun t (ht : At ⟨3#8, 1⟩ (i + 1#16) true false t) free₃ => ?_
    refine RunsTo.goes ht fun t (ht : At ⟨0#8, 0⟩ (i + 1#16) true false t) free₄ => ?_
    exact (ih (by bv_omega) ht (free₄ (free₃ (free₂ (free₁ (free f)))))).noneDue

end commands

end Sys2Proof.Machine
end

section
/-! Every composite command closes the bus (spec/10_state.md R62). Settles O47. -/

namespace Sys2Proof.Machine

/-- 0 for a burst of length 0, which issues no transaction (R251, R253). -/
def transactionsDue : Instr → Nat
  | .writeBytes _ _ _ len | .readBytes _ _ _ len => len.toNat
  | _ => 1

theorem transactionsDue_eq_zero {i : Instr} (h : transactionsDue i = 0) :
    ∃ dev reg ptr, i = .writeBytes dev reg ptr 0#16 ∨ i = .readBytes dev reg ptr 0#16 := by
  cases i with
  | writeBytes dev reg ptr len =>
    obtain rfl : len = 0#16 := BitVec.eq_of_toNat_eq h
    exact ⟨dev, reg, ptr, .inl rfl⟩
  | readBytes dev reg ptr len =>
    obtain rfl : len = 0#16 := BitVec.eq_of_toNat_eq h
    exact ⟨dev, reg, ptr, .inr rfl⟩
  | _ => cases h

/-- Command `i`, started at `s`, comes to its `done` within its ticks, after whole transactions. -/
def EndsClosed (i : Instr) (s : State) : Prop :=
  ∃ p n, actOf (program i) p = some (.done, n) ∧
    RunsTo (program i) (tickBound i) 1 s (Rest (transactionsDue i) false p)

theorem endsClosed {i : Instr} {s : State} {p : Pos} {n k : Nat} (hd : actOf (program i) p = some (.done, n))
    (h : RunsTo (program i) k 1 s (Closing 0 p)) (hk : k ≤ tickBound i) : EndsClosed i s :=
  ⟨p, n, hd, h.rest.credit hk⟩

theorem composite_endsClosed {i : Instr} {s : State} {c : Bool} (hc : composite i = true)
    (hwf : i.wellFormed = true) (h : At ⟨0#8, 0⟩ 0#16 false c s) (f : BusFree s) : EndsClosed i s := by
  cases i with
  | writeRegister => exact endsClosed rfl (runs_writeRegister h f) le_rfl
  | readRegister => exact endsClosed rfl (runs_readRegister h f) le_rfl
  | writeRegisterWide => exact endsClosed rfl (runs_writeRegisterWide h f) (by simp [tickBound]; omega)
  | writeBitField | writeSingleBit => exact endsClosed rfl (runs_writeField h f) (by simp [tickBound]; omega)
  | readBitField | readSingleBit => exact endsClosed rfl (runs_readField h f) le_rfl
  | writeBytes dev reg ptr len =>
    exact ⟨_, _, rfl, (runs_writeBytes (k := len.toNat) (by simp) h f).credit (by simp [tickBound, mul_comm])⟩
  | readBytes dev reg ptr len =>
    exact ⟨_, _, rfl, (runs_readBytes (k := len.toNat) (by simp) h f).credit (by simp [tickBound, mul_comm])⟩
  | ldWrite => exact endsClosed rfl (runs_ldWrite h f) le_rfl
  | ldRead => exact endsClosed rfl (runs_ldRead h f) le_rfl
  | ldPageWrite => exact endsClosed rfl (runs_ldPageWrite h f) le_rfl
  | ldSequentialRead ctrl addr ptr len =>
    simp only [Instr.wellFormed, Bool.and_eq_true, decide_eq_true_eq] at hwf
    obtain ⟨-, hlen⟩ := hwf
    exact endsClosed rfl (runs_ldSequentialRead hlen h f) (by simp [tickBound])
  | _ => cases hc

/-- A composite command is accepted on an idle bus only (R291). -/
theorem preOk_composite {i : Instr} (hc : composite i = true) (s : State) :
    preOk i s = (s.seq.bstate == .idle) := by
  cases i with
  | waitIdle | start | restart | stop | writeByte | readByte | sendAck | sendNotAck | ackStatus => cases hc
  | _ => rfl

theorem at_acceptCommand {w : CmdWord} {s : State} (r : Ready (acceptCommand w s)) :
    At ⟨0#8, 0⟩ 0#16 false s.stat.wcol (acceptCommand w s) where
  toReady := r
  pos := rfl
  unraced := rfl
  idx := rfl
  stopi := rfl
  wcol := rfl

/-- Settles O47: by the run of each composite command, whose last event, if there is one, is a STOP. -/
theorem compositesCloseTheBus : Obligations.CompositesCloseTheBus := by
  unfold Obligations.CompositesCloseTheBus
  intro i s hc ha hs
  have ⟨_, _, _, _, _, _, hwf, _, hpre⟩ := ha
  have hidle : s.seq.bstate = .idle := beq_iff_eq.1 (preOk_composite hc s ▸ hpre)
  obtain ⟨ready, free⟩ := ready_of_accepts ha
  obtain ⟨p, n, hdone, hrun⟩ := composite_endsClosed hc hwf (at_acceptCommand ready) (free hidle)
  have done : ∀ es t, Rest (transactionsDue i) false p es t →
      ∃ n, actOf (program i) (pos t) = some (.done, n) := by
    rintro es t (⟨-, -, rfl, -⟩ | h)
    · exact ⟨n, hdone⟩
    · exact ⟨n, h.pos ▸ hdone⟩
  obtain ⟨es, t, k, effect, hend, hexec⟩ := exec_of_runs ha hs le_rfl hrun done
  refine ⟨_, es, hexec, rfl, ?_⟩
  rcases hend with ⟨hdue, rfl, -, -⟩ | ⟨hcl, -, hstopi⟩
  · have hfree := effect.busFree (free hidle)
    exact ⟨(congrArg BusView.bstate effect.view).trans hidle, hfree.1, hfree.2, effect.trace, rfl,
      .inr ⟨rfl, transactionsDue_eq_zero hdue⟩⟩
  · obtain ⟨pre, rfl⟩ := hcl.ends
    obtain ⟨hfree, hbus⟩ := effect.busFree_of_stop
    exact ⟨hbus, hfree.1, hfree.2, effect.trace, hcl.balance.symm, .inl hstopi⟩

end Sys2Proof.Machine
end

section
/-! The host's own buffer memory, and its race with a running burst (spec/20_memory.md R73, R85). Settles O23. -/

namespace Sys2Proof.Machine

/-- A burst in progress owns the addresses from `PTR` to `PTR + LEN - 1` (R73, R85). -/
theorem inRunningBurst_iff (a : BitVec 16) (s : State) : inRunningBurst a s = true ↔
    s.seq.busy = true ∧ ∃ i ptr len, decode s.seq.cw = .ok i ∧ burstRange i = some (ptr, len) ∧
      ptr.toNat ≤ a.toNat ∧ a.toNat < ptr.toNat + len.toNat := by
  unfold inRunningBurst
  cases decode s.seq.cw with
  | error e => simp
  | ok i =>
    simp only [Except.ok.injEq, ↓existsAndEq, true_and, Bool.and_eq_true]
    cases burstRange i with
    | none => simp
    | some r => obtain ⟨ptr, len⟩ := r; simp

/-- A load after the host's store: its own byte, a free one where the burst in progress fills that buffer, and every
other byte as before. -/
theorem memRead_hostBufWrite (a b : BitVec 16) (v : BitVec 8) {s : State} (h : memWf s.mem = true) :
    memRead b (hostBufWrite a v s) =
      if b = a then (if inRunningBurst a s && fillsBuffer s then Config.freeByte s.draws else v)
      else memRead b s := by
  unfold memRead
  rw [hostBufWrite_mem]
  exact (memRead_memWrite s h a b _).trans (if_congr eq_comm rfl rfl)

section outside

variable {a : BitVec 16} {s : State} (h : inRunningBurst a s = false)
include h

theorem hostBufWrite_outside (v : BitVec 8) : hostBufWrite a v s = memWrite a v s := by
  simp [hostBufWrite, h]

theorem hostBufRead_outside : hostBufRead a s = setRdata ((memRead a s).setWidth 64) s := by
  simp [hostBufRead, h]

end outside

section inside

variable {a : BitVec 16} {s : State} (h : inRunningBurst a s = true)
include h

theorem hostBufWrite_raced (v : BitVec 8) : (hostBufWrite a v s).raced = true := by
  simp [hostBufWrite, h]

theorem hostBufRead_inside :
    hostBufRead a s = drawn (setRdata ((Config.freeByte s.draws).setWidth 64) s) := by
  simp [hostBufRead, h]

end inside

/-- Settles O23: the equations of the host's two accesses outside and inside the range, and those of the burst's own
two, raced and not. -/
theorem hostBufferAccess : Obligations.HostBufferAccess := by
  unfold Obligations.HostBufferAccess
  refine fun a v s => ⟨inRunningBurst_iff a s, fun h => ⟨hostBufWrite_outside h v, fun hm b => ?_,
    hostBufRead_outside h⟩, fun h => ⟨?_, fun hm b => ?_, hostBufRead_inside h⟩,
    fun ptr h => ⟨?_, ?_⟩, fun ptr h => ⟨?_, ?_⟩⟩
  · simpa [h] using memRead_hostBufWrite a b v hm
  · rw [← hostBufWrite_raced h v]
    exact hostBufWrite_eq a v s
  · simpa [h] using memRead_hostBufWrite a b v hm
  · simp [loadByte, h]
  · simp [storeByte, h, drawn, memWrite]
  · simp [loadByte, h]
  · simp [storeByte, h, memWrite]

end Sys2Proof.Machine
end

section
/-! SUPPORT. The phases of a byte on the wire, one lemma each (spec/40_line_engine.md R153, R154): between which of the
states of `Transmit` and `Receive` a phase leads. -/

namespace Sys2Proof.Machine

/-! A run of the engine, cut. -/

theorem enginePhase_idle {s : State} (h : s.eng.eop = .none) (d : Drive) : enginePhase d s = s := by
  simp [enginePhase, h]

theorem engineRun_idle {s : State} (h : s.eng.eop = .none) (ds : List Drive) : engineRun ds s = s := by
  cases ds <;> simp [engineRun, h]

theorem engineRun_nil (s : State) : engineRun [] s = s := rfl

theorem engineRun_cons (d : Drive) (ds : List Drive) (s : State) :
    engineRun (d :: ds) s = engineRun ds (enginePhase d s) := by
  by_cases h : s.eng.eop = .none
  · rw [engineRun_idle h, enginePhase_idle h, engineRun_idle h]
  · exact if_neg h

theorem engineRun_append (ds es : List Drive) (s : State) :
    engineRun (ds ++ es) s = engineRun es (engineRun ds s) := by
  induction ds generalizing s with
  | nil => rfl
  | cons d ds ih => rw [List.cons_append, engineRun_cons, ih, engineRun_cons]

section transmit

variable {s0 : State} (hm : s0.ctrl.moden = true) (he : s0.eng.eop = .transmit) (d : Drive)
  {k : Nat} {a b c : Bool}
include hm he

theorem phase_t0 (hp : s0.eng.phase = .t0) :
    enginePhase d s0 = sendingAt s0 0 .ta s0.eng.sdaLow s0.eng.sclLow false := by
  simp [enginePhase, hm, he, phaseTransmit, hp, sendingAt]

theorem phase_ta : enginePhase d (sendingAt s0 k .ta a b c) =
    sendingAt s0 k .tb (!(s0.txb <<< k).getLsbD 7) b c := by
  simp [enginePhase, hm, he, phaseTransmit, sendingAt, toPhase, setSda]

theorem phase_tb (hd : d.sclLow = false) :
    enginePhase d (sendingAt s0 k .tb a b c) = sendingAt s0 k .tc a false c := by
  simp [enginePhase, hm, he, phaseTransmit, sendingAt, releaseScl_eq, hd]

/-- A 1 that the environment leaves alone, or a 0, is no collision. -/
theorem phase_tc (hd : d.sdaLow = false) :
    enginePhase d (sendingAt s0 k .tc (!(s0.txb <<< k).getLsbD 7) b c) =
      sendingAt s0 k .td (!(s0.txb <<< k).getLsbD 7) b c := by
  simp only [enginePhase, hm, he, phaseTransmit, sendingAt, toPhase, sampleBcol, monitorBcol, sdaIn, hd, if_true]
  cases (s0.txb <<< k).getLsbD 7 <;> simp

theorem phase_td (hk : k < 8) : enginePhase d (sendingAt s0 k .td a b c) =
    sendingAt s0 (k + 1) (if k + 1 = 8 then .t8 else .ta) a true c := by
  obtain ⟨hnext, hlast⟩ := bitcnt_next k hk
  simp [enginePhase, hm, he, phaseTransmit, sendingAt, hnext, hlast, ← BitVec.shiftLeft_add]

theorem phase_t8 : enginePhase d (sendingAt s0 8 .t8 a b c) = ackSlotAt s0 .t9 b c := by
  simp [enginePhase, hm, he, phaseTransmit, sendingAt, ackSlotAt, toPhase, setSda]

theorem phase_t9 (hd : d.sclLow = false) : enginePhase d (ackSlotAt s0 .t9 b c) = ackSlotAt s0 .t10 false c := by
  simp [enginePhase, hm, he, phaseTransmit, ackSlotAt, releaseScl_eq, hd]

/-- T10 takes the acknowledge level, T11 records it. -/
theorem phase_t10_t11 (d' : Drive) :
    enginePhase d' (enginePhase d (ackSlotAt s0 .t10 false c)) = sentByte s0 (!d.sdaLow) c := by
  simp [enginePhase, hm, he, phaseTransmit, ackSlotAt, toPhase, sdaIn, sentByte, eventTransmit, endOp, emit, setScl]

end transmit

section receive

variable {s0 : State} (hm : s0.ctrl.moden = true) (he : s0.eng.eop = .receive) (d : Drive)
  {k : Nat} {b : Bool} {x : BitVec 8}
include hm he

theorem phase_v0 (hp : s0.eng.phase = .v0) :
    enginePhase d s0 = receivingAt s0 0 .va s0.eng.sclLow s0.eng.sr := by
  simp [enginePhase, hm, he, phaseReceive, hp, receivingAt]

theorem phase_va (hd : d.sclLow = false) :
    enginePhase d (receivingAt s0 k .va b x) = receivingAt s0 k .vb false x := by
  simp [enginePhase, hm, he, phaseReceive, receivingAt, releaseScl_eq, hd]

theorem phase_vb : enginePhase d (receivingAt s0 k .vb b x) =
    receivingAt s0 k .vc b ((x <<< 1) ||| (0#7 ++ BitVec.ofBool (!d.sdaLow))) := by
  simp [enginePhase, hm, he, phaseReceive, receivingAt, sdaIn]

theorem phase_vc (hk : k < 8) : enginePhase d (receivingAt s0 k .vc b x) =
    receivingAt s0 (k + 1) (if k + 1 = 8 then .v8 else .va) true x := by
  obtain ⟨hnext, hlast⟩ := bitcnt_next k hk
  simp [enginePhase, hm, he, phaseReceive, receivingAt, hnext, hlast]

theorem phase_v8 : enginePhase d (receivingAt s0 8 .v8 true x) = receivedByte s0 x := by
  cases hr : s0.stat.rbf <;>
    simp [enginePhase, hm, he, phaseReceive, receivingAt, receivedByte, eventReceive, endOp, emit, setAckpend, hr]

end receive

/-! The byte received grows bit by bit, bit 7 first (spec/20_memory.md R76). -/

/-- The shift register when `k` bits of `v` are in, over what it held before. -/
def shiftedIn (x v : BitVec 8) (k : Nat) : BitVec 8 := (x <<< k) ||| (v >>> (8 - k))

@[simp] theorem shiftedIn_zero (x v : BitVec 8) : shiftedIn x v 0 = x := by
  have h : v >>> 8 = 0#8 := BitVec.ushiftRight_eq_zero le_rfl
  simp [shiftedIn, h]

@[simp] theorem shiftedIn_eight (x v : BitVec 8) : shiftedIn x v 8 = v := by
  simp [shiftedIn]

theorem shiftedIn_succ (x v : BitVec 8) {k : Nat} (hk : k < 8) :
    (shiftedIn x v k <<< 1) ||| (0#7 ++ BitVec.ofBool (v.getLsbD (7 - k))) = shiftedIn x v (k + 1) := by
  ext j hj
  simp [shiftedIn]
  grind

end Sys2Proof.Machine
end

section
/-! What SDA carries (spec/20_memory.md R76; spec/10_state.md R28). Settles O27. -/

namespace Sys2Proof.Machine

variable {s : State}

/-- Under any drives SDA shows the bits of `TXB`, bit 7 first, and is released in the acknowledge slot (R153). -/
theorem TransmitAt.sda {m : Nat} {t : State} (hp : s.eng.phase = .t0) (h : TransmitAt s m t) :
    (t.eng.phase = .tb ∨ t.eng.phase = .tc ∨ t.eng.phase = .td →
      t.eng.bitcnt.toNat < 8 ∧ t.eng.sdaLow = !s.txb.getLsbD (7 - t.eng.bitcnt.toNat)) ∧
    (t.eng.phase = .t9 ∨ t.eng.phase = .t10 ∨ t.eng.phase = .t11 → t.eng.sdaLow = false) := by
  cases h with
  | tb k a b c hk _ ha | tc k a c hk _ ha | td k a c hk _ ha =>
    have hcnt : (BitVec.ofNat 4 k).toNat = k := Nat.mod_eq_of_lt (by omega)
    have hbit : (s.txb <<< k).getLsbD 7 = s.txb.getLsbD (7 - k) := by
      have : ¬ 7 < k := by omega
      simp only [BitVec.getLsbD_shiftLeft, this]
      rfl
    rw [hbit] at ha
    simp only [sendingAt, hcnt]
    exact ⟨fun _ => ⟨hk, ha⟩, by simp⟩
  | _ => simp [hp, sendingAt, ackSlotAt, sentByte, eventTransmit]

/-- In phases A1 to A3 SDA shows `ACKDT` (R155). -/
theorem ackSeqAt_sda {m : Nat} {t : State} (hp : s.eng.phase = .a0) (h : ackSeqAt s m t)
    (hq : t.eng.phase = .a1 ∨ t.eng.phase = .a2 ∨ t.eng.phase = .a3) : t.eng.sdaLow = !s.ctrl.ackdt := by
  match m, h with
  | 5, h => subst h; simp [hp] at hq
  | 4, ⟨_, h⟩ | 3, h | 2, ⟨_, _, h⟩ | 1, ⟨_, _, h⟩ => subst h; rfl
  | 0, ⟨_, _, h⟩ => subst h; simp [eventAckSeq] at hq

/-- The middle of `receiveDrives`: the drives of the first `n` bits of `v`. -/
def bitDrives (v : BitVec 8) (n : Nat) : List Drive :=
  (List.range n).flatMap fun k => [⟨false, false⟩, ⟨!v.getLsbD (7 - k), false⟩, ⟨false, false⟩]

theorem receiveDrives_eq (v : BitVec 8) :
    receiveDrives v = ⟨false, false⟩ :: (bitDrives v 8 ++ [⟨false, false⟩]) := rfl

theorem bitDrives_succ (v : BitVec 8) (n : Nat) : bitDrives v (n + 1) =
    bitDrives v n ++ [⟨false, false⟩, ⟨!v.getLsbD (7 - n), false⟩, ⟨false, false⟩] := by
  simp only [bitDrives, List.range_succ, List.flatMap_append, List.flatMap_singleton]

section receive

variable (hm : s.ctrl.moden = true) (he : s.eng.eop = .receive) (v : BitVec 8)
include hm he

/-- The drives of `n` bits of `v` clock `n` bits in. -/
theorem engineRun_bitDrives {n : Nat} (hn : n ≤ 8) (b : Bool) (x : BitVec 8) :
    engineRun (bitDrives v n) (receivingAt s 0 .va b x) =
      receivingAt s n (if n = 8 then .v8 else .va) (if n = 0 then b else true) (shiftedIn x v n) := by
  induction n with
  | zero => simp [bitDrives, engineRun]
  | succ n ih =>
    rw [bitDrives_succ, engineRun_append, ih (by omega), if_neg (by omega)]
    simp only [engineRun_cons]
    rw [phase_va hm he _ rfl, phase_vb hm he, phase_vc hm he _ hn, Bool.not_not, shiftedIn_succ x v hn]
    rfl

/-- `Receive` takes the byte the environment shows, bit 7 first. -/
theorem engineRun_receiveDrives (hp : s.eng.phase = .v0) :
    engineRun (receiveDrives v) s = receivedByte s v := by
  have hbits := engineRun_bitDrives hm he v le_rfl s.eng.sclLow s.eng.sr
  rw [shiftedIn_eight] at hbits
  calc engineRun (receiveDrives v) s
    _ = enginePhase ⟨false, false⟩ (engineRun (bitDrives v 8) (enginePhase ⟨false, false⟩ s)) := by
      rw [receiveDrives_eq, engineRun_cons, engineRun_append, engineRun_cons, engineRun_nil]
    _ = receivedByte s v := by rw [phase_v0 hm he _ hp, hbits]; exact phase_v8 hm he _

end receive

/-- Settles O27: SDA by the measures of `Transmit` and `AckSeq`, the byte received by one lemma per bit. -/
theorem sdaOfTransfers : Obligations.SdaOfTransfers := by
  unfold Obligations.SdaOfTransfers
  intro s hb hm
  refine ⟨fun he hp ds => ?_, fun he hp v => ?_, fun he hp ds => ?_⟩
  · obtain ⟨m, h⟩ := (transmit_measure s hb hm he hp).engineRun_at
      (fun _ h => by obtain ⟨_, _, _, rfl⟩ := transmitAt_zero s h; rfl) ds 37 s .load
    exact h.sda hp
  · rw [engineRun_receiveDrives hm he v hp]
    exact ⟨rfl, rfl⟩
  · obtain ⟨m, h⟩ := (ackSeq_measure s hb hm he hp).engineRun_at (fun _ ⟨_, _, h⟩ => h ▸ rfl) ds 5 s rfl
    exact ackSeqAt_sda hp h

end Sys2Proof.Machine
end

section
/-! The reference target on the two lines (spec/20_memory.md R91, R92). Settles O52. -/

namespace Sys2Proof.Machine

/-- At a phase that waits for SCL the engine releases SCL and waits (R146). -/
theorem enginePhase_sclWait {p q : Phase} {s : State} (hpq : (p, q) ∈ sclWaits) (hm : s.ctrl.moden = true)
    (hp : s.eng.phase = p) (he : s.eng.eop = phaseOp p) (d : Drive) : enginePhase d s = releaseScl d q s := by
  simp only [sclWaits, List.mem_cons, Prod.mk.injEq, List.not_mem_nil, or_false] at hpq
  rcases hpq with ⟨rfl, rfl⟩ | ⟨rfl, rfl⟩ | ⟨rfl, rfl⟩ | ⟨rfl, rfl⟩ | ⟨rfl, rfl⟩ | ⟨rfl, rfl⟩ <;>
    simp [enginePhase, hm, he, phaseOp, phaseGenRestart, phaseGenStop, phaseTransmit, phaseReceive, phaseAckSeq, hp]

namespace RefTarget

variable (r : RefTarget) {s : State}

theorem engineRun_add (m n : Nat) (s : State) :
    r.engineRun (m + n) s = r.engineRun n (r.engineRun m s) := by
  induction m generalizing s with
  | zero => rw [Nat.zero_add]; rfl
  | succ m ih => rw [Nat.add_right_comm]; exact ih _

/-! The operations that carry no byte. -/

theorem engineRun_genStart (hm : s.ctrl.moden = true) (he : s.eng.eop = .genStart) (hp : s.eng.phase = .s1)
    (hsda : s.eng.sdaLow = false) (hscl : s.eng.sclLow = false) : r.engineRun 4 s = eventGenStart s := by
  simp [RefTarget.engineRun, enginePhase, phaseGenStart, drive, sclIn, sdaIn, toPhase, setSda, setScl, emit, endOp,
    setAckpend, eventGenStart, hm, he, hp, hsda, hscl]

theorem engineRun_genRestart (hm : s.ctrl.moden = true) (he : s.eng.eop = .genRestart) (hp : s.eng.phase = .r1) :
    r.engineRun 6 s = eventGenRestart false s := by
  simp [RefTarget.engineRun, enginePhase, phaseGenRestart, drive, releaseScl_eq, sampleBcol, monitorBcol, sdaIn,
    toPhase, setSda, setScl, emit, endOp, setAckpend, eventGenRestart, hm, he, hp]

theorem engineRun_genStop (hm : s.ctrl.moden = true) (he : s.eng.eop = .genStop) (hp : s.eng.phase = .p1) :
    r.engineRun 5 s = eventGenStop false s := by
  simp [RefTarget.engineRun, enginePhase, phaseGenStop, drive, releaseScl_eq, sampleBcol, monitorBcol, sdaIn,
    toPhase, setSda, emit, endOp, setAckpend, eventGenStop, hm, he, hp]

theorem engineRun_ackSeq (hm : s.ctrl.moden = true) (he : s.eng.eop = .ackSeq) (hp : s.eng.phase = .a0) :
    r.engineRun 5 s = eventAckSeq false s := by
  cases hd : s.ctrl.ackdt <;>
    simp [RefTarget.engineRun, enginePhase, phaseAckSeq, drive, releaseScl_eq, sampleBcol, monitorBcol, sdaIn,
      toPhase, setSda, setScl, emit, endOp, setAckpend, eventAckSeq, hm, he, hp, hd]

/-! A byte sent: the target leaves SDA alone until the acknowledge slot. -/

section transmit

variable (hm : s.ctrl.moden = true) (he : s.eng.eop = .transmit)
include hm he

theorem engineRun_bitSent {k : Nat} (hk : k < 8) (a b : Bool) :
    r.engineRun 4 (sendingAt s k .ta a b false) =
      sendingAt s (k + 1) (if k + 1 = 8 then .t8 else .ta) (!(s.txb <<< k).getLsbD 7) true false := by
  simp only [RefTarget.engineRun]
  rw [phase_ta hm he, phase_tb hm he _ rfl, phase_tc hm he _ rfl, phase_td hm he _ hk]

theorem engineRun_bitsSent {n : Nat} (hn : n ≤ 8) (a b : Bool) : ∃ a' b',
    r.engineRun (4 * n) (sendingAt s 0 .ta a b false) =
      sendingAt s n (if n = 8 then .t8 else .ta) a' b' false := by
  induction n with
  | zero => exact ⟨a, b, rfl⟩
  | succ n ih =>
    obtain ⟨a', b', h⟩ := ih (by omega)
    refine ⟨!(s.txb <<< n).getLsbD 7, true, ?_⟩
    rw [Nat.mul_succ, engineRun_add, h, if_neg (by omega), r.engineRun_bitSent hm he hn]

theorem engineRun_ackSlot (a b : Bool) :
    r.engineRun 4 (sendingAt s 8 .t8 a b false) = sentByte s (r.ackLevel s.txb) false := by
  simp only [RefTarget.engineRun]
  rw [phase_t8 hm he, phase_t9 hm he _ rfl, phase_t10_t11 hm he]
  simp [drive, ackSlotAt]

theorem engineRun_transmit (hp : s.eng.phase = .t0) :
    r.engineRun 37 s = sentByte s (r.ackLevel s.txb) false := by
  obtain ⟨a, b, h⟩ := r.engineRun_bitsSent hm he le_rfl s.eng.sdaLow s.eng.sclLow
  calc r.engineRun (1 + 4 * 8 + 4) s
    _ = r.engineRun 4 (r.engineRun (4 * 8) (enginePhase (r.drive s) s)) := by
      rw [engineRun_add, engineRun_add]; rfl
    _ = sentByte s (r.ackLevel s.txb) false := by
      rw [phase_t0 hm he _ hp, h]; exact r.engineRun_ackSlot hm he a b

end transmit

/-! A byte received: the target shows its bits, bit 7 first. -/

section receive

variable (hm : s.ctrl.moden = true) (he : s.eng.eop = .receive)
include hm he

theorem engineRun_bitReceived {k : Nat} (hk : k < 8) (b : Bool) (x : BitVec 8) :
    r.engineRun 3 (receivingAt s k .va b (shiftedIn x r.sends k)) =
      receivingAt s (k + 1) (if k + 1 = 8 then .v8 else .va) true (shiftedIn x r.sends (k + 1)) := by
  have hshown : (r.drive (receivingAt s k .vb false (shiftedIn x r.sends k))).sdaLow =
      !r.sends.getLsbD (7 - k) := by
    have hcnt : (BitVec.ofNat 4 k).toNat = k := Nat.mod_eq_of_lt (by omega)
    simp only [drive, receivingAt, hcnt]
  simp only [RefTarget.engineRun]
  rw [phase_va hm he _ rfl, phase_vb hm he, phase_vc hm he _ hk, hshown, Bool.not_not, shiftedIn_succ x _ hk]

theorem engineRun_bitsReceived {n : Nat} (hn : n ≤ 8) (b : Bool) (x : BitVec 8) :
    r.engineRun (3 * n) (receivingAt s 0 .va b x) =
      receivingAt s n (if n = 8 then .v8 else .va) (if n = 0 then b else true) (shiftedIn x r.sends n) := by
  induction n with
  | zero => simp [RefTarget.engineRun]
  | succ n ih =>
    rw [Nat.mul_succ, engineRun_add, ih (by omega), if_neg (by omega), r.engineRun_bitReceived hm he hn]
    rfl

theorem engineRun_receive (hp : s.eng.phase = .v0) : r.engineRun 26 s = receivedByte s r.sends := by
  have h := r.engineRun_bitsReceived hm he le_rfl s.eng.sclLow s.eng.sr
  rw [shiftedIn_eight] at h
  calc r.engineRun (1 + 3 * 8 + 1) s
    _ = r.engineRun 1 (r.engineRun (3 * 8) (enginePhase (r.drive s) s)) := by
      rw [engineRun_add, engineRun_add]; rfl
    _ = receivedByte s r.sends := by
      rw [phase_v0 hm he _ hp, h]; exact phase_v8 hm he _

end receive

end RefTarget

/-- Settles O52: under the target's drives each operation ends in its event of R158 with the target's answer as the
draw, and no collision. -/
theorem referenceTargetOnTheWire : Obligations.ReferenceTargetOnTheWire := by
  unfold Obligations.ReferenceTargetOnTheWire
  refine ⟨fun addr mem => ⟨rfl, rfl, rfl, rfl⟩, fun r s hm => ⟨fun p q hpq hp he => ?_,
    fun he hp hsda hscl => ?_, fun he hp => ?_, fun he hp => ?_, fun he hp => ?_, fun he hp => ?_,
    fun he hp => ?_⟩⟩
  · rw [enginePhase_sclWait hpq hm hp he, releaseScl_eq]
    rfl
  · rw [r.engineRun_genStart hm he hp hsda hscl]
    exact ⟨rfl, rfl, rfl⟩
  · rw [r.engineRun_genRestart hm he hp]
    exact ⟨rfl, rfl, Bool.or_false _⟩
  · rw [r.engineRun_genStop hm he hp]
    exact ⟨rfl, rfl, Bool.or_false _⟩
  · rw [r.engineRun_transmit hm he hp]
    exact ⟨rfl, rfl, Bool.or_false _⟩
  · rw [r.engineRun_receive hm he hp]
    exact ⟨rfl, rfl, rfl⟩
  · rw [r.engineRun_ackSeq hm he hp]
    exact ⟨rfl, rfl, Bool.or_false _⟩

end Sys2Proof.Machine
end

section
/-! SUPPORT. What of the buffer memory a running command leaves as it is (spec/20_memory.md R73, R84): every address but
the one an action stores to. -/

namespace Sys2Proof.Machine

/-- A store leaves every other address as it was, whatever form the list of cells has. -/
theorem readCell_writeCell_ne {a b : Nat} (h : a ≠ b) (m : List Host.Cell) (v : BitVec 8) :
    readCell (writeCell m a v) b = readCell m b := by
  have hcons (l : List Host.Cell) : readCell (consCell a v l) b = readCell l b := by
    rw [readCell_consCell l a b v fun hab => absurd hab h, if_neg h]
  induction m with
  | nil => exact hcons []
  | cons c m ih =>
    obtain ⟨k, w⟩ := c
    simp only [writeCell]
    split
    · exact hcons _
    split
    · rename_i hak
      rw [hcons, readCell, if_neg (hak ▸ h)]
    · simp only [readCell, ih]

theorem memRead_memWrite_ne {a b : BitVec 16} (h : b ≠ a) (v : BitVec 8) (s : State) :
    memRead b (memWrite a v s) = memRead b s :=
  readCell_writeCell_ne (fun hab => h (BitVec.eq_of_toNat_eq hab.symm)) s.mem v

theorem memRead_congr {s t : State} (h : t.mem = s.mem) (x : BitVec 16) : memRead x t = memRead x s :=
  congrArg (readCell · x.toNat) h

theorem memRead_storeByte_ne {ptr x : BitVec 16} {s : State} (h : x ≠ bufAddr ptr s.seq.idx) :
    memRead x (storeByte ptr s) = memRead x s :=
  (memRead_congr (storeByte_mem ptr s) x).trans (memRead_memWrite_ne h _ s)

theorem memRead_storeIf_ne {ptr x : BitVec 16} {s : State} (late : Bool) (h : x ≠ bufAddr ptr s.seq.idx) :
    memRead x (storeIf late ptr s) = memRead x s := by
  rw [storeIf_eq]
  split
  · exact memRead_storeByte_ne h
  · rfl

/-- The base of the buffer that an action stores to. -/
def storesTo : Act → Option (BitVec 16)
  | .writeBuf ptr | .storeIf _ ptr => some ptr
  | _ => none

/-- An action that is no store leaves the memory as it is. -/
theorem runAct_mem {a : Act} (h : storesTo a = none) (n : Nat) (s : State) : (runAct a n s).mem = s.mem := by
  cases a with
  | writeBuf | storeIf => cases h
  | wIdle | holdSen | holdRsen | holdPen | holdAck | unlessReadNack | ifFailed | ifIdxIsLen | unlessIdxBelowLen
  | ifBcol =>
    simp only [runAct, actWIdle, actHoldPen]
    split <;> simp
  | load b fail =>
    simp only [runAct, actLoad, loadTxb]
    split <;> split <;> simp
  | holdTx fail =>
    simp only [runAct, actHoldTx]
    split
    · rfl
    · split <;> simp
  | holdRcen =>
    simp only [runAct, actHoldRcen]
    split
    · rfl
    · cases s.known.rxb <;> simp
  | dataFromAckstat =>
    simp only [runAct, actDataFromAckstat]
    cases s.known.ackstat <;> simp
  | readBuf ptr =>
    simp only [runAct, loadByte]
    cases s.raced <;> simp
  | _ => simp [runAct, actSetSen, actSetRsen, actSetPen, actSetRcen, actSetAck, actCountByte]

/-- An action changes at most the byte it stores to, the one at `IDX`. -/
theorem memRead_runAct {a : Act} {x : BitVec 16} {s : State}
    (h : ∀ ptr, storesTo a = some ptr → x ≠ bufAddr ptr s.seq.idx) (n : Nat) :
    memRead x (runAct a n s) = memRead x s := by
  cases a with
  | writeBuf ptr => exact (memRead_congr (goNext_mem _ n) x).trans (memRead_storeByte_ne (h ptr rfl))
  | storeIf late ptr => exact (memRead_congr (goNext_mem _ n) x).trans (memRead_storeIf_ne late (h ptr rfl))
  | _ => exact memRead_congr (runAct_mem rfl n s) x

/-- No phase of the engine reaches the memory. -/
theorem enginePhase_mem (d : Drive) (s : State) : (enginePhase d s).mem = s.mem := by
  unfold enginePhase
  split
  · cases s.eng.eop with
    | none => rfl
    | genStart =>
      simp only [phaseGenStart]
      split
      case h_1 => split <;> simp
      all_goals simp
    | receive =>
      simp only [phaseReceive]
      split
      case h_5 => cases s.stat.rbf <;> simp
      all_goals simp [releaseScl_eq]
    | genRestart | genStop | transmit | ackSeq =>
      simp only [phaseGenRestart, phaseGenStop, phaseTransmit, phaseAckSeq]
      split <;> simp [releaseScl_eq]
  · rfl

/-- A tick changes at most the byte that the action at the sequencer's position stores to. -/
theorem memRead_tick {prog : List Step} {x : BitVec 16} {s : State}
    (h : ∀ a n ptr, actOf prog (pos s) = some (a, n) → storesTo a = some ptr → x ≠ bufAddr ptr s.seq.idx) (d : Drive) :
    memRead x (tick prog d s) = memRead x s := by
  unfold tick seqTick
  rw [actAt_eq]
  split
  · split
    · rfl
    · rename_i a n ha
      exact memRead_runAct (fun ptr => h a n ptr ha) n
  · exact memRead_congr (enginePhase_mem d s) x

/-- What every tick of a run keeps, the run keeps: `K` holds along it, and under `K` no tick changes the byte. -/
theorem memRead_runTicks {prog : List Step} {K : State → Prop} {x : BitVec 16} (hK : ∀ d s, K s → K (tick prog d s))
    (hx : ∀ d s, K s → memRead x (tick prog d s) = memRead x s) (ins : List Input) {s : State} (h : K s) :
    memRead x (runTicks prog ins s) = memRead x s := by
  induction ins generalizing s with
  | nil => rfl
  | cons i ins ih =>
    cases i with
    | drive d =>
      cases hb : s.seq.busy with
      | false => rw [runTicks_idle hb]; rfl
      | true => rw [runTicks_drive hb, ih (hK d s h), hx d s h]
    | _ => rfl

end Sys2Proof.Machine
end

section
/-! No command changes buffer memory outside its range (spec/20_memory.md R73, R84). Settles O53. -/

namespace Sys2Proof.Machine

/-! While a burst fills its buffer it stores only a byte that it has yet to count. -/

/-- The positions of a burst that fills its buffer at which `IDX` is a byte still to be counted (R253, R264). -/
def byteDue : Instr → Pos → Bool
  | .readBytes _ _ _ _, p => p.upc == 1#8 || p.upc == 2#8 || (p.upc == 3#8 && p.sub == 0)
  | .ldSequentialRead _ _ _ _, p => decide (p.upc.toNat ≤ 8) || (p.upc == 10#8 && p.sub != 0)
  | _, _ => false

/-- Where an action may lead, the test of `IDX` in it aside: a load may be rejected (R201). -/
def leadsTo (n : Nat) (p : Pos) : Act → List Pos
  | .load _ fail => [nextPos n p, fail]
  | a => successors n p a

/-- Where an action may lead when `i` bytes are counted. -/
def exits (n : Nat) (p : Pos) (i : BitVec 16) : Act → List Pos
  | .load _ fail => [nextPos n p, fail]
  | a => targets n p i a

/-- The bytes counted and the one due, if any, are no more than `len`. -/
def Counted (due : Pos → Bool) (len : BitVec 16) (s : State) : Prop :=
  s.seq.idx.toNat + (due (pos s)).toNat ≤ len.toNat

/-- A byte is due where it is stored and where it is counted, and only a test of `IDX` makes one due. -/
def actDue (due : Pos → Bool) (p : Pos) (a : Act) (n : Nat) : Bool :=
  ((storesTo a).isNone || due p) &&
  match a with
  | .ifIdxIsLen _ dest | .unlessIdxBelowLen _ dest => due p || !due dest
  | .countByte => due p && !due (nextPos n p)
  | a => (leadsTo n p a).all fun q => due p || !due q

/-- The test of every action of a micro-program, at its position. -/
def everyAct (prog : List Step) (test : Pos → Act → Nat → Bool) : Bool :=
  (List.range prog.length).all fun u => (List.range (prog[u]?.getD []).length).all fun k =>
    match actOf prog ⟨BitVec.ofNat 8 u, k⟩ with
    | none => true
    | some (a, n) => test ⟨BitVec.ofNat 8 u, k⟩ a n

theorem test_of_everyAct {prog : List Step} {test : Pos → Act → Nat → Bool} (h : everyAct prog test = true) {p : Pos}
    {a : Act} {n : Nat} (ha : actOf prog p = some (a, n)) : test p a n = true := by
  obtain ⟨hu, hk⟩ := actOf_lt ha
  simp only [everyAct, List.all_eq_true, List.mem_range] at h
  simpa [ha] using h _ hu _ hk

theorem everyAct_actDue {i : Instr} (hi : storesBuffer i = true) :
    everyAct (program i) (actDue (byteDue i)) = true := by
  cases i <;> cases hi <;> cbv

/-- The action speaks of the buffer `ptr`, `len`. -/
def aimsAt (ptr len : BitVec 16) : Act → Prop
  | .ifIdxIsLen l _ | .unlessIdxBelowLen l _ => l = len
  | .writeBuf p | .storeIf _ p => p = ptr
  | _ => True

theorem aimsAt_of_hasAct {i : Instr} {ptr len : BitVec 16} (hi : storesBuffer i = true)
    (hr : burstRange i = some (ptr, len)) {a : Act} (ha : hasAct (program i) a) : aimsAt ptr len a := by
  have hall : ∀ st ∈ program i, ∀ a ∈ st, aimsAt ptr len a := by
    cases i <;> cases hi <;> cases hr <;>
      simp [program, progReadBytes, progLdSequentialRead, xReadRegWith, cStart, cRestart, cStop, tx, rx, ack, aimsAt]
  obtain ⟨st, hst, hmem⟩ := ha
  exact hall st hst a hmem

/-- Where an action leaves the sequencer, and the bytes it then has counted: it holds, or it goes on. -/
theorem runAct_leads (a : Act) (n : Nat) (s : State) :
    (pos (runAct a n s) = pos s ∧ (runAct a n s).seq.idx = s.seq.idx) ∨
    (pos (runAct a n s) ∈ exits n (pos s) s.seq.idx a ∧ (runAct a n s).seq.idx = idxAfter s.seq.idx a) := by
  by_cases hl : localAct a = true
  · have m := localAct_moves hl n s
    refine .inr ⟨?_, m.idx⟩
    cases a with
    | load => cases hl
    | _ => exact m.pos
  cases a with
  | done => exact .inl ⟨rfl, rfl⟩
  | wIdle | holdSen | holdRsen | holdPen | holdAck =>
    simp only [runAct, actWIdle, actHoldPen]
    split
    · exact .inl ⟨rfl, rfl⟩
    · exact .inr (by simp [goNext_eq, pos, exits, targets, successors, idxAfter])
  | load b fail =>
    refine .inr ?_
    simp only [runAct, actLoad, loadTxb]
    split <;> split <;> simp [goNext_eq, pos, exits, idxAfter]
  | holdTx fail =>
    simp only [runAct, actHoldTx]
    split
    · exact .inl ⟨rfl, rfl⟩
    · refine .inr ?_
      split <;> simp [goNext_eq, pos, exits, targets, successors, idxAfter]
  | holdRcen =>
    simp only [runAct, actHoldRcen]
    split
    · exact .inl ⟨rfl, rfl⟩
    · refine .inr ?_
      cases s.known.rxb <;> simp [goNext_eq, pos, exits, targets, successors, idxAfter]
  | dataFromAckstat =>
    refine .inr ?_
    simp only [runAct, actDataFromAckstat]
    cases s.known.ackstat <;> simp [goNext_eq, pos, exits, targets, successors, idxAfter]
  | unlessReadNack dest =>
    refine .inr ?_
    simp only [runAct]
    split <;> simp [goNext_eq, pos, exits, targets, successors, idxAfter]
  | setSen | setRsen | setPen | setRcen | setAck =>
    refine .inr ?_
    simp [runAct, actSetSen, actSetRsen, actSetPen, actSetRcen, actSetAck, goNext_eq, pos, exits, targets,
      successors, idxAfter]
  | _ => exact absurd rfl hl

section counted

variable {due : Pos → Bool} {ptr len : BitVec 16} {s : State} {a : Act} {n : Nat}

theorem toNat_le_of_due {p q : Bool} (h : (p || !q) = true) : q.toNat ≤ p.toNat := by
  revert p q; decide

/-- No action counts more bytes than there are, or makes a byte due when all are counted. -/
theorem count_le {p q : Pos} {i : BitVec 16} (ha : aimsAt ptr len a) (hd : actDue due p a n = true)
    (h : i.toNat + (due p).toNat ≤ len.toNat) (hq : q ∈ exits n p i a) :
    (idxAfter i a).toNat + (due q).toNat ≤ len.toNat := by
  have hone := Bool.toNat_le (due q)
  cases a with
  | ifIdxIsLen l dest =>
    obtain rfl : l = len := ha
    have hdest := toNat_le_of_due (Bool.and_elim_right hd)
    by_cases hl : i = l
    · obtain rfl : q = dest := by simpa [exits, targets, hl] using hq
      simp only [idxAfter]; omega
    · have hne : i.toNat ≠ l.toNat := fun e => hl (BitVec.eq_of_toNat_eq e)
      simp only [idxAfter]; omega
  | unlessIdxBelowLen l dest =>
    obtain rfl : l = len := ha
    have hdest := toNat_le_of_due (Bool.and_elim_right hd)
    by_cases hl : i.toNat < l.toNat
    · simp only [idxAfter]; omega
    · obtain rfl : q = dest := by simpa [exits, targets, hl] using hq
      simp only [idxAfter]; omega
  | countByte =>
    obtain rfl : q = nextPos n p := by simpa [exits, targets, successors] using hq
    simp [actDue, storesTo] at hd
    simp only [hd, idxAfter, Bool.toNat_true, Bool.toNat_false, BitVec.toNat_add] at h ⊢
    exact (Nat.mod_le _ _).trans h
  | _ =>
    have hle := List.all_eq_true.1 (Bool.and_elim_right hd) q hq
    exact (Nat.add_le_add_left (toNat_le_of_due hle) _).trans h

theorem Counted.runAct (h : Counted due len s) (ha : aimsAt ptr len a) (hd : actDue due (pos s) a n = true) :
    Counted due len (runAct a n s) := by
  unfold Counted at h ⊢
  rcases runAct_leads a n s with ⟨hp, hi⟩ | ⟨hp, hi⟩
  · rw [hp, hi]; exact h
  · rw [hi]; exact count_le ha hd h hp

end counted

section burst

variable {i : Instr} {ptr len : BitVec 16} {s : State} (hi : storesBuffer i = true)
  (hr : burstRange i = some (ptr, len))
include hi hr

theorem Counted.tick (h : Counted (byteDue i) len s) (d : Drive) :
    Counted (byteDue i) len (tick (program i) d s) := by
  unfold Machine.tick seqTick
  rw [actAt_eq]
  split
  · split
    · exact h
    · rename_i a n ha
      exact h.runAct (aimsAt_of_hasAct hi hr (hasAct_of_actOf ha)) (test_of_everyAct (everyAct_actDue hi) ha)
  · have f := enginePhase_frame d s
    unfold Counted
    rw [f.pos, f.seq]
    exact h

/-- A byte stored is one that is due, so its address is in the range. -/
theorem Counted.stores (h : Counted (byteDue i) len s) (hw : i.wellFormed = true) {a : Act} {n : Nat}
    {p : BitVec 16} (ha : actOf (program i) (pos s) = some (a, n)) (hp : storesTo a = some p) :
    ptr.toNat ≤ (bufAddr p s.seq.idx).toNat ∧ (bufAddr p s.seq.idx).toNat < ptr.toNat + len.toNat := by
  have hbuf : p = ptr := by
    have := aimsAt_of_hasAct hi hr (hasAct_of_actOf ha)
    cases a with
    | writeBuf | storeIf => cases hp; exact this
    | _ => cases hp
  have hdue : byteDue i (pos s) = true := by
    simpa [hp] using Bool.and_elim_left (test_of_everyAct (everyAct_actDue hi) ha)
  have hrange : ptr.toNat + len.toNat ≤ 65536 := by
    cases i <;> cases hi <;> cases hr <;> simp [Instr.wellFormed, rangeOk] at hw
    · exact hw
    · exact hw.1.2
  unfold Counted at h
  simp only [hdue, Bool.toNat_true] at h
  rw [hbuf, bufAddr, BitVec.toNat_add, Nat.mod_eq_of_lt (by omega)]
  omega

/-- An accepted burst that fills its buffer leaves every address outside its range as it was. -/
theorem memRead_burst (hacc : accepts i s) {x : BitVec 16}
    (hx : ¬ (ptr.toNat ≤ x.toNat ∧ x.toNat < ptr.toNat + len.toNat)) (ins : List Input) :
    memRead x (runTicks (program i) ins (acceptCommand (encode i) s)) = memRead x s := by
  have hw : i.wellFormed = true := by obtain ⟨-, -, -, -, -, -, hw, -⟩ := hacc; exact hw
  have h0 : Counted (byteDue i) len (acceptCommand (encode i) s) := by
    cases i <;> cases hi <;> cases hr
    · simp [Counted, byteDue, pos]
    · simp [Instr.wellFormed] at hw
      simpa [Counted, byteDue, pos] using hw.2
  refine memRead_runTicks (K := Counted (byteDue i) len) (fun d t h => h.tick hi hr d) (fun d t h => ?_) ins h0
  refine memRead_tick (fun a n p ha hp => ?_) d
  rintro rfl
  exact hx (h.stores hi hr hw ha hp)

end burst

/-- A command that stores nothing leaves every address as it was, whatever it does. -/
theorem memRead_of_not_stores {i : Instr} (hi : storesBuffer i = false) (ins : List Input) (s : State) (x : BitVec 16) :
    memRead x (runTicks (program i) ins s) = memRead x s := by
  have hall : ((program i).all fun st => st.all fun a => (storesTo a).isNone) = true := by
    cases i <;> cases hi <;> rfl
  refine memRead_runTicks (K := fun _ => True) (fun _ _ _ => trivial) (fun d t _ => ?_) ins trivial
  refine memRead_tick (fun a n p ha hp => ?_) d
  have := forall_hasAct hall (hasAct_of_actOf ha)
  simp [hp] at this

/-- Settles O53: a command that is not accepted stores nothing; of those accepted, the two that fill their buffer
store only bytes that are due. -/
theorem bufferFrame : Obligations.BufferFrame := by
  unfold Obligations.BufferFrame
  intro i s t h
  rcases exec_next h with rfl | ⟨-, c, rfl⟩ | ⟨hacc, rfl⟩
  · exact ⟨fun _ _ => rfl, fun _ _ _ _ _ => rfl⟩
  · exact ⟨fun _ _ => rfl, fun _ _ _ _ _ => rfl⟩
  have hkept (hi : storesBuffer i = false) := memRead_of_not_stores hi s.inputs (acceptCommand (encode i) s)
  refine ⟨hkept, fun ptr len hr a ha => ?_⟩
  cases hi : storesBuffer i with
  | false => exact hkept hi a
  | true => exact memRead_burst hi hr hacc ha s.inputs

end Sys2Proof.Machine
end

section
/-! Decoding and encoding are inverse to each other, and the words that are no command (spec/30_encoding.md R101, R109, R117,
R118, R124, R125), with the address byte of R113. Settles O1, O2, O5 and O6. -/

namespace Sys2Proof.Machine

/-- Settles O1: the command's word meets its row of the opcode map, and the row builds the command from it. -/
theorem encodeThenDecode : Obligations.EncodeThenDecode := by
  unfold Obligations.EncodeThenDecode
  exact fun _ hw => decode_encode hw

/-! The fields of a word that are more than their operand: what the operand alone gives back (R101, R105). -/

section parts

variable (w : CmdWord)

theorem devc_devField : devc (devField w) = ctrlField w &&& 0x7F#8 := by
  apply BitVec.eq_of_getLsbD_eq; intro i hi
  simp only [devc, devField, ctrlField, BitVec.getLsbD_append, BitVec.getLsbD_extractLsb', BitVec.getLsbD_and]
  interval_cases i <;> simp

theorem low8_extractLsb' (k : Nat) : low8 (w.extractLsb' k 8) = w.extractLsb' k 16 &&& 0x00FF#16 := by
  apply BitVec.eq_of_getLsbD_eq; intro i hi
  simp only [low8, BitVec.getLsbD_append, BitVec.getLsbD_extractLsb', BitVec.getLsbD_and]
  interval_cases i <;> simp

theorem low8_addrField : low8 (addrField w) = regField w &&& 0x00FF#16 := low8_extractLsb' w 32

theorem low8_data8Field : low8 (data8Field w) = data16Field w &&& 0x00FF#16 := low8_extractLsb' w 16

theorem fieldAux_fields : fieldAux (bitStartField w) (lengthField w) = ptrField w &&& 0x00F7#16 := by
  apply BitVec.eq_of_getLsbD_eq; intro i hi
  simp only [fieldAux, bitStartField, lengthField, ptrField, BitVec.getLsbD_append, BitVec.getLsbD_extractLsb',
    BitVec.getLsbD_and]
  interval_cases i <;> simp

theorem fieldAux_bitStartField : fieldAux (bitStartField w) 0#4 = ptrField w &&& 0x0007#16 := by
  apply BitVec.eq_of_getLsbD_eq; intro i hi
  simp only [fieldAux, bitStartField, ptrField, BitVec.getLsbD_append, BitVec.getLsbD_extractLsb', BitVec.getLsbD_and]
  interval_cases i <;> simp

/-- A word with `Z = 00` is made of its five fields. -/
theorem eq_pack_fields (hz : w.extractLsb' 56 2 = 0#2) :
    w = pack (opField w) (ctrlField w) (regField w) (data16Field w) (ptrField w) := by
  have h56 : w.getLsbD 56 = false := by simpa using congrArg (·.getLsbD 0) hz
  have h57 : w.getLsbD 57 = false := by simpa using congrArg (·.getLsbD 1) hz
  apply BitVec.eq_of_getLsbD_eq; intro i hi
  simp only [opField, ctrlField, regField, data16Field, ptrField, pack, BitVec.getLsbD_extractLsb',
    BitVec.getLsbD_append]; grind

end parts

/-- A word masked and set, its two zero bits kept zero, is masked and set field by field. -/
theorem and_or_eq_pack (w m p : CmdWord) (hm : m.extractLsb' 56 2 = 0#2) (hp : p.extractLsb' 56 2 = 0#2) :
    w &&& m ||| p = pack (opField w &&& opField m ||| opField p) (ctrlField w &&& ctrlField m ||| ctrlField p)
      (regField w &&& regField m ||| regField p) (data16Field w &&& data16Field m ||| data16Field p)
      (ptrField w &&& ptrField m ||| ptrField p) := by
  have hz : (w &&& m ||| p).extractLsb' 56 2 = 0#2 := by
    rw [BitVec.extractLsb'_or, BitVec.extractLsb'_and, hm, hp, BitVec.and_zero, BitVec.or_zero]
  rw [eq_pack_fields _ hz]
  simp only [opField, ctrlField, regField, data16Field, ptrField, BitVec.extractLsb'_or, BitVec.extractLsb'_and]

/-- A word that meets a row's `match` is that `match`, with bits of its own where the `mask` is clear. -/
theorem and_not_or_eq_self {w m p : CmdWord} (h : w &&& m = p) : w &&& ~~~m ||| p = w := by
  rw [← h, ← BitVec.and_or_distrib_left, BitVec.not_or_self, BitVec.and_allOnes]

/-- No row lets an operand into the two bits of `Z`, nor asks for a 1 there (R101). -/
theorem rows_keep_z : ∀ r ∈ opcodeMap,
    (~~~r.mask).extractLsb' 56 2 = 0#2 ∧ r.pattern.extractLsb' 56 2 = 0#2 := by decide

/-- What a row builds from a word that meets its `match` has that word as its encoding: in each field the bits that carry an
operand are the operand's, and the others are the row's (R117). -/
theorem encode_build {r : OpcodeRow} (hr : r ∈ opcodeMap) {w : CmdWord} (hm : w &&& r.mask = r.pattern) :
    encode (r.build w) = w := by
  obtain ⟨hzm, hzp⟩ := rows_keep_z r hr
  have hw := and_not_or_eq_self hm
  have hctrl : ctrlField w &&& ctrlField (~~~r.mask) ||| ctrlField r.pattern = ctrlField w := by
    simpa only [ctrlField, BitVec.extractLsb'_or, BitVec.extractLsb'_and] using congrArg ctrlField hw
  have hones (x : BitVec 16) : x &&& 0xFFFF#16 = x := BitVec.and_allOnes
  conv_rhs => rw [← hw, and_or_eq_pack w _ _ hzm hzp]
  simp only [opcodeMap, primitiveRows, registerRows, burstRows, List.mem_append, List.mem_cons, List.not_mem_nil,
    or_false] at hr
  rcases hr with (rfl | rfl | rfl | rfl | rfl | rfl | rfl | rfl | rfl) | (rfl | rfl | rfl | rfl | rfl | rfl | rfl) |
    (rfl | rfl | rfl | rfl | rfl | rfl)
  -- Only the rows with a control byte need what `hctrl` says: its bit 0 is clear in `w` (R114).
  all_goals
    simp only [encode, devc_devField, low8_addrField, low8_data8Field, fieldAux_fields, fieldAux_bitStartField]
    simp [opField, ctrlField, regField, data16Field, ptrField, lenField, hones] at hctrl ⊢
  all_goals rw [hctrl]

/-- Settles O2: the row that a decoded word meets builds the command, and the command has the word as its encoding. -/
theorem decodeThenEncode : Obligations.DecodeThenEncode := by
  unfold Obligations.DecodeThenEncode
  intro w i h
  obtain ⟨r, hr, -, hm, rfl⟩ := decode_inv h
  exact encode_build hr hm

/-- Settles O5: each word decodes to its command, and so is the command's encoding. -/
theorem workedEncodings : Obligations.WorkedEncodings := by
  unfold Obligations.WorkedEncodings
  intro p hp
  have hd : decode p.1 = .ok p.2 := by revert p; decide
  exact ⟨decodeThenEncode _ _ hd, hd⟩

/-- Settles O6: the concatenation is the shift and the or. -/
theorem addressByte : Obligations.AddressByte := by
  unfold Obligations.AddressByte
  refine ⟨fun dev rw => ?_, rfl, rfl⟩
  rw [addrByte, BitVec.append_def, BitVec.shiftLeftZeroExtend_eq, BitVec.setWidth'_eq]

end Sys2Proof.Machine
end

section
/-! Acceptance of a word written to `CMD` (spec/30_encoding.md R117, R118, R120; spec/60_exceptions.md R293). Settles O3, O4 and
O18. -/

namespace Sys2Proof.Machine

variable {w : CmdWord} {i : Instr} {s : State}

/-! The two ways a word is no command (R117, R118). -/

theorem decode_illegalOpcode_iff : decode w = .error .illegalOpcode ↔ rowOf (opField w) = none := by
  unfold decode
  cases rowOf (opField w) with
  | none => simp
  | some r => by_cases hm : w &&& r.mask = r.pattern <;> simp [hm]

theorem decode_of_mask_ne {r : OpcodeRow} (hr : rowOf (opField w) = some r) (hm : w &&& r.mask ≠ r.pattern) :
    decode w = .error .illegalOperand := by
  simp [decode, hr, hm]

/-- The opcodes without a row, all 64 looked up in the map (R118). -/
theorem rowOf_none_iff : ∀ op : BitVec 6, rowOf op = none ↔
    op.toNat = 0x00 ∨ (0x0A ≤ op.toNat ∧ op.toNat ≤ 0x0F) ∨ op.toNat = 0x17 ∨
      (0x1E ≤ op.toNat ∧ op.toNat ≤ 0x3F) := by
  decide

/-! Steps 1 to 3 of R120, before the word is looked at. -/

section gate

variable (go : State → Host.Outcome State Fault Refusal)

theorem gate_of_fatal (ht : s.cfg.timeout = none) (hf : s.seq.fatal = true) : gate s go = .next s := by
  simp [gate, ht, hf]

theorem gate_of_busy (ht : s.cfg.timeout = none) (hr : s.rst = false) (hf : s.seq.fatal = false)
    (hb : s.seq.busy = true) : gate s go = .next (raiseFatal .reentry s) := by
  simp [gate, ht, hr, hf, hb]

theorem gate_of_launch (hl : launch s) :
    gate s go = if s.ctrl.moden then go s else .next (raiseFatal .moduleDisabled s) := by
  obtain ⟨ht, hr, hf, hb, hl⟩ := hl
  cases hm : s.ctrl.moden <;> simp [gate, ht, hr, hf, hb, hl, hm]

end gate

theorem hostWrite_no_cmd {e : DecodeError} (hd : decode w = .error e) (s : State) :
    hostWrite 4#3 w s = gate s fun s => .next (raiseFatal (decodeFatal e) s) := by
  rw [hostWrite, if_pos rfl, writeCmd, hd]

/-- Whatever word is written, the state passes steps 1 to 3 of R120 first. -/
theorem hostWrite_eq_gate (w : CmdWord) (s : State) : ∃ go, hostWrite 4#3 w s = gate s go := by
  cases hd : decode w with
  | ok i => exact ⟨_, (hostWrite_cmd hd s).trans (exec_eq_issue i s)⟩
  | error e => exact ⟨_, hostWrite_no_cmd hd s⟩

/-! Steps 4 to 9 of R120, in a launch state with the module enabled. -/

section enabled

variable (hl : launch s) (hm : s.ctrl.moden = true)
include hl hm

theorem hostWrite_decodeError {e : DecodeError} (hd : decode w = .error e) :
    hostWrite 4#3 w s = .next (raiseFatal (decodeFatal e) s) := by
  rw [hostWrite_no_cmd hd, gate_of_launch _ hl, if_pos hm]

theorem exec_illFormed (hw : i.wellFormed = false) : exec i s = .next (raiseFatal .illegalOperand s) := by
  rw [exec_eq_issue, issue, gate_of_launch _ hl, if_pos hm, if_pos (by simp [hw])]

theorem exec_buffer_refused (hw : i.wellFormed = true) (hb : bufferOk i s = false) :
    exec i s = .next (raiseFatal .bufferFault s) := by
  rw [exec_eq_issue, issue, gate_of_launch _ hl, if_pos hm, if_neg (by simp [hw]), if_pos (by simp [hb])]

theorem exec_sequence_refused (hw : i.wellFormed = true) (hb : bufferOk i s = true) (hp : preOk i s = false) :
    exec i s = .next (raiseFatal .sequenceFault s) := by
  rw [exec_eq_issue, issue, gate_of_launch _ hl, if_pos hm, if_neg (by simp [hw]), if_neg (by simp [hb]),
    if_pos (by simp [hp])]

theorem accepts_of_launch (hw : i.wellFormed = true) (hb : bufferOk i s = true) (hp : preOk i s = true) : accepts i s := by
  obtain ⟨ht, hr, hf, hbusy, hlaunch⟩ := hl
  exact ⟨ht, hr, hf, hbusy, hlaunch, hm, hw, hb, hp⟩

end enabled

/-- Without a drive at the head of the inputs no tick is run. -/
theorem runTicks_of_no_drive (prog : List Step) {ins : List Input} (h : ∀ d rest, ins ≠ .drive d :: rest) (s : State) :
    runTicks prog ins s = { s with inputs := ins } := by
  unfold runTicks
  split
  · exact absurd rfl (h _ _)
  · rfl

/-- Acceptance latches the word that was written, since the command has no other (R120). -/
theorem hostWrite_accepted (hd : decode w = .ok i) (ha : accepts i s) (hin : ∀ d rest, s.inputs ≠ .drive d :: rest) :
    hostWrite 4#3 w s = .next (acceptCommand w s) := by
  rw [hostWrite_cmd hd, exec_of_accepts ha, runTicks_of_no_drive _ hin, decodeThenEncode w i hd]
  rfl

/-- Settles O3: the opcodes without a row are those listed, and a word without a row is refused at the port. -/
theorem illegalOpcodes : Obligations.IllegalOpcodes := by
  unfold Obligations.IllegalOpcodes
  intro w s
  exact ⟨decode_illegalOpcode_iff.trans (rowOf_none_iff (opField w)), fun hd hl hm => hostWrite_decodeError hl hm hd⟩

/-- Settles O4: the bit stands in the masked word and not in the row's `match`, so the two differ. -/
theorem nonOperandBitsIllegal : Obligations.NonOperandBitsIllegal := by
  unfold Obligations.NonOperandBitsIllegal
  intro w r k s hr hmask hpat hbit
  have hne : w &&& r.mask ≠ r.pattern := by
    intro h
    have hk : (w &&& r.mask).getLsbD k = r.pattern.getLsbD k := by rw [h]
    simp [hmask, hpat, hbit] at hk
  have hd := decode_of_mask_ne hr hne
  exact ⟨hd, fun hl hm => hostWrite_decodeError hl hm hd⟩

/-- Settles O18: steps 1 to 3 are the gate's, 4 and 5 the decoder's, 6 to 8 the command's, and 9 latches the word. -/
theorem acceptanceInOrder : Obligations.AcceptanceInOrder := by
  unfold Obligations.AcceptanceInOrder
  intro w s ht
  obtain ⟨go, hgo⟩ := hostWrite_eq_gate w s
  refine ⟨?_, fun hr hf hb => ?_, fun hl => ⟨fun hm => ?_, fun hm hr => ?_, fun r hm hr hne => ?_, fun i hm hd => ?_⟩⟩
  · rintro (hr | hf)
    · exact hostWrite_of_rst hr ht _ w
    · exact hgo.trans (gate_of_fatal go ht hf)
  · exact hgo.trans (gate_of_busy go ht hr hf hb)
  · rw [hgo, gate_of_launch go hl, hm]; rfl
  · exact hostWrite_decodeError hl hm (decode_illegalOpcode_iff.2 hr)
  · exact hostWrite_decodeError hl hm (decode_of_mask_ne hr hne)
  · have hexec := hostWrite_cmd hd s
    exact ⟨fun hw => hexec.trans (exec_illFormed hl hm hw),
      fun hw hb => hexec.trans (exec_buffer_refused hl hm hw hb),
      fun hw hb hp => hexec.trans (exec_sequence_refused hl hm hw hb hp),
      fun hw hb hp hin => hostWrite_accepted hd (accepts_of_launch hl hm hw hb hp) hin⟩

end Sys2Proof.Machine
end

section
/-! The load of `TXB` and the waits and samples of the line engine (spec/40_line_engine.md R146, R147, R153, R154, R156).
Settles O24, O25 and O26. -/

namespace Sys2Proof.Machine

variable {s : State}

/-! The load (R156). -/

theorem loadRejected_iff : loadRejected s = true ↔ s.ctrl.sen = true ∨ s.ctrl.rsen = true ∨ s.ctrl.pen = true ∨
    s.ctrl.rcen = true ∨ s.ctrl.acken = true ∨ s.stat.trun = true ∨ s.stat.tbf = true ∨ s.stat.wcol = true := by
  simp only [loadRejected, anyPending, Bool.or_eq_true, or_assoc]

theorem loadTxb_rejected (h : loadRejected s = true) (b : BitVec 8) :
    loadTxb b s = { s with stat := { s.stat with wcol := true } } := if_pos h

theorem loadTxb_accepted (h : ¬ loadRejected s = true) (b : BitVec 8) :
    loadTxb b s = beginOp .transmit .t0 { s with
      txb := b
      known := { s.known with txb := true }
      stat := { s.stat with tbf := true, trun := true }
      seq := { s.seq with bstate := bstateAfterLoad s.seq.bstate } } := if_neg h

/-- The byte after a START or a repeated START is an address byte, every other a data byte (R45). -/
theorem bstateAfterLoad_eq (x : Bstate) :
    bstateAfterLoad x = if x = .start ∨ x = .restart then .addressPhase else .dataPhase := by
  cases x <;> rfl

/-- Settles O24: the eight flags are the condition of the detector, and each branch of the load says the rest. -/
theorem loadOfTxb : Obligations.LoadOfTxb := by
  unfold Obligations.LoadOfTxb
  refine fun b s => ⟨fun h => loadTxb_rejected (loadRejected_iff.2 h) b, fun h => ?_⟩
  rw [loadTxb_accepted (mt loadRejected_iff.1 h), bstateAfterLoad_eq]
  rfl

/-! The wait for SCL (R146). -/

/-- Settles O25: each of the six phases is one release of SCL, which stays or goes on by the level SCL has. -/
theorem clockStretchWait : Obligations.ClockStretchWait := by
  unfold Obligations.ClockStretchWait
  intro p q d s hpq hm hp he
  rw [enginePhase_sclWait hpq hm hp he, releaseScl_eq]
  exact ⟨fun hd => by rw [if_pos hd], fun hd => by rw [hd]; rfl⟩

/-! The samples of SDA (R147, R153, R154). -/

theorem samplePoint_iff : samplePoint s = true ↔ s.eng.phase = .r3 ∨ s.eng.phase = .p4 ∨
    (s.eng.phase = .tc ∧ s.eng.sr.getLsbD 7 = true) ∨ (s.eng.phase = .a2 ∧ s.ctrl.ackdt = true) := by
  unfold samplePoint
  split <;> simp_all

/-- `STAT` after the present phase: the four phases that watch for a collision, the three of `Transmit` and the one of
`Receive` that write a flag of their own, and the rest (R150 to R155). -/
def statAfterPhase (d : Drive) (s : State) : Stat :=
  match s.eng.phase with
  | .r3 | .p4 | .tc | .a2 => monitorBcol s.stat (samplePoint s) (sdaIn s.eng d)
  | .t8 => { s.stat with tbf := false }
  | .t10 => { s.stat with ackstat := sdaIn s.eng d }
  | .t11 => { s.stat with trun := false }
  | .v8 => if s.stat.rbf then { s.stat with rxov := true } else { s.stat with rbf := true }
  | _ => s.stat

section phases

variable (hm : s.ctrl.moden = true) (hop : phaseOp s.eng.phase = s.eng.eop) (d : Drive)
include hm hop

theorem enginePhase_stat : (enginePhase d s).stat = statAfterPhase d s := by
  rw [enginePhase, if_pos hm, ← hop]
  unfold statAfterPhase samplePoint
  cases hp : s.eng.phase with
  | none => rfl
  | s1 =>
    simp only [phaseOp, phaseGenStart, hp]
    split <;> rfl
  | s2 | s3 | s4 => simp [phaseOp, phaseGenStart, hp]
  | r1 | r2 | r3 | r4 | r5 | r6 => simp [phaseOp, phaseGenRestart, hp, releaseScl_eq]
  | p1 | p2 | p3 | p4 | p5 => simp [phaseOp, phaseGenStop, hp, releaseScl_eq]
  | t0 | ta | tb | tc | td | t8 | t9 | t10 | t11 => simp [phaseOp, phaseTransmit, hp, releaseScl_eq]
  | v0 | va | vb | vc => simp [phaseOp, phaseReceive, hp, releaseScl_eq]
  | v8 => cases hr : s.stat.rbf <;> simp [phaseOp, phaseReceive, hp, hr]
  | a0 | a1 | a2 | a3 | a4 => simp [phaseOp, phaseAckSeq, hp, releaseScl_eq]

theorem enginePhase_bcol :
    (enginePhase d s).stat.bcol = (s.stat.bcol || (samplePoint s && !sdaIn s.eng d)) := by
  rw [enginePhase_stat hm hop]
  unfold statAfterPhase
  split
  case h_8 => cases s.stat.rbf <;> simp [samplePoint, *]
  all_goals simp [samplePoint, monitorBcol, *]

theorem enginePhase_ackstat : (enginePhase d s).stat.ackstat =
    if s.eng.phase = .t10 then sdaIn s.eng d else s.stat.ackstat := by
  rw [enginePhase_stat hm hop]
  unfold statAfterPhase
  split
  case h_8 => cases s.stat.rbf <;> simp [*]
  case h_9 => exact (if_neg (by assumption)).symm
  all_goals simp [monitorBcol, *]

/-- Of what the environment does, a sample point takes nothing but the collision. -/
theorem enginePhase_samplePoint (h : samplePoint s = true) (d' : Drive) : enginePhase d s =
    { enginePhase d' s with stat := { (enginePhase d' s).stat with bcol := (enginePhase d s).stat.bcol } } := by
  rw [enginePhase, enginePhase, if_pos hm, if_pos hm, ← hop]
  rcases samplePoint_iff.1 h with hp | hp | ⟨hp, -⟩ | ⟨hp, -⟩
  · simp only [hp, phaseOp, phaseGenRestart]; rfl
  · simp only [hp, phaseOp, phaseGenStop]; rfl
  · simp only [hp, phaseOp, phaseTransmit]; rfl
  · simp only [hp, phaseOp, phaseAckSeq]; rfl

theorem enginePhase_t10_known (hp : s.eng.phase = .t10) : (enginePhase d s).known.ackstat = true := by
  rw [hp] at hop
  simp [enginePhase, hm, ← hop, phaseOp, phaseTransmit, hp]

theorem enginePhase_t11_trace (hp : s.eng.phase = .t11) :
    (enginePhase d s).trace = s.trace ++ [.Tx s.txb s.stat.ackstat] := by
  rw [hp] at hop
  simp [enginePhase, hm, ← hop, phaseOp, phaseTransmit, hp]

theorem enginePhase_vb_sr (hp : s.eng.phase = .vb) :
    (enginePhase d s).eng.sr = (s.eng.sr <<< 1) ||| (0#7 ++ BitVec.ofBool (sdaIn s.eng d)) := by
  rw [hp] at hop
  simp [enginePhase, hm, ← hop, phaseOp, phaseReceive, hp]

end phases

/-- A bit shifted in is bit 0, and every other bit moves up by one. -/
theorem getLsbD_shiftIn (x : BitVec 8) (b : Bool) (k : Nat) :
    ((x <<< 1) ||| (0#7 ++ BitVec.ofBool b)).getLsbD k =
      if k = 0 then b else decide (k < 8) && x.getLsbD (k - 1) := by
  rw [BitVec.getLsbD_or, BitVec.getLsbD_shiftLeft, BitVec.getLsbD_append]
  rcases k with - | k <;> simp

/-- Settles O26: `STAT` after a phase has the two flags, and the sample points and the phases T10, T11 and Vb give the
rest. -/
theorem sdaSamples : Obligations.SdaSamples := by
  unfold Obligations.SdaSamples
  intro d s hm hop
  have hack := enginePhase_ackstat hm hop d
  refine ⟨enginePhase_bcol hm hop d, fun h => enginePhase_samplePoint hm hop d h _,
    fun hp => ⟨by rw [hack, if_pos hp], enginePhase_t10_known hm hop d hp⟩, fun hp => by rw [hack, if_neg hp],
    enginePhase_t11_trace hm hop d, fun hp k => ?_⟩
  rw [enginePhase_vb_sr hm hop d hp, getLsbD_shiftIn]

end Sys2Proof.Machine
end

section
/-! The commands of the bus controller complete (spec/41_bus_controller.md R185 to R188). Settles O30 and O31. -/

namespace Sys2Proof.Machine

/-- A command whose run comes within its ticks to its `done`, with the bus events `es` and the working registers `w`,
answers a next state that is completed with their result; the buffer is kept by a command that stores nothing (R121). -/
theorem completes_of_runs {i : Instr} {s : State} {es : List Event} {w : Work} {n k : Nat} {idled : Bool}
    (ha : accepts i s) (hs : served i s) (hb : storesBuffer i = false) (hn : n ≤ tickBound i)
    (hrun : RunsTo (program i) n 1 (acceptCommand (encode i) s) fun fs t => fs = es ∧ work t = w)
    (hdone : actOf (program i) w.pos = some (.done, k)) (hw : w.wcol = (!idled && s.stat.wcol)) :
    ∃ t, exec i s = .next t ∧
      completed i s es { w.res with outcome := w.out, valid := true } idled t ∧ bufferKept s t := by
  obtain ⟨ready, -⟩ := ready_of_accepts ha
  have done : ∀ fs t, fs = es ∧ work t = w → ∃ k, actOf (program i) (pos t) = some (.done, k) := by
    rintro _ t ⟨-, rfl⟩
    exact ⟨k, hdone⟩
  obtain ⟨_, u, j, effect, ⟨rfl, rfl⟩, hexec⟩ := exec_of_runs ha hs hn hrun done
  obtain ⟨kept, -⟩ := bufferFrame i s _ hexec
  exact ⟨_, hexec, completed_of_effect effect (effect.ready ready).eop rfl hw, kept hb⟩

section commands

variable {s : State}

/-- `start` is accepted on an idle bus only, so the `GenStart` it runs finds the drivers released (R291, R148). -/
theorem busFree_of_accepts_start (ha : accepts .start s) : BusFree (acceptCommand (encode .start) s) := by
  have ⟨_, _, _, _, _, _, _, _, hpre⟩ := ha
  exact (ready_of_accepts ha).2 (beq_iff_eq.1 hpre)

theorem start_completes (ha : accepts .start s) (hs : served .start s) :
    ∃ t, exec .start s = .next t ∧
      completed .start s [.S] (resOf .success false 0x00#8 0#16) false t ∧ bufferKept s t := by
  obtain ⟨hsda, hscl⟩ := busFree_of_accepts_start ha
  have hrun := runs_start (prog := progStart) (m := 1) (ready_of_accepts ha).1 rfl hsda hscl rfl rfl
  exact completes_of_runs ha hs rfl le_rfl hrun rfl rfl

theorem restart_completes (ha : accepts .restart s) (hs : served .restart s) :
    ∃ t, exec .restart s = .next t ∧
      completed .restart s [.Sr] (resOf .success false 0x00#8 0#16) false t ∧ bufferKept s t := by
  have hrun := runs_restart (prog := progRestart) (m := 1) (ready_of_accepts ha).1 rfl rfl rfl
  exact completes_of_runs ha hs rfl le_rfl hrun rfl rfl

theorem stop_completes (ha : accepts .stop s) (hs : served .stop s) :
    ∃ t, exec .stop s = .next t ∧
      completed .stop s [.P] (resOf .success true 0x00#8 0#16) false t ∧ bufferKept s t := by
  have hrun := runs_stop (prog := progStop) (m := 1) (ready_of_accepts ha).1 rfl rfl rfl
  exact completes_of_runs ha hs rfl le_rfl hrun rfl rfl

end commands

/-- Settles O30: the run of `waitIdle` is one `W_IDLE` between engine operations, which is no bus event. -/
theorem waitIdleCompletes : Obligations.WaitIdleCompletes := by
  unfold Obligations.WaitIdleCompletes
  intro s ha hs
  have hrun := runs_wIdle (prog := progWaitIdle) (m := 1) (ready_of_accepts ha).1 rfl rfl
  exact completes_of_runs ha hs rfl le_rfl hrun rfl rfl

/-- Settles O31: the run of each command is the micro-operation of its condition, which is its one bus event. -/
theorem conditionsComplete : Obligations.ConditionsComplete := by
  unfold Obligations.ConditionsComplete
  exact fun s => ⟨start_completes, restart_completes, stop_completes⟩

end Sys2Proof.Machine
end

section
/-! The commands of the byte transceiver complete (spec/42_byte_transceiver.md R204 to R208). Settles O32, O33 and
O34. -/

namespace Sys2Proof.Machine

variable {s : State}

/-- `TX` with `WCOL = 1` (R201): the load is rejected, and nothing is sent. -/
theorem runs_tx_rejected {prog : List Step} {w : Work} {src : ByteSrc} {fail : Pos} {n m : Nat} (r : Ready s)
    (hw : work s = w) (hc : w.wcol = true) (ha : actOf prog w.pos = some (.load src fail, n)) :
    RunsTo prog (1 + m) m s (fun es t => es = [] ∧ work t = { w with pos := fail, out := .writeCollision }) := by
  subst hw
  exact (reach_tx_rejected r hc ha).mono fun _ ⟨effect, hw⟩ => ⟨_, effect, rfl, hw⟩

theorem work_dataFromVal (n : Nat) (s : State) : work (runAct .dataFromVal n s) =
    { work s with pos := nextPos n (work s).pos, res := { (work s).res with data := (work s).val } } := by
  rw [runAct, goNext_eq]
  rfl

/-- `RX` and the move of its byte to `RES.DATA`, the one step of `readByte` (R205). -/
theorem runs_readByte {m : Nat} (r : Ready s) (hp : (work s).pos = ⟨0#8, 0⟩) :
    RunsTo progReadByte (28 + (1 + m)) m s (fun es t => ∃ v, es = [.Rx v] ∧
      work t = { work s with pos := ⟨1#8, 0⟩, val := v, res := { (work s).res with data := v } }) := by
  refine (runs_rx (n := 3) r rfl (by rw [hp]; rfl) (by rw [hp]; rfl)).bind r ?_
  rintro _ t rt - ⟨v, rfl, hv⟩
  rw [hp] at hv
  refine (runs_local rt hv rfl rfl (localAct_moves rfl 3 t).effect).mono ?_
  rintro _ _ - ⟨rfl, rfl⟩
  exact ⟨v, rfl, by rw [work_dataFromVal, hv]; rfl⟩

/-- As `completes_of_runs`, for a run whose events and working registers the environment has a part in: they are
related by `P`. The flags of `STAT` are left as the run leaves them (R121). -/
theorem completes_with_of_runs {i : Instr} {P : List Event → State → Prop} {n : Nat} {idled : Bool}
    (ha : accepts i s) (hs : served i s) (hb : storesBuffer i = false) (hn : n ≤ tickBound i)
    (hrun : RunsTo (program i) n 1 (acceptCommand (encode i) s) P)
    (hend : ∀ es u, P es u →
      (∃ k, actOf (program i) (work u).pos = some (.done, k)) ∧ (work u).wcol = (!idled && s.stat.wcol)) :
    ∃ es u t, P es u ∧ exec i s = .next t ∧ t.stat = u.stat ∧
      completed i s es { (work u).res with outcome := (work u).out, valid := true } idled t ∧ bufferKept s t := by
  obtain ⟨ready, -⟩ := ready_of_accepts ha
  obtain ⟨es, u, j, effect, hp, hexec⟩ := exec_of_runs ha hs hn hrun fun es u hp => (hend es u hp).1
  obtain ⟨-, hw⟩ := hend es u hp
  obtain ⟨kept, -⟩ := bufferFrame i s _ hexec
  exact ⟨es, u, _, hp, hexec, rfl, completed_of_effect effect (effect.ready ready).eop rfl hw, kept hb⟩

theorem writeByte_completes {b : BitVec 8} (ha : accepts (.writeByte b) s) (hs : served (.writeByte b) s)
    (hc : s.stat.wcol = false) :
    ∃ a t, exec (.writeByte b) s = .next t ∧
      completed (.writeByte b) s [.Tx b a] (resOf (ackOutcome a) false 0x00#8 0#16) false t ∧ bufferKept s t := by
  have hrun := runs_tx (prog := progWriteByte b) (m := 1) (ready_of_accepts ha).1 rfl hc rfl rfl rfl
  obtain ⟨_, u, t, ⟨a, rfl, hu⟩, hexec, -, done, kept⟩ :=
    completes_with_of_runs (idled := false) ha hs rfl le_rfl hrun fun _ u ⟨a, _, hu⟩ => by
      rw [hu]
      exact ⟨⟨1, by cases a <;> rfl⟩, rfl⟩
  rw [hu] at done
  exact ⟨a, t, hexec, done, kept⟩

theorem writeByte_collides {b : BitVec 8} (ha : accepts (.writeByte b) s) (hs : served (.writeByte b) s)
    (hc : s.stat.wcol = true) :
    ∃ t, exec (.writeByte b) s = .next t ∧
      completed (.writeByte b) s [] (resOf .writeCollision false 0x00#8 0#16) false t ∧ bufferKept s t := by
  have hrun := runs_tx_rejected (prog := progWriteByte b) (m := 1) (ready_of_accepts ha).1 rfl hc rfl
  exact completes_of_runs ha hs rfl (show 2 ≤ 40 by omega) hrun rfl rfl

theorem readByte_completes (ha : accepts .readByte s) (hs : served .readByte s) :
    ∃ v t, exec .readByte s = .next t ∧
      completed .readByte s [.Rx v] (resOf .success false v 0#16) false t ∧ bufferKept s t := by
  have hrun := runs_readByte (m := 1) (ready_of_accepts ha).1 rfl
  obtain ⟨_, u, t, ⟨v, rfl, hu⟩, hexec, -, done, kept⟩ :=
    completes_with_of_runs (idled := false) ha hs rfl le_rfl hrun fun _ u ⟨v, _, hu⟩ => by
      rw [hu]
      exact ⟨⟨1, rfl⟩, rfl⟩
  rw [hu] at done
  exact ⟨v, t, hexec, done, kept⟩

/-- The command whose one step is the acknowledge sequence with level `d` (R206, R207); an ACK leaves `BCOL`. -/
theorem acknowledge_completes {i : Instr} {d : Bool} (hprog : program i = [ack d, [.done]])
    (hb : storesBuffer i = false) (hn : tickBound i = 8) (ha : accepts i s) (hs : served i s) :
    ∃ t, exec i s = .next t ∧ completed i s [.Ak d] (resOf .success false 0x00#8 0#16) false t ∧
      (d = false → t.stat.bcol = s.stat.bcol) ∧ bufferKept s t := by
  have hrun := runs_ack (prog := [ack d, [.done]]) (m := 1) (ready_of_accepts ha).1 rfl rfl rfl
  obtain ⟨_, u, t, ⟨rfl, hbcol, hu⟩, hexec, hstat, done, kept⟩ :=
    completes_with_of_runs (idled := false) ha hs hb hn.ge (hprog ▸ hrun) fun _ u ⟨_, _, hu⟩ => by
      rw [hu, hprog]
      exact ⟨⟨1, rfl⟩, rfl⟩
  rw [hu] at done
  exact ⟨t, hexec, done, fun hd => by rw [hstat, hbcol hd]; rfl, kept⟩

/-- Settles O32: `WCOL` decides whether the load is accepted, and the level met decides the outcome. -/
theorem writeByteCompletes : Obligations.WriteByteCompletes := by
  unfold Obligations.WriteByteCompletes
  exact fun b s ha hs => ⟨writeByte_completes ha hs, writeByte_collides ha hs⟩

/-- Settles O33: the run of `readByte` is one `RX` and the move of its byte to `RES.DATA`. -/
theorem readByteCompletes : Obligations.ReadByteCompletes := by
  unfold Obligations.ReadByteCompletes
  exact fun s ha hs => readByte_completes ha hs

/-- Settles O34: each command is the acknowledge sequence with its level, and only a NACK can meet a collision. -/
theorem acknowledgesComplete : Obligations.AcknowledgesComplete := by
  unfold Obligations.AcknowledgesComplete
  refine fun s => ⟨fun ha hs => ?_, fun ha hs => ?_⟩
  · obtain ⟨t, hexec, done, hbcol, kept⟩ := acknowledge_completes rfl rfl rfl ha hs
    exact ⟨t, hexec, done, hbcol rfl, kept⟩
  · obtain ⟨t, hexec, done, -, kept⟩ := acknowledge_completes rfl rfl rfl ha hs
    exact ⟨t, hexec, done, kept⟩

end Sys2Proof.Machine
end

section
/-! The laws of bit-field insertion and extraction (spec/43_register_accessor.md R228, R229), bit by bit. Settles O7. -/

namespace Sys2Proof.Machine

/-- A field of `n` bits with top bit `b` that lies inside a byte (R115). -/
structure FieldFits (b n : Nat) : Prop where
  pos : 1 ≤ n
  below : n ≤ b + 1
  top : b < 8

theorem fieldFits_of_fieldOk {bitStart : BitVec 3} {length : BitVec 4} (h : fieldOk bitStart length = true) :
    FieldFits bitStart.toNat length.toNat := by
  simp only [fieldOk, Bool.and_eq_true, decide_eq_true_eq] at h
  exact ⟨h.1, h.2, bitStart.isLt⟩

theorem fieldFits_one (bitNum : BitVec 3) : FieldFits bitNum.toNat 1 := ⟨le_rfl, by omega, bitNum.isLt⟩

/-- The `n` low bits. -/
theorem getLsbD_lowBits (n i : Nat) : (BitVec.ofNat 8 (2 ^ n - 1)).getLsbD i = (decide (i < 8) && decide (i < n)) := by
  rw [BitVec.getLsbD_ofNat, Nat.testBit_two_pow_sub_one]

section field

variable {b n : Nat} (h : FieldFits b n) (i : Nat)
include h

/-- The mask is 1 exactly at the bits of the field (R115). -/
theorem getLsbD_fieldMask :
    (fieldMask b n).getLsbD i = (decide (fieldShift b n ≤ i) && decide (i ≤ b)) := by
  have ⟨_, hbelow, htop⟩ := h
  rw [fieldMask, BitVec.getLsbD_shiftLeft, getLsbD_lowBits, fieldShift]
  grind

theorem getLsbD_insertField (old value : BitVec 8) :
    (insertField b n old value).getLsbD i =
      if fieldShift b n ≤ i ∧ i ≤ b then value.getLsbD (i - fieldShift b n) else old.getLsbD i := by
  have htop := h.top
  simp only [insertField, BitVec.getLsbD_or, BitVec.getLsbD_and, BitVec.getLsbD_not, BitVec.getLsbD_shiftLeft,
    getLsbD_fieldMask h]
  by_cases hi : i < 8
  · grind
  · have := BitVec.getLsbD_of_ge old i (by omega)
    grind

theorem getLsbD_extractField (byte : BitVec 8) :
    (extractField b n byte).getLsbD i = (decide (i < n) && byte.getLsbD (fieldShift b n + i)) := by
  have ⟨_, hbelow, htop⟩ := h
  rw [extractField, BitVec.getLsbD_ushiftRight, BitVec.getLsbD_and, getLsbD_fieldMask h,
    fieldShift]
  grind

omit i

/-- The field reads back what was inserted, cut to its length (R229). -/
theorem extractField_insertField (old value : BitVec 8) :
    extractField b n (insertField b n old value) = value &&& BitVec.ofNat 8 (2 ^ n - 1) := by
  refine BitVec.eq_of_getLsbD_eq fun i hi => ?_
  have ⟨_, hbelow, _⟩ := h
  rw [getLsbD_extractField h, getLsbD_insertField h, BitVec.getLsbD_and, getLsbD_lowBits, Nat.add_sub_cancel_left,
    fieldShift]
  grind

theorem extractField_lt (byte : BitVec 8) : (extractField b n byte).toNat < 2 ^ n := by
  refine Nat.lt_pow_two_of_testBit _ fun i hi => ?_
  rw [BitVec.testBit_toNat, getLsbD_extractField h, decide_eq_false (by omega), Bool.false_and]

end field

/-- Settles O7: bit `i` of the mask, of `Insert` and of `Extract` say each law. -/
theorem fieldLaws : Obligations.FieldLaws := by
  unfold Obligations.FieldLaws
  intro bitStart length old value byte hok
  have h := fieldFits_of_fieldOk hok
  refine ⟨fun i hi => ?_, extractField_insertField h old value, fun hn hb => ?_, extractField_lt h byte⟩
  · rw [getLsbD_insertField h, if_neg (by rw [fieldShift]; omega)]
  · rw [hn, hb] at h ⊢
    refine ⟨rfl, ?_, ?_⟩
    · exact BitVec.eq_of_getLsbD_eq fun i hi => by rw [getLsbD_insertField h, if_pos ⟨i.zero_le, by omega⟩]; rfl
    · exact BitVec.eq_of_getLsbD_eq fun i hi => by
        rw [getLsbD_extractField h, decide_eq_true hi, Bool.true_and, fieldShift, Nat.zero_add]

end Sys2Proof.Machine
end

section
/-! The register commands complete (spec/43_register_accessor.md R220 to R235). Settles O36, O37, O38, O39 and O40. -/

namespace Sys2Proof.Machine

/-! What an action that only works on the sequencer makes of the working registers. -/

section work

variable (n : Nat) (s : State)

/-- The value `XReadReg` returns, from the working registers (R224 r11). -/
def Work.returned (w : Work) : BitVec 8 := if w.out = .success then w.val else 0x00#8

theorem work_returnVal : work (runAct .returnVal n s) =
    { work s with pos := nextPos n (work s).pos, val := (work s).returned } := by
  rw [runAct, goNext_eq]
  rfl

theorem work_returnTmp : work (runAct .returnTmp n s) =
    { work s with pos := nextPos n (work s).pos, tmp := (work s).returned } := by
  rw [runAct, goNext_eq]
  rfl

theorem work_insert (bitStart length : Nat) (value : BitVec 8) : work (runAct (.insert bitStart length value) n s) =
    { work s with
      pos := nextPos n (work s).pos, tmp := insertField bitStart length (work s).tmp value } := by
  rw [runAct, goNext_eq]
  rfl

theorem work_extract (bitStart length : Nat) : work (runAct (.extract bitStart length) n s) =
    { work s with
      pos := nextPos n (work s).pos
      res := { (work s).res with data := extractField bitStart length (work s).tmp } } := by
  rw [runAct, goNext_eq]
  rfl

theorem work_ifFailed (dest : Pos) : work (runAct (.ifFailed dest) n s) =
    { work s with pos := if (work s).out = .success then nextPos n (work s).pos else dest } := by
  by_cases h : s.seq.out = .success
  · rw [runAct, if_pos h, goNext_eq, if_pos (show (work s).out = .success from h)]
    rfl
  · rw [runAct, if_neg h, if_neg (show ¬ (work s).out = .success from h)]
    rfl

end work

/-! The parts that the register commands are made of, each a run from a state between engine operations. -/

section parts

variable {prog : List Step} {s : State} {u : BitVec 8} {dev : BitVec 7} {r8 : BitVec 8} {n k m : Nat}

/-- An action that only works on the sequencer, with what follows it. -/
theorem RunsTo.works {a : Act} {p : Pos} {P : List Event → State → Prop} (r : Ready s) (hp : (work s).pos = p)
    (ha : actOf prog p = some (a, n)) (hl : localAct a = true)
    (next : ∀ t, Ready t → (BusFree s → BusFree t) → work t = work (runAct a n s) → RunsTo prog k m t P) :
    RunsTo prog (1 + k) m s P := by
  refine (runs_local r rfl (hp ▸ ha) rfl (localAct_moves hl n s).effect).bind r ?_
  rintro _ _ rt e ⟨rfl, rfl⟩
  exact next _ rt e.busFree rfl

/-- The run is at `p`, where its command has only its `done` to come, with the outcome `o` and the result `r` (R220). -/
structure Ended (p : Pos) (o : Xfer) (r : Res) (t : State) : Prop where
  pos : (work t).pos = p
  out : (work t).out = o
  wcol : (work t).wcol = false
  res : (work t).res = r

theorem ended_of_work {t : State} {w : Work} (h : work t = w) (hw : w.wcol = false) : Ended w.pos w.out w.res t := by
  subst h
  exact ⟨rfl, rfl, hw, rfl⟩

/-- A write transaction that is a step of its own, the last of its command but the `done` (R221). -/
theorem runs_lastWrite {d8 : ByteSrc} {b : BitVec 8} {res : Res} (r : Ready s) (f : BusFree s)
    (hpos : (work s).pos = ⟨u, 0⟩) (hb : srcByte d8 s = b) (hres : (work s).res = res)
    (hp : prog[u.toNat]? = some (xWriteReg u dev r8 d8)) :
    RunsTo prog (ticksWrite + m) m s (fun es t => ∃ a₀ a₁ a₂,
      let l := [(addrByte dev false, a₀), (r8, a₁), (b, a₂)]
      es = writeTrace l ∧
        Ended ⟨u + 1#8, 0⟩ (ackOutcome (anyNack l)) { res with stopi := true } t) := by
  subst hb hres
  refine (runs_xWriteReg (tail := []) r f rfl hpos (fun t ht => srcByte_of_tmp d8 ht) (by simpa using hp)).mono ?_
  rintro _ t - ⟨a₀, a₁, a₂, rfl, hw⟩
  exact ⟨a₀, a₁, a₂, rfl, ended_of_work hw rfl⟩

/-- A read transaction into `TMP`, and the test of its outcome (R230, R232). -/
theorem runs_readTmp {dest : Pos} (r : Ready s) (f : BusFree s) (hpos : (work s).pos = ⟨u, 0⟩)
    (hp : prog[u.toNat]? = some (xReadReg u dev r8 ++ [.returnTmp, .ifFailed dest])) :
    RunsTo prog (ticksRead + (1 + (1 + m))) m s (fun es t => ∃ a₀ a₁ a₂ v,
      let l := [(addrByte dev false, a₀), (r8, a₁)]
      let rd := (addrByte dev true, a₂)
      es = readTrace l rd v s.cfg.readNack ∧ BusFree t ∧
        Ended (if readOk l rd then ⟨u + 1#8, 0⟩ else dest) (ackOutcome (!readOk l rd))
          { s.res with stopi := true } t ∧
        (readOk l rd = true → t.seq.tmp = v)) := by
  have tail := actOf_append hp (length_xReadRegWith [])
  refine (runs_xReadReg r f rfl hpos hp).bind r ?_
  rintro _ t₁ r₁ e₁ ⟨a₀, a₁, a₂, v, rfl, w₁⟩
  have f₁ : BusFree t₁ := by
    obtain ⟨pre, hpre⟩ := (closes_readTrace _ _ v s.cfg.readNack).ends
    exact (hpre ▸ e₁).busFree_of_stop.1
  refine RunsTo.works r₁ (p := ⟨u, 20⟩) (by rw [w₁]; rfl) (tail 0) rfl fun t₂ r₂ free₂ w₂ => ?_
  rw [work_returnTmp, w₁] at w₂
  refine RunsTo.works r₂ (p := ⟨u, 21⟩) (by rw [w₂]; rfl) (tail 1) rfl fun t₃ r₃ free₃ w₃ => ?_
  rw [work_ifFailed, w₂] at w₃
  refine RunsTo.refl ⟨a₀, a₁, a₂, v, List.append_nil _, free₃ (free₂ f₁), ?_⟩
  generalize readOk [(addrByte dev false, a₀), (r8, a₁)] (addrByte dev true, a₂) = ok at w₃ ⊢
  cases ok with
  | false => exact ⟨ended_of_work w₃ rfl, nofun⟩
  | true => exact ⟨ended_of_work w₃ rfl, fun _ => congrArg Work.tmp w₃⟩

end parts

/-! The runs of the register commands. -/

section commands

variable {s : State} {dev : BitVec 7} {reg : BitVec 16} {m : Nat}

theorem runs_readRegister_ended (r : Ready s) (f : BusFree s) (hpos : (work s).pos = ⟨0#8, 0⟩) :
    RunsTo (progReadRegister dev reg) (ticksRead + (1 + (1 + m))) m s (fun es t => ∃ a₀ a₁ a₂ v,
      let l := [(addrByte dev false, a₀), (reg8 reg, a₁)]
      let rd := (addrByte dev true, a₂)
      es = readTrace l rd v s.cfg.readNack ∧
        Ended ⟨1#8, 0⟩ (ackOutcome (!readOk l rd))
          { s.res with stopi := true, data := if readOk l rd then v else 0x00#8 } t) := by
  have tail := actOf_append (prog := progReadRegister dev reg) (u := 0#8) rfl (length_xReadRegWith [])
  refine (runs_xReadReg r f rfl hpos rfl).bind r ?_
  rintro _ t₁ r₁ - ⟨a₀, a₁, a₂, v, rfl, w₁⟩
  refine RunsTo.works r₁ (p := ⟨0#8, 20⟩) (by rw [w₁]; rfl) (tail 0) rfl fun t₂ r₂ _ w₂ => ?_
  rw [work_returnVal, w₁] at w₂
  refine RunsTo.works r₂ (p := ⟨0#8, 21⟩) (by rw [w₂]; rfl) (tail 1) rfl fun t₃ _ _ w₃ => ?_
  rw [work_dataFromVal, w₂] at w₃
  refine RunsTo.refl ⟨a₀, a₁, a₂, v, List.append_nil _, ?_⟩
  generalize readOk [(addrByte dev false, a₀), (reg8 reg, a₁)] (addrByte dev true, a₂) = ok at w₃ ⊢
  cases ok with
  | false => exact ended_of_work w₃ rfl
  | true => exact ended_of_work w₃ rfl

theorem runs_writeRegisterWide_ended {data16 : BitVec 16} (r : Ready s) (f : BusFree s)
    (hpos : (work s).pos = ⟨0#8, 0⟩) :
    RunsTo (progWriteRegisterWide dev reg data16) (ticksWrite + (1 + (ticksWrite + m))) m s
      (fun es t => ∃ a₀ a₁ a₂ b₀ b₁ b₂,
        let l := [(addrByte dev false, a₀), (reg8 reg, a₁), (highByte data16, a₂)]
        let l' := [(addrByte dev false, b₀), (regNext8 reg, b₁), (lowByte data16, b₂)]
        es = (writeTrace l ++ if anyNack l then [] else writeTrace l') ∧
          Ended ⟨2#8, 0⟩ (ackOutcome (anyNack l || anyNack l')) { s.res with stopi := true } t) := by
  have tail := actOf_append (prog := progWriteRegisterWide dev reg data16) (u := 0#8) rfl (length_xWriteReg _)
  refine (runs_xWriteReg (b := highByte data16) r f rfl hpos (fun _ _ => rfl) rfl).bind r ?_
  rintro _ t₁ r₁ e₁ ⟨a₀, a₁, a₂, rfl, w₁⟩
  have f₁ : BusFree t₁ := e₁.busFree_of_stop.1
  refine RunsTo.works r₁ (p := ⟨0#8, 12⟩) (by rw [w₁]; rfl) (tail 0) rfl fun t₂ r₂ free w₂ => ?_
  rw [work_ifFailed, w₁] at w₂
  generalize hnack : anyNack [(addrByte dev false, a₀), (reg8 reg, a₁), (highByte data16, a₂)] = nack at w₂
  cases nack with
  | true =>
    refine (RunsTo.refl ⟨a₀, a₁, a₂, false, false, false, ?_, ?_⟩).credit (Nat.le_add_left m ticksWrite)
    · rw [hnack]; rfl
    · rw [hnack]; exact ended_of_work w₂ rfl
  | false =>
    refine (runs_lastWrite (u := 1#8) r₂ (free f₁) (by rw [w₂]; rfl) rfl (congrArg Work.res w₂) rfl).mono ?_
    rintro _ t - ⟨b₀, b₁, b₂, rfl, ended⟩
    refine ⟨a₀, a₁, a₂, b₀, b₁, b₂, ?_, ?_⟩
    · rw [hnack]; rfl
    · rw [hnack]; exact ended

theorem runs_writeField_ended {bitStart length : Nat} {value : BitVec 8} (r : Ready s) (f : BusFree s)
    (hpos : (work s).pos = ⟨0#8, 0⟩) :
    RunsTo (progWriteField dev reg bitStart length value) (ticksRead + (1 + (1 + (1 + (ticksWrite + m))))) m s
      (fun es t => ∃ a₀ a₁ a₂ v b₀ b₁ b₂,
        let l := [(addrByte dev false, a₀), (reg8 reg, a₁)]
        let rd := (addrByte dev true, a₂)
        let l' := [(addrByte dev false, b₀), (reg8 reg, b₁), (insertField bitStart length v value, b₂)]
        es = (readTrace l rd v s.cfg.readNack ++ if readOk l rd then writeTrace l' else []) ∧
          Ended ⟨3#8, 0⟩ (ackOutcome (!readOk l rd || anyNack l')) { s.res with stopi := true } t) := by
  refine (runs_readTmp r f hpos rfl).bind r ?_
  rintro _ t₁ r₁ - ⟨a₀, a₁, a₂, v, rfl, f₁, ended₁, htmp⟩
  generalize hok : readOk [(addrByte dev false, a₀), (reg8 reg, a₁)] (addrByte dev true, a₂) = ok at ended₁ htmp
  cases ok with
  | false =>
    refine (RunsTo.refl ⟨a₀, a₁, a₂, v, false, false, false, ?_, ?_⟩).credit (show m ≤ _ by omega)
    · rw [hok]; rfl
    · rw [hok]; exact ended₁
  | true =>
    refine RunsTo.works r₁ ended₁.pos rfl rfl fun t₂ r₂ free w₂ => ?_
    rw [work_insert] at w₂
    have htmp₂ : t₂.seq.tmp = insertField bitStart length v value := htmp rfl ▸ congrArg Work.tmp w₂
    have hres₂ : (work t₂).res = { s.res with stopi := true } := (congrArg Work.res w₂).trans ended₁.res
    refine (runs_lastWrite (u := 2#8) (d8 := .tmp) r₂ (free f₁) (by rw [w₂, ended₁.pos]; rfl) htmp₂ hres₂ rfl).mono ?_
    rintro _ t - ⟨b₀, b₁, b₂, rfl, ended⟩
    refine ⟨a₀, a₁, a₂, v, b₀, b₁, b₂, ?_, ?_⟩
    · rw [hok]; rfl
    · rw [hok]; exact ended

theorem runs_readField_ended {bitStart length : Nat} (r : Ready s) (f : BusFree s)
    (hpos : (work s).pos = ⟨0#8, 0⟩) :
    RunsTo (progReadField dev reg bitStart length) (ticksRead + (1 + (1 + (1 + m)))) m s
      (fun es t => ∃ a₀ a₁ a₂ v,
        let l := [(addrByte dev false, a₀), (reg8 reg, a₁)]
        let rd := (addrByte dev true, a₂)
        es = readTrace l rd v s.cfg.readNack ∧
          Ended ⟨2#8, 0⟩ (ackOutcome (!readOk l rd))
            { s.res with
              stopi := true, data := if readOk l rd then extractField bitStart length v else s.res.data } t) := by
  refine (runs_readTmp r f hpos rfl).bind r ?_
  rintro _ t₁ r₁ - ⟨a₀, a₁, a₂, v, rfl, -, ended₁, htmp⟩
  generalize hok : readOk [(addrByte dev false, a₀), (reg8 reg, a₁)] (addrByte dev true, a₂) = ok at ended₁ htmp
  cases ok with
  | false =>
    refine (RunsTo.refl ⟨a₀, a₁, a₂, v, List.append_nil _, ?_⟩).credit (Nat.le_add_left m 1)
    rw [hok]; exact ended₁
  | true =>
    refine RunsTo.works r₁ ended₁.pos rfl rfl fun t₂ r₂ free w₂ => ?_
    rw [work_extract, ended₁.pos, ended₁.res, show (work t₁).tmp = v from htmp rfl] at w₂
    refine RunsTo.refl ⟨a₀, a₁, a₂, v, List.append_nil _, ?_⟩
    rw [hok]
    exact ⟨congrArg Work.pos w₂, (congrArg Work.out w₂).trans ended₁.out, (congrArg Work.wcol w₂).trans ended₁.wcol,
      congrArg Work.res w₂⟩

end commands

/-! The register commands complete. -/

section completion

variable {s : State} {i : Instr} {dev : BitVec 7} {reg : BitVec 16}

/-- A composite command is accepted on an idle bus, so it begins with the drivers released (R291, R148). -/
theorem busFree_of_accepts (hc : composite i = true) (ha : accepts i s) : BusFree (acceptCommand (encode i) s) := by
  have ⟨_, _, _, _, _, _, _, _, hpre⟩ := ha
  exact (ready_of_accepts ha).2 (beq_iff_eq.1 (preOk_composite hc s ▸ hpre))

/-- A run that has ended at its command's `done` completes with the outcome and the result it has ended with (R121). -/
theorem completes_of_ended {P : List Event → State → Prop} {p : Pos} {n k : Nat} (ha : accepts i s)
    (hs : served i s) (hb : storesBuffer i = false) (hn : n ≤ tickBound i)
    (hrun : RunsTo (program i) n 1 (acceptCommand (encode i) s) P) (hdone : actOf (program i) p = some (.done, k))
    (hend : ∀ es u, P es u → ∃ o r, Ended p o r u) :
    ∃ es u t, P es u ∧ exec i s = .next t ∧
      (∀ o r, Ended p o r u → completed i s es { r with outcome := o, valid := true } true t) ∧ bufferKept s t := by
  obtain ⟨es, u, t, hp, hexec, -, done, kept⟩ :=
    completes_with_of_runs (idled := true) ha hs hb hn hrun fun es u hp => by
      obtain ⟨_, _, ended⟩ := hend es u hp
      exact ⟨⟨k, ended.pos ▸ hdone⟩, ended.wcol⟩
  exact ⟨es, u, t, hp, hexec, fun _ _ ended => ended.out ▸ ended.res ▸ done, kept⟩

theorem writeRegister_completes {data : BitVec 8} (ha : accepts (.writeRegister dev reg data) s)
    (hs : served (.writeRegister dev reg data) s) :
    ∃ a₀ a₁ a₂ t, exec (.writeRegister dev reg data) s = .next t ∧
      let l := [(addrByte dev false, a₀), (reg8 reg, a₁), (data, a₂)]
      completed (.writeRegister dev reg data) s (writeTrace l) (resOf (ackOutcome (anyNack l)) true 0x00#8 0#16)
        true t ∧ bufferKept s t := by
  have hrun := runs_lastWrite (prog := progWriteRegister dev reg data) (u := 0#8) (m := 1) (ready_of_accepts ha).1
    (busFree_of_accepts rfl ha) rfl rfl rfl rfl
  obtain ⟨_, u, t, ⟨a₀, a₁, a₂, rfl, ended⟩, hexec, done, kept⟩ :=
    completes_of_ended ha hs rfl le_rfl hrun rfl fun _ _ ⟨_, _, _, _, ended⟩ => ⟨_, _, ended⟩
  exact ⟨a₀, a₁, a₂, t, hexec, done _ _ ended, kept⟩

theorem readRegister_completes (ha : accepts (.readRegister dev reg) s) (hs : served (.readRegister dev reg) s) :
    ∃ a₀ a₁ a₂ v t, exec (.readRegister dev reg) s = .next t ∧
      let l := [(addrByte dev false, a₀), (reg8 reg, a₁)]
      let rd := (addrByte dev true, a₂)
      completed (.readRegister dev reg) s (readTrace l rd v s.cfg.readNack)
        (resOf (ackOutcome (!readOk l rd)) true (if readOk l rd then v else 0x00#8) 0#16) true t ∧
      bufferKept s t := by
  have hrun := runs_readRegister_ended (dev := dev) (reg := reg) (m := 1) (ready_of_accepts ha).1
    (busFree_of_accepts rfl ha) rfl
  obtain ⟨_, u, t, ⟨a₀, a₁, a₂, v, rfl, ended⟩, hexec, done, kept⟩ :=
    completes_of_ended ha hs rfl le_rfl hrun rfl fun _ _ ⟨_, _, _, _, _, ended⟩ => ⟨_, _, ended⟩
  exact ⟨a₀, a₁, a₂, v, t, hexec, done _ _ ended, kept⟩

theorem writeRegisterWide_completes {data16 : BitVec 16} (ha : accepts (.writeRegisterWide dev reg data16) s)
    (hs : served (.writeRegisterWide dev reg data16) s) :
    ∃ a₀ a₁ a₂ b₀ b₁ b₂ t, exec (.writeRegisterWide dev reg data16) s = .next t ∧
      let l := [(addrByte dev false, a₀), (reg8 reg, a₁), (highByte data16, a₂)]
      let l' := [(addrByte dev false, b₀), (regNext8 reg, b₁), (lowByte data16, b₂)]
      completed (.writeRegisterWide dev reg data16) s (writeTrace l ++ if anyNack l then [] else writeTrace l')
        (resOf (ackOutcome (anyNack l || anyNack l')) true 0x00#8 0#16) true t ∧
      bufferKept s t := by
  have hrun := runs_writeRegisterWide_ended (dev := dev) (reg := reg) (data16 := data16) (m := 1)
    (ready_of_accepts ha).1 (busFree_of_accepts rfl ha) rfl
  obtain ⟨_, u, t, ⟨a₀, a₁, a₂, b₀, b₁, b₂, rfl, ended⟩, hexec, done, kept⟩ :=
    completes_of_ended ha hs rfl (by simp [tickBound]; omega) hrun rfl
      fun _ _ ⟨_, _, _, _, _, _, _, ended⟩ => ⟨_, _, ended⟩
  exact ⟨a₀, a₁, a₂, b₀, b₁, b₂, t, hexec, done _ _ ended, kept⟩

/-- `writeBitField` and `writeSingleBit`, which have the program of R230. -/
theorem writeField_completes {bitStart n : Nat} {value : BitVec 8}
    (hprog : program i = progWriteField dev reg bitStart n value) (hc : composite i = true)
    (hb : storesBuffer i = false) (hn : tickBound i = ticksRead + ticksWrite + 4) (ha : accepts i s)
    (hs : served i s) :
    ∃ a₀ a₁ a₂ v b₀ b₁ b₂ t, exec i s = .next t ∧
      let l := [(addrByte dev false, a₀), (reg8 reg, a₁)]
      let rd := (addrByte dev true, a₂)
      let l' := [(addrByte dev false, b₀), (reg8 reg, b₁), (insertField bitStart n v value, b₂)]
      completed i s (readTrace l rd v s.cfg.readNack ++ if readOk l rd then writeTrace l' else [])
        (resOf (ackOutcome (!readOk l rd || anyNack l')) true 0x00#8 0#16) true t ∧
      bufferKept s t := by
  have hrun := runs_writeField_ended (dev := dev) (reg := reg) (bitStart := bitStart) (length := n) (value := value)
    (m := 1) (ready_of_accepts ha).1 (busFree_of_accepts hc ha) rfl
  obtain ⟨_, u, t, ⟨a₀, a₁, a₂, v, b₀, b₁, b₂, rfl, ended⟩, hexec, done, kept⟩ :=
    completes_of_ended ha hs hb (by omega) (hprog ▸ hrun) (by rw [hprog]; rfl)
      fun _ _ ⟨_, _, _, _, _, _, _, _, ended⟩ => ⟨_, _, ended⟩
  exact ⟨a₀, a₁, a₂, v, b₀, b₁, b₂, t, hexec, done _ _ ended, kept⟩

/-- `readBitField` and `readSingleBit`, which have the program of R232. -/
theorem readField_completes {bitStart n : Nat} (hprog : program i = progReadField dev reg bitStart n)
    (hc : composite i = true) (hb : storesBuffer i = false) (hn : tickBound i = ticksRead + 4) (ha : accepts i s)
    (hs : served i s) :
    ∃ a₀ a₁ a₂ v t, exec i s = .next t ∧
      let l := [(addrByte dev false, a₀), (reg8 reg, a₁)]
      let rd := (addrByte dev true, a₂)
      completed i s (readTrace l rd v s.cfg.readNack)
        (resOf (ackOutcome (!readOk l rd)) true (if readOk l rd then extractField bitStart n v else 0x00#8) 0#16)
        true t ∧
      bufferKept s t := by
  have hrun := runs_readField_ended (dev := dev) (reg := reg) (bitStart := bitStart) (length := n) (m := 1)
    (ready_of_accepts ha).1 (busFree_of_accepts hc ha) rfl
  obtain ⟨_, u, t, ⟨a₀, a₁, a₂, v, rfl, ended⟩, hexec, done, kept⟩ :=
    completes_of_ended ha hs hb (by omega) (hprog ▸ hrun) (by rw [hprog]; rfl)
      fun _ _ ⟨_, _, _, _, _, ended⟩ => ⟨_, _, ended⟩
  exact ⟨a₀, a₁, a₂, v, t, hexec, done _ _ ended, kept⟩

end completion

/-- Settles O36: the run of `writeRegister` is one `XWriteReg`. -/
theorem writeRegisterCompletes : Obligations.WriteRegisterCompletes := by
  unfold Obligations.WriteRegisterCompletes
  exact fun dev reg data s ha hs => writeRegister_completes ha hs

/-- Settles O37: the run of `readRegister` is one `XReadReg` and the move of its value to `RES.DATA`. -/
theorem readRegisterCompletes : Obligations.ReadRegisterCompletes := by
  unfold Obligations.ReadRegisterCompletes
  exact fun dev reg s ha hs => readRegister_completes ha hs

/-- Settles O38: the second `XWriteReg` runs where the outcome of the first is `Success`. -/
theorem writeRegisterWideCompletes : Obligations.WriteRegisterWideCompletes := by
  unfold Obligations.WriteRegisterWideCompletes
  exact fun dev reg data16 s ha hs => writeRegisterWide_completes ha hs

/-- Settles O39: both commands have the program of R230, whose `XWriteReg` sends the byte read with the field put in. -/
theorem writeFieldCompletes : Obligations.WriteFieldCompletes := by
  unfold Obligations.WriteFieldCompletes
  rintro dev reg bitStart length value s i n (⟨rfl, rfl⟩ | ⟨rfl, rfl⟩) ha hs
  · exact writeField_completes rfl rfl rfl rfl ha hs
  · exact writeField_completes rfl rfl rfl rfl ha hs

/-- Settles O40: both commands have the program of R232, which takes the field out of the byte read. -/
theorem readFieldCompletes : Obligations.ReadFieldCompletes := by
  unfold Obligations.ReadFieldCompletes
  rintro dev reg bitStart length s i n (⟨rfl, rfl⟩ | ⟨rfl, rfl⟩) ha hs
  · exact readField_completes rfl rfl rfl rfl ha hs
  · exact readField_completes rfl rfl rfl rfl ha hs

end Sys2Proof.Machine
end

section
/-! A register and a field read back what was written, against a device that answers as the reference target does
(spec/20_memory.md R90 to R93, spec/43_register_accessor.md R226, R233). Settles O50 and O51. -/

namespace Sys2Proof.Machine

/-! The reference target through the two transactions. -/

namespace RefTarget

variable (r : RefTarget)

/-- The target between bytes, with the selection `x` (R91). -/
def selected (x : TargetSel) : RefTarget := { r with sel := x, addressNext := false }

/-- The target after a write transaction of the byte `b` to its register `x` (R92). -/
def written (x b : BitVec 8) : RefTarget :=
  { r with mem := fun k => if k = x then b else r.mem k, p := x + 1#8, sel := .none, addressNext := false }

/-- The target after a read transaction from its register `x` (R92). -/
def readFrom (x : BitVec 8) : RefTarget := { r with p := x + 1#8, sel := .none, addressNext := false }

theorem extractLsb'_addrByte (dev : BitVec 7) (rw : Bool) : (addrByte dev rw).extractLsb' 1 7 = dev := by
  ext i hi
  rw [addrByte]
  simp only [BitVec.getElem_extractLsb', BitVec.getLsbD_append]
  simp [show ¬ 1 + i < 1 by omega, hi]

theorem getLsbD_addrByte (dev : BitVec 7) (rw : Bool) : (addrByte dev rw).getLsbD 0 = rw := by
  rw [addrByte, BitVec.getLsbD_append]
  simp

/-- The target acknowledges its address after a START or RESTART, and is selected in the direction of the byte (R92). -/
theorem honoursAll_address {e : Event} (he : e = .S ∨ e = .Sr) {dev : BitVec 7} (hd : r.addr = dev) (rw a : Bool)
    (es : List Event) : r.honoursAll (e :: .Tx (addrByte dev rw) a :: es) =
      (!a && (r.selected (if rw then .reading else .awaitReg)).honoursAll es) := by
  subst hd
  rcases he with rfl | rfl <;>
    simp [honoursAll, honours, react, ackLevel, extractLsb'_addrByte, getLsbD_addrByte, selected,
      -BitVec.getLsbD_eq_getElem]

/-- The first byte after the address of a write transaction sets the pointer (R92). -/
theorem honoursAll_pointer (x : BitVec 8) (a : Bool) (es : List Event) :
    (r.selected .awaitReg).honoursAll (.Tx x a :: es) =
      (!a && ({ r with p := x }.selected .writing).honoursAll es) := by
  simp [honoursAll, honours, react, ackLevel, selected]

/-- The next byte is stored at the pointer (R92). -/
theorem honoursAll_store (b : BitVec 8) (a : Bool) (es : List Event) :
    (r.selected .writing).honoursAll (.Tx b a :: es) =
      (!a && ({ r with mem := fun k => if k = r.p then b else r.mem k, p := r.p + 1#8 }.selected .writing).honoursAll
        es) := by
  cases a <;> rfl

/-- The byte received in a read transaction is the one at the pointer (R92). -/
theorem honoursAll_load (v : BitVec 8) (es : List Event) :
    (r.selected .reading).honoursAll (.Rx v :: es) =
      (v == r.mem r.p && ({ r with p := r.p + 1#8 }.selected .reading).honoursAll es) := by
  simp [honoursAll, honours, react, sends, selected]

/-- A STOP leaves the target unselected (R92). -/
theorem honoursAll_stop (x : TargetSel) (es : List Event) :
    (r.selected x).honoursAll (.P :: es) = (r.selected .none).honoursAll es := by
  simp [honoursAll, honours, react, selected]

/-- So does the end of a read transaction, with or without its not-acknowledge (R92, R224). -/
theorem honoursAll_endRead (x : TargetSel) (nackSent : Bool) (es : List Event) :
    (r.selected x).honoursAll ((if nackSent then [.Ak true] else []) ++ [.P] ++ es) =
      (r.selected .none).honoursAll es := by
  cases nackSent <;> rfl

/-- The target acknowledges a write transaction that addresses it, and stores its byte (R92). -/
theorem honours_write {dev : BitVec 7} {x b : BitVec 8} {a₀ a₁ a₂ : Bool} {fs : List Event} (hd : r.addr = dev)
    (h : r.honoursAll (writeTrace [(addrByte dev false, a₀), (x, a₁), (b, a₂)] ++ fs) = true) :
    anyNack [(addrByte dev false, a₀), (x, a₁), (b, a₂)] = false ∧ (r.written x b).honoursAll fs = true := by
  simp only [writeTrace, txTrace, List.cons_append, List.nil_append, r.honoursAll_address (.inl rfl) hd,
    Bool.and_eq_true, Bool.not_eq_true'] at h
  obtain ⟨rfl, h⟩ := h
  simp only [Bool.false_eq_true, if_false, List.cons_append, honoursAll_pointer, Bool.and_eq_true,
    Bool.not_eq_true'] at h
  obtain ⟨rfl, h⟩ := h
  simp only [Bool.false_eq_true, if_false, List.cons_append, honoursAll_store, Bool.and_eq_true,
    Bool.not_eq_true'] at h
  obtain ⟨rfl, h⟩ := h
  simp only [Bool.false_eq_true, if_false, List.cons_append, List.nil_append, honoursAll_stop] at h
  exact ⟨rfl, h⟩

/-- The target acknowledges a read transaction that addresses it, and sends its byte (R92). -/
theorem honours_read {dev : BitVec 7} {x v : BitVec 8} {a₀ a₁ a₂ nackSent : Bool} {fs : List Event}
    (hd : r.addr = dev)
    (h : r.honoursAll (readTrace [(addrByte dev false, a₀), (x, a₁)] (addrByte dev true, a₂) v nackSent ++ fs) =
      true) :
    readOk [(addrByte dev false, a₀), (x, a₁)] (addrByte dev true, a₂) = true ∧ v = r.mem x ∧
      (r.readFrom x).honoursAll fs = true := by
  have nacked : anyNack [(addrByte dev false, a₀), (x, a₁)] = false := by
    cases a₀ with
    | true => simp [readTrace, anyNack, writeTrace, txTrace, r.honoursAll_address (.inl rfl) hd] at h
    | false =>
      cases a₁ with
      | true =>
        simp [readTrace, anyNack, writeTrace, txTrace, r.honoursAll_address (.inl rfl) hd, honoursAll_pointer] at h
      | false => rfl
  obtain ⟨rfl, rfl⟩ : a₀ = false ∧ a₁ = false := by simpa [anyNack] using nacked
  simp only [readTrace, nacked, txTrace, List.cons_append, List.nil_append, Bool.false_eq_true, if_false,
    r.honoursAll_address (.inl rfl) hd, honoursAll_pointer, Bool.not_false, Bool.true_and] at h
  have turned := ({ r with p := x }.selected .writing).honoursAll_address (.inr rfl) hd true
  cases a₂ with
  | true => simp [turned] at h
  | false =>
    simp only [Bool.false_eq_true, if_false, List.cons_append, turned, if_true, honoursAll_load, Bool.not_false,
      Bool.true_and, Bool.and_eq_true, beq_iff_eq] at h
    obtain ⟨hv, h⟩ := h
    rw [honoursAll_endRead] at h
    exact ⟨rfl, hv, h⟩

theorem honours_lastRead {dev : BitVec 7} {x v : BitVec 8} {a₀ a₁ a₂ nackSent : Bool} (hd : r.addr = dev)
    (h : r.honoursAll (readTrace [(addrByte dev false, a₀), (x, a₁)] (addrByte dev true, a₂) v nackSent) = true) :
    readOk [(addrByte dev false, a₀), (x, a₁)] (addrByte dev true, a₂) = true ∧ v = r.mem x := by
  obtain ⟨hok, hv, -⟩ := r.honours_read (fs := []) hd (by rwa [List.append_nil])
  exact ⟨hok, hv⟩

theorem mem_written (x b : BitVec 8) : (r.written x b).mem x = b := if_pos rfl

end RefTarget

/-! One command after another. -/

/-- After whole transactions the block is in a launch state with an idle bus, which accepts any composite command in
order that is no burst (R61, R62, R291). -/
theorem accepts_of_completed {i j : Instr} {s t : State} {es : List Event} {r : Res} {idled : Bool}
    (ha : accepts i s) (done : completed i s es r idled t) (whole : Closes 0 es) (hc : composite j = true)
    (hwf : j.wellFormed = true) (hburst : burstRange j = none) (ins : List Input) :
    accepts j { t with inputs := ins } := by
  obtain ⟨-, -, view, ctrl, tbf, trun, -, -, -, eop, -, busy, -, -, fatal, -, cfg, -, rst, -⟩ := done
  have ⟨htimeout, hrst, hfatal, _, _, hmoden, _⟩ := ha
  have ready := (ready_of_accepts ha).1
  obtain ⟨pre, rfl⟩ := whole.ends
  have hrbf : t.stat.rbf = false :=
    (congrArg BusView.rbf view).trans (BusView.afterAll_rbf _ _ ready.rbf)
  rw [BusView.afterAll_append] at view
  have hbstate : t.seq.bstate = .idle := congrArg BusView.bstate view
  have hsda : t.eng.sdaLow = false := congrArg BusView.sdaLow view
  have hscl : t.eng.sclLow = false := congrArg BusView.sclLow view
  have hackpend : t.eng.ackpend = false := congrArg BusView.ackpend view
  have hpending : anyPending t.ctrl = false := ctrl ▸ ready.pending
  have hlaunch : launchOk t = true := by
    simp [launchOk, hpending, trun.trans ready.trun, tbf.trans ready.tbf, hrbf, eop, hbstate, hsda, hscl, hackpend]
  exact ⟨cfg ▸ htimeout, rst.trans hrst, fatal.trans hfatal, busy, hlaunch, ctrl ▸ hmoden, hwf,
    by rw [bufferOk, hburst], preOk_composite hc _ ▸ beq_iff_eq.2 hbstate⟩

/-- What a command that completes says of the one next state it answers: the events it appends to the trace, and the
result. -/
theorem completed_unique {i : Instr} {s t t' : State} {es fs : List Event} {r : Res} {idled : Bool}
    (hexec : exec i s = .next t) (hexec' : exec i s = .next t') (done : completed i s es r idled t)
    (htrace : t'.trace = s.trace ++ fs) : t' = t ∧ fs = es ∧ t'.res = r := by
  obtain rfl := Host.Outcome.next.inj (hexec.symm.trans hexec')
  obtain ⟨trace, res, -⟩ := done
  exact ⟨rfl, List.append_cancel_left (htrace.symm.trans trace), res⟩

/-- Settles O50: the target's answers make every acknowledge of the two transactions, and the byte read is the one the
first stored. -/
theorem registerRoundTrip : Obligations.RegisterRoundTrip := by
  unfold Obligations.RegisterRoundTrip
  intro target reg b s t u ins es fs wr rd ha hs hexec hs' hexec' htrace htrace' hon
  obtain ⟨a₀, a₁, a₂, _, hwr, done, -⟩ := writeRegister_completes ha hs
  obtain ⟨rfl, rfl, hres⟩ := completed_unique hwr hexec done htrace
  have ha' : accepts rd { t with inputs := ins } :=
    accepts_of_completed ha done (closes_writeTrace _) rfl rfl rfl ins
  obtain ⟨b₀, b₁, b₂, v, _, hrd, done', -⟩ := readRegister_completes ha' hs'
  obtain ⟨rfl, rfl, hres'⟩ := completed_unique hrd hexec' done' htrace'
  obtain ⟨hnack, hon⟩ := target.honours_write rfl hon
  obtain ⟨hok, rfl⟩ := (target.written (reg8 reg) b).honours_lastRead (dev := target.addr) rfl hon
  rw [hnack] at hres
  rw [hok, RefTarget.mem_written] at hres'
  exact ⟨hres, hres'⟩

/-- Settles O51: as O50, with the byte written the byte read with the field put in (R229). -/
theorem bitFieldRoundTrip : Obligations.BitFieldRoundTrip := by
  unfold Obligations.BitFieldRoundTrip
  intro target reg bitStart length value s t u ins es fs wr rd n hcmd ha hs hexec hs' hexec' htrace htrace' hon
  have ⟨_, _, _, _, _, _, hwf, _⟩ := ha
  obtain ⟨fits, hc, hwf', hburst⟩ : FieldFits bitStart.toNat n ∧ composite rd = true ∧ rd.wellFormed = true ∧
      burstRange rd = none := by
    rcases hcmd with ⟨rfl, rfl, rfl⟩ | ⟨rfl, rfl, rfl⟩
    · exact ⟨fieldFits_of_fieldOk hwf, rfl, hwf, rfl⟩
    · exact ⟨fieldFits_one bitStart, rfl, rfl, rfl⟩
  obtain ⟨a₀, a₁, a₂, v, b₀, b₁, b₂, _, hwr, done, -⟩ := writeFieldCompletes target.addr reg bitStart length value s
    wr n (hcmd.imp (fun ⟨h, _, hn⟩ => ⟨h, hn⟩) fun ⟨h, _, hn⟩ => ⟨h, hn⟩) ha hs
  obtain ⟨rfl, rfl, hres⟩ := completed_unique hwr hexec done htrace
  rw [List.append_assoc] at hon
  obtain ⟨hok, rfl, hon⟩ := target.honours_read rfl hon
  rw [hok] at done hres hon
  obtain ⟨hnack, hon⟩ := (target.readFrom (reg8 reg)).honours_write (dev := target.addr) rfl hon
  have ha' : accepts rd { t with inputs := ins } :=
    accepts_of_completed ha done ((closes_readTrace _ _ _ _).append (closes_writeTrace _)) hc hwf' hburst ins
  obtain ⟨c₀, c₁, c₂, v, _, hrd, done', -⟩ := readFieldCompletes target.addr reg bitStart length
    { t with inputs := ins } rd n (hcmd.imp (fun ⟨_, h, hn⟩ => ⟨h, hn⟩) fun ⟨_, h, hn⟩ => ⟨h, hn⟩) ha' hs'
  obtain ⟨rfl, rfl, hres'⟩ := completed_unique hrd hexec' done' htrace'
  obtain ⟨hok', rfl⟩ :=
    ((target.readFrom (reg8 reg)).written (reg8 reg) _).honours_lastRead (dev := target.addr) rfl hon
  rw [hnack] at hres
  rw [hok', RefTarget.mem_written] at hres'
  exact ⟨congrArg Res.outcome hres, hres'.trans (by rw [if_pos rfl, extractField_insertField fits]; rfl)⟩

end Sys2Proof.Machine
end

section
/-! The outcomes of the two collisions (spec/43_register_accessor.md R237, spec/44_burst_transfer.md R267).
Settles O48. -/

namespace Sys2Proof.Machine

/-! The pending bits, `TRUN` and `TBF` belong to the operation in progress, so between operations no load of a block
with `WCOL = 0` is rejected (R156). -/

/-- The pending bits and `TRUN` say which operation is in progress, and `TBF` is 1 only in the first phases of a
`Transmit` (R34, R46, R60). -/
structure OpState (s : State) : Prop where
  pending : pendingFits s
  tbf : s.stat.tbf = true → s.eng.eop = .transmit ∧ tbfPhase s.eng.phase = true

theorem OpState.idle {s : State} (h : OpState s) (he : s.eng.eop = .none) :
    anyPending s.ctrl = false ∧ s.stat.trun = false ∧ s.stat.tbf = false := by
  obtain ⟨⟨hsen, hrsen, hpen, hrcen, hacken, htrun⟩, htbf⟩ := h
  refine ⟨by simp [anyPending, hsen, hrsen, hpen, hrcen, hacken, he], by simp [htrun, he], ?_⟩
  cases hb : s.stat.tbf with
  | false => rfl
  | true => cases he.symm.trans (htbf hb).1

theorem Ready.opState {s : State} (r : Ready s) : OpState s := by
  obtain ⟨hsen, hrsen, hpen, hrcen, hacken⟩ := r.noPending
  refine ⟨?_, fun h => absurd (r.tbf.symm.trans h) Bool.false_ne_true⟩
  simp [pendingFits, r.eop, r.trun, hsen, hrsen, hpen, hrcen, hacken]

section phases

variable {s : State} (d : Drive) (h : OpState s)
include h

theorem phaseGenStart_opState (ho : s.eng.eop = .genStart) : OpState (phaseGenStart d s) := by
  obtain ⟨hpend, htbf⟩ := h
  simp [pendingFits, ho] at hpend htbf
  unfold phaseGenStart
  split
  case h_1 => split <;> constructor <;> simp [*, pendingFits]
  all_goals constructor <;> simp [*, pendingFits]

theorem phaseGenRestart_opState (ho : s.eng.eop = .genRestart) : OpState (phaseGenRestart d s) := by
  obtain ⟨hpend, htbf⟩ := h
  simp [pendingFits, ho] at hpend htbf
  unfold phaseGenRestart
  split
  case h_2 => rw [releaseScl_eq]; cases d.sclLow <;> constructor <;> simp [*, pendingFits]
  all_goals constructor <;> simp [*, pendingFits, monitorBcol]

theorem phaseGenStop_opState (ho : s.eng.eop = .genStop) : OpState (phaseGenStop d s) := by
  obtain ⟨hpend, htbf⟩ := h
  simp [pendingFits, ho] at hpend htbf
  unfold phaseGenStop
  split
  case h_2 => rw [releaseScl_eq]; cases d.sclLow <;> constructor <;> simp [*, pendingFits]
  all_goals constructor <;> simp [*, pendingFits, monitorBcol]

theorem phaseTransmit_opState (ho : s.eng.eop = .transmit) : OpState (phaseTransmit d s) := by
  obtain ⟨hpend, htbf⟩ := h
  simp [pendingFits, ho] at hpend htbf
  unfold phaseTransmit
  split
  case h_3 | h_7 => rw [releaseScl_eq]; cases d.sclLow <;> constructor <;> simp_all [pendingFits, tbfPhase]
  case h_5 =>
    constructor <;> simp [*, pendingFits]
    split <;> simp [tbfPhase]
  all_goals constructor <;> simp_all [pendingFits, monitorBcol, tbfPhase]

theorem phaseReceive_opState (ho : s.eng.eop = .receive) : OpState (phaseReceive d s) := by
  obtain ⟨hpend, htbf⟩ := h
  simp [pendingFits, ho] at hpend htbf
  unfold phaseReceive
  split
  case h_2 => rw [releaseScl_eq]; cases d.sclLow <;> constructor <;> simp [*, pendingFits]
  case h_5 => cases hr : s.stat.rbf <;> constructor <;> simp [*, pendingFits]
  all_goals constructor <;> simp [*, pendingFits]

theorem phaseAckSeq_opState (ho : s.eng.eop = .ackSeq) : OpState (phaseAckSeq d s) := by
  obtain ⟨hpend, htbf⟩ := h
  simp [pendingFits, ho] at hpend htbf
  unfold phaseAckSeq
  split
  case h_2 => rw [releaseScl_eq]; cases d.sclLow <;> constructor <;> simp [*, pendingFits]
  all_goals constructor <;> simp [*, pendingFits, monitorBcol]

theorem enginePhase_opState : OpState (enginePhase d s) := by
  unfold enginePhase
  split
  · cases ho : s.eng.eop with
    | none => exact h
    | genStart => exact phaseGenStart_opState d h ho
    | genRestart => exact phaseGenRestart_opState d h ho
    | genStop => exact phaseGenStop_opState d h ho
    | transmit => exact phaseTransmit_opState d h ho
    | receive => exact phaseReceive_opState d h ho
    | ackSeq => exact phaseAckSeq_opState d h ho
  · exact h

end phases

/-! What an action makes of `OUT`, `RES.OUTCOME` and `WCOL`. -/

/-- The outcomes that an action may put into `OUT` (R201, R264). -/
def outcomesOf (s : State) : Act → List Xfer
  | .load _ _ => if loadRejected s then [.writeCollision] else []
  | .holdTx _ => [.success, .notAcknowledged]
  | .ifBcol _ => [.busCollision]
  | _ => []

theorem opens_of_writeCollision {s : State} {a : Act} (h : .writeCollision ∈ outcomesOf s a) : opens a = .transmit := by
  cases a with
  | load => rfl
  | _ => simp [outcomesOf] at h

/-- The action that tests `BCOL` (R264). -/
def testsBcol : Act → Bool
  | .ifBcol _ => true
  | _ => false

theorem testsBcol_of_busCollision {s : State} {a : Act} (h : .busCollision ∈ outcomesOf s a) : testsBcol a = true := by
  cases a with
  | ifBcol => rfl
  | _ => simp [outcomesOf] at h

theorem writeCollision_notMem_of_loadAccepted {s : State} (h : loadRejected s = false) (a : Act) :
    .writeCollision ∉ outcomesOf s a := by
  cases a <;> simp [outcomesOf, h]

theorem opens_of_localAct {a : Act} (h : localAct a = true) : opens a = .none := by
  cases a with
  | setSen | setRsen | setPen | load | setRcen | setAck => cases h
  | _ => rfl

/-- An action starts at most its own operation, `OUT` is as it was or one of the action's outcomes, `RES.OUTCOME` is as
it was or takes `OUT` (R121), and `WCOL` is set by a rejected load only and cleared by `W_IDLE` (R156, R181). -/
structure ActLeaves (a : Act) (s t : State) : Prop where
  pending : pendingFits t
  tbf : t.stat.tbf = true → t.eng.eop = .transmit ∧ tbfPhase t.eng.phase = true
  out : t.seq.out ∈ s.seq.out :: outcomesOf s a
  outcome : t.res.outcome ∈ [s.res.outcome, s.seq.out]
  wcol : t.stat.wcol = true → a ≠ .wIdle ∧ (s.stat.wcol = true ∨ .writeCollision ∈ outcomesOf s a)

theorem ActLeaves.opState {a : Act} {s t : State} (l : ActLeaves a s t) : OpState t := ⟨l.pending, l.tbf⟩

theorem runAct_leaves {s : State} (h : OpState s) (he : s.eng.eop = .none) (a : Act) (n : Nat) :
    ActLeaves a s (runAct a n s) := by
  obtain ⟨hpend, htrun, htbf⟩ := h.idle he
  have hbusy : engineBusy s = false := by simp [engineBusy, hpend, htrun]
  obtain ⟨hfits, -⟩ := h
  simp [pendingFits, he] at hfits
  cases a with
  | holdSen | holdRsen | holdPen | holdAck | unlessReadNack | ifFailed | ifIdxIsLen | unlessIdxBelowLen | ifBcol =>
    simp only [runAct, actHoldPen]
    split <;> constructor <;> simp [*, pendingFits, outcomesOf]
  | load b fail =>
    simp only [runAct, actLoad, loadTxb]
    cases hr : loadRejected s with
    | true => constructor <;> simp [*, pendingFits, outcomesOf]
    | false =>
      have hw : s.stat.wcol = false := by simp [loadRejected] at hr; tauto
      constructor <;> simp [*, pendingFits, outcomesOf, tbfPhase]
  | holdTx fail =>
    simp only [runAct, actHoldTx, htrun]
    cases s.stat.ackstat <;> constructor <;> simp [*, pendingFits, outcomesOf]
  | holdRcen =>
    simp only [runAct, actHoldRcen]
    cases s.known.rxb <;> constructor <;> simp [*, pendingFits, outcomesOf]
  | dataFromAckstat =>
    simp only [runAct, actDataFromAckstat]
    cases s.known.ackstat <;> constructor <;> simp [*, pendingFits, outcomesOf]
  | readBuf ptr =>
    simp only [runAct, loadByte]
    cases s.raced <;> constructor <;> simp [*, pendingFits, outcomesOf]
  | writeBuf ptr =>
    simp only [runAct, storeByte]
    cases s.raced <;> constructor <;> simp [*, pendingFits, outcomesOf]
  | _ =>
    constructor <;> simp [*, runAct, actWIdle, actSetSen, actSetRsen, actSetPen, actSetRcen, actSetAck, actCountByte,
      storeIf, pendingFits, outcomesOf]

/-! A run along which no action has the outcome `o`. -/

/-- The block between or in its operations, with an outcome other than `o`. -/
structure Without (o : Xfer) (s : State) : Prop extends OpState s where
  out : s.seq.out ≠ o
  outcome : s.res.outcome ≠ o

section run

variable {o : Xfer} {prog : List Step} {s : State}

theorem Without.runAct (h : Without o s) (he : s.eng.eop = .none) {a : Act} (ha : o ∉ outcomesOf s a) (n : Nat) :
    Without o (runAct a n s) := by
  have l := runAct_leaves h.toOpState he a n
  refine ⟨l.opState, fun ho => ?_, fun ho => ?_⟩
  · rcases List.mem_cons.1 (ho ▸ l.out) with hout | hout
    · exact h.out hout.symm
    · exact ha hout
  · rcases List.mem_pair.1 (ho ▸ l.outcome) with hout | hout
    · exact h.outcome hout.symm
    · exact h.out hout.symm

theorem Without.enginePhase (h : Without o s) (d : Drive) : Without o (enginePhase d s) := by
  have f := enginePhase_frame d s
  exact ⟨enginePhase_opState d h.toOpState, by rw [f.seq]; exact h.out, by rw [f.res]; exact h.outcome⟩

/-- A tick is an action of the program or a phase of the engine, or it does nothing. -/
theorem tick_induction {Q : State → Prop} (hact : ∀ a n, s.eng.eop = .none → actOf prog (pos s) = some (a, n) →
    Q (runAct a n s)) (hphase : ∀ d, Q (enginePhase d s)) (hstay : Q s) (d : Drive) : Q (tick prog d s) := by
  unfold tick seqTick
  rw [actAt_eq]
  split
  · rename_i he
    split
    · exact hstay
    · rename_i a n ha
      exact hact a n he ha
  · exact hphase d

/-- What every tick keeps, the run keeps, whatever inputs are left. -/
theorem runTicks_induction {Q : State → Prop} (hin : ∀ s ins, Q s → Q (withInputs ins s))
    (htick : ∀ s d, Q s → Q (tick prog d s)) (ins : List Input) (h : Q s) : Q (runTicks prog ins s) := by
  induction ins generalizing s with
  | nil => exact hin s [] h
  | cons x ins ih =>
    cases x with
    | drive d =>
      cases hb : s.seq.busy with
      | false => rw [runTicks_idle hb]; exact hin s _ h
      | true => rw [runTicks_drive hb]; exact ih (htick s d h)
    | _ => exact hin s _ h

theorem Without.withInputs (h : Without o s) (ins : List Input) : Without o (withInputs ins s) :=
  ⟨⟨h.pending, h.tbf⟩, h.out, h.outcome⟩

/-- No action of the program has the outcome. -/
theorem Without.runTicks (hprog : ∀ a, hasAct prog a → ∀ s, o ∉ outcomesOf s a) (ins : List Input)
    (h : Without o s) : Without o (runTicks prog ins s) :=
  runTicks_induction (fun _ ins h => h.withInputs ins)
    (fun s d h => tick_induction (fun a n he ha => h.runAct he (hprog a (hasAct_of_actOf ha) s) n) h.enginePhase h d)
    ins h

/-! A run whose loads all come after `WCOL` has been cleared. -/

/-- At one of the positions `E` the action is `W_IDLE`, or it is no load and leaves the sequencer at one of `E`, or it
completes the command. -/
def idlesAt (prog : List Step) (E : List Pos) (p : Pos) : Bool :=
  match actOf prog p with
  | none => true
  | some (a, n) => a == .wIdle || a == .done || localAct a && (successors n p a).all E.contains

/-- From the positions `E` the program comes to its loads by a `W_IDLE` only. -/
def idlesFirst (prog : List Step) (E : List Pos) : Bool := E.all (idlesAt prog E)

theorem targets_subset_successors (n : Nat) (p : Pos) (i : BitVec 16) (a : Act) :
    targets n p i a ⊆ successors n p a := by
  cases a with
  | ifIdxIsLen | unlessIdxBelowLen =>
    simp only [targets]
    split <;> simp [successors]
  | _ => exact List.Subset.refl _

theorem idlesFirst_cases {prog : List Step} {E : List Pos} (h : idlesFirst prog E = true) {p : Pos} (hp : p ∈ E)
    {a : Act} {n : Nat} (ha : actOf prog p = some (a, n)) :
    a = .wIdle ∨ a = .done ∨ localAct a = true ∧ ∀ i, ∀ q ∈ targets n p i a, q ∈ E := by
  have hat : idlesAt prog E p = true := List.all_eq_true.1 h p hp
  simp only [idlesAt, ha, Bool.or_eq_true, beq_iff_eq, Bool.and_eq_true, List.all_eq_true, or_assoc,
    List.contains_iff_mem] at hat
  exact hat.imp_right fun hat => hat.imp_right fun ⟨hl, hs⟩ =>
    ⟨hl, fun i q hq => hs q (targets_subset_successors n p i a hq)⟩

/-- While `WCOL` is 1 the sequencer is at one of the positions `E`. -/
structure Clears (E : List Pos) (s : State) : Prop extends Without .writeCollision s where
  early : s.stat.wcol = true → pos s ∈ E

theorem Clears.enginePhase {E : List Pos} (h : Clears E s) (d : Drive) : Clears E (enginePhase d s) := by
  have f := enginePhase_frame d s
  exact ⟨h.toWithout.enginePhase d, fun hw => f.pos ▸ h.early (f.wcol ▸ hw)⟩

theorem Clears.runAct {E : List Pos} (hE : idlesFirst prog E = true) (h : Clears E s) (he : s.eng.eop = .none) {a : Act}
    {n : Nat} (ha : actOf prog (pos s) = some (a, n)) : Clears E (runAct a n s) := by
  have l := runAct_leaves h.toOpState he a n
  obtain ⟨hpend, htrun, htbf⟩ := h.idle he
  cases hw : s.stat.wcol with
  | false =>
    have hno := writeCollision_notMem_of_loadAccepted (show loadRejected s = false by
      simp [loadRejected, hpend, htrun, htbf, hw]) a
    exact ⟨h.toWithout.runAct he hno n, fun hw' => ((l.wcol hw').2.elim (by simp [hw]) hno).elim⟩
  | true =>
    rcases idlesFirst_cases hE (h.early hw) ha with rfl | rfl | ⟨hl, hnext⟩
    · exact ⟨h.toWithout.runAct he (by simp [outcomesOf]) n, fun hw' => ((l.wcol hw').1 rfl).elim⟩
    · exact ⟨h.toWithout.runAct he (by simp [outcomesOf]) n, fun _ => h.early hw⟩
    · have hno : .writeCollision ∉ outcomesOf s a := fun hmem =>
        nomatch (opens_of_localAct hl).symm.trans (opens_of_writeCollision hmem)
      exact ⟨h.toWithout.runAct he hno n, fun _ => hnext _ _ (localAct_moves hl n s).pos⟩

theorem Clears.runTicks {E : List Pos} (hE : idlesFirst prog E = true) (ins : List Input) (h : Clears E s) :
    Clears E (runTicks prog ins s) :=
  runTicks_induction (fun _ ins h => ⟨h.toWithout.withInputs ins, h.early⟩)
    (fun _ d h => tick_induction (fun _ _ he ha => h.runAct hE he ha) h.enginePhase h d) ins h

end run

/-! The commands. -/

/-- The positions of a composite command that come before its first `W_IDLE`, or without one. -/
def beforeIdle : Instr → List Pos
  | .writeBytes _ _ _ _ => [⟨0#8, 0⟩, ⟨1#8, 0⟩, ⟨2#8, 0⟩, ⟨4#8, 0⟩]
  | .readBytes _ _ _ _ => [⟨0#8, 0⟩, ⟨1#8, 0⟩, ⟨4#8, 0⟩]
  | _ => [⟨0#8, 0⟩]

theorem beforeIdle_start (i : Instr) : ⟨0#8, 0⟩ ∈ beforeIdle i := by
  cases i <;> simp [beforeIdle]

theorem composite_idlesFirst {i : Instr} (hc : composite i = true) :
    idlesFirst (program i) (beforeIdle i) = true := by
  cases i with
  | waitIdle | start | restart | stop | writeByte | readByte | sendAck | sendNotAck | ackStatus => cases hc
  | _ => rfl

section commands

variable {i : Instr} {s t : State}

/-- A command starts without any outcome but `Success` (R120). -/
theorem without_of_accepts {o : Xfer} (ha : accepts i s) (ho : o ≠ .success) :
    Without o (acceptCommand (encode i) s) :=
  ⟨(ready_of_accepts ha).1.opState, ho.symm, ho.symm⟩

theorem runTicks_of_accepts (ha : accepts i s) (hexec : exec i s = .next t) :
    t = runTicks (program i) s.inputs (acceptCommand (encode i) s) :=
  Host.Outcome.next.inj (hexec.symm.trans (exec_of_accepts ha))

/-- A command none of whose actions has the outcome does not have it. -/
theorem outcome_ne_of_acts {o : Xfer} (ha : accepts i s) (hexec : exec i s = .next t) (ho : o ≠ .success)
    (hprog : ∀ a, hasAct (program i) a → ∀ s, o ∉ outcomesOf s a) : t.res.outcome ≠ o := by
  rw [runTicks_of_accepts ha hexec]
  exact ((without_of_accepts ha ho).runTicks hprog s.inputs).outcome

/-- A command that clears `WCOL` before its loads, or finds it 0, meets no write collision. -/
theorem outcome_ne_writeCollision {E : List Pos} (ha : accepts i s) (hexec : exec i s = .next t)
    (hE : idlesFirst (program i) E = true) (hw : s.stat.wcol = true → ⟨0#8, 0⟩ ∈ E) :
    t.res.outcome ≠ .writeCollision := by
  rw [runTicks_of_accepts ha hexec]
  exact (Clears.runTicks hE s.inputs ⟨without_of_accepts ha nofun, hw⟩).outcome

/-- `WriteCollision` comes from `writeByte` issued with `WCOL = 1` only: a composite command clears `WCOL` first. -/
theorem writeCollision_cases (ha : accepts i s) (hexec : exec i s = .next t)
    (ho : t.res.outcome = .writeCollision) : s.stat.wcol = true ∧ ∃ b, i = .writeByte b := by
  cases ht : transmits i with
  | false =>
    refine absurd ho (outcome_ne_of_acts ha hexec nofun fun a hmem u hu => ?_)
    exact opens_of_not_transmits ht hmem (opens_of_writeCollision hu)
  | true =>
    cases hc : composite i with
    | true =>
      refine absurd ho (outcome_ne_writeCollision ha hexec (composite_idlesFirst hc) fun _ => ?_)
      exact beforeIdle_start i
    | false =>
      obtain ⟨b, rfl⟩ : ∃ b, i = .writeByte b := by
        cases i with
        | writeByte b => exact ⟨b, rfl⟩
        | waitIdle | start | restart | stop | readByte | sendAck | sendNotAck | ackStatus => cases ht
        | _ => cases hc
      cases hw : s.stat.wcol with
      | true => exact ⟨rfl, b, rfl⟩
      | false => exact absurd ho (outcome_ne_writeCollision (E := []) ha hexec rfl (by simp [hw]))

/-- `BusCollision` comes from `ldSequentialRead` only, the one command that tests `BCOL`. -/
theorem busCollision_cases (ha : accepts i s) (hexec : exec i s = .next t) (ho : t.res.outcome = .busCollision) :
    ∃ ctrl addr ptr len, i = .ldSequentialRead ctrl addr ptr len := by
  by_contra hi
  refine absurd ho (outcome_ne_of_acts ha hexec nofun fun a hmem u hu => ?_)
  have hall : ((program i).all fun st => st.all fun a => !testsBcol a) = true := by
    cases i with
    | ldSequentialRead ctrl addr ptr len => exact absurd ⟨ctrl, addr, ptr, len, rfl⟩ hi
    | _ => rfl
  have := forall_hasAct hall hmem
  simp [testsBcol_of_busCollision hu] at this

end commands

/-- Settles O48: along a run, `OUT` takes only the outcomes of the actions of the program. -/
theorem collisionOutcomes : Obligations.CollisionOutcomes := by
  unfold Obligations.CollisionOutcomes
  exact fun i s t ha _ hexec => ⟨writeCollision_cases ha hexec, busCollision_cases ha hexec⟩

end Sys2Proof.Machine
end

section
/-! SUPPORT. What the bursts are made of (spec/44_burst_transfer.md R250 to R264): their local actions on the working
registers, sequences and traces that begin with a first transaction, and the buffer a burst has filled. -/

namespace Sys2Proof.Machine

/-! What an action that only works on the sequencer makes of the working registers. -/

section work

variable (n : Nat) (s : State)

theorem work_goto (dest : Pos) : work (runAct (.goto dest) n s) = { work s with pos := dest } := rfl

theorem work_countByte : work (runAct .countByte n s) =
    { work s with
      pos := nextPos n (work s).pos, idx := (work s).idx + 1#16
      res := { (work s).res with count := (work s).idx + 1#16 } } := by
  rw [runAct, actCountByte, goNext_eq]
  rfl

theorem work_ifIdxIsLen (len : BitVec 16) (dest : Pos) : work (runAct (.ifIdxIsLen len dest) n s) =
    { work s with pos := if (work s).idx = len then dest else nextPos n (work s).pos } := by
  by_cases h : s.seq.idx = len
  · rw [runAct, if_pos h, if_pos (show (work s).idx = len from h)]
    rfl
  · rw [runAct, if_neg h, goNext_eq, if_neg (show ¬ (work s).idx = len from h)]
    rfl

theorem work_unlessIdxBelowLen (len : BitVec 16) (dest : Pos) : work (runAct (.unlessIdxBelowLen len dest) n s) =
    { work s with
      pos := if (work s).idx.toNat < len.toNat then nextPos n (work s).pos else dest } := by
  by_cases h : s.seq.idx.toNat < len.toNat
  · rw [runAct, if_pos h, goNext_eq, if_pos (show (work s).idx.toNat < len.toNat from h)]
    rfl
  · rw [runAct, if_neg h, if_neg (show ¬ (work s).idx.toNat < len.toNat from h)]
    rfl

theorem work_ifBcol (dest : Pos) : work (runAct (.ifBcol dest) n s) =
    if s.stat.bcol then { work s with pos := dest, out := .busCollision }
    else { work s with pos := nextPos n (work s).pos } := by
  cases h : s.stat.bcol with
  | true => rw [runAct, if_pos h]; rfl
  | false => rw [runAct, if_neg (by simp [h]), goNext_eq]; rfl

theorem work_readBuf (ptr : BitVec 16) (h : s.raced = false) : work (runAct (.readBuf ptr) n s) =
    { work s with
      pos := nextPos n (work s).pos
      tmp := readCell (work s).mem (bufAddr ptr (work s).idx).toNat } := by
  rw [runAct, loadByte, if_neg (by simp [h]), goNext_eq]
  rfl

theorem work_writeBuf (ptr : BitVec 16) (h : s.raced = false) : work (runAct (.writeBuf ptr) n s) =
    { work s with
      pos := nextPos n (work s).pos
      mem := writeCell (work s).mem (bufAddr ptr (work s).idx).toNat (work s).val } := by
  rw [runAct, storeByte, if_neg (by simp [h]), goNext_eq]
  rfl

theorem work_storeIf (late : Bool) (ptr : BitVec 16) (h : s.raced = false) : work (runAct (.storeIf late ptr) n s) =
    { work s with
      pos := nextPos n (work s).pos
      mem := if storesAfterStop s = late then
        writeCell (work s).mem (bufAddr ptr (work s).idx).toNat (work s).val else (work s).mem } := by
  obtain ⟨_, rfl, -, hw⟩ := storeIf_effect (n := n) late ptr h
  exact hw

end work

/-- A local action with what follows it; its effect says what it keeps. -/
theorem RunsTo.moves {prog : List Step} {s : State} {w : Work} {n k m : Nat} {a : Act}
    {P : List Event → State → Prop} (w' : Work) (r : Ready s) (hw : work s = w) (ha : actOf prog w.pos = some (a, n))
    (hl : localAct a = true) (hw' : work (runAct a n s) = w')
    (next : ∀ t, Ready t → BusEffect s [] t → work t = w' → RunsTo prog k m t P) :
    RunsTo prog (1 + k) m s P := by
  refine (runs_local r hw ha rfl (localAct_moves hl n s).effect).bind r ?_
  rintro _ _ rt e ⟨rfl, rfl⟩
  exact next _ rt e hw'

/-! Sequences, and the traces and counts of bursts from their first transaction on. -/

/-- The sequence that begins with `x` and goes on as `f`. -/
def prepend {α : Type} (x : α) (f : Nat → α) : Nat → α
  | 0 => x
  | k + 1 => f k

theorem writesTrace_shift (l : Nat → List (BitVec 8 × Bool)) (n i : Nat) :
    writesTrace l n (i + 1) = writesTrace (fun j => l (j + 1)) n i := by
  induction n generalizing i with
  | zero => rfl
  | succ n ih => simp only [writesTrace, ih]

theorem writesCount_shift (l : Nat → List (BitVec 8 × Bool)) (n i : Nat) :
    writesCount l n (i + 1) = writesCount (fun j => l (j + 1)) n i := by
  induction n generalizing i with
  | zero => rfl
  | succ n ih => simp only [writesCount, ih]

theorem readsTrace_shift (l : Nat → List (BitVec 8 × Bool)) (r : Nat → BitVec 8 × Bool) (v : Nat → BitVec 8)
    (nackSent : Bool) (n i : Nat) : readsTrace l r v nackSent n (i + 1) =
      readsTrace (fun j => l (j + 1)) (fun j => r (j + 1)) (fun j => v (j + 1)) nackSent n i := by
  induction n generalizing i with
  | zero => rfl
  | succ n ih => simp only [readsTrace, ih]

theorem readsCount_shift (l : Nat → List (BitVec 8 × Bool)) (r : Nat → BitVec 8 × Bool) (n i : Nat) :
    readsCount l r n (i + 1) = readsCount (fun j => l (j + 1)) (fun j => r (j + 1)) n i := by
  induction n generalizing i with
  | zero => rfl
  | succ n ih => simp only [readsCount, ih]

theorem sequentialTrace_shift (v : Nat → BitVec 8) (n i : Nat) :
    sequentialTrace v n (i + 1) = sequentialTrace (fun j => v (j + 1)) n i := by
  induction n, i using sequentialTrace.induct with
  | case1 => rfl
  | case2 => rfl
  | case3 n i ih => simp only [sequentialTrace, ih]

/-- A byte received and acknowledged before the others. -/
theorem sequentialTrace_prepend (x : BitVec 8) (v : Nat → BitVec 8) (n : Nat) :
    sequentialTrace (prepend x v) (n + 2) 0 = [.Rx x, .Ak false] ++ sequentialTrace v (n + 1) 0 := by
  rw [sequentialTrace, sequentialTrace_shift]
  rfl

theorem txTrace_append (l l' : List (BitVec 8 × Bool)) :
    txTrace (l ++ l') = txTrace l ++ if anyNack l then [] else txTrace l' := by
  induction l with
  | nil => rfl
  | cons x l ih =>
    obtain ⟨b, a⟩ := x
    cases a with
    | false => exact congrArg (Event.Tx b false :: ·) ih
    | true => rfl

/-! The buffer that a burst has filled. -/

/-- The buffer memory `m'` is `m` with the first `n` bytes of `v` stored from address `base` on (R84). -/
structure Filled (m : List Host.Cell) (base n : Nat) (v : Nat → BitVec 8) (m' : List Host.Cell) : Prop where
  wf : memWf m' = true
  reads : ∀ a, readCell m' a = if base ≤ a ∧ a < base + n then v (a - base) else readCell m a

theorem filled_none {m : List Host.Cell} (h : memWf m = true) (base : Nat) (v : Nat → BitVec 8) :
    Filled m base 0 v m :=
  ⟨h, fun a => (if_neg (by omega)).symm⟩

/-- A byte stored before the others. -/
theorem Filled.prepend {m m' : List Host.Cell} {base n : Nat} {v : Nat → BitVec 8} {x : BitVec 8}
    (hm : memWf m = true) (h : Filled (writeCell m base x) (base + 1) n v m') :
    Filled m base (n + 1) (prepend x v) m' where
  wf := h.wf
  reads a := by
    rw [h.reads, readCell_writeCell hm]
    rcases Nat.lt_trichotomy a base with hlt | rfl | hgt
    · rw [if_neg (by omega), if_neg (by omega), if_neg (by omega)]
    · rw [if_neg (by omega), if_pos rfl, if_pos (by omega), Nat.sub_self]
      rfl
    · obtain ⟨j, rfl⟩ : ∃ j, a = base + 1 + j := ⟨a - (base + 1), by omega⟩
      have hj : base + 1 + j - base = j + 1 := by omega
      rw [hj, Nat.add_sub_cancel_left, if_neg (show ¬ base = base + 1 + j by omega)]
      exact if_congr (by omega) rfl rfl

/-- The addresses of a burst in its order: none wraps (R116). -/
theorem bufAddr_toNat {ptr i : BitVec 16} (h : ptr.toNat + i.toNat < 65536) :
    (bufAddr ptr i).toNat = ptr.toNat + i.toNat := by
  rw [bufAddr, BitVec.toNat_add, Nat.mod_eq_of_lt h]

theorem toNat_succ {i len : BitVec 16} (h : i.toNat < len.toNat) : (i + 1#16).toNat = i.toNat + 1 := by
  bv_omega

/-- The index of a byte of the rest of a burst (R250). -/
theorem idx_succ (i : BitVec 16) (j : Nat) : i + 1#16 + BitVec.ofNat 16 j = i + BitVec.ofNat 16 (j + 1) := by
  rw [Nat.add_comm j 1, BitVec.ofNat_add, BitVec.add_assoc]

/-! From a run to a command that may have stored bytes. -/

/-- As `completes_with_of_runs`, for every command: the buffer memory is the run's. -/
theorem completes_with_memory {i : Instr} {s : State} {P : List Event → State → Prop} {n : Nat} {idled : Bool}
    (ha : accepts i s) (hs : served i s) (hn : n ≤ tickBound i)
    (hrun : RunsTo (program i) n 1 (acceptCommand (encode i) s) P)
    (hend : ∀ es u, P es u →
      (∃ k, actOf (program i) (work u).pos = some (.done, k)) ∧ (work u).wcol = (!idled && s.stat.wcol)) :
    ∃ es u t, P es u ∧ exec i s = .next t ∧ t.stat = u.stat ∧ t.mem = u.mem ∧
      completed i s es { (work u).res with outcome := (work u).out, valid := true } idled t := by
  obtain ⟨ready, -⟩ := ready_of_accepts ha
  obtain ⟨es, u, j, effect, hp, hexec⟩ := exec_of_runs ha hs hn hrun fun es u hp => (hend es u hp).1
  obtain ⟨-, hw⟩ := hend es u hp
  exact ⟨es, u, _, hp, hexec, rfl, rfl, completed_of_effect effect (effect.ready ready).eop rfl hw⟩

end Sys2Proof.Machine
end

section
/-! The register bursts and `ackStatus` complete (spec/44_burst_transfer.md R251 to R253, R266). Settles O35, O41 and
O42. -/

namespace Sys2Proof.Machine

/-! One turn of the loop of a burst: a transaction, and the count of its byte where it did not fail (R250, R251, R253). -/

/-- The working registers after a turn of the loop whose transaction left `w`. -/
def turnEnd (failed : Bool) (w : Work) : Work :=
  if failed then { w with pos := ⟨4#8, 0⟩, out := .notAcknowledged }
  else { w with
    pos := ⟨0#8, 0⟩, out := .success, idx := w.idx + 1#16
    res := { w.res with count := w.idx + 1#16 } }

/-- A transaction leaves `w'` of the working registers `w`: it has cleared `WCOL` and set `STOPI`. -/
structure TransactionLeaves (w w' : Work) : Prop where
  wcol : w'.wcol = false
  idx : w'.idx = w.idx
  res : w'.res = { w.res with stopi := true }

/-- A register burst of `k` bytes, started with the working registers `w` and `n` of its transactions acknowledged
throughout, is at its `done`. -/
structure BurstEnd (w : Work) (k n : Nat) (t : State) : Prop where
  pos : (work t).pos = ⟨4#8, 0⟩
  out : (work t).out = ackOutcome (decide (n < k))
  wcol : (work t).wcol = (decide (k = 0) && w.wcol)
  res : (work t).res =
    { w.res with stopi := w.res.stopi || decide (k ≠ 0), count := w.idx + BitVec.ofNat 16 n }

/-- The sequencer is at `p`, the head of the loop of a burst, with the bytes so far counted and none failed. -/
structure TurnDue (p : Pos) (w : Work) (s : State) : Prop where
  work : work s = w
  pos : w.pos = p
  out : w.out = .success
  count : w.res.count = w.idx

section turn

variable {s t : State} {w w' : Work} {k n : Nat}

theorem TurnDue.done (h : TurnDue ⟨0#8, 0⟩ w s) (ht : Machine.work t = { w with pos := ⟨4#8, 0⟩ }) : BurstEnd w 0 0 t where
  pos := by rw [ht]
  out := by rw [ht]; exact h.out
  wcol := by rw [ht]; rfl
  res := by simp [ht, ← h.count]

theorem TurnDue.failed (h : TurnDue ⟨0#8, 0⟩ w s) (l : TransactionLeaves w w') (ht : Machine.work t = turnEnd true w') :
    BurstEnd w (k + 1) 0 t where
  pos := by rw [ht]; rfl
  out := by rw [ht]; rfl
  wcol := by rw [ht]; exact l.wcol
  res := by simp [ht, turnEnd, l.res, ← h.count]

theorem turnDue_next (ht : work t = turnEnd false w') : TurnDue ⟨0#8, 0⟩ (turnEnd false w') t :=
  ⟨ht, rfl, rfl, rfl⟩

theorem BurstEnd.counted (h : BurstEnd (turnEnd false w') k n t) (l : TransactionLeaves w w') :
    BurstEnd w (k + 1) (1 + n) t where
  pos := h.pos
  out := h.out.trans (by simp [Nat.add_comm 1])
  wcol := h.wcol.trans (by simp [turnEnd, l.wcol])
  res := h.res.trans (by simp [turnEnd, l.res, l.idx, BitVec.ofNat_add, BitVec.add_assoc])

end turn

/-! `ackStatus` (R266). -/

theorem work_dataFromAckstat (n : Nat) (s : State) : work (runAct .dataFromAckstat n s) =
    { work s with
      pos := nextPos n (work s).pos, draws := if s.known.ackstat then s.draws else s.draws + 1
      res := { (work s).res with data := if ackstatRead s then 0x00#8 else 0x01#8 } } := by
  rw [runAct, actDataFromAckstat, goNext_eq]
  cases s.known.ackstat with
  | false => rfl
  | true => rfl

/-- What `ackStatus` reads, it puts into `RES.DATA`; a bit that nothing has written is drawn. -/
theorem runs_ackStatus {s : State} {m : Nat} (r : Ready s) (hp : (work s).pos = ⟨0#8, 0⟩) :
    RunsTo progAckStatus (1 + m) m s (fun es t => es = [] ∧
      work t = { work s with
        pos := ⟨1#8, 0⟩, draws := if s.known.ackstat then s.draws else s.draws + 1,
        res := { s.res with data := if ackstatRead s then 0x00#8 else 0x01#8 } }) := by
  have effect : BusEffect s [] (runAct .dataFromAckstat 1 s) := by
    simp only [runAct, actDataFromAckstat]
    cases s.known.ackstat <;> constructor <;> simp [busView, BusView.afterAll]
  refine (runs_local r rfl (hp ▸ rfl) rfl effect).mono ?_
  rintro _ _ - ⟨rfl, rfl⟩
  exact ⟨rfl, by rw [work_dataFromAckstat, hp]; rfl⟩

section commands

variable {s : State} {w : Work} {k m : Nat} {dev : BitVec 7} {reg ptr len : BitVec 16}

/-! `writeBytes` (R251). -/

/-- The bytes of a write transaction, each with the level of its acknowledge slot in `a`. -/
def writeBurstBytes (dev : BitVec 7) (reg : BitVec 16) (b : BitVec 8) (a : Bool × Bool × Bool) :
    List (BitVec 8 × Bool) :=
  [(addrByte dev false, a.1), (reg8 reg, a.2.1), (b, a.2.2)]

/-- The byte of the buffer that is `j` bytes on (R251). -/
def Work.bufByte (w : Work) (ptr : BitVec 16) (j : Nat) : BitVec 8 :=
  readCell w.mem (bufAddr ptr (w.idx + BitVec.ofNat 16 j)).toNat

theorem bufByte_zero (w : Work) (ptr : BitVec 16) : w.bufByte ptr 0 = readCell w.mem (bufAddr ptr w.idx).toNat := by
  rw [Work.bufByte, BitVec.add_zero]

theorem bufByte_succ {w w' : Work} (hidx : w'.idx = w.idx + 1#16) (hmem : w'.mem = w.mem) (ptr : BitVec 16) (j : Nat) :
    w'.bufByte ptr j = w.bufByte ptr (j + 1) := by
  rw [Work.bufByte, Work.bufByte, hidx, hmem, idx_succ]

/-- The end of a turn of R251, from the test of its outcome on. -/
theorem runs_writeBytes_count {failed : Bool} (r : Ready s)
    (hw : work s = { w with pos := ⟨2#8, 12⟩, out := ackOutcome failed }) :
    RunsTo (progWriteBytes dev reg ptr len) (1 + (1 + (1 + m))) m s (fun es t => es = [] ∧
      work t = turnEnd failed w) := by
  have tail := actOf_append (prog := progWriteBytes dev reg ptr len) (u := 2#8) rfl (length_xWriteReg _)
  cases failed with
  | true =>
    refine RunsTo.moves (turnEnd true w) r hw (tail 0) rfl (by rw [work_ifFailed, hw]; rfl) fun t _ _ ht => ?_
    exact (RunsTo.refl ⟨rfl, ht⟩).credit (show m ≤ _ by omega)
  | false =>
    refine RunsTo.moves { w with pos := ⟨3#8, 0⟩, out := .success } r hw (tail 0) rfl
      (by rw [work_ifFailed, hw]; rfl) fun t₁ r₁ _ w₁ => ?_
    refine RunsTo.moves { turnEnd false w with pos := ⟨3#8, 1⟩ } r₁ w₁ rfl rfl (by rw [work_countByte, w₁]; rfl)
      fun t₂ r₂ _ w₂ => ?_
    exact RunsTo.moves (turnEnd false w) r₂ w₂ rfl rfl (by rw [work_goto, w₂]; rfl)
      fun t _ _ ht => RunsTo.refl ⟨rfl, ht⟩

/-- One turn of the loop of R251. -/
theorem runs_writeBytes_turn (r : Ready s) (f : BusFree s) (hraced : s.raced = false) (h : TurnDue ⟨0#8, 0⟩ w s)
    (hlen : w.idx ≠ len) :
    RunsTo (progWriteBytes dev reg ptr len) (1 + (1 + (ticksWrite + (1 + (1 + (1 + m)))))) m s (fun es t => ∃ a w',
      let l := writeBurstBytes dev reg (w.bufByte ptr 0) a
      es = writeTrace l ∧ work t = turnEnd (anyNack l) w' ∧ TransactionLeaves w w' ∧ w'.mem = w.mem) := by
  refine RunsTo.moves { w with pos := ⟨1#8, 0⟩ } r h.work (by rw [h.pos]; rfl) rfl
    (by rw [work_ifIdxIsLen, h.work, if_neg hlen, h.pos]; rfl) fun t₁ r₁ e₁ w₁ => ?_
  refine RunsTo.moves { w with pos := ⟨2#8, 0⟩, tmp := w.bufByte ptr 0 } r₁ w₁ rfl rfl
    (by rw [work_readBuf _ _ _ (e₁.raced.trans hraced), w₁, bufByte_zero]; rfl) fun t₂ r₂ e₂ w₂ => ?_
  refine (runs_xWriteReg (u := 2#8) (d8 := .tmp) r₂ (e₂.busFree (e₁.busFree f)) w₂ rfl (fun _ ht => ht) rfl).bind r₂ ?_
  rintro _ t₃ r₃ - ⟨a₀, a₁, a₂, rfl, w₃⟩
  refine (runs_writeBytes_count (w := { w with
    tmp := w.bufByte ptr 0, wcol := false, res := { w.res with stopi := true } }) r₃ w₃).mono ?_
  rintro _ t - ⟨rfl, ht⟩
  exact ⟨(a₀, a₁, a₂), _, List.append_nil _, ht, ⟨rfl, rfl, rfl⟩, rfl⟩

/-- The turns of a write burst that are still to come, `k` of them. -/
theorem runs_writeBytes_ended (r : Ready s) (f : BusFree s) (hraced : s.raced = false) (h : TurnDue ⟨0#8, 0⟩ w s)
    (hk : w.idx.toNat + k = len.toNat) :
    RunsTo (progWriteBytes dev reg ptr len) ((ticksWrite + 5) * k + (1 + m)) m s (fun es t =>
      ∃ ack : Nat → Bool × Bool × Bool,
        let l := fun j => writeBurstBytes dev reg (w.bufByte ptr j) (ack j)
        es = writesTrace l k 0 ∧ BurstEnd w k (writesCount l k 0) t) := by
  induction k generalizing s w with
  | zero =>
    have hlen : w.idx = len := BitVec.eq_of_toNat_eq hk
    rw [show (ticksWrite + 5) * 0 + (1 + m) = 1 + m by omega]
    refine RunsTo.moves _ r h.work (by rw [h.pos]; rfl) rfl (by rw [work_ifIdxIsLen, h.work, if_pos hlen])
      fun t _ _ ht => ?_
    exact RunsTo.refl ⟨fun _ => (false, false, false), rfl, h.done ht⟩
  | succ k ih =>
    have hlen : w.idx ≠ len := by rintro h; rw [h] at hk; omega
    rw [show (ticksWrite + 5) * (k + 1) + (1 + m) =
      1 + (1 + (ticksWrite + (1 + (1 + (1 + ((ticksWrite + 5) * k + (1 + m))))))) by rw [Nat.mul_succ]; omega]
    refine (runs_writeBytes_turn r f hraced h hlen).bind r ?_
    rintro _ t rt e ⟨a, w', rfl, ht, l, hmem⟩
    cases hnack : anyNack (writeBurstBytes dev reg (w.bufByte ptr 0) a) with
    | true =>
      rw [hnack] at ht
      refine (RunsTo.refl ⟨fun _ => a, ?_, ?_⟩).credit (show m ≤ _ by omega)
      · simp [writesTrace, hnack]
      · simpa [writesCount, hnack] using h.failed l ht
    | false =>
      rw [hnack] at ht
      have hidx : (turnEnd false w').idx = w.idx + 1#16 := congrArg (· + 1#16) l.idx
      have hk' : (turnEnd false w').idx.toNat + k = len.toNat := by
        rw [hidx, toNat_succ (len := len) (by omega)]; omega
      refine (ih rt e.busFree_of_stop.1 (e.raced.trans hraced) (turnDue_next ht) hk').mono ?_
      rintro _ u - ⟨ack, rfl, hend⟩
      simp only [bufByte_succ hidx hmem] at hend ⊢
      refine ⟨prepend a ack, ?_, ?_⟩
      · simp [writesTrace, writesTrace_shift, prepend, hnack]
      · simpa [writesCount, writesCount_shift, prepend, hnack] using hend.counted l

/-! `readBytes` (R253). -/

/-- The bytes before the RESTART of a read transaction, each with the level of its acknowledge slot in `a`. -/
def readBurstBytes (dev : BitVec 7) (reg : BitVec 16) (a : Bool × Bool × Bool) : List (BitVec 8 × Bool) :=
  [(addrByte dev false, a.1), (reg8 reg, a.2.1)]

/-- The byte after it. -/
def readBurstByte (dev : BitVec 7) (a : Bool × Bool × Bool) : BitVec 8 × Bool := (addrByte dev true, a.2.2)

/-- The end of a turn of R253, from the value of its transaction on; the byte is stored once, here or before. -/
theorem runs_readBytes_count {w₀ : Work} {ok : Bool} {v : BitVec 8} (r : Ready s) (hraced : s.raced = false)
    (l : TransactionLeaves w₀ w) (hval : ok = true → w.val = v)
    (hmem : w.mem =
      if ok && !storesAfterStop s then writeCell w₀.mem (bufAddr ptr w₀.idx).toNat v else w₀.mem)
    (hw : work s = { w with pos := ⟨1#8, 21⟩, out := ackOutcome (!ok) }) :
    RunsTo (progReadBytes dev reg ptr len) (1 + (1 + (1 + (1 + (1 + m))))) m s (fun es t => es = [] ∧ ∃ w',
      work t = turnEnd (!ok) w' ∧ TransactionLeaves w₀ w' ∧
      w'.mem = if ok then writeCell w₀.mem (bufAddr ptr w₀.idx).toNat v else w₀.mem) := by
  have tail := actOf_append (prog := progReadBytes dev reg ptr len) (u := 1#8) rfl
    (length_xReadRegWith [.storeIf false ptr])
  cases ok with
  | false =>
    refine RunsTo.moves { w with pos := ⟨1#8, 22⟩, out := .notAcknowledged, val := 0x00#8 } r hw (tail 0) rfl
      (by rw [work_returnVal, hw]; rfl) fun t₁ r₁ _ w₁ => ?_
    refine RunsTo.moves (turnEnd true { w with val := 0x00#8 }) r₁ w₁ (tail 1) rfl
      (by rw [work_ifFailed, w₁]; rfl) fun t _ _ ht => ?_
    exact (RunsTo.refl ⟨rfl, _, ht, ⟨l.wcol, l.idx, l.res⟩, hmem⟩).credit (show m ≤ _ by omega)
  | true =>
    refine RunsTo.moves { w with pos := ⟨1#8, 22⟩, out := .success } r hw (tail 0) rfl
      (by rw [work_returnVal, hw]; rfl) fun t₁ r₁ e₁ w₁ => ?_
    refine RunsTo.moves { w with pos := ⟨2#8, 0⟩, out := .success } r₁ w₁ (tail 1) rfl
      (by rw [work_ifFailed, w₁]; rfl) fun t₂ r₂ e₂ w₂ => ?_
    have hlate : storesAfterStop t₂ = storesAfterStop s := by
      rw [storesAfterStop, e₂.cfg, e₁.cfg]; rfl
    let stored : Work := { w with mem := writeCell w₀.mem (bufAddr ptr w₀.idx).toNat v }
    refine RunsTo.moves { stored with pos := ⟨3#8, 0⟩, out := .success } r₂ w₂ rfl rfl
      (by
        rw [work_storeIf _ _ _ _ (e₂.raced.trans (e₁.raced.trans hraced)), w₂, hlate]
        cases hs : storesAfterStop s <;> simp [hmem, hs, nextPos, stored, hval, l.idx]) fun t₃ r₃ _ w₃ => ?_
    refine RunsTo.moves { turnEnd false stored with pos := ⟨3#8, 1⟩ } r₃ w₃ rfl rfl
      (by rw [work_countByte, w₃]; rfl) fun t₄ r₄ _ w₄ => ?_
    exact RunsTo.moves (turnEnd false stored) r₄ w₄ rfl rfl (by rw [work_goto, w₄]; rfl)
      fun t _ _ ht => RunsTo.refl ⟨rfl, _, ht, ⟨l.wcol, l.idx, l.res⟩, rfl⟩

/-- One turn of the loop of R253. -/
theorem runs_readBytes_turn (r : Ready s) (f : BusFree s) (hraced : s.raced = false) (h : TurnDue ⟨0#8, 0⟩ w s)
    (hlen : w.idx ≠ len) :
    RunsTo (progReadBytes dev reg ptr len) (1 + (ticksRead + 1 + (1 + (1 + (1 + (1 + (1 + m))))))) m s (fun es t =>
      ∃ a v w',
        let ok := readOk (readBurstBytes dev reg a) (readBurstByte dev a)
        es = readTrace (readBurstBytes dev reg a) (readBurstByte dev a) v s.cfg.readNack ∧
        work t = turnEnd (!ok) w' ∧ TransactionLeaves w w' ∧
        w'.mem = if ok then writeCell w.mem (bufAddr ptr w.idx).toNat v else w.mem) := by
  refine RunsTo.moves { w with pos := ⟨1#8, 0⟩ } r h.work (by rw [h.pos]; rfl) rfl
    (by rw [work_ifIdxIsLen, h.work, if_neg hlen, h.pos]; rfl) fun t₁ r₁ e₁ w₁ => ?_
  have hraced₁ := e₁.raced.trans hraced
  refine (runs_xReadRegStore (u := 1#8) r₁ (e₁.busFree f) hraced₁ w₁ rfl rfl).bind r₁ ?_
  rintro _ t₂ r₂ e₂ ⟨a₀, a₁, a₂, v, rfl, w₂⟩
  have hlate : storesAfterStop t₁ = storesAfterStop t₂ := by rw [storesAfterStop, ← e₂.cfg]; rfl
  rw [hlate] at w₂
  refine (runs_readBytes_count (w₀ := w) (v := v) (w := { w with
      val := if readOk (readBurstBytes dev reg (a₀, a₁, a₂)) (readBurstByte dev (a₀, a₁, a₂)) then v else w.val,
      wcol := false, res := { w.res with stopi := true }, mem := _ })
    r₂ (e₂.raced.trans hraced₁) ⟨rfl, rfl, rfl⟩ (fun h => if_pos h) rfl w₂).mono ?_
  rintro _ t - ⟨rfl, w', ht⟩
  exact ⟨(a₀, a₁, a₂), v, w', by rw [List.append_nil, e₁.cfg]; rfl, ht⟩

/-- The turns of a read burst that are still to come, `k` of them. -/
theorem runs_readBytes_ended (r : Ready s) (f : BusFree s) (hraced : s.raced = false) (h : TurnDue ⟨0#8, 0⟩ w s)
    (hk : w.idx.toNat + k = len.toNat) (hrange : ptr.toNat + len.toNat ≤ 65536) (hm : memWf w.mem = true) :
    RunsTo (progReadBytes dev reg ptr len) ((ticksRead + 7) * k + (1 + m)) m s (fun es t =>
      ∃ (ack : Nat → Bool × Bool × Bool) (v : Nat → BitVec 8),
        let l := fun j => readBurstBytes dev reg (ack j)
        let rd := fun j => readBurstByte dev (ack j)
        es = readsTrace l rd v s.cfg.readNack k 0 ∧ BurstEnd w k (readsCount l rd k 0) t ∧
        Filled w.mem (ptr.toNat + w.idx.toNat) (readsCount l rd k 0) v t.mem) := by
  induction k generalizing s w with
  | zero =>
    have hlen : w.idx = len := BitVec.eq_of_toNat_eq hk
    rw [show (ticksRead + 7) * 0 + (1 + m) = 1 + m by omega]
    refine RunsTo.moves _ r h.work (by rw [h.pos]; rfl) rfl (by rw [work_ifIdxIsLen, h.work, if_pos hlen])
      fun t _ _ ht => ?_
    refine RunsTo.refl ⟨fun _ => (false, false, false), fun _ => 0x00#8, rfl, h.done ht, ?_⟩
    rw [show t.mem = w.mem from congrArg Work.mem ht]
    exact filled_none hm _ _
  | succ k ih =>
    have hlen : w.idx ≠ len := by rintro h; rw [h] at hk; omega
    rw [show (ticksRead + 7) * (k + 1) + (1 + m) =
      1 + (ticksRead + 1 + (1 + (1 + (1 + (1 + (1 + ((ticksRead + 7) * k + (1 + m)))))))) by rw [Nat.mul_succ]; omega]
    refine (runs_readBytes_turn r f hraced h hlen).bind r ?_
    rintro _ t rt e ⟨a, v₀, w', rfl, ht, l, hmem⟩
    have htm : t.mem = w'.mem := by
      rw [show t.mem = (work t).mem from rfl, ht, turnEnd]
      split <;> rfl
    cases hok : readOk (readBurstBytes dev reg a) (readBurstByte dev a) with
    | false =>
      rw [hok] at ht hmem
      refine (RunsTo.refl ⟨fun _ => a, fun _ => v₀, ?_, ?_, ?_⟩).credit (show m ≤ _ by omega)
      · simp [readsTrace, hok]
      · simpa [readsCount, hok] using h.failed l ht
      · rw [htm, hmem]
        simpa [readsCount, hok] using filled_none hm _ _
    | true =>
      rw [hok] at ht hmem
      have hidx : (turnEnd false w').idx = w.idx + 1#16 := congrArg (· + 1#16) l.idx
      have hsucc : (w.idx + 1#16).toNat = w.idx.toNat + 1 := toNat_succ (len := len) (by omega)
      have hk' : (turnEnd false w').idx.toNat + k = len.toNat := by rw [hidx, hsucc]; omega
      rw [if_pos rfl, bufAddr_toNat (by omega)] at hmem
      have f' : BusFree t := by
        obtain ⟨pre, hpre⟩ := (closes_readTrace _ _ v₀ s.cfg.readNack).ends
        exact (hpre ▸ e).busFree_of_stop.1
      refine (ih rt f' (e.raced.trans hraced) (turnDue_next ht) hk' ?_).mono ?_
      · exact (congrArg memWf hmem).trans (memWf_writeCell hm (by omega) v₀)
      rintro _ u - ⟨ack, v, rfl, hend, hfill⟩
      refine ⟨prepend a ack, prepend v₀ v, ?_, ?_, ?_⟩
      · simp [readsTrace, readsTrace_shift, prepend, hok, e.cfg]
      · simpa [readsCount, readsCount_shift, prepend, hok] using hend.counted l
      · rw [hidx, hsucc, show (turnEnd false w').mem = w'.mem from rfl, hmem] at hfill
        simpa [readsCount, readsCount_shift, prepend, hok, Nat.add_comm 1] using hfill.prepend hm

end commands

/-! The commands complete. -/

section completion

variable {s : State} {i : Instr}

theorem ackStatus_completes (ha : accepts .ackStatus s) (hs : served .ackStatus s) :
    ∃ t, exec .ackStatus s = .next t ∧
      completed .ackStatus s [] (resOf .success false (if ackstatRead s then 0x00#8 else 0x01#8) 0#16) false t ∧
      bufferKept s t := by
  have hrun := runs_ackStatus (m := 1) (ready_of_accepts ha).1 rfl
  obtain ⟨_, u, t, ⟨rfl, hw⟩, hexec, -, done, kept⟩ :=
    completes_with_of_runs (idled := false) ha hs rfl le_rfl hrun fun _ u ⟨_, hw⟩ => by
      rw [hw]
      exact ⟨⟨1, rfl⟩, rfl⟩
  rw [hw] at done
  exact ⟨t, hexec, done, kept⟩

theorem turnDue_of_accepts (i : Instr) (s : State) :
    TurnDue ⟨0#8, 0⟩ (work (acceptCommand (encode i) s)) (acceptCommand (encode i) s) :=
  ⟨rfl, rfl, rfl, rfl⟩

/-- A register burst of `len` bytes that has ended at its `done` completes with the outcome and the count of its
transactions (R250, R220, R121). -/
theorem completes_of_burstEnd {P : List Event → State → Prop} {len : BitVec 16} {n : Nat} (ha : accepts i s)
    (hs : served i s) (hn : n ≤ tickBound i) (hrun : RunsTo (program i) n 1 (acceptCommand (encode i) s) P)
    (hdone : actOf (program i) ⟨4#8, 0⟩ = some (.done, 1))
    (hend : ∀ es u, P es u → ∃ c, BurstEnd (work (acceptCommand (encode i) s)) len.toNat c u) :
    ∃ es u t, P es u ∧ exec i s = .next t ∧ t.mem = u.mem ∧
      ∀ c, BurstEnd (work (acceptCommand (encode i) s)) len.toNat c u → completed i s es
        (resOf (ackOutcome (decide (c < len.toNat))) (decide (len ≠ 0#16)) 0x00#8 (BitVec.ofNat 16 c))
        (decide (len ≠ 0#16)) t := by
  have hlen : decide (len.toNat ≠ 0) = decide (len ≠ 0#16) := by simp [← BitVec.toNat_inj]
  obtain ⟨es, u, t, hp, hexec, -, hmem, done⟩ :=
    completes_with_memory (idled := decide (len ≠ 0#16)) ha hs hn hrun fun es u hp => by
      obtain ⟨c, h⟩ := hend es u hp
      refine ⟨⟨1, h.pos ▸ hdone⟩, h.wcol.trans ?_⟩
      rw [← hlen]
      simp [work]
  refine ⟨es, u, t, hp, hexec, hmem, fun c h => ?_⟩
  rw [h.res, h.out, hlen] at done
  simpa [resOf, work] using done

theorem rangeOk_iff {ptr len : BitVec 16} : rangeOk ptr len = true ↔ ptr.toNat + len.toNat ≤ 65536 := by
  simp [rangeOk]

end completion

/-- Settles O35: the one action of `ackStatus` before its `done` reads `ACKSTAT`. -/
theorem ackStatusCompletes : Obligations.AckStatusCompletes := by
  unfold Obligations.AckStatusCompletes
  exact fun s ha hs => ackStatus_completes ha hs

/-- Settles O41: the loop of `writeBytes` is one `XWriteReg` a turn, and ends at the count asked for or at a failure. -/
theorem writeBytesCompletes : Obligations.WriteBytesCompletes := by
  unfold Obligations.WriteBytesCompletes
  intro dev reg ptr len s i ha hs
  have hrun := runs_writeBytes_ended (dev := dev) (reg := reg) (ptr := ptr) (m := 1) (ready_of_accepts ha).1
    (busFree_of_accepts rfl ha) rfl (turnDue_of_accepts i s) (Nat.zero_add len.toNat)
  obtain ⟨_, u, t, ⟨ack, rfl, hend⟩, hexec, -, done⟩ :=
    completes_of_burstEnd ha hs (by simp [i, tickBound, mul_comm]) hrun rfl fun _ _ ⟨_, _, hend⟩ => ⟨_, hend⟩
  obtain ⟨kept, -⟩ := bufferFrame _ _ _ hexec
  have hbyte (j : Nat) : (work (acceptCommand (encode i) s)).bufByte ptr j =
      memRead (bufAddr ptr (BitVec.ofNat 16 j)) s := by simp [Work.bufByte, work, memRead]
  simp only [hbyte] at hend done
  exact ⟨ack, t, hexec, done _ hend, kept rfl⟩

/-- Settles O42: the loop of `readBytes` is one `XReadReg` a turn, which stores its byte before its STOP or after it. -/
theorem readBytesCompletes : Obligations.ReadBytesCompletes := by
  unfold Obligations.ReadBytesCompletes
  intro dev reg ptr len s i ha hs hm
  have ⟨_, _, _, _, _, _, hrange, _⟩ := ha
  have hrun := runs_readBytes_ended (dev := dev) (reg := reg) (ptr := ptr) (m := 1) (ready_of_accepts ha).1
    (busFree_of_accepts rfl ha) rfl (turnDue_of_accepts i s) (Nat.zero_add len.toNat) (rangeOk_iff.1 hrange) hm
  obtain ⟨_, u, t, ⟨ack, v, rfl, hend, hfill⟩, hexec, hmem, done⟩ :=
    completes_of_burstEnd ha hs (by simp [i, tickBound, mul_comm]) hrun rfl fun _ _ ⟨_, _, _, hend, _⟩ => ⟨_, hend⟩
  refine ⟨ack, v, t, hexec, done _ hend, fun a => ?_⟩
  rw [memRead, hmem]
  exact hfill.reads a.toNat

end Sys2Proof.Machine
end

section
/-! The low-density commands of one transaction complete (spec/44_burst_transfer.md R255 to R262). Settles O43, O44 and
O45. -/

namespace Sys2Proof.Machine

/-! The traces of a transaction, part by part. -/

theorem anyNack_append (l l' : List (BitVec 8 × Bool)) : anyNack (l ++ l') = (anyNack l || anyNack l') :=
  List.any_append

theorem writeTrace_append (l l' : List (BitVec 8 × Bool)) :
    writeTrace (l ++ l') = .S :: txTrace l ++ ((if anyNack l then [] else txTrace l') ++ [.P]) := by
  simp [writeTrace, txTrace_append]

/-- The events of a read transaction up to its read-direction byte (R224, R260, R264). -/
def readAddressTrace (l : List (BitVec 8 × Bool)) (r : BitVec 8 × Bool) : List Event :=
  .S :: txTrace l ++ if anyNack l then [] else [.Sr, .Tx r.1 r.2]

theorem readTrace_eq (l : List (BitVec 8 × Bool)) (r : BitVec 8 × Bool) (v : BitVec 8) (nackSent : Bool) :
    readTrace l r v nackSent = readAddressTrace l r ++
      ((if readOk l r then .Rx v :: if nackSent then [.Ak true] else [] else []) ++ [.P]) := by
  obtain ⟨b, a⟩ := r
  unfold readTrace readAddressTrace readOk writeTrace
  cases anyNack l with
  | true => simp
  | false => cases a <;> simp

/-! The parts that the low-density commands are made of. -/

/-- The working registers after bytes sent from `w`: at `next`, or at `fail` where one was not acknowledged. -/
def sent (fail next : Pos) (nack : Bool) (w : Work) : Work :=
  { w with pos := if nack then fail else next, out := ackOutcome nack, wcol := false }

section parts

variable {prog : List Step} {s : State} {w : Work} {m : Nat} {fail : Pos} {ctrl addr ctrlRd : BitVec 8}

/-- The START and the two bytes that begin every low-density command. -/
theorem runs_sendAddress {rest : List Step}
    (hprog : prog = [.wIdle] :: cStart :: tx (.lit ctrl) fail :: tx (.lit addr) fail :: rest) (r : Ready s)
    (f : BusFree s) (hw : work s = w) (hpos : w.pos = ⟨0#8, 0⟩) :
    RunsTo prog (85 + m) m s (fun es t => ∃ a₀ a₁,
      let l := [(ctrl, a₀), (addr, a₁)]
      es = .S :: txTrace l ∧ work t = sent fail ⟨4#8, 0⟩ (anyNack l) w) := by
  subst hprog
  rw [show 85 + m = 1 + (6 + (39 + (39 + m))) by omega]
  refine (runs_wIdle r hw (by rw [hpos]; rfl)).bind r ?_
  rintro _ t₁ r₁ e₁ ⟨rfl, w₁⟩
  rw [hpos] at w₁
  obtain ⟨hsda, hscl⟩ := e₁.busFree f
  refine (runs_start r₁ w₁ hsda hscl rfl rfl).bind r₁ ?_
  rintro _ t₂ r₂ - ⟨rfl, w₂⟩
  refine (runs_tx r₂ w₂ rfl rfl rfl rfl).bind r₂ ?_
  rintro _ t₃ r₃ - ⟨a₀, rfl, w₃⟩
  cases a₀ with
  | true => exact (RunsTo.refl ⟨true, false, rfl, w₃⟩).credit (show m ≤ _ by omega)
  | false =>
    refine (runs_tx r₃ w₃ rfl rfl rfl rfl).mono ?_
    rintro _ t - ⟨a₁, rfl, w₄⟩
    refine ⟨false, a₁, by cases a₁ <;> rfl, ?_⟩
    rw [w₄]
    cases a₁ <;> rfl

/-- The RESTART and the read-direction byte that follow them in the commands that read. -/
theorem runs_sendReadAddress {rest : List Step}
    (hprog : prog = [.wIdle] :: cStart :: tx (.lit ctrl) fail :: tx (.lit addr) fail ::
      [.wIdle] :: cRestart :: tx (.lit ctrlRd) fail :: rest) (r : Ready s)
    (f : BusFree s) (hw : work s = w) (hpos : w.pos = ⟨0#8, 0⟩) :
    RunsTo prog (133 + m) m s (fun es t => ∃ a₀ a₁ a₂,
      let l := [(ctrl, a₀), (addr, a₁)]
      let rd := (ctrlRd, a₂)
      es = readAddressTrace l rd ∧ work t = sent fail ⟨7#8, 0⟩ (!readOk l rd) w) := by
  rw [show 133 + m = 85 + (1 + (8 + (39 + m))) by omega]
  refine (runs_sendAddress hprog r f hw hpos).bind r ?_
  subst hprog
  rintro _ t₁ r₁ - ⟨a₀, a₁, rfl, w₁⟩
  cases hnack : anyNack [(ctrl, a₀), (addr, a₁)] with
  | true =>
    rw [hnack] at w₁
    refine (RunsTo.refl ⟨a₀, a₁, false, ?_, ?_⟩).credit (show m ≤ _ by omega)
    · simp [readAddressTrace, hnack]
    · rw [readOk, hnack]; exact w₁
  | false =>
    rw [hnack] at w₁
    refine (runs_wIdle r₁ w₁ rfl).bind r₁ ?_
    rintro _ t₂ r₂ - ⟨rfl, w₂⟩
    refine (runs_restart r₂ w₂ rfl rfl).bind r₂ ?_
    rintro _ t₃ r₃ - ⟨rfl, w₃⟩
    refine (runs_tx (b := ctrlRd) r₃ w₃ rfl rfl rfl rfl).mono ?_
    rintro _ t - ⟨a₂, rfl, w₄⟩
    refine ⟨a₀, a₁, a₂, ?_, ?_⟩
    · simp [readAddressTrace, hnack]
    · rw [w₄, readOk, hnack]
      cases a₂ <;> rfl

/-- The two steps that end every low-density command. -/
theorem runs_sendStop {u : BitVec 8} (r : Ready s) (hw : work s = w) (hpos : w.pos = ⟨u, 0⟩)
    (h0 : prog[u.toNat]? = some [.wIdle]) (h1 : prog[(u + 1#8).toNat]? = some cStop) :
    RunsTo prog (8 + m) m s (fun es t => es = [.P] ∧ work t = { w with
      pos := ⟨u + 1#8 + 1#8, 0⟩, wcol := false, res := { w.res with stopi := true } }) := by
  rw [show 8 + m = 1 + (7 + m) by omega]
  refine (runs_wIdle r hw (hpos ▸ actOf_step h0 0)).bind r ?_
  rintro _ t₁ r₁ - ⟨rfl, w₁⟩
  rw [hpos] at w₁
  refine (runs_stop r₁ w₁ (actOf_step h1 0) (actOf_step h1 1)).mono ?_
  rintro _ t - ⟨rfl, w₂⟩
  exact ⟨rfl, w₂⟩

/-- They keep the outcome and the result of what they close, and the buffer. -/
theorem Ended.sendStop {u : BitVec 8} {o : Xfer} {res : Res} (h : Ended ⟨u, 0⟩ o res s) (r : Ready s)
    (h0 : prog[u.toNat]? = some [.wIdle]) (h1 : prog[(u + 1#8).toNat]? = some cStop) :
    RunsTo prog (8 + m) m s (fun es t => es = [.P] ∧
      Ended ⟨u + 1#8 + 1#8, 0⟩ o { res with stopi := true } t ∧ t.mem = s.mem) := by
  obtain ⟨hpos, rfl, -, rfl⟩ := h
  refine (runs_sendStop r rfl hpos h0 h1).mono ?_
  rintro _ t - ⟨rfl, hw⟩
  exact ⟨rfl, ended_of_work hw rfl, congrArg Work.mem hw⟩

end parts

/-! The runs of the commands. -/

section commands

variable {s : State} {w : Work} {k m : Nat} {ctrl addr : BitVec 8} {ptr len : BitVec 16}

theorem runs_ldWrite_ended {data : BitVec 8} (r : Ready s) (f : BusFree s) (hpos : (work s).pos = ⟨0#8, 0⟩) :
    RunsTo (progLdWrite ctrl addr data) (132 + m) m s (fun es t => ∃ a₀ a₁ a₂,
      let l := [(ctrl, a₀), (addr, a₁), (data, a₂)]
      es = writeTrace l ∧ Ended ⟨7#8, 0⟩ (ackOutcome (anyNack l)) { s.res with stopi := true } t) := by
  rw [show 132 + m = 85 + (39 + (8 + m)) by omega]
  refine (runs_sendAddress rfl r f rfl hpos).bind r ?_
  rintro _ t₁ r₁ - ⟨a₀, a₁, rfl, w₁⟩
  have htrace := writeTrace_append [(ctrl, a₀), (addr, a₁)]
  have hany := anyNack_append [(ctrl, a₀), (addr, a₁)]
  generalize anyNack [(ctrl, a₀), (addr, a₁)] = nack at w₁ htrace hany
  cases nack with
  | true =>
    refine (((ended_of_work w₁ rfl).sendStop (u := 5#8) r₁ rfl rfl).credit (by omega)).mono ?_
    rintro _ t - ⟨rfl, ended, -⟩
    refine ⟨a₀, a₁, false, (htrace [(data, false)]).symm, ?_⟩
    rw [show anyNack [(ctrl, a₀), (addr, a₁), (data, false)] = true from hany [(data, false)]]
    exact ended
  | false =>
    refine (runs_tx r₁ w₁ rfl rfl rfl rfl).bind r₁ ?_
    rintro _ t₂ r₂ - ⟨a₂, rfl, w₂⟩
    have ended₂ : Ended ⟨5#8, 0⟩ (ackOutcome a₂) s.res t₂ := by
      cases a₂ with
      | true => exact ended_of_work w₂ rfl
      | false => exact ended_of_work w₂ rfl
    refine (ended₂.sendStop r₂ rfl rfl).mono ?_
    rintro _ t - ⟨rfl, ended, -⟩
    refine ⟨a₀, a₁, a₂, ?_, ?_⟩
    · exact ((htrace [(data, a₂)]).trans (by cases a₂ <;> rfl)).symm
    · rw [show anyNack [(ctrl, a₀), (addr, a₁), (data, a₂)] = a₂ from (hany [(data, a₂)]).trans (by simp [anyNack])]
      exact ended

theorem runs_ldRead_ended (r : Ready s) (f : BusFree s) (hpos : (work s).pos = ⟨0#8, 0⟩) :
    RunsTo (progLdRead ctrl addr) (177 + m) m s (fun es t => ∃ a₀ a₁ a₂ v,
      let l := [(ctrl, a₀), (addr, a₁)]
      let rd := (ctrlRead ctrl, a₂)
      es = readTrace l rd v true ∧ Ended ⟨11#8, 0⟩ (ackOutcome (!readOk l rd))
        { s.res with stopi := true, data := if readOk l rd then v else s.res.data } t) := by
  rw [show 177 + m = 133 + (28 + (1 + (7 + (8 + m)))) by omega]
  refine (runs_sendReadAddress rfl r f rfl hpos).bind r ?_
  rintro _ t₁ r₁ - ⟨a₀, a₁, a₂, rfl, w₁⟩
  have htrace := fun v => readTrace_eq [(ctrl, a₀), (addr, a₁)] (ctrlRead ctrl, a₂) v true
  generalize hok : readOk [(ctrl, a₀), (addr, a₁)] (ctrlRead ctrl, a₂) = ok at w₁ htrace
  cases ok with
  | false =>
    refine (((ended_of_work w₁ rfl).sendStop (u := 9#8) r₁ rfl rfl).credit (by omega)).mono ?_
    rintro _ t - ⟨rfl, ended, -⟩
    refine ⟨a₀, a₁, a₂, 0x00#8, (htrace 0x00#8).symm, ?_⟩
    rw [hok]
    exact ended
  | true =>
    refine (runs_rx r₁ w₁ rfl rfl).bind r₁ ?_
    rintro _ t₂ r₂ - ⟨v, rfl, w₂⟩
    refine RunsTo.moves _ r₂ w₂ rfl rfl (by rw [work_dataFromVal, w₂]) fun t₃ r₃ _ w₃ => ?_
    refine (runs_ack r₃ w₃ rfl rfl).bind r₃ ?_
    rintro _ t₄ r₄ - ⟨rfl, -, w₄⟩
    refine ((ended_of_work w₄ rfl).sendStop (u := 9#8) r₄ rfl rfl).mono ?_
    rintro _ t - ⟨rfl, ended, -⟩
    refine ⟨a₀, a₁, a₂, v, (htrace v).symm, ?_⟩
    rw [hok]
    exact ended

/-! `ldPageWrite` (R262). -/

/-- The bytes of the buffer from `IDX` on, `k` of them, each with the level of its acknowledge slot. -/
def pageBytes (w : Work) (ptr : BitVec 16) (k : Nat) (ack : Nat → Bool) : List (BitVec 8 × Bool) :=
  (List.range k).map fun j => (w.bufByte ptr j, ack j)

theorem pageBytes_succ {w w' : Work} (hidx : w'.idx = w.idx + 1#16) (hmem : w'.mem = w.mem) (a : Bool)
    (ack : Nat → Bool) : pageBytes w ptr (k + 1) (prepend a ack) = (w.bufByte ptr 0, a) :: pageBytes w' ptr k ack := by
  simp only [pageBytes, List.range_succ_eq_map, List.map_cons, List.map_map, bufByte_succ hidx hmem]
  rfl

/-- How many of the bytes were acknowledged before the first that was not (R250, R262). -/
def acknowledged (l : List (BitVec 8 × Bool)) : Nat := (l.takeWhile fun x => !x.2).length

/-- One byte of a page write: it is sent, and counted where it is acknowledged. -/
theorem runs_pageByte (r : Ready s) (hraced : s.raced = false) (h : TurnDue ⟨4#8, 0⟩ w s) (hwcol : w.wcol = false)
    (hlen : w.idx ≠ len) :
    RunsTo (progLdPageWrite ctrl addr ptr len) (44 + m) m s (fun es t => ∃ a, es = [.Tx (w.bufByte ptr 0) a] ∧
      if a then Ended ⟨8#8, 0⟩ .notAcknowledged w.res t
      else ∃ w', TurnDue ⟨4#8, 0⟩ w' t ∧ w'.wcol = false ∧ w'.mem = w.mem ∧ w'.idx = w.idx + 1#16 ∧
        w'.res = { w.res with count := w.idx + 1#16 }) := by
  rw [show 44 + m = 1 + (1 + (39 + (1 + (1 + (1 + m))))) by omega]
  refine RunsTo.moves { w with pos := ⟨5#8, 0⟩ } r h.work (by rw [h.pos]; rfl) rfl
    (by rw [work_ifIdxIsLen, h.work, if_neg hlen, h.pos]; rfl) fun t₁ r₁ e₁ w₁ => ?_
  refine RunsTo.moves { w with pos := ⟨6#8, 0⟩, tmp := w.bufByte ptr 0 } r₁ w₁ rfl rfl
    (by rw [work_readBuf _ _ _ (e₁.raced.trans hraced), w₁, bufByte_zero]; rfl) fun t₂ r₂ e₂ w₂ => ?_
  have hbyte : t₂.seq.tmp = w.bufByte ptr 0 := congrArg Work.tmp w₂
  refine (runs_tx (src := .tmp) (b := w.bufByte ptr 0) r₂ w₂ hwcol hbyte rfl rfl).bind r₂ ?_
  rintro _ t₃ r₃ - ⟨a, rfl, w₃⟩
  cases a with
  | true => exact (RunsTo.refl ⟨true, rfl, ended_of_work w₃ hwcol⟩).credit (show m ≤ _ by omega)
  | false =>
    refine (runs_wIdle r₃ w₃ rfl).bind r₃ ?_
    rintro _ t₄ r₄ - ⟨rfl, w₄⟩
    refine RunsTo.moves _ r₄ w₄ rfl rfl (by rw [work_countByte, w₄]) fun t₅ r₅ _ w₅ => ?_
    refine RunsTo.moves _ r₅ w₅ rfl rfl (by rw [work_goto, w₅]) fun t₆ _ _ w₆ => ?_
    exact RunsTo.refl ⟨false, rfl, _, ⟨w₆, rfl, rfl, rfl⟩, rfl, rfl, rfl, rfl⟩

/-- The bytes of a page write that are still to be sent, `k` of them. -/
theorem runs_pageBytes_ended (r : Ready s) (hraced : s.raced = false) (h : TurnDue ⟨4#8, 0⟩ w s)
    (hwcol : w.wcol = false) (hk : w.idx.toNat + k = len.toNat) :
    RunsTo (progLdPageWrite ctrl addr ptr len) (44 * k + (1 + m)) m s (fun es t => ∃ ack : Nat → Bool,
      let data := pageBytes w ptr k ack
      es = txTrace data ∧ Ended ⟨8#8, 0⟩ (ackOutcome (anyNack data))
        { w.res with count := w.idx + BitVec.ofNat 16 (acknowledged data) } t) := by
  induction k generalizing s w with
  | zero =>
    have hlen : w.idx = len := BitVec.eq_of_toNat_eq hk
    rw [show 44 * 0 + (1 + m) = 1 + m by omega]
    refine RunsTo.moves _ r h.work (by rw [h.pos]; rfl) rfl (by rw [work_ifIdxIsLen, h.work, if_pos hlen])
      fun t _ _ ht => RunsTo.refl ⟨fun _ => false, rfl, ?_⟩
    have ended : Ended ⟨8#8, 0⟩ w.out w.res t := ended_of_work ht hwcol
    rw [h.out] at ended
    simpa [pageBytes, acknowledged, anyNack, ackOutcome, ← h.count] using ended
  | succ k ih =>
    have hlen : w.idx ≠ len := by rintro h; rw [h] at hk; omega
    rw [show 44 * (k + 1) + (1 + m) = 44 + (44 * k + (1 + m)) by omega]
    refine (runs_pageByte r hraced h hwcol hlen).bind r ?_
    rintro _ t rt e ⟨a, rfl, turn⟩
    cases a with
    | true =>
      have hbytes := pageBytes_succ (k := k) (w' := { w with idx := w.idx + 1#16 }) (ptr := ptr) rfl rfl true fun _ => false
      refine (RunsTo.refl ⟨prepend true fun _ => false, ?_, ?_⟩).credit (show m ≤ _ by omega)
      · rw [hbytes]; rfl
      · rw [hbytes]
        simpa [anyNack, acknowledged, ackOutcome, ← h.count] using turn
    | false =>
      obtain ⟨w', due, hwcol', hmem, hidx, hres⟩ := turn
      have hk' : w'.idx.toNat + k = len.toNat := by
        rw [hidx, toNat_succ (len := len) (by omega)]; omega
      refine (ih rt (e.raced.trans hraced) due hwcol' hk').mono ?_
      rintro _ u - ⟨ack, rfl, ended⟩
      refine ⟨prepend false ack, ?_, ?_⟩
      · rw [pageBytes_succ hidx hmem]; rfl
      · rw [pageBytes_succ hidx hmem]
        rw [hres, hidx] at ended
        simpa [anyNack, acknowledged, BitVec.ofNat_add, BitVec.add_assoc, Nat.add_comm] using ended

/-- The whole of a page write: the bytes of its buffer are sent where its two address bytes are acknowledged. -/
theorem runs_ldPageWrite_ended (r : Ready s) (f : BusFree s) (hraced : s.raced = false)
    (h : TurnDue ⟨0#8, 0⟩ w s) (hk : w.idx.toNat + k = len.toNat) :
    RunsTo (progLdPageWrite ctrl addr ptr len) (85 + (44 * k + (1 + (8 + m)))) m s (fun es t =>
      ∃ (a₀ a₁ : Bool) (ack : Nat → Bool),
        let data := pageBytes w ptr k ack
        let l := [(ctrl, a₀), (addr, a₁)] ++ data
        es = writeTrace l ∧ Ended ⟨10#8, 0⟩ (ackOutcome (anyNack l))
          { w.res with
            stopi := true
            count := w.idx + BitVec.ofNat 16 (if a₀ || a₁ then 0 else acknowledged data) } t) := by
  refine (runs_sendAddress rfl r f h.work h.pos).bind r ?_
  rintro _ t₁ r₁ e₁ ⟨a₀, a₁, rfl, w₁⟩
  have hany : anyNack [(ctrl, a₀), (addr, a₁)] = (a₀ || a₁) := by simp [anyNack]
  cases hnack : (a₀ || a₁) with
  | true =>
    rw [hany, hnack] at w₁
    refine (((ended_of_work w₁ rfl).sendStop (u := 8#8) r₁ rfl rfl).credit (by omega)).mono ?_
    rintro _ t - ⟨rfl, ended, -⟩
    refine ⟨a₀, a₁, fun _ => false, ?_, ?_⟩
    · rw [writeTrace_append, hany, hnack]; rfl
    · rw [anyNack_append, hany, hnack]
      simpa [sent, ← h.count] using ended
  | false =>
    rw [hany, hnack] at w₁
    refine (runs_pageBytes_ended r₁ (e₁.raced.trans hraced) ⟨w₁, rfl, rfl, h.count⟩ rfl hk).bind r₁ ?_
    rintro _ t₂ r₂ - ⟨ack, rfl, ended₂⟩
    refine (ended₂.sendStop (u := 8#8) r₂ rfl rfl).mono ?_
    rintro _ t - ⟨rfl, ended, -⟩
    refine ⟨a₀, a₁, ack, ?_, ?_⟩
    · rw [writeTrace_append, hany, hnack]; rfl
    · rw [anyNack_append, hany, hnack]
      exact ended

end commands

/-- Settles O43: the run of `ldWrite` is its START, its three bytes up to the first not acknowledged, and its STOP. -/
theorem ldWriteCompletes : Obligations.LdWriteCompletes := by
  unfold Obligations.LdWriteCompletes
  intro ctrl addr data s i ha hs
  have hrun := runs_ldWrite_ended (ctrl := ctrl) (addr := addr) (data := data) (m := 1) (ready_of_accepts ha).1
    (busFree_of_accepts rfl ha) rfl
  obtain ⟨_, u, t, ⟨a₀, a₁, a₂, rfl, ended⟩, hexec, done, kept⟩ :=
    completes_of_ended ha hs rfl le_rfl hrun rfl fun _ _ ⟨_, _, _, _, ended⟩ => ⟨_, _, ended⟩
  exact ⟨a₀, a₁, a₂, t, hexec, done _ _ ended, kept⟩

/-- Settles O44: the acknowledge sequence of `ldRead` is an action of its own, which does not ask for `READ_NACK`. -/
theorem ldReadCompletes : Obligations.LdReadCompletes := by
  unfold Obligations.LdReadCompletes
  intro ctrl addr s i ha hs
  have hrun := runs_ldRead_ended (ctrl := ctrl) (addr := addr) (m := 1) (ready_of_accepts ha).1
    (busFree_of_accepts rfl ha) rfl
  obtain ⟨_, u, t, ⟨a₀, a₁, a₂, v, rfl, ended⟩, hexec, done, kept⟩ :=
    completes_of_ended ha hs rfl le_rfl hrun rfl fun _ _ ⟨_, _, _, _, _, ended⟩ => ⟨_, _, ended⟩
  exact ⟨a₀, a₁, a₂, v, t, hexec, done _ _ ended, kept⟩

/-- Settles O45: the loop of `ldPageWrite` sends one byte a turn, and counts it where it is acknowledged. -/
theorem ldPageWriteCompletes : Obligations.LdPageWriteCompletes := by
  unfold Obligations.LdPageWriteCompletes
  intro ctrl addr ptr len s i ha hs
  have hrun := runs_ldPageWrite_ended (ctrl := ctrl) (addr := addr) (ptr := ptr) (m := 1) (ready_of_accepts ha).1
    (busFree_of_accepts rfl ha) rfl (turnDue_of_accepts i s) (Nat.zero_add len.toNat)
  obtain ⟨_, u, t, ⟨a₀, a₁, ack, rfl, ended⟩, hexec, done, kept⟩ :=
    completes_of_ended ha hs rfl (by simp [i, tickBound]; omega) hrun rfl
      fun _ _ ⟨_, _, _, _, ended⟩ => ⟨_, _, ended⟩
  have hbytes : pageBytes (work (acceptCommand (encode i) s)) ptr len.toNat ack =
      (List.range len.toNat).map fun k => (memRead (bufAddr ptr (BitVec.ofNat 16 k)) s, ack k) := by
    simp [pageBytes, Work.bufByte, work, memRead]
  have hdone := done _ _ ended
  rw [hbytes] at hdone
  exact ⟨a₀, a₁, ack, t, hexec, by simpa [resOf, acknowledged, work] using hdone, kept⟩

end Sys2Proof.Machine
end

section
/-! `ldSequentialRead` completes, with its acknowledge sequences (spec/44_burst_transfer.md R264, R265). Settles O46 and
O49. -/

namespace Sys2Proof.Machine

/-! The run of the command. -/

/-- Of the `k` bytes asked for at the working registers `w`, the `n` bytes `v` have been received and stored; `c` says
that `BCOL` was 1 at the test after the last of them (R264). -/
structure BytesReceived (ptr : BitVec 16) (w : Work) (k : Nat) (c : Bool) (v : Nat → BitVec 8) (n : Nat) (t : State) :
    Prop where
  pos : 1 ≤ n
  le : n ≤ k
  full : c = false → n = k
  bcol : c = true → t.stat.bcol = true
  filled : memWf w.mem = true → Filled w.mem (ptr.toNat + w.idx.toNat) n v t.mem

/-- The bytes on the bus, and the not-acknowledge after them unless a collision has ended the command (R264). -/
def receivedTrace (c : Bool) (v : Nat → BitVec 8) (n : Nat) : List Event :=
  sequentialTrace v n 0 ++ if c then [] else [.Ak true]

/-- The outcome of the reception. -/
def receivedOutcome (c : Bool) : Xfer := if c then .busCollision else .success

section commands

variable {s t u : State} {w w' : Work} {k m : Nat} {ctrl addr : BitVec 8} {ptr len : BitVec 16}

/-- The working registers after a byte `x` is received, stored and counted. -/
def byteReceived (ptr : BitVec 16) (x : BitVec 8) (w : Work) : Work :=
  { w with
    idx := w.idx + 1#16, val := x, res := { w.res with count := w.idx + 1#16 }
    mem := writeCell w.mem (bufAddr ptr w.idx).toNat x }

/-- A byte is received, stored and counted, and `BCOL` is tested (R264 steps 7 to 9). -/
theorem runs_receiveByte (r : Ready s) (hraced : s.raced = false) (h : TurnDue ⟨7#8, 0⟩ w s) :
    RunsTo (progLdSequentialRead ctrl addr ptr len) (31 + m) m s (fun es t => ∃ x c, es = [.Rx x] ∧
      (c = true → t.stat.bcol = true) ∧ (s.stat.bcol = true → c = true) ∧
      work t = { byteReceived ptr x w with
        pos := if c then ⟨12#8, 0⟩ else ⟨10#8, 0⟩, out := receivedOutcome c }) := by
  rw [show 31 + m = 28 + (1 + (1 + (1 + m))) by omega]
  refine (runs_rx r h.work (by rw [h.pos]; rfl) (by rw [h.pos]; rfl)).bind r ?_
  rintro _ t₁ r₁ e₁ ⟨x, rfl, w₁⟩
  rw [h.pos] at w₁
  refine RunsTo.moves { w with
      pos := ⟨8#8, 1⟩, val := x, mem := writeCell w.mem (bufAddr ptr w.idx).toNat x } r₁ w₁ rfl rfl
    (by rw [work_writeBuf _ _ _ (e₁.raced.trans hraced), w₁]; rfl) fun t₂ r₂ e₂ w₂ => ?_
  refine RunsTo.moves { byteReceived ptr x w with pos := ⟨9#8, 0⟩ } r₂ w₂ rfl rfl (by rw [work_countByte, w₂]; rfl)
    fun t₃ r₃ e₃ w₃ => ?_
  refine RunsTo.moves { byteReceived ptr x w with
      pos := if t₃.stat.bcol then ⟨12#8, 0⟩ else ⟨10#8, 0⟩, out := receivedOutcome t₃.stat.bcol } r₃ w₃ rfl rfl ?_
    fun t₄ _ e₄ w₄ => RunsTo.refl ⟨x, t₃.stat.bcol, rfl, e₄.bcol, fun hb => e₃.bcol (e₂.bcol (e₁.bcol hb)), w₄⟩
  rw [work_ifBcol, w₃]
  cases t₃.stat.bcol with
  | true => rfl
  | false =>
    have hout : (byteReceived ptr x w).out = .success := h.out
    simp [nextPos, receivedOutcome, hout]

theorem filled_byteReceived {n : Nat} {v : Nat → BitVec 8} {x : BitVec 8} (hlt : w.idx.toNat < len.toNat)
    (hrange : ptr.toNat + len.toNat ≤ 65536) (hm : memWf w.mem = true)
    (h : memWf (byteReceived ptr x w).mem = true →
      Filled (byteReceived ptr x w).mem (ptr.toNat + (byteReceived ptr x w).idx.toNat) n v t.mem) :
    Filled w.mem (ptr.toNat + w.idx.toNat) (n + 1) (prepend x v) t.mem := by
  have hrest := h (memWf_writeCell hm (bufAddr ptr w.idx).isLt x)
  rw [byteReceived, toNat_succ hlt, bufAddr_toNat (by omega)] at hrest
  exact hrest.prepend hm

/-- The byte `x` is the only one received: it is the last that is due, or a collision has ended the command. -/
theorem bytesReceived_one {c : Bool} {x : BitVec 8} (hlt : w.idx.toNat < len.toNat)
    (hrange : ptr.toNat + len.toNat ≤ 65536) (hlast : c = false → k = 0) (hcol : c = true → t.stat.bcol = true)
    (hmem : t.mem = (byteReceived ptr x w).mem) : BytesReceived ptr w (k + 1) c (prepend x fun _ => x) 1 t where
  pos := le_rfl
  le := by omega
  full hc := by rw [hlast hc]
  bcol := hcol
  filled hm := filled_byteReceived hlt hrange hm fun hm' => hmem ▸ filled_none hm' _ _

/-- The byte `x` is received and acknowledged before the others. -/
theorem BytesReceived.prepend {c : Bool} {v : Nat → BitVec 8} {n : Nat} {x : BitVec 8} {p : Pos} {o : Xfer}
    (h : BytesReceived ptr { byteReceived ptr x w with pos := p, out := o } k c v n t)
    (hlt : w.idx.toNat < len.toNat) (hrange : ptr.toNat + len.toNat ≤ 65536) :
    BytesReceived ptr w (k + 1) c (prepend x v) (n + 1) t where
  pos := Nat.le_add_left 1 n
  le := Nat.succ_le_succ h.le
  full hc := congrArg (· + 1) (h.full hc)
  bcol := h.bcol
  filled hm := filled_byteReceived hlt hrange hm h.filled

theorem receivedTrace_prepend (x : BitVec 8) (c : Bool) (v : Nat → BitVec 8) (n : Nat) :
    receivedTrace c (prepend x v) (n + 2) = [.Rx x] ++ ([.Ak false] ++ receivedTrace c v (n + 1)) := by
  simp [receivedTrace, sequentialTrace_prepend]

/-- The bytes of a sequential read that are still to be received, `k + 1` of them. -/
theorem runs_receiveBytes (r : Ready s) (hraced : s.raced = false) (h : TurnDue ⟨7#8, 0⟩ w s) (hwcol : w.wcol = false)
    (hk : w.idx.toNat + (k + 1) = len.toNat) (hrange : ptr.toNat + len.toNat ≤ 65536) :
    RunsTo (progLdSequentialRead ctrl addr ptr len) (40 * k + (39 + m)) m s (fun es t => ∃ c v n,
      es = receivedTrace c v n ∧ BytesReceived ptr w (k + 1) c v n t ∧ (s.stat.bcol = true → c = true ∧ n = 1) ∧
      Ended ⟨12#8, 0⟩ (receivedOutcome c) { w.res with count := w.idx + BitVec.ofNat 16 n } t) := by
  have hlt : w.idx.toNat < len.toNat := by omega
  induction k generalizing s w with
  | zero =>
    rw [show 40 * 0 + (39 + m) = 31 + (1 + (7 + m)) by omega]
    refine (runs_receiveByte r hraced h).bind r ?_
    rintro _ t₁ r₁ - ⟨x, c, rfl, hcol, hleft, w₁⟩
    cases c with
    | true =>
      have received := bytesReceived_one hlt hrange (k := 0) (c := true) nofun hcol (congrArg Work.mem w₁)
      exact (RunsTo.refl ⟨true, _, 1, rfl, received, fun _ => ⟨rfl, rfl⟩, ended_of_work w₁ hwcol⟩).credit
        (show m ≤ _ by omega)
    | false =>
      have hnot : ¬ (byteReceived ptr x w).idx.toNat < len.toNat := by
        rw [byteReceived, toNat_succ hlt]; omega
      refine RunsTo.moves { byteReceived ptr x w with pos := ⟨11#8, 0⟩, out := .success } r₁ w₁ rfl rfl
        (by rw [work_unlessIdxBelowLen, w₁, if_neg hnot]; rfl) fun t₂ r₂ _ w₂ => ?_
      refine (runs_ack r₂ w₂ rfl rfl).mono ?_
      rintro _ t - ⟨rfl, -, w₃⟩
      have received := bytesReceived_one hlt hrange (k := 0) (c := false) (fun _ => rfl) nofun (congrArg Work.mem w₃)
      exact ⟨false, _, 1, rfl, received, fun hb => Bool.noConfusion (hleft hb), ended_of_work w₃ hwcol⟩
  | succ k ih =>
    rw [show 40 * (k + 1) + (39 + m) = 31 + (1 + (7 + (1 + (40 * k + (39 + m))))) by omega]
    refine (runs_receiveByte r hraced h).bind r ?_
    rintro _ t₁ r₁ e₁ ⟨x, c, rfl, hcol, hleft, w₁⟩
    cases c with
    | true =>
      have received := bytesReceived_one hlt hrange (k := k + 1) (c := true) nofun hcol (congrArg Work.mem w₁)
      exact (RunsTo.refl ⟨true, _, 1, rfl, received, fun _ => ⟨rfl, rfl⟩, ended_of_work w₁ hwcol⟩).credit
        (show m ≤ _ by omega)
    | false =>
      have hidx : (byteReceived ptr x w).idx.toNat = w.idx.toNat + 1 := toNat_succ hlt
      have hbelow : (byteReceived ptr x w).idx.toNat < len.toNat := by omega
      refine RunsTo.moves { byteReceived ptr x w with pos := ⟨10#8, 1⟩, out := .success } r₁ w₁ rfl rfl
        (by rw [work_unlessIdxBelowLen, w₁, if_pos hbelow]; rfl) fun t₂ r₂ e₂ w₂ => ?_
      refine (runs_ack r₂ w₂ rfl rfl).bind r₂ ?_
      rintro _ t₃ r₃ e₃ ⟨rfl, -, w₃⟩
      refine RunsTo.moves { byteReceived ptr x w with pos := ⟨7#8, 0⟩, out := .success } r₃ w₃ rfl rfl
        (by rw [work_goto, w₃]) fun t₄ r₄ e₄ w₄ => ?_
      have hraced₄ : t₄.raced = false := e₄.raced.trans (e₃.raced.trans (e₂.raced.trans (e₁.raced.trans hraced)))
      refine (ih r₄ hraced₄ ⟨w₄, rfl, rfl, rfl⟩ hwcol (by simp only [hidx]; omega) hbelow).mono ?_
      rintro _ t - ⟨c, v, n, rfl, received, -, ended⟩
      obtain ⟨n, rfl⟩ := Nat.exists_eq_add_of_le' received.pos
      refine ⟨c, _, n + 2, (receivedTrace_prepend x c v n).symm, received.prepend hlt hrange,
        fun hb => Bool.noConfusion (hleft hb), ?_⟩
      rw [← idx_succ]
      exact ended

/-- The whole of a sequential read: its bytes are received where its address phase is acknowledged. -/
theorem runs_ldSequentialRead_ended (r : Ready s) (f : BusFree s) (hraced : s.raced = false)
    (h : TurnDue ⟨0#8, 0⟩ w s) (hk : w.idx.toNat + (k + 1) = len.toNat) (hrange : ptr.toNat + len.toNat ≤ 65536) :
    RunsTo (progLdSequentialRead ctrl addr ptr len) (133 + (40 * k + (39 + (8 + m)))) m s (fun es t => ∃ a₀ a₁ a₂,
      let l := [(ctrl, a₀), (addr, a₁)]
      let rd := (ctrlRead ctrl, a₂)
      (readOk l rd = false ∧ es = readAddressTrace l rd ++ [.P] ∧ t.mem = w.mem ∧
        Ended ⟨14#8, 0⟩ .notAcknowledged { w.res with stopi := true } t) ∨
      (readOk l rd = true ∧ ∃ c v n, es = readAddressTrace l rd ++ (receivedTrace c v n ++ [.P]) ∧
        BytesReceived ptr w (k + 1) c v n t ∧ (s.stat.bcol = true → c = true ∧ n = 1) ∧
        Ended ⟨14#8, 0⟩ (receivedOutcome c)
          { w.res with stopi := true, count := w.idx + BitVec.ofNat 16 n } t)) := by
  refine (runs_sendReadAddress rfl r f h.work h.pos).bind r ?_
  rintro _ t₁ r₁ e₁ ⟨a₀, a₁, a₂, rfl, w₁⟩
  cases hok : readOk [(ctrl, a₀), (addr, a₁)] (ctrlRead ctrl, a₂) with
  | false =>
    rw [hok] at w₁
    refine (((ended_of_work w₁ rfl).sendStop (u := 12#8) r₁ rfl rfl).credit (by omega)).mono ?_
    rintro _ t - ⟨rfl, ended, hmem⟩
    exact ⟨a₀, a₁, a₂, .inl ⟨hok, rfl, hmem.trans (congrArg Work.mem w₁), ended⟩⟩
  | true =>
    rw [hok] at w₁
    refine (runs_receiveBytes r₁ (e₁.raced.trans hraced) ⟨w₁, rfl, rfl, h.count⟩ rfl hk hrange).bind r₁ ?_
    rintro _ t₂ r₂ - ⟨c, v, n, rfl, received, hleft, ended₂⟩
    refine (ended₂.sendStop (u := 12#8) r₂ rfl rfl).mono ?_
    rintro _ t e ⟨rfl, ended, hmem⟩
    refine ⟨a₀, a₁, a₂, .inr ⟨hok, c, v, n, rfl, ?_, fun hb => hleft (e₁.bcol hb), ended⟩⟩
    exact { received with bcol := fun hc => e.bcol (received.bcol hc), filled := hmem ▸ received.filled }

end commands

/-! The command completes. -/

section completion

variable {s : State} {ctrl addr : BitVec 8} {ptr len : BitVec 16}

theorem readAddressTrace_ok {l : List (BitVec 8 × Bool)} {r : BitVec 8 × Bool} (h : readOk l r = true) :
    readAddressTrace l r = [.S] ++ txTrace l ++ [.Sr, .Tx r.1 false] := by
  obtain ⟨b, a⟩ := r
  simp only [readOk, Bool.and_eq_true, Bool.not_eq_true'] at h
  obtain ⟨hl, rfl⟩ := h
  simp [readAddressTrace, hl]

theorem readAddressTrace_failed {l : List (BitVec 8 × Bool)} {r : BitVec 8 × Bool} (h : readOk l r = false)
    (v : BitVec 8) (nackSent : Bool) : readAddressTrace l r ++ [.P] = readTrace l r v nackSent := by
  rw [readTrace_eq, h]
  rfl

/-- `ldSequentialRead` completes with its address phase not acknowledged, or with the bytes it has received (R264). -/
theorem ldSequentialRead_completes (ha : accepts (.ldSequentialRead ctrl addr ptr len) s)
    (hs : served (.ldSequentialRead ctrl addr ptr len) s) :
    ∃ a₀ a₁ a₂ t, exec (.ldSequentialRead ctrl addr ptr len) s = .next t ∧
      let l := [(ctrl, a₀), (addr, a₁)]
      let rd := (ctrlRead ctrl, a₂)
      (readOk l rd = false ∧ t.mem = s.mem ∧ completed (.ldSequentialRead ctrl addr ptr len) s
        (readTrace l rd 0x00#8 false) (resOf .notAcknowledged true 0x00#8 0#16) true t) ∨
      (readOk l rd = true ∧ ∃ c v n,
        BytesReceived ptr (work (acceptCommand (encode (.ldSequentialRead ctrl addr ptr len)) s)) len.toNat c v n t ∧
        (s.stat.bcol = true → c = true ∧ n = 1) ∧ completed (.ldSequentialRead ctrl addr ptr len) s
          ([.S] ++ txTrace l ++ [.Sr, .Tx rd.1 false] ++ receivedTrace c v n ++ [.P])
          (resOf (receivedOutcome c) true 0x00#8 (BitVec.ofNat 16 n)) true t) := by
  have ⟨_, _, _, _, _, _, hwf, _⟩ := ha
  simp only [Instr.wellFormed, Bool.and_eq_true, decide_eq_true_eq] at hwf
  obtain ⟨⟨-, hrange⟩, hlen⟩ := hwf
  obtain ⟨k, hk⟩ := Nat.exists_eq_add_of_le' hlen
  have hrun := runs_ldSequentialRead_ended (ctrl := ctrl) (addr := addr) (len := len) (k := k) (m := 1)
    (ready_of_accepts ha).1 (busFree_of_accepts rfl ha) rfl (turnDue_of_accepts _ s)
    ((Nat.zero_add (k + 1)).trans hk.symm) (rangeOk_iff.1 hrange)
  obtain ⟨_, u, t, ⟨a₀, a₁, a₂, hend⟩, hexec, hstat, hmem, done⟩ :=
    completes_with_memory (idled := true) ha hs (by simp [tickBound, hk]; omega) hrun fun es u ⟨_, _, _, hend⟩ => by
      rcases hend with ⟨-, -, -, ended⟩ | ⟨-, _, _, _, -, -, -, ended⟩
      · exact ⟨⟨1, ended.pos ▸ rfl⟩, ended.wcol⟩
      · exact ⟨⟨1, ended.pos ▸ rfl⟩, ended.wcol⟩
  refine ⟨a₀, a₁, a₂, t, hexec, ?_⟩
  rcases hend with ⟨hok, rfl, hkept, ended⟩ | ⟨hok, c, v, n, rfl, received, hleft, ended⟩
  · rw [ended.res, ended.out, readAddressTrace_failed hok 0x00#8 false] at done
    exact .inl ⟨hok, hmem.trans hkept, done⟩
  · rw [ended.res, ended.out, readAddressTrace_ok hok, ← List.append_assoc] at done
    refine .inr ⟨hok, c, v, n, ?_, hleft, by simpa [resOf, work] using done⟩
    rw [hk]
    exact { received with
      bcol := fun hc => hstat ▸ received.bcol hc
      filled := hmem ▸ received.filled }

end completion

/-- The test of `BCOL` after a byte, step 9 of R264. -/
theorem tick_ifBcol (ctrl addr : BitVec 8) (ptr len : BitVec 16) (d : Drive) {u : State} (hupc : u.seq.upc = 9#8)
    (hsub : u.seq.sub = 0) (he : u.eng.eop = .none) :
    tick (program (.ldSequentialRead ctrl addr ptr len)) d u = { u with seq := if u.stat.bcol = true
      then { u.seq with out := .busCollision, upc := 12#8, sub := 0 }
      else { u.seq with upc := 10#8, sub := 0 } } := by
  have hpos : pos u = ⟨9#8, 0⟩ := by rw [pos, hupc, hsub]
  have hact : actOf (program (.ldSequentialRead ctrl addr ptr len)) ⟨9#8, 0⟩ = some (.ifBcol ⟨12#8, 0⟩, 1) := rfl
  rw [tick, if_pos he, seqTick, actAt_eq, hpos, hact]
  simp only [runAct, goNext_eq, hpos]
  cases u.stat.bcol with
  | true => rfl
  | false => rfl

/-- Settles O46: the loop of `ldSequentialRead` receives one byte a turn, and leaves at the count asked for or at a
collision. -/
theorem ldSequentialReadCompletes : Obligations.LdSequentialReadCompletes := by
  unfold Obligations.LdSequentialReadCompletes
  intro ctrl addr ptr len s i
  refine ⟨fun d u hupc hsub he => tick_ifBcol ctrl addr ptr len d hupc hsub he, fun ha hs hm => ?_⟩
  obtain ⟨a₀, a₁, a₂, t, hexec, ⟨hok, hmem, done⟩ | ⟨hok, c, v, n, received, hleft, done⟩⟩ :=
    ldSequentialRead_completes ha hs
  · exact ⟨a₀, a₁, a₂, false, fun _ => 0x00#8, 0, t, hexec, fun _ => ⟨rfl, memRead_congr hmem, done⟩,
      fun h => Bool.noConfusion (hok.symm.trans h)⟩
  · refine ⟨a₀, a₁, a₂, c, v, n, t, hexec, fun h => Bool.noConfusion (hok.symm.trans h), fun _ => ?_⟩
    refine ⟨received.pos, received.le, received.full, received.bcol, hleft, ?_, fun a => ?_⟩
    · rw [receivedTrace, ← List.append_assoc] at done
      exact done
    · exact (received.filled hm).reads a.toNat

/-! The acknowledge sequences of a sequential read (R265). -/

/-- Between the bytes of a sequential read there are acknowledges only, one fewer than bytes, and it ends in a byte. -/
theorem sequentialTrace_acks (v : Nat → BitVec 8) (n i : Nat) :
    (sequentialTrace v (n + 1) i).count (.Ak false) = n ∧ (sequentialTrace v (n + 1) i).count (.Ak true) = 0 ∧
      ∃ pre x, sequentialTrace v (n + 1) i = pre ++ [.Rx x] := by
  induction n generalizing i with
  | zero => exact ⟨rfl, rfl, [], v i, rfl⟩
  | succ n ih =>
    obtain ⟨hack, hnack, pre, x, hends⟩ := ih (i + 1)
    refine ⟨?_, ?_, [.Rx (v i), .Ak false] ++ pre, x, ?_⟩
    · simp [sequentialTrace, hack]
    · simp [sequentialTrace, hnack]
    · rw [sequentialTrace, hends, List.append_assoc]

theorem count_ak_txTrace (l : List (BitVec 8 × Bool)) (d : Bool) : (txTrace l).count (.Ak d) = 0 := by
  induction l with
  | nil => rfl
  | cons x l ih =>
    obtain ⟨b, a⟩ := x
    cases a with
    | false => simpa [txTrace] using ih
    | true => simp [txTrace]

/-- Settles O49: a sequential read that succeeds has received all its bytes, the last before the not-acknowledge. -/
theorem sequentialReadAcknowledges : Obligations.SequentialReadAcknowledges := by
  unfold Obligations.SequentialReadAcknowledges
  intro ctrl addr ptr len s ha hs
  obtain ⟨a₀, a₁, a₂, t, hexec, ⟨-, -, htrace, hres, -⟩ | ⟨-, c, v, n, received, -, htrace, hres, -⟩⟩ :=
    ldSequentialRead_completes ha hs
  · exact ⟨t, _, hexec, htrace, fun h => by rw [hres] at h; cases h⟩
  refine ⟨t, _, hexec, htrace, fun h => ?_⟩
  rw [hres] at h
  cases c with
  | true => cases h
  | false =>
    have hlen := received.full rfl
    obtain ⟨n, rfl⟩ := Nat.exists_eq_add_of_le' received.pos
    obtain ⟨hack, hnack, pre, x, hends⟩ := sequentialTrace_acks v n 0
    refine ⟨?_, ?_, [.S] ++ txTrace [(ctrl, a₀), (addr, a₁)] ++ [.Sr, .Tx (ctrlRead ctrl) false] ++ pre, x, ?_⟩
    · simp [receivedTrace, count_ak_txTrace, hack, ← hlen]
    · simp [receivedTrace, count_ak_txTrace, hnack]
    · simp [receivedTrace, hends]

end Sys2Proof.Machine
end

section
/-! The faults of the host port and of acceptance (spec/60_exceptions.md R289 to R292; spec/30_encoding.md R114, R115).
Settles O14, O19, O20 and O21. -/

namespace Sys2Proof.Machine

variable {s : State}

/-! A write to an index that takes none (R292). -/

theorem hostWrite_badPort {idx : BitVec 3} (h0 : idx ≠ 0#3) (h1 : idx ≠ 1#3) (h4 : idx ≠ 4#3) (hr : s.rst = false)
    (hf : s.seq.fatal = false) (hb : s.seq.busy = false) (v : BitVec 64) :
    hostWrite idx v s = .next (raiseFatal .badPort s) := by
  simp [hostWrite, h0, h1, h4, hr, hf, hb]

/-- Settles O14: none of the five indices is that of `CTRL`, `STAT` or `CMD`, and the checks of R293 before `BadPort`
pass. -/
theorem badPort : Obligations.BadPort := by
  unfold Obligations.BadPort
  intro idx v s hidx hr hf hb
  have h0 : idx ≠ 0#3 := by rintro rfl; revert hidx; decide
  have h1 : idx ≠ 1#3 := by rintro rfl; revert hidx; decide
  have h4 : idx ≠ 4#3 := by rintro rfl; revert hidx; decide
  exact ⟨_, hostWrite_badPort h0 h1 h4 hr hf hb v, rfl, rfl⟩

/-! The buffer range of a burst (R289). -/

section burst

variable {i : Instr} {ptr len : BitVec 16} (hrange : burstRange i = some (ptr, len))
include hrange

theorem bufferOk_of_burstRange (s : State) : bufferOk i s = rangeAdmitted s.cfg.bufValid ptr len := by
  simp [bufferOk, hrange]

/-- The range is among the operand checks of each of the four bursts (R290). -/
theorem rangeOk_of_wellFormed (hw : i.wellFormed = true) : rangeOk ptr len = true := by
  cases i with
  | writeBytes | readBytes => cases hrange; exact hw
  | ldPageWrite => cases hrange; exact Bool.and_elim_right hw
  | ldSequentialRead => cases hrange; exact Bool.and_elim_right (Bool.and_elim_left hw)
  | _ => cases hrange

theorem not_wellFormed_of_range_too_long (h : 65536 < ptr.toNat + len.toNat) : i.wellFormed = false :=
  Bool.eq_false_iff.2 fun hw => absurd (rangeOk_iff.1 (rangeOk_of_wellFormed hrange hw)) (by omega)

end burst

theorem rangeAdmitted_eq_false {ranges : List (Nat × Nat)} {ptr len : BitVec 16} {k : Nat} (hk : k < len.toNat)
    (h : admitted ranges (ptr.toNat + k) = false) : rangeAdmitted ranges ptr len = false :=
  List.all_eq_false.2 ⟨k, List.mem_range.2 hk, by simp [h]⟩

/-- Settles O19: a range too long is an operand out of order, and an address not admitted fails the check of the whole
range; there is none when `LEN = 0`. -/
theorem bufferRangeChecked : Obligations.BufferRangeChecked := by
  unfold Obligations.BufferRangeChecked
  intro i ptr len s hl hm hrange
  refine ⟨fun h => ?_, fun hw ⟨k, hk, h⟩ => ?_, fun hlen => ?_⟩
  · exact exec_illFormed hl hm (not_wellFormed_of_range_too_long hrange h)
  · refine exec_buffer_refused hl hm hw ?_
    rw [bufferOk_of_burstRange hrange, rangeAdmitted_eq_false hk h]
  · rw [bufferOk_of_burstRange hrange, hlen]
    rfl

/-! Operand values (R290). -/

/-- A field is refused when it is empty or reaches below bit 0 (R115). -/
theorem fieldOk_eq_false_iff {bitStart : BitVec 3} {length : BitVec 4} :
    fieldOk bitStart length = false ↔ length.toNat = 0 ∨ bitStart.toNat + 1 < length.toNat := by
  simp [fieldOk]
  omega

theorem ctrlOk_eq_false_iff {ctrl : BitVec 8} : ctrlOk ctrl = false ↔ ctrl.getLsbD 0 = true := by
  simp [ctrlOk]

/-- Settles O20: each of the values makes its command ill-formed. -/
theorem operandValuesRefused : Obligations.OperandValuesRefused := by
  unfold Obligations.OperandValuesRefused
  intro s hl hm
  refine ⟨fun dev reg bitStart length value h => ?_, fun ctrl addr data ptr len h => ?_, fun ctrl addr ptr => ?_⟩
  · have hfield := fieldOk_eq_false_iff.2 h
    exact ⟨exec_illFormed hl hm hfield, exec_illFormed hl hm hfield⟩
  · have hctrl := ctrlOk_eq_false_iff.2 h
    refine ⟨exec_illFormed hl hm hctrl, exec_illFormed hl hm hctrl, exec_illFormed hl hm ?_,
      exec_illFormed hl hm ?_⟩
    · simp [Instr.wellFormed, hctrl]
    · simp [Instr.wellFormed, hctrl]
  · exact exec_illFormed hl hm (by simp [Instr.wellFormed])

/-! The legality table (R291). -/

/-- Settles O21: outside its row the legality table refuses each command. -/
theorem sequenceFaults : Obligations.SequenceFaults := by
  unfold Obligations.SequenceFaults
  intro s hl hm
  refine ⟨fun h => ?start, fun h => ?restart, fun h => ?stop, fun b h => ?writeByte, fun h => ?readByte,
    fun h => ⟨?sendAck, ?sendNotAck⟩, fun i hi hw hb h => ?composite⟩
  case start => exact exec_sequence_refused hl hm rfl rfl (by simpa [preOk] using h)
  case stop => exact exec_sequence_refused hl hm rfl rfl (by simp [preOk, h])
  case restart | writeByte | sendAck | sendNotAck =>
    exact exec_sequence_refused hl hm rfl rfl (by rcases h with h | h <;> simp [preOk, h])
  case readByte => exact exec_sequence_refused hl hm rfl rfl (by rcases h with h | h | h | h <;> simp [preOk, h])
  case composite => exact exec_sequence_refused hl hm hw hb (by simpa [preOk_composite hi] using h)

end Sys2Proof.Machine
end

section
/-! The latched fault (spec/60_exceptions.md R285, R287): the block runs as if it were not there, only host writes
raise it, and only reset clears it. Settles O15 and O16. -/

namespace Sys2Proof.Machine

/-! No tick of a running command looks at `FATAL` or `FCODE` (R287). -/

/-- `s` with other values latched in `FATAL` and `FCODE`. -/
def withFault (f : Bool) (c : FatalCode) (s : State) : State := { s with seq := { s.seq with fatal := f, fcode := c } }

section ticks

variable (f : Bool) (c : FatalCode) (s : State)

@[simp] theorem withFault_eng : (withFault f c s).eng = s.eng := rfl

theorem withFault_ite {p : Prop} [Decidable p] (t u : State) :
    withFault f c (if p then t else u) = if p then withFault f c t else withFault f c u :=
  apply_ite (withFault f c) p t u

/-! The engine: none of its phases reads the sequencer. -/

theorem withFault_phaseGenStart (d : Drive) :
    withFault f c (phaseGenStart d s) = phaseGenStart d (withFault f c s) := by
  simp only [phaseGenStart, withFault_eng]
  cases s.eng.phase with
  | s1 => exact withFault_ite f c _ _
  | _ => rfl

theorem withFault_phaseGenRestart (d : Drive) :
    withFault f c (phaseGenRestart d s) = phaseGenRestart d (withFault f c s) := by
  simp only [phaseGenRestart, releaseScl_eq, withFault_eng]
  cases s.eng.phase <;> rfl

theorem withFault_phaseGenStop (d : Drive) :
    withFault f c (phaseGenStop d s) = phaseGenStop d (withFault f c s) := by
  simp only [phaseGenStop, releaseScl_eq, withFault_eng]
  cases s.eng.phase <;> rfl

theorem withFault_phaseTransmit (d : Drive) :
    withFault f c (phaseTransmit d s) = phaseTransmit d (withFault f c s) := by
  simp only [phaseTransmit, releaseScl_eq, withFault_eng]
  cases s.eng.phase <;> rfl

theorem withFault_phaseReceive (d : Drive) :
    withFault f c (phaseReceive d s) = phaseReceive d (withFault f c s) := by
  simp only [phaseReceive, releaseScl_eq, withFault_eng]
  cases s.eng.phase with
  | v8 => cases h : s.stat.rbf <;> simp [withFault, h] <;> rfl
  | _ => rfl

theorem withFault_phaseAckSeq (d : Drive) :
    withFault f c (phaseAckSeq d s) = phaseAckSeq d (withFault f c s) := by
  simp only [phaseAckSeq, releaseScl_eq, withFault_eng]
  cases s.eng.phase <;> rfl

theorem withFault_enginePhase (d : Drive) :
    withFault f c (enginePhase d s) = enginePhase d (withFault f c s) := by
  simp only [enginePhase, withFault_ite, withFault_eng]
  cases s.eng.eop with
  | none => rfl
  | genStart => rw [withFault_phaseGenStart]; rfl
  | genRestart => rw [withFault_phaseGenRestart]; rfl
  | genStop => rw [withFault_phaseGenStop]; rfl
  | transmit => rw [withFault_phaseTransmit]; rfl
  | receive => rw [withFault_phaseReceive]; rfl
  | ackSeq => rw [withFault_phaseAckSeq]; rfl

/-! The sequencer: its actions move the position and write registers beside the two fields. -/

theorem withFault_goNext (n : Nat) : withFault f c (goNext n s) = goNext n (withFault f c s) := by
  simp only [goNext_eq]; rfl

theorem withFault_loadTxb (b : BitVec 8) : withFault f c (loadTxb b s) = loadTxb b (withFault f c s) :=
  withFault_ite f c _ _

theorem withFault_loadByte (ptr : BitVec 16) : withFault f c (loadByte ptr s) = loadByte ptr (withFault f c s) :=
  withFault_ite f c _ _

theorem withFault_storeByte (ptr : BitVec 16) : withFault f c (storeByte ptr s) = storeByte ptr (withFault f c s) :=
  withFault_ite f c _ _

theorem withFault_storeIf (late : Bool) (ptr : BitVec 16) :
    withFault f c (storeIf late ptr s) = storeIf late ptr (withFault f c s) := by
  simp only [storeIf, ← withFault_storeByte]; rfl

theorem withFault_actLoad (n : Nat) (b : ByteSrc) (fail : Pos) :
    withFault f c (actLoad n b fail s) = actLoad n b fail (withFault f c s) := by
  have hb : srcByte b (withFault f c s) = srcByte b s := by cases b <;> rfl
  simp only [actLoad, hb, ← withFault_loadTxb, ← withFault_goNext, withFault_ite]; rfl

theorem withFault_runAct (a : Act) (n : Nat) :
    withFault f c (runAct a n s) = runAct a n (withFault f c s) := by
  cases a with
  | setSen | setRsen | setPen | setRcen | setAck _ | countByte => exact withFault_goNext f c _ n
  | load b fail => exact withFault_actLoad f c s n b fail
  | readBuf ptr => simp only [runAct, withFault_goNext, withFault_loadByte]
  | writeBuf ptr => simp only [runAct, withFault_goNext, withFault_storeByte]
  | storeIf late ptr => simp only [runAct, withFault_goNext, withFault_storeIf]
  | _ =>
    simp only [runAct, actWIdle, actHoldPen, actHoldTx, actHoldRcen, actDataFromAckstat,
      withFault_ite, withFault_goNext]
    rfl

theorem withFault_tick (prog : List Step) (d : Drive) :
    withFault f c (tick prog d s) = tick prog d (withFault f c s) := by
  have hact : actAt prog (withFault f c s) = actAt prog s := rfl
  simp only [tick, withFault_ite, withFault_enginePhase, withFault_eng, seqTick, hact]
  cases actAt prog s with
  | none => rfl
  | some x => simp only [withFault_runAct]

/-- A run of a command is the same whatever fault is latched (R287). -/
theorem withFault_runTicks (prog : List Step) (ins : List Input) :
    withFault f c (runTicks prog ins s) = runTicks prog ins (withFault f c s) := by
  induction ins generalizing s with
  | nil => rfl
  | cons x ins ih =>
    cases x with
    | drive d =>
      cases hb : s.seq.busy with
      | false => rw [runTicks_idle hb, runTicks_idle (s := withFault f c s) hb]; rfl
      | true => rw [runTicks_drive hb, runTicks_drive (s := withFault f c s) hb, ih, withFault_tick]
    | _ => rfl

end ticks

/-! What keeps the two fields (R285). -/

/-- The same fault is latched in `t` as in `s`, or none in both. -/
def SameFault (s t : State) : Prop := t.seq.fatal = s.seq.fatal ∧ t.seq.fcode = s.seq.fcode

variable {s t : State}

/-- A run raises no fault and clears none: it is the run with the fault of its start latched. -/
theorem sameFault_runTicks (prog : List Step) (ins : List Input) (s : State) : SameFault s (runTicks prog ins s) := by
  have h := withFault_runTicks s.seq.fatal s.seq.fcode s prog ins
  have hs : withFault s.seq.fatal s.seq.fcode s = s := rfl
  rw [hs] at h
  rw [← h]
  exact ⟨rfl, rfl⟩

theorem sameFault_resume {ins : List Input} (h : resume ins s = .next t) : SameFault s t := by
  unfold resume at h
  split at h
  · cases h
  split at h
  · cases h; exact sameFault_runTicks _ ins s
  · cases h

/-- Only a host write raises a fault, and only reset clears one (R285). -/
theorem sameFault_step (h : step s = .next t) (hw : ∀ idx v rest, s.inputs ≠ .hostWrite idx v :: rest)
    (hr : ∀ rest, s.inputs ≠ .rst :: rest) : SameFault s t := by
  cases step_next h with
  | still => exact ⟨rfl, rfl⟩
  | run _ _ d rest h => exact sameFault_resume h
  | runFree _ _ h => exact sameFault_resume (s := drawn s) h
  | hostWrite idx v rest hin => exact absurd hin (hw idx v rest)
  | hostRead idx rest => rw [hostRead_eq]; exact ⟨rfl, rfl⟩
  | bufWrite a v rest => rw [hostBufWrite_eq]; exact ⟨rfl, rfl⟩
  | bufRead a rest => rw [hostBufRead_eq]; exact ⟨rfl, rfl⟩
  | reset rest hin => exact absurd hin (hr rest)
  | release => exact ⟨rfl, rfl⟩

/-! The host port with a fault latched (R285), and while a command runs (R287). -/

theorem hostWrite_of_fatal (ht : s.cfg.timeout = none) (hf : s.seq.fatal = true) (idx : BitVec 3) (v : BitVec 64) :
    hostWrite idx v s = .next s := by
  by_cases h4 : idx = 4#3
  · obtain ⟨go, hgo⟩ := hostWrite_eq_gate v s
    rw [h4, hgo, gate_of_fatal go ht hf]
  · simp [hostWrite, h4, hf]

theorem hostWrite_of_busy (ht : s.cfg.timeout = none) (hr : s.rst = false) (hb : s.seq.busy = true)
    (hf : s.seq.fatal = false) (idx : BitVec 3) (v : BitVec 64) :
    hostWrite idx v s = .next (raiseFatal .reentry s) := by
  by_cases h4 : idx = 4#3
  · obtain ⟨go, hgo⟩ := hostWrite_eq_gate v s
    rw [h4, hgo, gate_of_busy go ht hr hf hb]
  · simp [hostWrite, h4, hr, hb, hf]

/-- The host reads every register as without the fault, but the two fields in `SEQSTAT` (R43). -/
theorem hostRead_raiseFatal (hr : s.rst = false) (idx : BitVec 3) (c : FatalCode) :
    (hostRead idx (raiseFatal c s)).hpRdata =
      if idx = 6#3 then (seqstatWord { s.seq with fatal := true, fcode := c }).setWidth 64
      else (hostRead idx s).hpRdata := by
  have hr' : (raiseFatal c s).rst = false := hr
  split
  · next h => rw [h, rdata_seqstat hr']; rfl
  · next h =>
    simp only [hostRead, hr, hr', h, if_false]
    repeat' split
    all_goals rfl

theorem timeout_of_step_next (h : step s = .next t) : s.cfg.timeout = none := by
  by_contra ht
  cases (stepInput_of_timeout ht).symm.trans h

/-- A latched fault stays: a host write is ignored, and no other step but reset touches it (R285). -/
theorem fault_kept (hf : s.seq.fatal = true) (hr : ∀ rest, s.inputs ≠ .rst :: rest) (h : step s = .next t) :
    SameFault s t := by
  by_cases hw : ∃ idx v rest, s.inputs = .hostWrite idx v :: rest
  · obtain ⟨idx, v, rest, hin⟩ := hw
    have ht := timeout_of_step_next h
    rw [step_hostWrite ht hin, hostWrite_of_fatal (s := withInputs rest s) ht hf] at h
    cases h
    exact ⟨rfl, rfl⟩
  · exact sameFault_step h (fun idx v rest hin => hw ⟨idx, v, rest, hin⟩) hr

/-- A step that takes no host write raises no fault; reset clears the fields (R285, R63). -/
theorem no_fault_raised (hf : s.seq.fatal = false) (hw : ∀ idx v rest, s.inputs ≠ .hostWrite idx v :: rest)
    (h : step s = .next t) : t.seq.fatal = false := by
  by_cases hr : ∃ rest, s.inputs = .rst :: rest
  · obtain ⟨rest, hin⟩ := hr
    rw [step_rst (timeout_of_step_next h) hin] at h
    cases h
    rfl
  · exact (sameFault_step h hw fun rest hin => hr ⟨rest, hin⟩).1.trans hf

/-- Settles O15: the port ignores writes and still answers reads, and a step other than reset or a host write keeps the
two fields. -/
theorem fatalIsLatched : Obligations.FatalIsLatched := by
  unfold Obligations.FatalIsLatched
  refine ⟨fun _ _ => rfl, fun idx v _ ht hf => hostWrite_of_fatal ht hf idx v,
    fun idx c _ hr => hostRead_raiseFatal hr idx c, fun s t hf hr h => ?_, fun _ _ hf hw h => no_fault_raised hf hw h⟩
  obtain ⟨hfatal, hfcode⟩ := fault_kept hf hr h
  exact ⟨hfatal.trans hf, hfcode⟩

/-- Settles O16: the write latches its fault, and no tick looks at what is latched. -/
theorem reentryDisturbsNothing : Obligations.ReentryDisturbsNothing := by
  unfold Obligations.ReentryDisturbsNothing
  exact ⟨fun idx v _ ht hr hb hf => hostWrite_of_busy ht hr hb hf idx v,
    fun prog ins s => (withFault_runTicks true .reentry s prog ins).symm⟩

end Sys2Proof.Machine
end

section
/-! A wait the environment never ends (spec/60_exceptions.md R299). Settles O29. -/

namespace Sys2Proof.Machine

variable {s : State}

theorem tick_engine (prog : List Step) {d : Drive} (h : s.eng.eop ≠ .none) : tick prog d s = enginePhase d s :=
  if_neg h

/-- A run whose every tick leaves the state as it is takes its drives and changes nothing. -/
theorem runTicks_fixed {prog : List Step} {ds : List Drive} (hb : s.seq.busy = true)
    (h : ∀ d ∈ ds, tick prog d s = s) : runTicks prog (ds.map .drive) s = withInputs [] s := by
  induction ds with
  | nil => rfl
  | cons d ds ih =>
    rw [List.map_cons, runTicks_drive hb, h d List.mem_cons_self]
    exact ih fun d' hd' => h d' (List.mem_cons_of_mem d hd')

/-- At a phase that waits for SCL the block is in an engine operation. -/
theorem phaseOp_of_sclWait {p q : Phase} (h : (p, q) ∈ sclWaits) : phaseOp p ≠ .none := by
  revert h
  cases p <;> simp [sclWaits, phaseOp]

section waits

variable (hm : s.ctrl.moden = true) (he : s.eng.eop = phaseOp s.eng.phase) {d : Drive}
include hm he

/-- While SCL is held low a phase that waits for it does no more than release it (R146). -/
theorem tick_sclHeld (prog : List Step) {q : Phase} (hq : (s.eng.phase, q) ∈ sclWaits) (hd : d.sclLow = true) :
    tick prog d s = setScl false s := by
  rw [tick_engine prog (he ▸ phaseOp_of_sclWait hq), enginePhase_sclWait hq hm rfl he, releaseScl_eq, if_pos hd]
  rfl

/-- While either line is held low a START waits for a free bus (R150). -/
theorem tick_busHeld (prog : List Step) (hp : s.eng.phase = .s1) (hd : d.sdaLow = true ∨ d.sclLow = true) :
    tick prog d s = s := by
  have hop : s.eng.eop = .genStart := by rw [he, hp]; rfl
  have hbus : (sclIn s.eng d && sdaIn s.eng d) = false := by
    rcases hd with hd | hd <;> simp [sclIn, sdaIn, hd]
  rw [tick_engine prog (by simp [hop])]
  simp [enginePhase, hm, hop, phaseGenStart, hp, hbus]

end waits

/-- Settles O29: the first tick of a wait for SCL releases the line, and every other tick of a wait changes nothing. -/
theorem endlessWait : Obligations.EndlessWait := by
  unfold Obligations.EndlessWait
  intro prog ds s hb hm he
  refine ⟨fun q hq hds hne => ?_, fun hp hds => ?_⟩
  · obtain ⟨d, ds, rfl⟩ := List.exists_cons_of_ne_nil hne
    rw [List.map_cons, runTicks_drive hb, tick_sclHeld hm he prog hq (hds d List.mem_cons_self)]
    exact runTicks_fixed (s := setScl false s) hb fun d' hd' =>
      tick_sclHeld (s := setScl false s) hm he prog hq (hds d' (List.mem_cons_of_mem d hd'))
  · exact runTicks_fixed hb fun d hd => tick_busHeld hm he prog hp (hds d hd)

end Sys2Proof.Machine
end

section
/-! The block stands still after a fatal fault (spec/70_reset_and_hazards.md R332). Settles O17. -/

namespace Sys2Proof.Machine

variable {s t : State}

/-- With a fault latched and no command running, no step but reset changes any piece of state of the block: the port
ignores host writes (R285), and the engine and the sequencer move only while a command runs (R311). -/
theorem sameBlock_of_fatal (hf : s.seq.fatal = true) (hb : s.seq.busy = false) (hr : ∀ rest, s.inputs ≠ .rst :: rest)
    (h : step s = .next t) : sameBlock s t := by
  cases step_next h with
  | still ins => simp [sameBlock, withInputs]
  | run hb' => simp [hb] at hb'
  | runFree hb' => simp [hb] at hb'
  | hostWrite idx v rest _ hw =>
    have ht := timeout_of_step_next h
    rw [hostWrite_of_fatal (s := withInputs rest s) ht hf] at hw
    cases hw
    simp [sameBlock, withInputs]
  | hostRead idx rest => rw [hostRead_eq]; simp [sameBlock, withInputs]
  | bufWrite a v rest => rw [hostBufWrite_eq]; simp [sameBlock, withInputs]
  | bufRead a rest => rw [hostBufRead_eq]; simp [sameBlock, withInputs]
  | reset rest hin => exact absurd hin (hr rest)
  | release rest => simp [sameBlock, withInputs]

/-- Settles O17: the bus is part of the block, which stands still. -/
theorem fatalHoldsTheBus : Obligations.FatalHoldsTheBus := by
  unfold Obligations.FatalHoldsTheBus
  intro s t hf hb hr h
  obtain ⟨hctrl, hstat, -, -, hres, hseq, heng, htrace, -, -⟩ := sameBlock_of_fatal hf hb hr h
  exact ⟨heng, hseq, htrace, hctrl, hstat, hres⟩

end Sys2Proof.Machine
end

section
/-! Every step keeps the canonical form of the buffer memory (spec/20_memory.md R72 to R74; the form is log entry 5's).
Settles O57. -/

namespace Sys2Proof.Machine

variable {s t : State}

/-- An action stores one byte or leaves the memory as it is, and a store keeps the form. -/
theorem memWf_runAct (h : memWf s.mem = true) (a : Act) (n : Nat) : memWf (runAct a n s).mem = true := by
  cases a with
  | writeBuf ptr => simpa [runAct] using memWf_storeByte ptr h
  | storeIf late ptr => simpa [runAct] using memWf_storeIf late ptr h
  | _ => rwa [runAct_mem rfl]

theorem memWf_tick (h : memWf s.mem = true) (prog : List Step) (d : Drive) : memWf (tick prog d s).mem = true := by
  unfold tick seqTick
  split
  · split
    · exact h
    · exact memWf_runAct h _ _
  · rwa [enginePhase_mem]

theorem memWf_runTicks (h : memWf s.mem = true) (prog : List Step) (ins : List Input) :
    memWf (runTicks prog ins s).mem = true := by
  induction ins generalizing s with
  | nil => exact h
  | cons i ins ih =>
    cases i with
    | drive d =>
      cases hb : s.seq.busy with
      | false => rw [runTicks_idle hb]; exact h
      | true => rw [runTicks_drive hb]; exact ih (memWf_tick h prog d)
    | _ => exact h

theorem memWf_resume {ins : List Input} (h : memWf s.mem = true) (hr : resume ins s = .next t) :
    memWf t.mem = true := by
  unfold resume at hr
  split at hr
  · cases hr
  split at hr
  · cases hr; exact memWf_runTicks h _ ins
  · cases hr

theorem memWf_exec {i : Instr} (h : memWf s.mem = true) (he : exec i s = .next t) : memWf t.mem = true := by
  rcases exec_next he with rfl | ⟨-, c, rfl⟩ | ⟨-, rfl⟩
  · exact h
  · exact h
  · exact memWf_runTicks (s := acceptCommand (encode i) s) h _ _

theorem memWf_writeCmd {w : CmdWord} (h : memWf s.mem = true) (hw : writeCmd w s = .next t) :
    memWf t.mem = true := by
  unfold writeCmd at hw
  split at hw
  · exact memWf_exec h hw
  · rcases gate_next hw with rfl | ⟨-, c, rfl⟩ | ⟨-, -, hf⟩
    · exact h
    · exact h
    · cases hf; exact h

theorem writeCtrl_mem (v : BitVec 64) (s : State) : (writeCtrl v s).mem = s.mem := by
  unfold writeCtrl
  split <;> rfl

/-- Of the host's writes to the port only a command, by what it stores, reaches the memory (R73). -/
theorem hostWrite_mem {idx : BitVec 3} {v : BitVec 64} (h4 : idx ≠ 4#3) (hw : hostWrite idx v s = .next t) :
    t.mem = s.mem := by
  unfold hostWrite at hw
  rw [if_neg h4] at hw
  split_ifs at hw <;> cases hw
  all_goals simp [writeCtrl_mem, writeStat]

theorem memWf_hostWrite {idx : BitVec 3} {v : BitVec 64} (h : memWf s.mem = true)
    (hw : hostWrite idx v s = .next t) : memWf t.mem = true := by
  by_cases h4 : idx = 4#3
  · subst h4; exact memWf_writeCmd h hw
  · rwa [hostWrite_mem h4 hw]

/-- Settles O57: a step runs ticks, writes the port, is the host's own store, or leaves the memory as it is. -/
theorem memoryFormKept : Obligations.MemoryFormKept := by
  unfold Obligations.MemoryFormKept
  intro s t h hs
  cases step_next hs with
  | still => exact h
  | run _ _ d rest hr => exact memWf_resume h hr
  | runFree _ _ hr => exact memWf_resume (s := drawn s) h hr
  | hostWrite idx v rest _ hw => exact memWf_hostWrite (s := withInputs rest s) h hw
  | hostRead idx rest => rw [hostRead_eq]; exact h
  | bufWrite a v rest => exact memWf_hostBufWrite a v (s := withInputs rest s) h
  | bufRead a rest => rw [hostBufRead_eq]; exact h
  | reset rest => exact h
  | release => exact h

end Sys2Proof.Machine
end
